-- ==== Sys2Proof/Word.lean ====
section
/-! DEFINITION. The two word types of the interfaces (20_memory.md R46, 30_encoding.md R60) and the
channel number an `AUX` field can hold (30_encoding.md R61). Nothing that a test could show wrong
stands here: fields, arithmetic and byte order are in Decode.lean and under Machine/. -/

namespace Sys2Proof

/-- One 32-bit word: a command header, a payload, a register, or one value of `NUM.F`, which every
interface carries in one such word (20_memory.md R42, R48, 30_encoding.md R62; log 32). -/
abbrev Word := BitVec 32

/-- One byte of a byte-wide medium (20_memory.md R46). -/
abbrev Byte := BitVec 8

/-- A channel number as the 4-bit field `AUX` carries it (30_encoding.md R61, R64). Which numbers
name a channel of the machine depends on `NCH`. -/
abbrev Chan := Fin 16

end Sys2Proof
end

