-- ==== Sys2Proof/Syntax.lean ====
section
/-! DEFINITION. The instructions: one constructor for every row of the opcode table
(30_encoding.md R63, R64). Operands carry what the fields mean, never raw encodings. -/

namespace Sys2Proof

/-- A stream id (00_scope.md R7): 0 main, 1 sidechain. -/
inductive Stream where
  | main
  | side
  deriving DecidableEq, Repr

/-- A band id (00_scope.md R7, 30_encoding.md R62): 1 or 2. -/
inductive Band where
  | one
  | two
  deriving DecidableEq, Repr

/-- The ten host command patterns of 30_encoding.md R63 and the twenty-six sequencer
micro-operations of R64. -/
inductive Instr where
  -- host commands
  | nop
  | prepare (sr : Word) (maxBlk : BitVec 16)
  | release
  | setpCut1 (v : Word)
  | setpCut2 (v : Word)
  | setpBlen (v : Word)
  | setpXmode (v : Word)
  | setpMix1 (v : Word)
  | setpMix2 (v : Word)
  | process (nsamp : BitVec 16) (scActive : Bool) (scNch : BitVec 4)
  -- Frame Accumulator
  | accWrite (st : Stream) (c : Chan)
  | accReady
  | accFrame (st : Stream) (c : Chan)
  | accConsume
  -- configuration snapshot
  | snap
  -- Spectral Analyzer
  | anWindow (st : Stream) (c : Chan)
  | anRfft (st : Stream) (c : Chan)
  | anPolar (st : Stream) (c : Chan)
  | analyze (st : Stream) (c : Chan)
  -- Band Exchanger
  | bxBin (b : Band)
  | bxHalfw (b : Band)
  | bxInterval (b : Band)
  | bxMixp (b : Band) (c : Chan)
  | bxMixf (c : Chan)
  | exchange (c : Chan)
  -- Spectral Synthesizer
  | syRect (c : Chan)
  | sySymm (c : Chan)
  | syIrfft (c : Chan)
  | syNormwin (c : Chan)
  | syOla (c : Chan)
  | synthesize (c : Chan)
  | syAdv
  -- Stream Driver
  | drvEmit
  | drvBypass
  | drvCycle
  | drvBeat
  deriving DecidableEq, Repr

end Sys2Proof
end

