-- ==== Sys2Proof/Config.lean ====
section
/-! DEFINITION. What an implementation fixes (00_scope.md R5) and the free values the spec leaves
open. A free value is a constant with no body: nothing can evaluate it, so a statement holds
whatever it is. -/

namespace Sys2Proof

/-- The band-width policy `WPOL` (00_scope.md R5, 44_exchanger.md R127). -/
inductive WidthPolicy where
  | ratio
  | absHz
  deriving DecidableEq, Repr

/-- Which ratio updates the sidechain working copy, `SIDEPOL` (00_scope.md R5, 44_exchanger.md R130). -/
inductive SidePolicy where
  | same
  | other
  deriving DecidableEq, Repr

/-- The window table `WIN` (00_scope.md R5, R9): the periodic Hann window, or another table that
replaces it. -/
inductive WindowTable where
  | hann
  | table (values : List Word)
  deriving DecidableEq, Repr

/-- The numerics record `NUM` of 00_scope.md R5, R8: the default instance, IEEE 754 binary32, or another
record that meets the laws of R8 (log 2). -/
inductive NumInstance where
  | binary32
  | other
  deriving DecidableEq, Repr

/-- The instance of `NUM.rfft` and `NUM.irfft` (00_scope.md R8, 93_implementation_defined.md U2): the
record's own functions, bound only by the laws, or the reference datapath of 43_analyzer.md R113
computed with the record's arithmetic. -/
inductive Transform where
  | implementation
  | reference
  deriving DecidableEq, Repr

/-- The construction parameters of 00_scope.md R5. No instruction changes them; State carries them so
that a statement about every state is a statement about every construction (log 1). -/
structure Cfg where
  logn : Nat
  hopHalf : Bool
  nch : Nat
  wpol : WidthPolicy
  sidepol : SidePolicy
  window : WindowTable
  num : NumInstance
  transform : Transform
  deriving DecidableEq, Repr

/-- The transform size `N = 2^LOGN`. -/
def Cfg.n (g : Cfg) : Nat := 2 ^ g.logn

/-- The number of bins `NB = N/2 + 1`. -/
def Cfg.nb (g : Cfg) : Nat := g.n / 2 + 1

/-- The hop size: `N`, or `N/2` when `HOPHALF = 1`. -/
def Cfg.hop (g : Cfg) : Nat := if g.hopHalf then g.n / 2 else g.n

/-- The overlap-add length `L = 2*N`. -/
def Cfg.len (g : Cfg) : Nat := 2 * g.n

/-- The channels `0..NCH-1` in ascending order (00_scope.md R7). -/
def Cfg.channels (g : Cfg) : List Chan := (List.finRange 16).filter (fun c => c.val < g.nch)

/-- The legal constructions of 00_scope.md R5: `LOGN` in 2..12, `NCH` in 1..15, and a replaced window
has `N` entries. -/
def Cfg.legal (g : Cfg) : Bool :=
  decide (2 ≤ g.logn) && decide (g.logn ≤ 12) && decide (1 ≤ g.nch) && decide (g.nch ≤ 15) &&
    match g.window with
    | .hann => true
    | .table values => decide (values.length = g.n)

/-- The default construction of 00_scope.md R5. -/
def Cfg.standard : Cfg :=
  { logn := 11, hopHalf := false, nch := 2, wpol := .ratio, sidepol := .same
    window := .hann, num := .binary32, transform := .implementation }

/-- The operation a NaN result comes from. -/
inductive NanSource where
  | add
  | sub
  | mul
  | div
  | sqrt
  deriving DecidableEq, Repr

/-- FREE VALUE. The element of an internal memory, by its address, after hardware reset and before
the first `PREPARE` or `RELEASE` (93_implementation_defined.md U3, log 10). -/
opaque Config.powerOnElement : Nat → Word

/-- FREE VALUE. The bits of a NaN result (93_implementation_defined.md U10, log 3). -/
opaque Config.nanBits : NanSource → Word → Word → Word

/-- FREE VALUE. `NUM.cos` away from zero (00_scope.md R8, log 4). -/
opaque Config.cosValue : Word → Word

/-- FREE VALUE. `NUM.sin` away from zero, and the sign of `sin(-0)` (00_scope.md R8, log 4). -/
opaque Config.sinValue : Word → Word

/-- FREE VALUE. `NUM.atan2` where law N-ATAN of 00_scope.md R8 and 43_analyzer.md R114 give only the
range (log 4), and the sign of a zero they leave open (log 28). -/
opaque Config.atan2Value : Word → Word → Word

/-- FREE VALUE. The bins of binary32's own forward transform (93_implementation_defined.md U2, log 6). -/
opaque Config.rfftBin : List Word → Nat → Word × Word

/-- FREE VALUE. The samples of binary32's own inverse transform (93_implementation_defined.md U2,
log 6). -/
opaque Config.irfftSample : List (Word × Word) → Nat → Word

/-- FREE VALUE. `min_F` of two values that `NUM.lt` and `NUM.eq` do not relate (log 22). -/
opaque Config.minUnordered : Word → Word → Word

/-- FREE VALUE. The count that `ACC.CONSUME` leaves when the count is below `HOP`, outside its
precondition (42_accumulator.md R103, log 21). -/
opaque Config.consumeBelowHop : Nat → Nat → Nat

/-! ### Non-finite samples -/

/-- Where a frame with a NaN or an infinity leaves a value unspecified (70_reset_and_hazards.md R207,
93_implementation_defined.md U6; 43_analyzer.md R112, 45_synthesizer.md R143). -/
inductive Unspecified where
  | binRe
  | binIm
  | magnitude
  | phase
  | mixMagnitude
  | mixPhase
  | sample
  | frame
  | overlapAdd
  deriving DecidableEq, Repr

/-- FREE VALUE. An element or sample that U6 leaves unspecified, by where it stands, the values it is
computed from, and its index (log 9). -/
opaque Config.unspecified : Unspecified → List Word → Nat → Word

/-! ### The numerics record of another construction -/

/-- The real numbers that the rules turn into values of `NUM.F` by `NUM.ofReal`: the decimal constants
of 10_state.md R12 and 41_config.md R93, `pi` (00_scope.md R7), the window (R9), and the twiddle tables
(43_analyzer.md R113). -/
inductive ExactReal where
  /-- `p / q`. -/
  | ratio (p : Int) (q : Nat)
  /-- `pi`. -/
  | pi
  /-- `0.5 * (1 - cos(2*pi*i/n))`. -/
  | hann (i n : Nat)
  /-- `cos(2*pi*k/n)`. -/
  | cosTurn (k n : Nat)
  /-- `sin(2*pi*k/n)`. -/
  | sinTurn (k n : Nat)
  deriving DecidableEq, Repr

/-- The free functions a numerics record other than binary32 is made from. `place` gives the number that
an element of `NUM.F` stands for, in units of `1/perOne`, none for a NaN; a place above `highest` or more
than `lowest` below zero is an infinity; the other fields are those of 00_scope.md R8. Machine/Numerics.lean makes of
them a record that meets the laws; every record that meets the laws is made of itself (log 2). -/
structure RawNum where
  place : Word → Option Int
  perOne : Nat
  lowest : Nat
  highest : Nat
  ofReal : ExactReal → Word
  ofNat : Nat → Word
  add : Word → Word → Word
  sub : Word → Word → Word
  mul : Word → Word → Word
  div : Word → Word → Word
  sqrt : Word → Word
  cos : Word → Word
  sin : Word → Word
  atan2 : Word → Word → Word
  rfftBin : List Word → Nat → Word × Word
  irfftSample : List (Word × Word) → Nat → Word
  deriving Inhabited

/-- FREE VALUE. The functions of a numerics record other than the default instance (00_scope.md R5, R8,
92_eei_decisions.md D7; log 2). -/
opaque Config.otherNum : RawNum

end Sys2Proof
end

