-- ==== Sys2Proof/WellFormed.lean ====
section
/-! DEFINITION. When an instruction is well-formed. Every operand type already admits only the values
its field can hold, so the one check left is that a channel operand names a channel of the machine:
`c` is `AUX`, `< NCH` (30_encoding.md R64). -/

namespace Sys2Proof

/-- The channel operand of an instruction that has one (30_encoding.md R64). -/
def Instr.channel? : Instr → Option Chan
  | .nop => none
  | .prepare _ _ => none
  | .release => none
  | .setpCut1 _ => none
  | .setpCut2 _ => none
  | .setpBlen _ => none
  | .setpXmode _ => none
  | .setpMix1 _ => none
  | .setpMix2 _ => none
  | .process _ _ _ => none
  | .accWrite _ c => some c
  | .accReady => none
  | .accFrame _ c => some c
  | .accConsume => none
  | .snap => none
  | .anWindow _ c => some c
  | .anRfft _ c => some c
  | .anPolar _ c => some c
  | .analyze _ c => some c
  | .bxBin _ => none
  | .bxHalfw _ => none
  | .bxInterval _ => none
  | .bxMixp _ c => some c
  | .bxMixf c => some c
  | .exchange c => some c
  | .syRect c => some c
  | .sySymm c => some c
  | .syIrfft c => some c
  | .syNormwin c => some c
  | .syOla c => some c
  | .synthesize c => some c
  | .syAdv => none
  | .drvEmit => none
  | .drvBypass => none
  | .drvCycle => none
  | .drvBeat => none

/-- An instruction is well-formed for a machine of `nch` channels when its channel operand, if it has
one, is below `nch` ("`c >= NCH` is never issued", 30_encoding.md R64). -/
def Instr.wellFormed (nch : Nat) (i : Instr) : Bool :=
  match i.channel? with
  | none => true
  | some c => decide (c.val < nch)

end Sys2Proof
end

