-- ==== Sys2Proof/Decode.lean ====
section
/-! DEFINITION. Decoding and encoding (30_encoding.md R60 to R71), the byte order of a byte-wide
medium (20_memory.md R46), and after them the encoder. Two decoders, because the machine has two
places an operation comes from: the command port (R71), where micro-operations are illegal (R65),
and the sequencer's own issue path (R64). Both are total and reject by name. -/

namespace Sys2Proof

/-! ### Header fields (30_encoding.md R61) -/

/-- `OP`, bits 31:24. -/
def opField (w : Word) : BitVec 8 := w.extractLsb' 24 8

/-- `SEL`, bits 23:20. -/
def selField (w : Word) : BitVec 4 := w.extractLsb' 20 4

/-- `AUX`, bits 19:16. -/
def auxField (w : Word) : BitVec 4 := w.extractLsb' 16 4

/-- `IMM`, bits 15:0. -/
def immField (w : Word) : BitVec 16 := w.extractLsb' 0 16

/-- The word with the given fields. -/
def header (op : BitVec 8) (sel aux : BitVec 4) (imm : BitVec 16) : Word := op ++ sel ++ aux ++ imm

/-! ### Byte order (20_memory.md R46) -/

/-- The four bytes of a word, least significant first. -/
def bytesOfWord (w : Word) : List Byte :=
  [w.extractLsb' 0 8, w.extractLsb' 8 8, w.extractLsb' 16 8, w.extractLsb' 24 8]

/-- The bytes of a list of words, in order. -/
def bytesOfWords : List Word → List Byte
  | [] => []
  | w :: ws => bytesOfWord w ++ bytesOfWords ws

/-- The whole words of a list of bytes; one to three bytes left over make no word. -/
def wordsOfBytes : List Byte → List Word
  | b0 :: b1 :: b2 :: b3 :: rest => (b3 ++ b2 ++ b1 ++ b0) :: wordsOfBytes rest
  | _ => []

/-! ### The command port (30_encoding.md R63, R65, R68, R71) -/

/-- Why a word is rejected. -/
inductive Reject where
  /-- `OP` is in the space reserved for future host commands (R65). -/
  | reservedOpcode
  /-- `OP[7] = 1` on the command port (R65). -/
  | microOperation
  /-- A field the format requires to be 0 is not 0 (R65). -/
  | nonzeroField
  /-- `SETP` with a param id above 5 (R65, R66). -/
  | parameterId
  /-- No micro-operation of R64 has this `OP`. -/
  | noSuchMicroOperation
  /-- A band id other than 1 and 2 (R64). -/
  | bandId
  deriving DecidableEq, Repr

/-- What the command decoder finds at the head of the words written to the port. -/
inductive Command where
  /-- No header yet, or a header whose payload word has not come (R47, R68). -/
  | awaiting
  /-- An illegal header: one word consumed, no payload (R65). -/
  | illegal (why : Reject) (rest : List Word)
  /-- A whole command and the words after it. -/
  | taken (i : Instr) (rest : List Word)
  deriving DecidableEq, Repr

/-- `SETP` by its param id (30_encoding.md R66). -/
def setpOf (p : BitVec 4) (v : Word) : Option Instr :=
  if p = 0 then some (.setpCut1 v)
  else if p = 1 then some (.setpCut2 v)
  else if p = 2 then some (.setpBlen v)
  else if p = 3 then some (.setpXmode v)
  else if p = 4 then some (.setpMix1 v)
  else if p = 5 then some (.setpMix2 v)
  else none

/-- The decoding algorithm of 30_encoding.md R71, on the words waiting at the port. -/
def decodeCommand : List Word → Command
  | [] => .awaiting
  | w :: ws =>
    if opField w = 0x00 then
      if selField w = 0 ∧ auxField w = 0 ∧ immField w = 0 then .taken .nop ws
      else .illegal .nonzeroField ws
    else if opField w = 0x01 then
      if selField w = 0 ∧ auxField w = 0 then
        match ws with
        | [] => .awaiting
        | sr :: rest => .taken (.prepare sr (immField w)) rest
      else .illegal .nonzeroField ws
    else if opField w = 0x02 then
      if selField w = 0 ∧ auxField w = 0 ∧ immField w = 0 then .taken .release ws
      else .illegal .nonzeroField ws
    else if opField w = 0x03 then
      if 5 < selField w then .illegal .parameterId ws
      else if auxField w = 0 ∧ immField w = 0 then
        match ws with
        | [] => .awaiting
        | v :: rest =>
          match setpOf (selField w) v with
          | some i => .taken i rest
          | none => .illegal .parameterId ws
      else .illegal .nonzeroField ws
    else if opField w = 0x04 then
      if (auxField w).extractLsb' 1 3 = 0 then
        .taken (.process (immField w) ((auxField w).getLsbD 0) (selField w)) ws
      else .illegal .nonzeroField ws
    else if (opField w).getLsbD 7 then .illegal .microOperation ws
    else .illegal .reservedOpcode ws

/-! ### The sequencer's micro-operations (30_encoding.md R64) -/

/-- What the data path finds in a word the sequencer issues. -/
inductive MicroOp where
  | op (i : Instr)
  | rejected (why : Reject)
  deriving DecidableEq, Repr

/-- The stream id of `SEL[0]` (30_encoding.md R64). -/
def streamOf (sel : BitVec 4) : Stream := if sel.getLsbD 0 then .side else .main

/-- The channel number of `AUX` (30_encoding.md R64). -/
def chanOf (aux : BitVec 4) : Chan := aux.toFin

/-- The band id of `SEL` (30_encoding.md R64). -/
def bandOf (sel : BitVec 4) : Option Band :=
  if sel = 1 then some .one else if sel = 2 then some .two else none

/-- A row with operands `st`, `c`: mask `0xFFE0FFFF`. -/
def microStream (w : Word) (k : Stream → Chan → Instr) : MicroOp :=
  if (selField w).extractLsb' 1 3 = 0 ∧ immField w = 0 then
    .op (k (streamOf (selField w)) (chanOf (auxField w)))
  else .rejected .nonzeroField

/-- A row with operand `b`: mask `0xFF0FFFFF`, `SEL` 1 or 2. -/
def microBand (w : Word) (k : Band → Instr) : MicroOp :=
  if auxField w = 0 ∧ immField w = 0 then
    match bandOf (selField w) with
    | some b => .op (k b)
    | none => .rejected .bandId
  else .rejected .nonzeroField

/-- The row with operands `b`, `c`: mask `0xFF00FFFF`, `SEL` 1 or 2. -/
def microBandChan (w : Word) (k : Band → Chan → Instr) : MicroOp :=
  if immField w = 0 then
    match bandOf (selField w) with
    | some b => .op (k b (chanOf (auxField w)))
    | none => .rejected .bandId
  else .rejected .nonzeroField

/-- A row with operand `c`: mask `0xFFF0FFFF`. -/
def microChan (w : Word) (k : Chan → Instr) : MicroOp :=
  if selField w = 0 ∧ immField w = 0 then .op (k (chanOf (auxField w)))
  else .rejected .nonzeroField

/-- A row with no operand: mask `0xFFFFFFFF`. -/
def microPlain (w : Word) (i : Instr) : MicroOp :=
  if selField w = 0 ∧ auxField w = 0 ∧ immField w = 0 then .op i else .rejected .nonzeroField

/-- The micro-operation a word of the sequencer stands for (30_encoding.md R64). -/
def decodeMicro (w : Word) : MicroOp :=
  if opField w = 0x80 then microStream w .accWrite
  else if opField w = 0x81 then microPlain w .accReady
  else if opField w = 0x82 then microStream w .accFrame
  else if opField w = 0x83 then microPlain w .accConsume
  else if opField w = 0x88 then microPlain w .snap
  else if opField w = 0x90 then microStream w .anWindow
  else if opField w = 0x91 then microStream w .anRfft
  else if opField w = 0x92 then microStream w .anPolar
  else if opField w = 0x93 then microStream w .analyze
  else if opField w = 0xA0 then microBand w .bxBin
  else if opField w = 0xA1 then microBand w .bxHalfw
  else if opField w = 0xA2 then microBand w .bxInterval
  else if opField w = 0xA3 then microBandChan w .bxMixp
  else if opField w = 0xA4 then microChan w .bxMixf
  else if opField w = 0xA5 then microChan w .exchange
  else if opField w = 0xB0 then microChan w .syRect
  else if opField w = 0xB1 then microChan w .sySymm
  else if opField w = 0xB2 then microChan w .syIrfft
  else if opField w = 0xB3 then microChan w .syNormwin
  else if opField w = 0xB4 then microChan w .syOla
  else if opField w = 0xB5 then microChan w .synthesize
  else if opField w = 0xB6 then microPlain w .syAdv
  else if opField w = 0xC0 then microPlain w .drvEmit
  else if opField w = 0xC1 then microPlain w .drvBypass
  else if opField w = 0xC2 then microPlain w .drvCycle
  else if opField w = 0xC3 then microPlain w .drvBeat
  else .rejected .noSuchMicroOperation

/-! ### The word forms of the opcode table -/

/-- Whether a header is a micro-operation code: `OP[7] = 1` (30_encoding.md R61). -/
def isMicroWord (w : Word) : Bool := (opField w).getLsbD 7

/-- The two words, of 64 bits numbered as the opcode table numbers them: the first word holds bits
31:0, the second bits 63:32. -/
def tableWords (nbits w : Nat) : List Word :=
  let bits := BitVec.ofNat 64 (w % 2 ^ nbits)
  [bits.extractLsb' 0 32, bits.extractLsb' 32 32]

/-- The instruction the decoders read from the words, the header's `OP[7]` saying which path such a
word travels. -/
def decodeWords (ws : List Word) : Option Instr :=
  match ws with
  | [] => none
  | w :: _ =>
    if isMicroWord w then
      match decodeMicro w with
      | .op i => some i
      | .rejected _ => none
    else
      match decodeCommand ws with
      | .taken i _ => some i
      | .awaiting => none
      | .illegal _ _ => none

/-- The instruction of a table row's word: its words are stored as bytes, least significant first,
read back as words, and decoded. -/
def decodeTableWord (nbits w : Nat) : Option Instr :=
  decodeWords (wordsOfBytes (bytesOfWords (tableWords nbits w)))

/-! ### The encoder (30_encoding.md R60 to R67) -/

/-- `SEL` of a stream id. -/
def streamField : Stream → BitVec 4
  | .main => 0
  | .side => 1

/-- `SEL` of a band id. -/
def bandField : Band → BitVec 4
  | .one => 1
  | .two => 2

/-- `AUX` of a channel number. -/
def chanField (c : Chan) : BitVec 4 := BitVec.ofFin c

/-- `AUX` of `PROCESS`: bit 0 is `SC_ACTIVE`, bits 3:1 are 0. -/
def activeField (sc : Bool) : BitVec 4 := if sc then 1 else 0

/-- A one-word operation with operands `st`, `c`. -/
def encodeStream (op : BitVec 8) (st : Stream) (c : Chan) : List Word :=
  [header op (streamField st) (chanField c) 0]

/-- A one-word operation with operand `c`. -/
def encodeChan (op : BitVec 8) (c : Chan) : List Word := [header op 0 (chanField c) 0]

/-- A one-word operation with operand `b`. -/
def encodeBand (op : BitVec 8) (b : Band) : List Word := [header op (bandField b) 0 0]

/-- A one-word operation without operands. -/
def encodePlain (op : BitVec 8) : List Word := [header op 0 0 0]

/-- The words of an instruction. -/
def encode : Instr → List Word
  | .nop => encodePlain 0x00
  | .prepare sr maxBlk => [header 0x01 0 0 maxBlk, sr]
  | .release => encodePlain 0x02
  | .setpCut1 v => [header 0x03 0 0 0, v]
  | .setpCut2 v => [header 0x03 1 0 0, v]
  | .setpBlen v => [header 0x03 2 0 0, v]
  | .setpXmode v => [header 0x03 3 0 0, v]
  | .setpMix1 v => [header 0x03 4 0 0, v]
  | .setpMix2 v => [header 0x03 5 0 0, v]
  | .process nsamp scActive scNch => [header 0x04 scNch (activeField scActive) nsamp]
  | .accWrite st c => encodeStream 0x80 st c
  | .accReady => encodePlain 0x81
  | .accFrame st c => encodeStream 0x82 st c
  | .accConsume => encodePlain 0x83
  | .snap => encodePlain 0x88
  | .anWindow st c => encodeStream 0x90 st c
  | .anRfft st c => encodeStream 0x91 st c
  | .anPolar st c => encodeStream 0x92 st c
  | .analyze st c => encodeStream 0x93 st c
  | .bxBin b => encodeBand 0xA0 b
  | .bxHalfw b => encodeBand 0xA1 b
  | .bxInterval b => encodeBand 0xA2 b
  | .bxMixp b c => [header 0xA3 (bandField b) (chanField c) 0]
  | .bxMixf c => encodeChan 0xA4 c
  | .exchange c => encodeChan 0xA5 c
  | .syRect c => encodeChan 0xB0 c
  | .sySymm c => encodeChan 0xB1 c
  | .syIrfft c => encodeChan 0xB2 c
  | .syNormwin c => encodeChan 0xB3 c
  | .syOla c => encodeChan 0xB4 c
  | .synthesize c => encodeChan 0xB5 c
  | .syAdv => encodePlain 0xB6
  | .drvEmit => encodePlain 0xC0
  | .drvBypass => encodePlain 0xC1
  | .drvCycle => encodePlain 0xC2
  | .drvBeat => encodePlain 0xC3

end Sys2Proof
end

