-- ==== Sys2Proof/Machine/F32.lean ====
section
/-! DEFINITION. The numerics record `NUM` of 00_scope.md R8 in its default instance: IEEE 754 binary32,
round to nearest even, subnormals kept, never fused (log 2). Every finite value is an integer
multiple of `2^-149`, so each operation computes an exact integer result in that unit and rounds it
once, in `roundPack`. What the spec leaves open (the bits of a NaN result, `cos`, `sin`, `atan2` away
from the points the laws fix) is a free value (logs 3, 4, 28). -/

namespace Sys2Proof.Machine

/-- A free word where it meets a law, the zero of `NUM.F` where it does not. Every word that meets the
law is some free word's. -/
def keepIf (law : Word → Bool) (w : Word) : Word := if law w then w else 0

/-- A value that is a zero where a rule promises one: the value itself when it is a zero of either sign
or nothing is promised, and the zero of `NUM.F` otherwise. -/
def keepZero (isZero : Word → Bool) (promised : Bool) (w : Word) : Word :=
  if promised then keepIf isZero w else w

/-- The nearest integer to `v / per`, ties away from zero (92_eei_decisions.md D12). -/
def nearestInt (per : Nat) (v : Int) : Int := v.sign * ((2 * v.natAbs + per) / (2 * per) : Nat)

/-- An integer saturated to the 32-bit signed range. -/
def saturate (z : Int) : Int := max (-(2 ^ 31)) (min z (2 ^ 31 - 1))

end Sys2Proof.Machine

namespace Sys2Proof.Machine.F32

/-! ### The datum (30_encoding.md R62) -/

/-- The sign, bit 31. -/
def sign (w : Word) : Bool := w.getLsbD 31

/-- The 31 bits below the sign. -/
def magnitude (w : Word) : Nat := w.toNat % 2 ^ 31

/-- The 31 bits of an infinity: exponent all ones, fraction 0. -/
def infMagnitude : Nat := 0x7F800000

/-- Whether the datum is a NaN. -/
def isNaN (w : Word) : Bool := decide (infMagnitude < magnitude w)

/-- Whether the datum is an infinity. -/
def isInf (w : Word) : Bool := decide (magnitude w = infMagnitude)

/-- `NUM.isFinite`. -/
def isFinite (w : Word) : Bool := decide (magnitude w < infMagnitude)

/-- Whether the datum is a zero of either sign. -/
def isZero (w : Word) : Bool := decide (magnitude w = 0)

/-- The datum with a sign and 31 bits below it. -/
def ofParts (s : Bool) (m : Nat) : Word := BitVec.ofNat 32 (if s then 2 ^ 31 + m else m)

/-- The datum with the opposite sign. -/
def negate (w : Word) : Word := w ^^^ 0x80000000

/-- The magnitude of a finite datum, in units of `2^-149`. -/
def units (w : Word) : Nat :=
  if magnitude w / 2 ^ 23 = 0 then magnitude w % 2 ^ 23
  else (2 ^ 23 + magnitude w % 2 ^ 23) * 2 ^ (magnitude w / 2 ^ 23 - 1)

/-- The value of a finite datum, in units of `2^-149`. -/
def signedUnits (w : Word) : Int := if sign w then -(units w : Int) else (units w : Int)

/-! ### Rounding -/

/-- `p / 2^k` rounded to the nearest integer, ties to even. -/
def roundShift (p k : Nat) : Nat :=
  if 2 ^ k < 2 * (p % 2 ^ k) ∨ (2 * (p % 2 ^ k) = 2 ^ k ∧ p / 2 ^ k % 2 = 1) then p / 2 ^ k + 1
  else p / 2 ^ k

/-- How many low bits of `p`, in units of `2^-(149+sh)`, the format cannot hold: all of the `sh` bits
below its smallest unit, and all but 24 significant bits. -/
def dropped (p sh : Nat) : Nat := max sh (Nat.log2 p - 23)

/-- The datum nearest to `p * 2^-(149+sh)`, ties to even, with the given sign; an infinity on
overflow. -/
def roundPack (s : Bool) (p sh : Nat) : Word :=
  ofParts s
    (min ((dropped p sh - sh) * 2 ^ 23 + roundShift p (dropped p sh)) infMagnitude)

/-- A NaN result of an operation: its bits are free among the NaNs (93_implementation_defined.md
U10, log 3). -/
def nanResult (src : NanSource) (a b : Word) : Word :=
  if isNaN (Config.nanBits src a b) then Config.nanBits src a b else 0x7FC00000

/-! ### Arithmetic (00_scope.md R8) -/

/-- The sum of two finite data. An exact zero sum is `+0` but for two negative zeros. -/
def addFinite (a b : Word) : Word :=
  if signedUnits a + signedUnits b = 0 then ofParts (sign a && sign b) 0
  else roundPack (decide (signedUnits a + signedUnits b < 0)) (signedUnits a + signedUnits b).natAbs 0

/-- The sum of two data neither of which is a NaN, the NaN of opposite infinities given by `src`. -/
def addOrdered (src : NanSource) (a b a' b' : Word) : Word :=
  if isInf a then if isInf b ∧ sign a ≠ sign b then nanResult src a' b' else a
  else if isInf b then b
  else addFinite a b

/-- `NUM.add`. -/
def add (a b : Word) : Word :=
  if isNaN a ∨ isNaN b then nanResult .add a b else addOrdered .add a b a b

/-- `NUM.sub`. -/
def sub (a b : Word) : Word :=
  if isNaN a ∨ isNaN b then nanResult .sub a b else addOrdered .sub a (negate b) a b

/-- `NUM.mul`. -/
def mul (a b : Word) : Word :=
  if isNaN a ∨ isNaN b then nanResult .mul a b
  else if isInf a ∨ isInf b then
    if isZero a ∨ isZero b then nanResult .mul a b else ofParts (sign a ^^ sign b) infMagnitude
  else roundPack (sign a ^^ sign b) (units a * units b) 149

/-- The quotient of two positive unit counts with two bits below the smallest unit and a sticky bit. -/
def quotient (x y : Nat) : Nat :=
  2 * (x * 2 ^ 151 / y) + (if x * 2 ^ 151 % y = 0 then 0 else 1)

/-- `NUM.div`. -/
def div (a b : Word) : Word :=
  if isNaN a ∨ isNaN b then nanResult .div a b
  else if isInf a then if isInf b then nanResult .div a b else ofParts (sign a ^^ sign b) infMagnitude
  else if isInf b then ofParts (sign a ^^ sign b) 0
  else if isZero b then
    if isZero a then nanResult .div a b else ofParts (sign a ^^ sign b) infMagnitude
  else roundPack (sign a ^^ sign b) (quotient (units a) (units b)) 3

/-- The integer square root of `n < 4^bits`, found bit by bit from the top: the largest `r'` at or
above `r`, differing from it in the low `bits` bits, with `r'*r' ≤ n`. -/
def isqrtFrom (n : Nat) : Nat → Nat → Nat
  | 0, r => r
  | bits + 1, r =>
    if (r + 2 ^ bits) * (r + 2 ^ bits) ≤ n then isqrtFrom n bits (r + 2 ^ bits) else isqrtFrom n bits r

/-- The integer square root of every `n < 2^428`. -/
def isqrt (n : Nat) : Nat := isqrtFrom n 214 0

/-- The square root of a unit count in half units with a sticky bit. -/
def rootUnits (x : Nat) : Nat :=
  2 * isqrt (x * 2 ^ 149) + (if isqrt (x * 2 ^ 149) * isqrt (x * 2 ^ 149) = x * 2 ^ 149 then 0 else 1)

/-- `NUM.sqrt`: the root of a zero is that zero, of any other negative value a NaN. -/
def sqrt (a : Word) : Word :=
  if isNaN a then nanResult .sqrt a a
  else if isZero a then a
  else if sign a then nanResult .sqrt a a
  else if isInf a then a
  else roundPack false (rootUnits (units a)) 1

/-! ### Order (00_scope.md R8): every comparison with a NaN is false -/

/-- The place of a datum that is no NaN in the order, both zeros at 0. -/
def place (w : Word) : Int := if sign w then -(magnitude w : Int) else (magnitude w : Int)

/-- `NUM.lt`. -/
def lt (a b : Word) : Bool := !isNaN a && !isNaN b && decide (place a < place b)

/-- `NUM.le`. -/
def le (a b : Word) : Bool := !isNaN a && !isNaN b && decide (place a ≤ place b)

/-- `NUM.eq`. -/
def eq (a b : Word) : Bool := !isNaN a && !isNaN b && decide (place a = place b)

/-! ### Conversions -/

/-- `NUM.ofNat`. -/
def ofNat (n : Nat) : Word := roundPack false (n * 2 ^ 149) 0

/-- `NUM.ofReal` of `v * 2^-192`. -/
def ofFixed (v : Int) : Word := roundPack (decide (v < 0)) v.natAbs 43

/-- `NUM.ofReal` of `p / q`: the exact quotient with a sticky bit, rounded once. -/
def ofRatio (p : Int) (q : Nat) : Word :=
  roundPack (decide (p < 0)) (quotient (p.natAbs * 2 ^ 149) (q * 2 ^ 149)) 3

/-- `NUM.roundsat` (92_eei_decisions.md D12): nearest integer, ties away from zero, saturating to the
32-bit signed range; a NaN gives 0. -/
def roundsat (w : Word) : Int :=
  if isNaN w then 0
  else if isInf w then if sign w then -(2 ^ 31) else 2 ^ 31 - 1
  else saturate (nearestInt (2 ^ 149) (signedUnits w))

/-! ### Constants -/

/-- `NUM.F`'s constant 1. -/
def one : Word := 0x3F800000

/-- `NUM.F`'s constant 2. -/
def two : Word := 0x40000000

/-- `pi_F = NUM.ofReal(pi)`. -/
def piF : Word := 0x40490FDB

/-! ### Transcendental functions -/

/-- `NUM.cos`: 1 at a zero (45_synthesizer.md R140), otherwise free (log 4). -/
def cos (x : Word) : Word := if isZero x then one else Config.cosValue x

/-- `NUM.sin`: 0 at `+0`, a zero at `-0` (45_synthesizer.md R140), otherwise free (logs 4, 28). -/
def sin (x : Word) : Word :=
  if isZero x then if sign x then keepIf isZero (Config.sinValue x) else 0 else Config.sinValue x

/-- Whether a datum lies in `[-pi_F, pi_F]` (law N-ATAN of 00_scope.md R8). -/
def isPhase (w : Word) : Bool := le (negate piF) w && le w piF

/-- `NUM.atan2` (00_scope.md R8, 43_analyzer.md R114, 92_eei_decisions.md D11). A zero `im` with
`re < 0` gives `pi_F` with the sign of `im` (log 5). A `+0` `im` with `re >= 0` gives 0 (law N-ATAN).
A `-0` `im` with a zero `re` gives a zero, its sign free (log 28). Elsewhere, a NaN operand included,
law N-ATAN gives the range and nothing more is known (log 4). -/
def atan2 (im re : Word) : Word :=
  if isZero im ∧ lt re 0 then if sign im then negate piF else piF
  else if im = 0 ∧ le 0 re then 0
  else if isZero im ∧ isZero re then keepIf isZero (Config.atan2Value im re)
  else keepIf isPhase (Config.atan2Value im re)

end Sys2Proof.Machine.F32
end

