-- ==== Sys2Proof/Machine/Tables.lean ====
section
/-! DEFINITION. `NUM.ofReal` of the default instance (00_scope.md R8) at the reals the rules convert.
The entries of the window (R9) and of the twiddle tables (43_analyzer.md R113) are computed in fixed
point with 192 fraction bits, far below half the distance of any entry from a rounding boundary, and
the points where they are rational are exact (log 8). -/

namespace Sys2Proof.Machine

/-- `pi * 2^192`, rounded down. -/
def piFixed : Nat := 0x3243F6A8885A308D313198A2E03707344A4093822299F31D0

/-- The alternating sum of the terms of the sine series from term `t`, which has index `k`:
the next term is `t * x^2 / ((2k+2)(2k+3))`. -/
def sineTerms (xSquared : Nat) : Nat → Nat → Nat → Int
  | 0, _, _ => 0
  | fuel + 1, k, t =>
    (t : Int) - sineTerms xSquared fuel (k + 1) (t * xSquared / 2 ^ 192 / ((2 * k + 2) * (2 * k + 3)))

/-- `sin(x) * 2^192` for an angle `x * 2^-192` in `[0, pi/2]`. -/
def sineFixed (x : Nat) : Int := sineTerms (x * x / 2 ^ 192) 32 0 x

/-- `sin(2*pi*r/N) * 2^192` for `r` in `0..N/4`, exact at both ends. -/
def quarterSine (n r : Nat) : Int :=
  if r = 0 then 0 else if 4 * r = n then 2 ^ 192 else sineFixed (2 * piFixed * r / n)

/-- `sin(2*pi*k/N) * 2^192` for every `k`, by quadrant. -/
def circleSine (n k : Nat) : Int :=
  let quarter := n / 4
  let r := k % quarter
  match k / quarter % 4 with
  | 0 => quarterSine n r
  | 1 => quarterSine n (quarter - r)
  | 2 => -quarterSine n r
  | _ => -quarterSine n (quarter - r)

/-- `cos(2*pi*k/N) * 2^192`: the sine a quarter turn on. -/
def circleCosine (n k : Nat) : Int := circleSine n (k + n / 4)

/-- `NUM.ofReal` of binary32: the nearest datum, ties to even. -/
def F32.ofReal : ExactReal → Word
  | .ratio p q => F32.ofRatio p q
  | .pi => F32.piF
  | .hann i n => F32.roundPack false (2 ^ 192 - circleCosine n i).natAbs 44
  | .cosTurn k n => F32.ofFixed (circleCosine n k)
  | .sinTurn k n => F32.ofFixed (circleSine n k)

end Sys2Proof.Machine
end

