-- ==== Sys2Proof/Machine/Numerics.lean ====
section
/-! DEFINITION. The numerics record `NUM` that a machine takes as an argument (00_scope.md R5, R8,
92_eei_decisions.md D7): its fields, the default instance binary32, and any other record that meets the
laws of R8, made of free functions (log 2). -/

namespace Sys2Proof

open Machine

/-- The numerics record of 00_scope.md R8. `rfft` and `irfft` take the base-2 logarithm of the number of
points. Law N-PURE is that the fields are functions. -/
structure Numerics where
  one : Word
  two : Word
  ofReal : ExactReal → Word
  ofNat : Nat → Word
  add : Word → Word → Word
  sub : Word → Word → Word
  mul : Word → Word → Word
  div : Word → Word → Word
  sqrt : Word → Word
  cos : Word → Word
  sin : Word → Word
  atan2 : Word → Word → Word
  lt : Word → Word → Bool
  le : Word → Word → Bool
  eq : Word → Word → Bool
  isFinite : Word → Bool
  roundsat : Word → Int
  rfft : Nat → List Word → List (Word × Word)
  irfft : Nat → List (Word × Word) → List Word

/-- `NUM.F`'s constant 0, and the 0.0 of 10_state.md R24: the all-zero word in every record (log 32). -/
def Numerics.zero : Word := 0

/-- Whether a value is a zero. -/
def Numerics.isZero (N : Numerics) (w : Word) : Bool := N.eq w Numerics.zero

/-- Whether a value is a NaN: every comparison with it is false. -/
def Numerics.isNaN (N : Numerics) (w : Word) : Bool := !N.eq w w

/-! ### Transforms bound by the laws only (93_implementation_defined.md U2) -/

/-- The bins of a free forward transform: law N-FFT0 for an all-zero frame, otherwise free. -/
def lawfulBins (isZero : Word → Bool) (bin : List Word → Nat → Word × Word) (logn : Nat)
    (xw : List Word) : List (Word × Word) :=
  (List.range (2 ^ logn / 2 + 1)).map fun k =>
    (keepZero isZero (xw.all isZero) (bin xw k).1, keepZero isZero (xw.all isZero) (bin xw k).2)

/-- Whether a spectrum is all zeros. -/
def allZero (isZero : Word → Bool) (bins : List (Word × Word)) : Bool :=
  bins.all fun b => isZero b.1 && isZero b.2

/-- The samples of a free inverse transform: law N-FFT0 for the all-zero spectrum, otherwise free. -/
def lawfulSamples (isZero : Word → Bool) (sample : List (Word × Word) → Nat → Word) (logn : Nat)
    (bins : List (Word × Word)) : List Word :=
  (List.range (2 ^ logn)).map fun n => keepZero isZero (allZero isZero bins) (sample bins n)

/-! ### The default instance -/

/-- IEEE 754 binary32 (00_scope.md R8). -/
def binary32 : Numerics :=
  { one := F32.one
    two := F32.two
    ofReal := F32.ofReal
    ofNat := F32.ofNat
    add := F32.add
    sub := F32.sub
    mul := F32.mul
    div := F32.div
    sqrt := F32.sqrt
    cos := F32.cos
    sin := F32.sin
    atan2 := F32.atan2
    lt := F32.lt
    le := F32.le
    eq := F32.eq
    isFinite := F32.isFinite
    roundsat := F32.roundsat
    rfft := lawfulBins F32.isZero Config.rfftBin
    irfft := lawfulSamples F32.isZero Config.irfftSample }

/-! ### Any other record that meets the laws

Each operation is the free function where no law of R8 speaks, and what the law says where one does. A
record that already meets the laws is unchanged. What another rule promises beyond the laws is kept in
the operation of that rule (log 34). -/

/-- A fraction of a turn in lowest terms, folded by `cos(-x) = cos(x)` into the first half turn. -/
def foldTurn (k n : Nat) : Nat × Nat :=
  let k' := min (k % n) (n - k % n)
  (k' / k'.gcd n, n / k'.gcd n)

/-- `cos(2*pi*k/n)` under one name, a rational where it is 1, 0 or -1. -/
def canonicalCosine (k n : Nat) : ExactReal :=
  match foldTurn k n with
  | (0, _) => .ratio 1 1
  | (1, 4) => .ratio 0 1
  | (1, 2) => .ratio (-1) 1
  | (k', n') => .cosTurn k' n'

/-- One name for each real of the tables, so that `NUM.ofReal` is a function of the real number (law
N-PURE): `WIN[0] = 0`, `WIN[N/2] = 1` and `WIN[n] = WIN[N-n]` of 00_scope.md R9, and the exact twiddles of
43_analyzer.md R113. -/
def ExactReal.canonical : ExactReal → ExactReal
  | .ratio p q => .ratio (p / (p.natAbs.gcd q : Nat)) (q / p.natAbs.gcd q)
  | .pi => .pi
  | .cosTurn k n => canonicalCosine k n
  | .sinTurn k n => canonicalCosine (4 * k + 3 * n) (4 * n)
  | .hann i n =>
    match foldTurn i n with
    | (0, _) => .ratio 0 1
    | (1, 4) => .ratio 1 2
    | (1, 2) => .ratio 1 1
    | (i', n') => .hann i' n'

/-- Whether `NUM.ofNat` is exact for every number up to `2^13` (00_scope.md R8, 92_eei_decisions.md D46),
and 0 is the zero of `NUM.F`. -/
def RawNum.exact (r : RawNum) : Bool :=
  decide (0 < r.perOne) && decide (r.ofNat 0 = Numerics.zero) &&
    (List.range (2 ^ 13 + 1)).all fun n => decide (r.place (r.ofNat n) = some ((n * r.perOne : Nat) : Int))

/-- The functions themselves where `NUM.ofNat` is exact; elsewhere with the elements of `NUM.F` read as
two's-complement integers, so that it is. -/
def RawNum.sound (r : RawNum) : RawNum :=
  if r.exact then r
  else { r with place := fun w => some w.toInt, perOne := 1, ofNat := fun n => BitVec.ofNat 32 n }

/-- The constant 1. -/
def RawNum.unit (r : RawNum) : Word := r.ofNat 1

/-- A comparison of two places, false with a NaN. -/
def RawNum.compare (r : RawNum) (c : Int → Int → Bool) (a b : Word) : Bool :=
  match r.place a, r.place b with
  | some p, some q => c p q
  | _, _ => false

/-- `NUM.lt`. -/
def RawNum.less (r : RawNum) (a b : Word) : Bool := r.compare (fun p q => decide (p < q)) a b

/-- `NUM.le`. -/
def RawNum.atMost (r : RawNum) (a b : Word) : Bool := r.compare (fun p q => decide (p ≤ q)) a b

/-- `NUM.eq`. -/
def RawNum.same (r : RawNum) (a b : Word) : Bool := r.compare (fun p q => decide (p = q)) a b

/-- Whether a value is a zero. -/
def RawNum.isZero (r : RawNum) (w : Word) : Bool := r.same w Numerics.zero

/-- `NUM.isFinite`: the finite values lie between two bounds, the numbers up to `2^13` among them. -/
def RawNum.finite (r : RawNum) (w : Word) : Bool :=
  match r.place w with
  | some p =>
    decide (-(r.lowest : Int) ≤ p) && decide (p ≤ (max r.highest (2 ^ 13 * r.perOne) : Nat))
  | none => false

/-- `NUM.ofReal`, a function of the real number and otherwise free, infinities and NaNs included: the exact
0 and 1 of the tables are the constants (00_scope.md R9, 43_analyzer.md R113), and `pi_F` is not below the
zero, which law N-ATAN has in `[-pi_F, pi_F]` (log 35). -/
def RawNum.fromReal (r : RawNum) (x : ExactReal) : Word :=
  match x.canonical with
  | .ratio 0 1 => Numerics.zero
  | .ratio 1 1 => r.unit
  | .pi => keepIf (fun w => r.atMost Numerics.zero w) (r.ofReal .pi)
  | y => r.ofReal y

/-- `NUM.add` (N-ZERO, in both orders of the operands: 44_exchanger.md R129). -/
def RawNum.plus (r : RawNum) (a b : Word) : Word :=
  if r.isZero a ∧ r.isZero b then keepIf r.isZero (r.add a b)
  else if r.isZero b ∧ r.finite a then a
  else if r.isZero a ∧ r.finite b then b
  else r.add a b

/-- `NUM.sub` (N-ONE). -/
def RawNum.minus (r : RawNum) (a b : Word) : Word :=
  if a = r.unit ∧ b = Numerics.zero then a
  else if a = r.unit ∧ b = r.unit then Numerics.zero
  else r.sub a b

/-- `NUM.mul` (N-ONE; N-ZERO, in both orders of the operands: 43_analyzer.md R110, 45_synthesizer.md
R144). -/
def RawNum.times (r : RawNum) (a b : Word) : Word :=
  if a = r.unit then b
  else if r.isZero a ∧ r.finite b ∨ r.finite a ∧ r.isZero b then keepIf r.isZero (r.mul a b)
  else r.mul a b

/-- `NUM.div` (N-ONE). -/
def RawNum.over (r : RawNum) (a b : Word) : Word := if b = r.unit then a else r.div a b

/-- `NUM.sqrt` (N-SQRT). -/
def RawNum.root (r : RawNum) (a : Word) : Word :=
  if r.isZero a then keepIf r.isZero (r.sqrt a)
  else keepIf (fun w => !r.less w Numerics.zero) (r.sqrt a)

/-- `pi_F` (00_scope.md R7). -/
def RawNum.piF (r : RawNum) : Word := r.fromReal .pi

/-- Whether a value lies in `[-pi_F, pi_F]`: its number is at most that of `pi_F` away from 0 (log 33). -/
def RawNum.isPhase (r : RawNum) (w : Word) : Bool :=
  match r.place w, r.place r.piF with
  | some p, some top => decide (p.natAbs ≤ top)
  | _, _ => false

/-- Whether a value is `-pi_F`: its number is the negative of that of `pi_F` (log 33). -/
def RawNum.isMinusPi (r : RawNum) (w : Word) : Bool :=
  match r.place w, r.place r.piF with
  | some p, some top => decide (p = -top)
  | _, _ => false

/-- `NUM.atan2` (N-ATAN, 92_eei_decisions.md D11). A zero `im` with `re < 0` gives `pi_F`, or one of
`pi_F` and `-pi_F` when it is no positive zero (43_analyzer.md R114, 93_implementation_defined.md U11). -/
def RawNum.angle (r : RawNum) (im re : Word) : Word :=
  if im = Numerics.zero ∧ r.atMost Numerics.zero re then Numerics.zero
  else if r.isZero im ∧ r.isZero re then keepIf r.isZero (r.atan2 im re)
  else if r.isZero im ∧ r.less re Numerics.zero then
    if im ≠ Numerics.zero ∧ r.isMinusPi (r.atan2 im re) then r.atan2 im re else r.piF
  else keepIf r.isPhase (r.atan2 im re)

/-- `NUM.roundsat` (92_eei_decisions.md D12): the nearest integer, ties away from zero, saturated to the
32-bit signed range; 0 for a NaN. -/
def RawNum.toRegister (r : RawNum) (w : Word) : Int :=
  match r.place w with
  | none => 0
  | some p =>
    if r.finite w then saturate (nearestInt r.perOne p) else if p < 0 then -2 ^ 31 else 2 ^ 31 - 1

/-- The record that free functions make, the laws put over each operation. -/
def RawNum.record (r : RawNum) : Numerics :=
  { one := r.unit
    two := r.ofNat 2
    ofReal := r.fromReal
    ofNat := r.ofNat
    add := r.plus
    sub := r.minus
    mul := r.times
    div := r.over
    sqrt := r.root
    cos := r.cos
    sin := r.sin
    atan2 := r.angle
    lt := r.less
    le := r.atMost
    eq := r.same
    isFinite := r.finite
    roundsat := r.toRegister
    rfft := lawfulBins r.isZero r.rfftBin
    irfft := lawfulSamples r.isZero r.irfftSample }

/-- The record that meets the laws, made of free functions. -/
def lawfulNum (r : RawNum) : Numerics := r.sound.record

/-- The record a construction takes, before the choice of its transforms. -/
def baseNumerics (g : Cfg) : Numerics :=
  match g.num with
  | .binary32 => binary32
  | .other => lawfulNum Config.otherNum

end Sys2Proof
end

