-- ==== Sys2Proof/Machine/Transform.lean ====
section
/-! DEFINITION. The reference datapath for `NUM.rfft` and `NUM.irfft` (43_analyzer.md R113, log 7), the
record `NUM` of a construction, its window table, and the two transforms as the data path applies them:
a frame or a spectrum with a NaN or an infinity gives unspecified results (43_analyzer.md R112,
45_synthesizer.md R143; log 9). -/

namespace Sys2Proof.Machine

/-! ### The reference datapath (43_analyzer.md R113) -/

/-- `dir` of `fft_core`. -/
inductive Direction where
  | forward
  | inverse
  deriving DecidableEq, Repr

/-- The reversal of the low `bits` bits of `i`. -/
def bitReverse : Nat → Nat → Nat
  | 0, _ => 0
  | bits + 1, i => i % 2 * 2 ^ bits + bitReverse bits (i / 2)

/-- The bit-reversal permutation. -/
def permute (logn : Nat) (a : List (Word × Word)) : List (Word × Word) :=
  (List.range (2 ^ logn)).map fun i => a.getD (bitReverse logn i) (0, 0)

/-- The twiddle `(wr, wi)` at table index `k`: `TWC[k]` and `TWS[k]` or `0 - TWS[k]`. -/
def twiddle (N : Numerics) (n : Nat) (dir : Direction) (k : Nat) : Word × Word :=
  match dir with
  | .forward => (N.ofReal (.cosTurn k n), N.sub Numerics.zero (N.ofReal (.sinTurn k n)))
  | .inverse => (N.ofReal (.cosTurn k n), N.ofReal (.sinTurn k n))

/-- `(tr, ti)`: a twiddle times an element. -/
def twiddleTimes (N : Numerics) (w a : Word × Word) : Word × Word :=
  (N.sub (N.mul a.1 w.1) (N.mul a.2 w.2), N.add (N.mul a.1 w.2) (N.mul a.2 w.1))

/-- The new element at index `i` of the stage with block length `m`: the sum half of its butterfly
below the middle of the block, the difference half above it. -/
def butterflyAt (N : Numerics) (n m : Nat) (dir : Direction) (a : List (Word × Word)) (i : Nat) :
    Word × Word :=
  let half := m / 2
  let w := twiddle N n dir (i % half * (n / m))
  if i % m < half then
    let u := a.getD i (0, 0)
    let t := twiddleTimes N w (a.getD (i + half) (0, 0))
    (N.add u.1 t.1, N.add u.2 t.2)
  else
    let u := a.getD (i - half) (0, 0)
    let t := twiddleTimes N w (a.getD i (0, 0))
    (N.sub u.1 t.1, N.sub u.2 t.2)

/-- One stage: every butterfly of block length `m`. The butterflies of a stage touch disjoint pairs,
so the in-place loops of the rule and this map give the same elements. -/
def stage (N : Numerics) (n m : Nat) (dir : Direction) (a : List (Word × Word)) : List (Word × Word) :=
  (List.range n).map (butterflyAt N n m dir a)

/-- `fft_core` on `2^logn` points. -/
def fftCore (N : Numerics) (logn : Nat) (dir : Direction) (a : List (Word × Word)) :
    List (Word × Word) :=
  (List.range logn).foldl (fun a s => stage N (2 ^ logn) (2 ^ (s + 1)) dir a) (permute logn a)

/-- `rfft(xw)` of the reference datapath: bins `0..N/2`. -/
def referenceRfft (N : Numerics) (logn : Nat) (xw : List Word) : List (Word × Word) :=
  (fftCore N logn .forward (xw.map fun x => (x, Numerics.zero))).take (2 ^ logn / 2 + 1)

/-- `irfft(re, im)` of the reference datapath: the imaginary parts are discarded. -/
def referenceIrfft (N : Numerics) (logn : Nat) (bins : List (Word × Word)) : List Word :=
  (fftCore N logn .inverse bins).map Prod.fst

end Sys2Proof.Machine

namespace Sys2Proof

open Machine

/-! ### The record and the tables of a construction -/

/-- A record with the reference datapath for its transforms, which meets law N-FFT0 (43_analyzer.md R113:
"With this datapath N-FFT0 holds"). DESIGN CHOICE (log 7): in a record whose arithmetic on zeros breaks that
law, the law stands over the datapath. -/
def Numerics.withReference (N : Numerics) : Numerics :=
  { N with
    rfft := fun logn xw => (referenceRfft N logn xw).map fun b =>
      (keepZero N.isZero (xw.all N.isZero) b.1, keepZero N.isZero (xw.all N.isZero) b.2)
    irfft := fun logn bins =>
      (referenceIrfft N logn bins).map (keepZero N.isZero (allZero N.isZero bins)) }

/-- `NUM` of a construction (00_scope.md R5, R8), its transforms the record's own or the reference
datapath (log 6). -/
def Cfg.numerics (g : Cfg) : Numerics :=
  match g.transform with
  | .implementation => baseNumerics g
  | .reference => (baseNumerics g).withReference

end Sys2Proof

namespace Sys2Proof.Machine

/-- `WIN[i]` (00_scope.md R5, R9): `NUM.ofReal` of the periodic Hann window, or the table that replaces
it. -/
def windowAt (g : Cfg) (i : Nat) : Word :=
  match g.window with
  | .hann => g.numerics.ofReal (.hann i g.n)
  | .table values => values.getD i 0

/-! ### The transforms as the data path applies them -/

/-- The bins of `AN.RFFT` (43_analyzer.md R112): `NUM.rfft`, unspecified for a windowed frame with a NaN
or an infinity, but zeros there too when the frame was silent before a window that is not finite (R116 (d),
log 9). -/
def rfft (g : Cfg) (silent : Bool) (xw : List Word) : List (Word × Word) :=
  if xw.all g.numerics.isFinite then g.numerics.rfft g.logn xw
  else
    (List.range g.nb).map fun k =>
      (keepZero g.numerics.isZero silent (Config.unspecified .binRe xw k),
        keepZero g.numerics.isZero silent (Config.unspecified .binIm xw k))

/-- The samples of `SY.IRFFT` (45_synthesizer.md R143): `NUM.irfft`, unspecified for non-finite bins. -/
def irfft (g : Cfg) (bins : List (Word × Word)) : List Word :=
  if bins.all (fun b => g.numerics.isFinite b.1 && g.numerics.isFinite b.2) then
    g.numerics.irfft g.logn bins
  else
    (List.range g.n).map fun n =>
      Config.unspecified .sample (bins.flatMap fun b => [b.1, b.2]) n

end Sys2Proof.Machine
end

