-- ==== Sys2Proof/Machine/State.lean ====
section
/-! DEFINITION. The state of the BandOperator CORE (10_state.md), the reasons a step can stop, and
hardware reset (10_state.md R24, 70_reset_and_hazards.md R195). -/

namespace Sys2Proof.Machine

/-- Why the machine stops. The hardware itself never traps (60_exceptions.md R175); both
constructors are stops of the model, and both are safe: the model stops where the hardware waits or
where no rule gives it anything to do. -/
inductive Fault where
  /-- Raised by a beat, `ACC.WRITE` or `DRV.BYPASS` that finds a sample port without the sample it
  takes: the block cannot complete, "stuck" (93_implementation_defined.md U8, log 14). Safe. -/
  | samplePortStuck
  /-- Raised by a micro-operation whose channel is `NCH` or above, which "is never issued"
  (30_encoding.md R64, log 20). Safe. -/
  | noSuchChannel
  deriving DecidableEq, Repr

/-- What the model declines to run. -/
inductive Refusal where
  /-- An instruction without a meaning, by its mnemonic; raised by exec's refused arms only (there is
  none left). Safe. -/
  | notModelled (mnemonic : String)
  /-- A word queued to the data path that is no micro-operation of 30_encoding.md R64; "the sequencer
  never issues them" (R65, log 18). Safe. -/
  | unassignedMicroOperation
  deriving DecidableEq, Repr

/-- The state machine of the Stream Driver, `DRV_STATE` (10_state.md R14); the value 3 is never
produced, so it has no constructor. -/
inductive DrvState where
  | idle
  | accumulating
  | cycle
  deriving DecidableEq, Repr

/-- One value for each of the two streams. -/
structure PerStream (α : Type) where
  main : α
  side : α
  deriving DecidableEq, Repr

/-- The parameter registers `P_*`, raw (10_state.md R12). -/
structure Params where
  cut1 : Word
  cut2 : Word
  blen : Word
  xmode : Word
  mix1 : Word
  mix2 : Word
  deriving DecidableEq, Repr

/-- The snapshot registers `SNAP_*` (10_state.md R13). -/
structure Snapshot where
  cut1 : Word
  cut2 : Word
  blen : Word
  xmode : BitVec 1
  mix1 : Word
  mix2 : Word
  deriving DecidableEq, Repr

/-- The derived registers of one band, `BIN`, `HW`, `START`, `END`, 32-bit two's complement each
(10_state.md R13, 44_exchanger.md R136). -/
structure BandRegs where
  bin : Word
  hw : Word
  start : Word
  stop : Word
  deriving DecidableEq, Repr

/-- The write cursor `WR` and the count `CNT` of one ring (10_state.md R17). -/
structure RingCtl where
  wr : Nat
  cnt : Nat
  deriving DecidableEq, Repr

/-- The internal memories (10_state.md R17, R19, R20): element-addressed cells in one canonical form,
and whether `PREPARE` or `RELEASE` has cleared the memories since hardware reset, which decides what
an unlisted element reads as (logs 10 and 13). -/
structure Memory where
  cells : List (Nat × Word)
  cleared : Bool
  deriving DecidableEq, Repr

/-- The scratch values of one cycle (10_state.md R23), which the micro-operations read and write as
operands, and the answer of `ACC.READY` (logs 11 and 12). The model's own five fields go with them:
whether `xw`, and whether `re` and `im`, come from a frame with a NaN or an infinity
(70_reset_and_hazards.md R207, log 9), whether `xw` comes from a silent frame (43_analyzer.md R116 (d),
log 9), and whether `re` and `im`, and whether `y`, come from a finite mixed
spectrum (45_synthesizer.md R148, log 34). -/
structure Scratch where
  fr : List Word
  xw : List Word
  xwBroken : Bool
  xwSilent : Bool
  re : List Word
  im : List Word
  binsBroken : Bool
  binsFromFinite : Bool
  wmMag : List Word
  wmPh : List Word
  wsMag : List Word
  wsPh : List Word
  y : List Word
  yFromFinite : Bool
  ready : Bool
  deriving DecidableEq, Repr

/-- What a frame with a NaN or an infinity has left unspecified (70_reset_and_hazards.md R207,
93_implementation_defined.md U6, log 9): for each stream and channel whether `SPEC_MAG` and `SPEC_PH`
hold such a frame's spectrum, for each channel whether `MIX_MAG` and `MIX_PH` do, and the overlap-add
elements such a frame was added into and that have not been emitted since. The model's own field. -/
structure Marks where
  spec : PerStream (Vector Bool 16)
  mix : Vector Bool 16
  ola : Vector (List Nat) 16
  deriving DecidableEq, Repr

/-- Who moves next: the Stream Driver, or a host with one register-port access (20_memory.md R44,
R51; log 16). -/
inductive Turn where
  | driver
  | regRead (addr : BitVec 32)
  | regWrite (addr : BitVec 32) (v : Word)
  deriving DecidableEq, Repr

/-- The machine. -/
structure State where
  /-- The construction parameters (00_scope.md R5, log 1); no step changes them. -/
  cfg : Cfg
  /-- `P_*` (10_state.md R12). -/
  params : Params
  /-- `SNAP_*` (10_state.md R13). -/
  snap : Snapshot
  /-- `BIN1`, `HW1`, `START1`, `END1` (10_state.md R13). -/
  band1 : BandRegs
  /-- `BIN2`, `HW2`, `START2`, `END2` (10_state.md R13). -/
  band2 : BandRegs
  /-- `DRV_STATE` (10_state.md R14). -/
  drv : DrvState
  /-- `PREPARED` (10_state.md R14). -/
  prepared : Bool
  /-- `SR` (10_state.md R15). -/
  sr : Word
  /-- `MAXBLK` (10_state.md R15). -/
  maxBlk : BitVec 16
  /-- `EVENTS[4:0]` (10_state.md R16). -/
  events : BitVec 5
  /-- `WR[st][c]`, `CNT[st][c]` (10_state.md R17). -/
  rings : PerStream (Vector RingCtl 16)
  /-- `RING`, `SPEC_MAG`, `SPEC_PH`, `MIX_MAG`, `MIX_PH`, `OLA` (10_state.md R17, R19, R20). -/
  mem : Memory
  /-- `OLA_WR` (10_state.md R20). -/
  olaWr : Nat
  /-- `OLA_RD` (10_state.md R20). -/
  olaRd : Nat
  /-- `BLK_REM` (10_state.md R22). -/
  blkRem : BitVec 16
  /-- `BLK_ACTIVE` (10_state.md R22). -/
  blkActive : Bool
  /-- The scratch values (10_state.md R23, log 11). -/
  scratch : Scratch
  /-- What non-finite samples have left unspecified (70_reset_and_hazards.md R207, log 9). -/
  marks : Marks
  /-- The words written to the command port and not yet taken (20_memory.md R43, log 15). -/
  cmdIn : List Word
  /-- The micro-operation words queued to the data path (30_encoding.md R64, log 18). -/
  issue : List Word
  /-- The samples waiting on the two input ports, one queue a channel (20_memory.md R45, log 14). -/
  samplesIn : PerStream (Vector (List Word) 16)
  /-- The samples put on the main-out port, one queue a channel (20_memory.md R45, log 14). -/
  samplesOut : Vector (List Word) 16
  /-- The turns to come (20_memory.md R51, log 16). -/
  turns : List Turn
  /-- The words that register reads have returned (20_memory.md R44, log 31). -/
  regOut : List Word
  deriving DecidableEq, Repr

/-- Every `SNAP_*` register 0 (10_state.md R24). -/
def Snapshot.zero : Snapshot := { cut1 := 0, cut2 := 0, blen := 0, xmode := 0, mix1 := 0, mix2 := 0 }

/-- `BIN`, `HW`, `START`, `END` all 0 (10_state.md R24). -/
def BandRegs.zero : BandRegs := { bin := 0, hw := 0, start := 0, stop := 0 }

/-- Every cursor and count 0 (10_state.md R24). -/
def ringsCleared : PerStream (Vector RingCtl 16) :=
  { main := Vector.replicate 16 { wr := 0, cnt := 0 }
    side := Vector.replicate 16 { wr := 0, cnt := 0 } }

/-- The parameters after hardware reset (10_state.md R12): 2000.0, 2000.0, 1.0, 0.0 and twice
`ofReal(0.01)`. -/
def Params.atReset (N : Numerics) : Params :=
  { cut1 := N.ofReal (.ratio 2000 1), cut2 := N.ofReal (.ratio 2000 1), blen := N.one
    xmode := Numerics.zero, mix1 := N.ofReal (.ratio 1 100), mix2 := N.ofReal (.ratio 1 100) }

/-- Nothing left unspecified by a non-finite sample. -/
def Marks.none : Marks :=
  { spec := { main := Vector.replicate 16 false, side := Vector.replicate 16 false }
    mix := Vector.replicate 16 false
    ola := Vector.replicate 16 [] }

/-- The scratch values after hardware reset: zeros of each array's size. The spec gives none
(DESIGN CHOICE, log 11). -/
def Scratch.zero (g : Cfg) : Scratch :=
  { fr := List.replicate g.n 0, xw := List.replicate g.n 0, xwBroken := false, xwSilent := false
    re := List.replicate g.nb 0, im := List.replicate g.nb 0, binsBroken := false
    binsFromFinite := false
    wmMag := List.replicate g.nb 0, wmPh := List.replicate g.nb 0
    wsMag := List.replicate g.nb 0, wsPh := List.replicate g.nb 0
    y := List.replicate g.n 0, yFromFinite := false, ready := false }

/-- The machine of construction `g` right after hardware reset: the "After hardware reset" column of
10_state.md R24; nothing waits on any interface (70_reset_and_hazards.md R195). -/
def State.resetOf (g : Cfg) : State :=
  { cfg := g
    params := Params.atReset g.numerics
    snap := Snapshot.zero
    band1 := BandRegs.zero
    band2 := BandRegs.zero
    drv := .idle
    prepared := false
    sr := 0
    maxBlk := 0
    events := 0
    rings := ringsCleared
    mem := { cells := [], cleared := false }
    olaWr := 0
    olaRd := g.len - g.n
    blkRem := 0
    blkActive := false
    scratch := Scratch.zero g
    marks := Marks.none
    cmdIn := []
    issue := []
    samplesIn := { main := Vector.replicate 16 [], side := Vector.replicate 16 [] }
    samplesOut := Vector.replicate 16 []
    turns := []
    regOut := [] }

/-- The default construction right after hardware reset. -/
def State.reset : State := State.resetOf Cfg.standard

end Sys2Proof.Machine
end

