-- ==== Sys2Proof/Machine/Flags.lean ====
section
/-! DEFINITION. The event flags and the status words. The hardware has no condition codes: its only
flags are the five sticky bits of `EVENTS` (10_state.md R16), and `raise` is all that stands where an
instruction set takes an exception: nothing is saved, nothing is aborted, no control moves
(60_exceptions.md R175, R184), so there is no return from it either (R185). -/

namespace Sys2Proof.Machine

/-- The events of 60_exceptions.md R176. -/
inductive Event where
  | clamp
  | degen
  | edge
  | mismatch
  | illCmd
  deriving DecidableEq, Repr

/-- The bit of an event in `EVENTS` (10_state.md R16). -/
def Event.mask : Event → BitVec 5
  | .clamp => 0x01
  | .degen => 0x02
  | .edge => 0x04
  | .mismatch => 0x08
  | .illCmd => 0x10

/-- `raise <EVENT>`, when `cause` holds (00_scope.md R7): the sticky bit is set and the operation
continues. -/
def State.raiseIf (cause : Bool) (e : Event) (s : State) : State :=
  { s with events := if cause then s.events ||| e.mask else s.events }

/-- `STATUS.SRVALID`: `SR` is finite and above 0 (10_state.md R15). -/
def State.srValid (s : State) : Bool :=
  s.cfg.numerics.isFinite s.sr && s.cfg.numerics.lt Numerics.zero s.sr

/-- The condition of an active path (46_driver.md R156): prepared, with a valid sample rate. -/
def State.usable (s : State) : Bool := s.prepared && s.srValid

/-- The two bits of `DRV_STATE` (10_state.md R14). -/
def DrvState.bits : DrvState → BitVec 2
  | .idle => 0
  | .accumulating => 1
  | .cycle => 2

/-- The bit of a truth value. -/
def flagBit (b : Bool) : BitVec 1 := BitVec.ofBool b

/-- The `WPOL` bit (10_state.md R15). -/
def widthPolicyBit : WidthPolicy → BitVec 1
  | .ratio => 0
  | .absHz => 1

/-- The `SIDEPOL` bit (10_state.md R15). -/
def sidePolicyBit : SidePolicy → BitVec 1
  | .same => 0
  | .other => 1

/-- The `STATUS` word (10_state.md R15). -/
def State.statusWord (s : State) : Word :=
  (0 : BitVec 28) ++ flagBit s.srValid ++ s.drv.bits ++ flagBit s.prepared

/-- The `CFG` word (10_state.md R15). -/
def State.cfgWord (s : State) : Word :=
  (0 : BitVec 20) ++ BitVec.ofNat 4 s.cfg.nch ++ (0 : BitVec 1) ++ sidePolicyBit s.cfg.sidepol ++
    widthPolicyBit s.cfg.wpol ++ flagBit s.cfg.hopHalf ++ BitVec.ofNat 4 s.cfg.logn

end Sys2Proof.Machine
end

