-- ==== Sys2Proof/Machine/Ops.lean ====
section
/-! DEFINITION. The named operations over the internal memories, the rings, the band registers and the
channel loop. Every access to a memory element goes through `Memory.read` and `Memory.write`. -/

namespace Sys2Proof.Machine

/-! ### Pairs of streams and bands -/

/-- The value of a stream. -/
def PerStream.get {α : Type} (p : PerStream α) : Stream → α
  | .main => p.main
  | .side => p.side

/-- The pair with one stream's value replaced. -/
def PerStream.set {α : Type} (p : PerStream α) (st : Stream) (x : α) : PerStream α :=
  match st with
  | .main => { p with main := x }
  | .side => { p with side := x }

/-- `BIN<b>`, `HW<b>`, `START<b>`, `END<b>`. -/
def State.band (s : State) : Band → BandRegs
  | .one => s.band1
  | .two => s.band2

/-- The state with one band's registers replaced. -/
def State.setBand (b : Band) (r : BandRegs) (s : State) : State :=
  match b with
  | .one => { s with band1 := r }
  | .two => { s with band2 := r }

/-- Band `3 - b` (44_exchanger.md R130). -/
def otherBand : Band → Band
  | .one => .two
  | .two => .one

/-! ### The internal memories (20_memory.md R40, R41) -/

/-- The memories of 10_state.md R17, R19 and R20. -/
inductive Space where
  | ring (st : Stream) (c : Chan)
  | specMag (st : Stream) (c : Chan)
  | specPh (st : Stream) (c : Chan)
  | mixMag (c : Chan)
  | mixPh (c : Chan)
  | ola (c : Chan)
  deriving DecidableEq, Repr

/-- The number of a stream (00_scope.md R7). -/
def streamNumber : Stream → Nat
  | .main => 0
  | .side => 1

/-- A number below 144 for each memory; the numbering is the model's own (log 13). -/
def Space.number : Space → Nat
  | .ring st c => 16 * streamNumber st + c.val
  | .specMag st c => 32 + 16 * streamNumber st + c.val
  | .specPh st c => 64 + 16 * streamNumber st + c.val
  | .mixMag c => 96 + c.val
  | .mixPh c => 112 + c.val
  | .ola c => 128 + c.val

/-- The model's address of element `i` of a memory (log 13). -/
def elementAddr (sp : Space) (i : Nat) : Nat := 256 * i + sp.number

/-- What an element that is not listed reads as: 0 once the memories have been cleared
(40_lifecycle.md R81, R82), before that the unspecified power-on contents (10_state.md R24, log 10). -/
def Memory.unlisted (m : Memory) (a : Nat) : Word := if m.cleared then 0 else Config.powerOnElement a

/-- The listed value at an address. -/
def cellAt (a : Nat) : List (Nat × Word) → Option Word
  | [] => none
  | (b, v) :: rest => if b = a then some v else cellAt a rest

/-- The list without the cell at an address. -/
def dropCell (a : Nat) : List (Nat × Word) → List (Nat × Word)
  | [] => []
  | (b, v) :: rest => if b = a then rest else (b, v) :: dropCell a rest

/-- The list with the cell at an address, at its place in rising order. -/
def putCell (a : Nat) (v : Word) : List (Nat × Word) → List (Nat × Word)
  | [] => [(a, v)]
  | (b, u) :: rest =>
    if a < b then (a, v) :: (b, u) :: rest
    else if b = a then (a, v) :: rest
    else (b, u) :: putCell a v rest

/-- Reads one element. -/
def Memory.read (m : Memory) (a : Nat) : Word := (cellAt a m.cells).getD (m.unlisted a)

/-- Writes one element; writing what an unlisted element reads as removes the cell. -/
def Memory.write (m : Memory) (a : Nat) (v : Word) : Memory :=
  { m with cells := if v = m.unlisted a then dropCell a m.cells else putCell a v m.cells }

/-- The canonical form: addresses strictly rising, and no cell equal to what it would read as
unlisted. -/
abbrev Memory.wf (m : Memory) : Prop :=
  (m.cells.map Prod.fst).Pairwise (· < ·) ∧ ∀ c ∈ m.cells, c.2 ≠ m.unlisted c.1

/-- Every element of every memory 0 (40_lifecycle.md R81). -/
def Memory.zeroed : Memory := { cells := [], cleared := true }

/-- Writes the values at consecutive elements from element `i`. -/
def Memory.writeFrom (m : Memory) (sp : Space) (i : Nat) : List Word → Memory
  | [] => m
  | v :: vs => (m.write (elementAddr sp i) v).writeFrom sp (i + 1) vs

/-- Element `i` of a memory. -/
def State.element (s : State) (sp : Space) (i : Nat) : Word := s.mem.read (elementAddr sp i)

/-- The state with element `i` of a memory written. -/
def State.setElement (sp : Space) (i : Nat) (v : Word) (s : State) : State :=
  { s with mem := s.mem.write (elementAddr sp i) v }

/-- The first `n` elements of a memory. -/
def State.elements (s : State) (sp : Space) (n : Nat) : List Word :=
  (List.range n).map (s.element sp)

/-- The state with a memory's elements written from element 0. -/
def State.setElements (sp : Space) (vs : List Word) (s : State) : State :=
  { s with mem := s.mem.writeFrom sp 0 vs }

/-! ### Rings (10_state.md R17) -/

/-- `WR[st][c]` and `CNT[st][c]`. -/
def State.ring (s : State) (st : Stream) (c : Chan) : RingCtl := (s.rings.get st)[c]

/-- The state with `WR[st][c]` and `CNT[st][c]` replaced. -/
def State.setRing (st : Stream) (c : Chan) (r : RingCtl) (s : State) : State :=
  { s with rings := s.rings.set st ((s.rings.get st).set c r) }

/-! ### Scratch values (10_state.md R23) -/

/-- Element `i` of a scratch array. -/
def at0 (xs : List Word) (i : Nat) : Word := xs.getD i 0

/-! ### What non-finite samples leave unspecified (70_reset_and_hazards.md R207, log 9) -/

/-- Whether the spectrum of a stream and channel is of a frame with a NaN or an infinity. -/
def State.specMark (s : State) (st : Stream) (c : Chan) : Bool := (s.marks.spec.get st)[c]

/-- The state with that mark replaced. -/
def State.markSpec (st : Stream) (c : Chan) (b : Bool) (s : State) : State :=
  { s with
    marks := { s.marks with spec := s.marks.spec.set st ((s.marks.spec.get st).set c b) } }

/-- Whether the mixed spectrum of a channel comes from such a frame. -/
def State.mixMark (s : State) (c : Chan) : Bool := s.marks.mix[c]

/-- The state with that mark replaced. -/
def State.markMix (c : Chan) (b : Bool) (s : State) : State :=
  { s with marks := { s.marks with mix := s.marks.mix.set c b } }

/-- Whether such a frame was added into an overlap-add element that has not been emitted since. -/
def State.olaMark (s : State) (c : Chan) (i : Nat) : Bool := decide (i ∈ s.marks.ola[c])

/-- The state with an overlap-add element marked. -/
def State.markOla (c : Chan) (i : Nat) (s : State) : State :=
  if s.olaMark c i then s
  else { s with marks := { s.marks with ola := s.marks.ola.set c (i :: s.marks.ola[c]) } }

/-- The state with an overlap-add element's mark removed. -/
def State.unmarkOla (c : Chan) (i : Nat) (s : State) : State :=
  { s with marks := { s.marks with ola := s.marks.ola.set c (s.marks.ola[c].filter (· ≠ i)) } }

/-! ### The channel loop (00_scope.md R7) -/

/-- `for c in 0..NCH-1`, in ascending order. -/
def forChannels (f : Chan → State → State) (s : State) : State :=
  s.cfg.channels.foldl (fun t c => f c t) s

end Sys2Proof.Machine
end

