-- ==== Sys2Proof/Machine/Operands.lean ====
section
/-! DEFINITION. The operands of the data path: the `clamp`, `min_F` and `blend` functions, the
registers selected by a band id, and the samples on the ports. -/

namespace Sys2Proof.Machine

/-! ### Functions of 41_config.md R92, R93 and 44_exchanger.md R129 -/

/-- The first test of `clamp`: a value below the lower bound, or a NaN, becomes the bound. -/
def raiseTo (N : Numerics) (v lo : Word) : Word := if N.le lo v then v else lo

/-- `clamp(v, lo, hi)` (41_config.md R92). -/
def clamp (N : Numerics) (v lo hi : Word) : Word :=
  if N.lt hi (raiseTo N v lo) then hi else raiseTo N v lo

/-- Whether `clamp` changes its value: the result is not `NUM.eq` to it (41_config.md R92). -/
def clampChanges (N : Numerics) (v lo hi : Word) : Bool := !N.eq (clamp N v lo hi) v

/-- `min_F`, the smaller by `NUM.lt` (41_config.md R93); free for values it does not relate (log 22). -/
def minF (N : Numerics) (a b : Word) : Word :=
  if N.lt a b then a
  else if N.lt b a then b
  else if N.eq a b then a
  else Config.minUnordered a b

/-- `blend(w, a, b) = ((1 - w) * a) + (w * b)` (44_exchanger.md R129). -/
def blend (N : Numerics) (w a b : Word) : Word := N.add (N.mul (N.sub N.one w) a) (N.mul w b)

/-! ### Registers selected by a band id -/

/-- `SNAP_CUT<b>`. -/
def State.snapCut (s : State) : Band → Word
  | .one => s.snap.cut1
  | .two => s.snap.cut2

/-- `SNAP_MIX<b>`. -/
def State.snapMix (s : State) : Band → Word
  | .one => s.snap.mix1
  | .two => s.snap.mix2

/-- The weight of the sidechain update of band `b` (44_exchanger.md R130). -/
def State.sideMix (s : State) (b : Band) : Word :=
  match s.cfg.sidepol with
  | .same => s.snapMix b
  | .other => s.snapMix (otherBand b)

/-- Whether bin `i` lies in `[START<b>, END<b>]`, compared as signed integers (44_exchanger.md R136). -/
def BandRegs.holds (r : BandRegs) (i : Nat) : Bool :=
  decide (r.start.toInt ≤ (i : Int)) && decide ((i : Int) ≤ r.stop.toInt)

/-- The number of bins of an interval, 0 when it is empty (44_exchanger.md R131). -/
def BandRegs.length (r : BandRegs) : Int := max (r.stop.toInt - r.start.toInt + 1) 0

/-! ### The sample ports (20_memory.md R45) -/

/-- The samples waiting for a stream and channel. -/
def State.waiting (s : State) (st : Stream) (c : Chan) : List Word := (s.samplesIn.get st)[c]

/-- Whether a sample waits for a stream and channel. -/
def State.hasSample (s : State) (st : Stream) (c : Chan) : Bool := !(s.waiting st c).isEmpty

/-- The sample of this beat for a stream and channel. -/
def State.nextSample (s : State) (st : Stream) (c : Chan) : Word := (s.waiting st c).headD 0

/-- The state with that sample taken; taking a sample is not repeatable (20_memory.md R48). -/
def State.dropSample (st : Stream) (c : Chan) (s : State) : State :=
  { s with samplesIn := s.samplesIn.set st ((s.samplesIn.get st).set c (s.waiting st c).tail) }

/-- The state with a sample put on main-out for a channel. -/
def State.putSample (c : Chan) (v : Word) (s : State) : State :=
  { s with samplesOut := s.samplesOut.set c (s.samplesOut[c] ++ [v]) }

/-- Whether every sample a beat takes is there: main for every channel, and sidechain too when the
block is active (20_memory.md R45). -/
def State.beatReady (s : State) : Bool :=
  s.cfg.channels.all fun c => s.hasSample .main c && (!s.blkActive || s.hasSample .side c)

/-! ### Outcomes of a micro-operation -/

/-- The outcome of a micro-operation with a channel operand: `c >= NCH` is never issued
(30_encoding.md R64, log 20). -/
def onChannel (c : Chan) (s t : State) : Host.Outcome State Fault Refusal :=
  if c.val < s.cfg.nch then .next t else .fault .noSuchChannel

end Sys2Proof.Machine
end

