-- ==== Sys2Proof/Machine/Accumulator.lean ====
section
/-! DEFINITION. The Frame Accumulator (42_accumulator.md). -/

namespace Sys2Proof.Machine

/-! ### ACC.WRITE (42_accumulator.md R100) -/

/-- The cursor and count after one write: the cursor wraps modulo `N`, the count stops at `N`. -/
def RingCtl.afterWrite (n : Nat) (r : RingCtl) : RingCtl :=
  { wr := (r.wr + 1) % n, cnt := if r.cnt < n then r.cnt + 1 else r.cnt }

/-- One sample written into a ring. -/
def ringWrite (st : Stream) (c : Chan) (v : Word) (s : State) : State :=
  (s.setElement (.ring st c) (s.ring st c).wr v).setRing st c ((s.ring st c).afterWrite s.cfg.n)

/-- `ACC.WRITE st, c` with the sample of this beat, taken from the stream's port. -/
def accWrite (st : Stream) (c : Chan) (s : State) : State :=
  ringWrite st c (s.nextSample st c) (s.dropSample st c)

/-- `ACC.WRITE`; without a sample on the port it is stuck (93_implementation_defined.md U8, log 14). -/
def execAccWrite (st : Stream) (c : Chan) (s : State) : Host.Outcome State Fault Refusal :=
  if s.cfg.nch ≤ c.val then .fault .noSuchChannel
  else if s.hasSample st c then .next (accWrite st c s)
  else .fault .samplePortStuck

/-! ### ACC.READY (42_accumulator.md R101) -/

/-- Every ring of both streams holds a full frame. -/
def State.framesReady (s : State) : Bool :=
  s.cfg.channels.all fun c =>
    decide ((s.ring .main c).cnt = s.cfg.n) && decide ((s.ring .side c).cnt = s.cfg.n)

/-- The test, its answer kept as a scratch value (log 12). -/
def accReady (s : State) : State := { s with scratch := { s.scratch with ready := s.framesReady } }

/-- `ACC.READY`. -/
def execAccReady (s : State) : Host.Outcome State Fault Refusal := .next (accReady s)

/-! ### ACC.FRAME (42_accumulator.md R102) -/

/-- `wrappedRead(st, c, i)`, the only place where a ring is read. -/
def wrappedRead (s : State) (st : Stream) (c : Chan) (i : Nat) : Word :=
  s.element (.ring st c) (((s.ring st c).wr + i) % s.cfg.n)

/-- The last `N` samples, oldest first, in the scratch frame. -/
def accFrame (st : Stream) (c : Chan) (s : State) : State :=
  { s with scratch := { s.scratch with fr := (List.range s.cfg.n).map (wrappedRead s st c) } }

/-- `ACC.FRAME`. -/
def execAccFrame (st : Stream) (c : Chan) (s : State) : Host.Outcome State Fault Refusal :=
  onChannel c s (accFrame st c s)

/-! ### ACC.CONSUME (42_accumulator.md R103) -/

/-- The count after a consume: less by `HOP`. Below `HOP`, outside the rule's precondition, the count
left is free but within R18's bounds (log 21). -/
def RingCtl.afterConsume (g : Cfg) (r : RingCtl) : RingCtl :=
  { r with
    cnt := if g.hop ≤ r.cnt then r.cnt - g.hop
      else Config.consumeBelowHop r.cnt g.hop % (g.n + 1) }

/-- One ring consumed. -/
def consumeRing (st : Stream) (c : Chan) (s : State) : State :=
  s.setRing st c ((s.ring st c).afterConsume s.cfg)

/-- `ACC.CONSUME`: every ring of both streams. -/
def accConsume (s : State) : State :=
  forChannels (consumeRing .side) (forChannels (consumeRing .main) s)

/-- `ACC.CONSUME`. -/
def execAccConsume (s : State) : Host.Outcome State Fault Refusal := .next (accConsume s)

end Sys2Proof.Machine
end

