-- ==== Sys2Proof/Machine/Analyzer.lean ====
section
/-! DEFINITION. The Spectral Analyzer (43_analyzer.md). -/

namespace Sys2Proof.Machine

/-- The `N` samples of the frame. -/
def State.frame (s : State) : List Word := (List.range s.cfg.n).map (at0 s.scratch.fr)

/-- Whether the frame holds a NaN or an infinity (70_reset_and_hazards.md R207). -/
def State.frameBroken (s : State) : Bool := !s.frame.all s.cfg.numerics.isFinite

/-- Whether the frame is silent (43_analyzer.md R116). -/
def State.frameSilent (s : State) : Bool := s.frame.all s.cfg.numerics.isZero

/-- `AN.WINDOW`: `xw[n] <- fr[n] * WIN[n]` (43_analyzer.md R110). The two notes of the model say of the whole
frame whether it holds a NaN or an infinity and whether it is silent (log 9). -/
def anWindow (s : State) : State :=
  { s with
    scratch :=
      { s.scratch with
        xw := (List.range s.cfg.n).map fun n =>
          s.cfg.numerics.mul (at0 s.scratch.fr n) (windowAt s.cfg n)
        xwBroken := s.frameBroken
        xwSilent := s.frameSilent } }

/-- The `N` elements of `xw`. -/
def State.windowed (s : State) : List Word := (List.range s.cfg.n).map (at0 s.scratch.xw)

/-- `AN.RFFT`: `(re, im) <- NUM.rfft(xw)` (43_analyzer.md R112). -/
def anRfft (s : State) : State :=
  { s with
    scratch :=
      { s.scratch with
        re := (rfft s.cfg s.scratch.xwSilent s.windowed).map Prod.fst
        im := (rfft s.cfg s.scratch.xwSilent s.windowed).map Prod.snd
        binsBroken := s.scratch.xwBroken
        binsFromFinite := false } }

/-- `sqrt(re*re + im*im)` (43_analyzer.md R114). -/
def binMagnitude (N : Numerics) (re im : Word) : Word := N.sqrt (N.add (N.mul re re) (N.mul im im))

/-- The magnitude of bin `k`; unspecified for bins of a frame with a NaN or an infinity
(70_reset_and_hazards.md R207, log 9). -/
def State.polarMagnitude (s : State) (k : Nat) : Word :=
  if s.scratch.binsBroken then Config.unspecified .magnitude (s.scratch.re ++ s.scratch.im) k
  else binMagnitude s.cfg.numerics (at0 s.scratch.re k) (at0 s.scratch.im k)

/-- The phase of bin `k`; unspecified likewise. -/
def State.polarPhase (s : State) (k : Nat) : Word :=
  if s.scratch.binsBroken then Config.unspecified .phase (s.scratch.re ++ s.scratch.im) k
  else s.cfg.numerics.atan2 (at0 s.scratch.im k) (at0 s.scratch.re k)

/-- `AN.POLAR st, c`: magnitude and phase of every bin (43_analyzer.md R114). -/
def anPolar (st : Stream) (c : Chan) (s : State) : State :=
  let bins := List.range s.cfg.nb
  State.markSpec st c s.scratch.binsBroken
    ((s.setElements (.specMag st c) (bins.map s.polarMagnitude)).setElements
      (.specPh st c) (bins.map s.polarPhase))

/-- `ANALYZE st, c` (43_analyzer.md R115). -/
def analyze (st : Stream) (c : Chan) (s : State) : State :=
  anPolar st c (anRfft (anWindow (accFrame st c s)))

/-- `AN.WINDOW`. -/
def execAnWindow (_st : Stream) (c : Chan) (s : State) : Host.Outcome State Fault Refusal :=
  onChannel c s (anWindow s)

/-- `AN.RFFT`. -/
def execAnRfft (_st : Stream) (c : Chan) (s : State) : Host.Outcome State Fault Refusal :=
  onChannel c s (anRfft s)

/-- `AN.POLAR`. -/
def execAnPolar (st : Stream) (c : Chan) (s : State) : Host.Outcome State Fault Refusal :=
  onChannel c s (anPolar st c s)

/-- `ANALYZE`. -/
def execAnalyze (st : Stream) (c : Chan) (s : State) : Host.Outcome State Fault Refusal :=
  onChannel c s (analyze st c s)

end Sys2Proof.Machine
end

