-- ==== Sys2Proof/Machine/Exchanger.lean ====
section
/-! DEFINITION. The Band Exchanger (44_exchanger.md): index derivation, the proportional mix, the full
exchange, and the whole exchange of one channel. -/

namespace Sys2Proof.Machine

/-! ### Index derivation (44_exchanger.md R126 to R128) -/

/-- A 32-bit two's-complement register's value. -/
def register (z : Int) : Word := BitVec.ofInt 32 z

/-- `NUM.roundsat((f * NUM.ofNat(N)) / SR)`, the bin of a frequency (44_exchanger.md R126). DESIGN CHOICE
(log 34): with a valid sample rate the bin of frequency 0 is 0, as the rule says, also in a record whose
quotient is not 0 there. -/
def binIndex (s : State) (f : Word) : Int :=
  let N := s.cfg.numerics
  if N.isZero f && s.srValid then 0 else N.roundsat (N.div (N.mul f (N.ofNat s.cfg.n)) s.sr)

/-- `BX.BIN b`. -/
def bxBin (b : Band) (s : State) : State :=
  s.setBand b { s.band b with bin := register (binIndex s (s.snapCut b)) }

/-- The width of band `b` in Hz (44_exchanger.md R127). -/
def bandWidth (s : State) (b : Band) : Word :=
  match s.cfg.wpol with
  | .ratio => s.cfg.numerics.mul s.snap.blen (s.snapCut b)
  | .absHz => s.snap.blen

/-- Whether the width is 0 because the ratio is (44_exchanger.md R127). -/
def State.ratioZero (s : State) : Bool :=
  decide (s.cfg.wpol = .ratio) && s.cfg.numerics.isZero s.snap.blen

/-- `h0`, the rounded half-width (44_exchanger.md R127). DESIGN CHOICE (log 34): with a valid sample rate a
ratio of 0 gives 0, as the rule says, also in a record whose product and quotients are not 0 there. -/
def rawHalfWidth (s : State) (b : Band) : Int :=
  if s.ratioZero && s.srValid then 0
  else binIndex s (s.cfg.numerics.div (bandWidth s b) s.cfg.numerics.two)

/-- `BX.HALFW b`: at least one bin, `EV_EDGE` when it had to be raised. -/
def bxHalfw (b : Band) (s : State) : State :=
  State.raiseIf (decide (rawHalfWidth s b < 1)) .edge
    (s.setBand b { s.band b with hw := register (max 1 (rawHalfWidth s b)) })

/-- `BIN - HW`, exact (44_exchanger.md R128, R136). -/
def BandRegs.low (r : BandRegs) : Int := r.bin.toInt - r.hw.toInt

/-- `BIN + HW`, exact. -/
def BandRegs.high (r : BandRegs) : Int := r.bin.toInt + r.hw.toInt

/-- `BX.INTERVAL b`: the lower bound clamped from below, the upper from above, `EV_EDGE` when either
clamp acted. -/
def bxInterval (b : Band) (s : State) : State :=
  State.raiseIf (decide ((s.band b).low < 0) || decide ((s.cfg.n / 2 : Nat) < (s.band b).high)) .edge
    (s.setBand b
      { s.band b with
        start := register (max (s.band b).low 0)
        stop := register (min (s.band b).high (s.cfg.n / 2 : Nat)) })

/-- `BX.BIN`. -/
def execBxBin (b : Band) (s : State) : Host.Outcome State Fault Refusal := .next (bxBin b s)

/-- `BX.HALFW`. -/
def execBxHalfw (b : Band) (s : State) : Host.Outcome State Fault Refusal := .next (bxHalfw b s)

/-- `BX.INTERVAL`. -/
def execBxInterval (b : Band) (s : State) : Host.Outcome State Fault Refusal :=
  .next (bxInterval b s)

/-! ### Mixing (44_exchanger.md R129 to R135) -/

/-- One side of the proportional mix of one array: inside the interval the blend with the other
side's old value, outside it the old value (44_exchanger.md R130). -/
def mixIn (N : Numerics) (n : Nat) (r : BandRegs) (w : Word) (own other : List Word) : List Word :=
  (List.range n).map fun i =>
    if r.holds i then blend N w (at0 own i) (at0 other i) else at0 own i

/-- `BX.MIXP b, c`: both working copies from the old values of both, magnitude and phase
independently. -/
def bxMixp (b : Band) (s : State) : State :=
  let k := s.scratch
  { s with
    scratch :=
      { k with
        wmMag := mixIn s.cfg.numerics s.cfg.nb (s.band b) (s.snapMix b) k.wmMag k.wsMag
        wsMag := mixIn s.cfg.numerics s.cfg.nb (s.band b) (s.sideMix b) k.wsMag k.wmMag
        wmPh := mixIn s.cfg.numerics s.cfg.nb (s.band b) (s.snapMix b) k.wmPh k.wsPh
        wsPh := mixIn s.cfg.numerics s.cfg.nb (s.band b) (s.sideMix b) k.wsPh k.wmPh } }

/-- `n`, the number of pairs of the full exchange (44_exchanger.md R131). -/
def State.pairs (s : State) : Int := min s.band1.length s.band2.length

/-- One side of the full exchange of one array: the element `k` places from the start of its own
interval, for `k` below the number of pairs, is blended with the old element `k` places from the
start of the other interval (44_exchanger.md R131). -/
def exchangeIn (N : Numerics) (n : Nat) (pairs : Int) (own other : BandRegs) (w : Word)
    (xs ys : List Word) : List Word :=
  (List.range n).map fun (i : Nat) =>
    let k : Int := (i : Int) - own.start.toInt
    if 0 ≤ k ∧ k < pairs then blend N w (at0 xs i) (at0 ys (other.start.toInt + k).toNat) else at0 xs i

/-- `BX.MIXF c`: bin `START1 + k` of the main copy against bin `START2 + k` of the sidechain copy. -/
def bxMixf (s : State) : State :=
  let k := s.scratch
  { s with
    scratch :=
      { k with
        wmMag := exchangeIn s.cfg.numerics s.cfg.nb s.pairs s.band1 s.band2 s.snap.mix1 k.wmMag k.wsMag
        wsMag := exchangeIn s.cfg.numerics s.cfg.nb s.pairs s.band2 s.band1 s.snap.mix2 k.wsMag k.wmMag
        wmPh := exchangeIn s.cfg.numerics s.cfg.nb s.pairs s.band1 s.band2 s.snap.mix1 k.wmPh k.wsPh
        wsPh := exchangeIn s.cfg.numerics s.cfg.nb s.pairs s.band2 s.band1 s.snap.mix2 k.wsPh k.wmPh } }

/-- The working copies of channel `c` (44_exchanger.md R132). -/
def loadCopies (c : Chan) (s : State) : State :=
  { s with
    scratch :=
      { s.scratch with
        wmMag := s.elements (.specMag .main c) s.cfg.nb
        wmPh := s.elements (.specPh .main c) s.cfg.nb
        wsMag := s.elements (.specMag .side c) s.cfg.nb
        wsPh := s.elements (.specPh .side c) s.cfg.nb } }

/-- The mix that `SNAP_XMODE` selects: band 1 then band 2 proportionally, or the full exchange. -/
def mixSelected (s : State) : State :=
  if s.snap.xmode = 0 then bxMixp .two (bxMixp .one s) else bxMixf s

/-- Whether the mix that `SNAP_XMODE` selects blends bin `i` of the main copy. -/
def State.mixes (s : State) (i : Nat) : Bool :=
  if s.snap.xmode = 0 then s.band1.holds i || s.band2.holds i
  else
    decide (0 ≤ (i : Int) - s.band1.start.toInt) && decide ((i : Int) - s.band1.start.toInt < s.pairs)

/-- What a mixed array holds: the working copy, but a blended bin of a spectrum with a frame that holds
a NaN or an infinity is unspecified (70_reset_and_hazards.md R207, log 9). -/
def State.mixedArray (s : State) (c : Chan) (place : Unspecified) (copy : List Word) : List Word :=
  (List.range s.cfg.nb).map fun i =>
    if s.mixMark c && s.mixes i then Config.unspecified place copy i else at0 copy i

/-- `MIX_MAG[c]` and `MIX_PH[c]` from the main working copy. -/
def storeMix (c : Chan) (s : State) : State :=
  (s.setElements (.mixMag c) (s.mixedArray c .mixMagnitude s.scratch.wmMag)).setElements (.mixPh c)
    (s.mixedArray c .mixPhase s.scratch.wmPh)

/-- The mixed spectrum comes from a frame with a NaN or an infinity when either spectrum does. -/
def joinMarks (c : Chan) (s : State) : State :=
  State.markMix c (s.specMark .main c || s.specMark .side c) s

/-- `EXCHANGE c` (44_exchanger.md R132). -/
def exchange (c : Chan) (s : State) : State := storeMix c (mixSelected (loadCopies c (joinMarks c s)))

/-- `BX.MIXP`. -/
def execBxMixp (b : Band) (c : Chan) (s : State) : Host.Outcome State Fault Refusal :=
  onChannel c s (bxMixp b s)

/-- `BX.MIXF`. -/
def execBxMixf (c : Chan) (s : State) : Host.Outcome State Fault Refusal := onChannel c s (bxMixf s)

/-- `EXCHANGE`. -/
def execExchange (c : Chan) (s : State) : Host.Outcome State Fault Refusal :=
  onChannel c s (exchange c s)

end Sys2Proof.Machine
end

