-- ==== Sys2Proof/Machine/Configuration.lean ====
section
/-! DEFINITION. Configuration (41_config.md): `SETP` in its six forms, and `SNAP`. -/

namespace Sys2Proof.Machine

/-! ### SETP (41_config.md R90): the value is stored raw -/

/-- `SETP cut1`. -/
def execSetpCut1 (v : Word) (s : State) : Host.Outcome State Fault Refusal :=
  .next { s with params := { s.params with cut1 := v } }

/-- `SETP cut2`. -/
def execSetpCut2 (v : Word) (s : State) : Host.Outcome State Fault Refusal :=
  .next { s with params := { s.params with cut2 := v } }

/-- `SETP blen`. -/
def execSetpBlen (v : Word) (s : State) : Host.Outcome State Fault Refusal :=
  .next { s with params := { s.params with blen := v } }

/-- `SETP xmode`. -/
def execSetpXmode (v : Word) (s : State) : Host.Outcome State Fault Refusal :=
  .next { s with params := { s.params with xmode := v } }

/-- `SETP mix1`. -/
def execSetpMix1 (v : Word) (s : State) : Host.Outcome State Fault Refusal :=
  .next { s with params := { s.params with mix1 := v } }

/-- `SETP mix2`. -/
def execSetpMix2 (v : Word) (s : State) : Host.Outcome State Fault Refusal :=
  .next { s with params := { s.params with mix2 := v } }

/-! ### SNAP (41_config.md R93) -/

/-- `20.0`. -/
def State.twenty (s : State) : Word := s.cfg.numerics.ofReal (.ratio 20 1)

/-- `fmax`, the upper bound of the centre frequencies. -/
def State.centreMax (s : State) : Word :=
  minF s.cfg.numerics (s.cfg.numerics.ofReal (.ratio 20000 1))
    (s.cfg.numerics.div s.sr s.cfg.numerics.two)

/-- The lower bound of the band length. -/
def blenLow (g : Cfg) : Word :=
  match g.wpol with
  | .ratio => Numerics.zero
  | .absHz => g.numerics.ofReal (.ratio 20 1)

/-- The upper bound of the band length. -/
def blenHigh (g : Cfg) : Word :=
  match g.wpol with
  | .ratio => g.numerics.two
  | .absHz => g.numerics.ofReal (.ratio 2000 1)

/-- The six snapshot values, all from the registers at one instant. -/
def snapshotOf (s : State) : Snapshot :=
  let N := s.cfg.numerics
  { cut1 := clamp N s.params.cut1 s.twenty s.centreMax
    cut2 := clamp N s.params.cut2 s.twenty s.centreMax
    blen := clamp N s.params.blen (blenLow s.cfg) (blenHigh s.cfg)
    xmode := flagBit (N.le (N.ofReal (.ratio 1 2)) s.params.xmode)
    mix1 := clamp N s.params.mix1 Numerics.zero N.one
    mix2 := clamp N s.params.mix2 Numerics.zero N.one }

/-- Whether any of the five clamps changes its value: the cause of `EV_CLAMP` (60_exceptions.md R177). -/
def snapshotClamps (s : State) : Bool :=
  let N := s.cfg.numerics
  clampChanges N s.params.cut1 s.twenty s.centreMax ||
    clampChanges N s.params.cut2 s.twenty s.centreMax ||
    clampChanges N s.params.blen (blenLow s.cfg) (blenHigh s.cfg) ||
    clampChanges N s.params.mix1 Numerics.zero N.one ||
    clampChanges N s.params.mix2 Numerics.zero N.one

/-- The copy and the clamps. -/
def takeSnapshot (s : State) : State :=
  State.raiseIf (snapshotClamps s) .clamp { s with snap := snapshotOf s }

/-- `BX.BIN b ; BX.HALFW b ; BX.INTERVAL b`. -/
def deriveBand (b : Band) (s : State) : State := bxInterval b (bxHalfw b (bxBin b s))

/-- `SNAP`: the snapshot, then the two band intervals. -/
def snapAll (s : State) : State := deriveBand .two (deriveBand .one (takeSnapshot s))

/-- `SNAP`. -/
def execSnap (s : State) : Host.Outcome State Fault Refusal := .next (snapAll s)

end Sys2Proof.Machine
end

