-- ==== Sys2Proof/Machine/Synthesizer.lean ====
section
/-! DEFINITION. The Spectral Synthesizer (45_synthesizer.md). -/

namespace Sys2Proof.Machine

/-- One part of a bin, `mag * f(phase)`. DESIGN CHOICE (log 34): a zero for magnitude 0 and a finite phase,
which the product is too unless `f(phase)` is not finite (45_synthesizer.md R140). DESIGN CHOICE (log 34):
for an infinite magnitude, or a NaN, the product stands, also in the imaginary part at phase 0, where R140
says `im = 0` and `infinity * 0` is a NaN in binary32. -/
def rectPart (N : Numerics) (f : Word → Word) (mag ph : Word) : Word :=
  keepZero N.isZero (N.isZero mag && N.isFinite ph) (N.mul mag (f ph))

/-- Whether the phase is 0 and the record has `cos(0) = 1` and `sin(0) = 0` (45_synthesizer.md R140). -/
def phaseZero (N : Numerics) (ph : Word) : Bool :=
  N.isZero ph && decide (N.cos ph = N.one) && N.isZero (N.sin ph)

/-- The real part of a bin. DESIGN CHOICE (log 34): with phase 0 it is the magnitude, as 45_synthesizer.md
R140 says, an infinite one too, also in a record where `x * 1` is not `x`; a NaN takes the product. -/
def rectRe (N : Numerics) (mag ph : Word) : Word :=
  if phaseZero N ph && !N.isNaN mag then mag else rectPart N N.cos mag ph

/-- Whether the mixed spectrum of a channel is finite (45_synthesizer.md R148). -/
def State.mixFinite (s : State) (c : Chan) : Bool :=
  (List.range s.cfg.nb).all fun k =>
    s.cfg.numerics.isFinite (s.element (.mixMag c) k) && s.cfg.numerics.isFinite (s.element (.mixPh c) k)

/-- `SY.RECT c`: `re = mag*cos(phase)`, `im = mag*sin(phase)` (45_synthesizer.md R140). The bins come from
a frame with a NaN or an infinity when the mixed spectrum does (log 9). -/
def syRect (c : Chan) (s : State) : State :=
  { s with
    scratch :=
      { s.scratch with
        re := (List.range s.cfg.nb).map fun k =>
          rectRe s.cfg.numerics (s.element (.mixMag c) k) (s.element (.mixPh c) k)
        im := (List.range s.cfg.nb).map fun k =>
          rectPart s.cfg.numerics s.cfg.numerics.sin (s.element (.mixMag c) k) (s.element (.mixPh c) k)
        binsBroken := s.mixMark c
        binsFromFinite := s.mixFinite c } }

/-- Element `i` of `re[0..N-1]` after `SY.SYMM`: bin `N-i` mirrored above `N/2`. -/
def mirroredRe (n : Nat) (re : List Word) (i : Nat) : Word :=
  if i ≤ n / 2 then at0 re i else at0 re (n - i)

/-- Element `i` of `im[0..N-1]` after `SY.SYMM`: 0 at DC and Nyquist, negated above `N/2`. DESIGN CHOICE
(log 34): the negative of a zero is a zero, as in `X[N-i] = conj(X[i])` (45_synthesizer.md R141), also in a
record where `0 - 0` is none. -/
def mirroredIm (N : Numerics) (n : Nat) (im : List Word) (i : Nat) : Word :=
  if i = 0 ∨ i = n / 2 then Numerics.zero
  else if i < n / 2 then at0 im i
  else keepZero N.isZero (N.isZero (at0 im (n - i))) (N.sub Numerics.zero (at0 im (n - i)))

/-- `SY.SYMM`: conjugate symmetry (45_synthesizer.md R141). -/
def sySymm (s : State) : State :=
  { s with
    scratch :=
      { s.scratch with
        re := (List.range s.cfg.n).map (mirroredRe s.cfg.n s.scratch.re)
        im := (List.range s.cfg.n).map (mirroredIm s.cfg.numerics s.cfg.n s.scratch.im) } }

/-- The `N` complex bins in `re`, `im`. -/
def State.fullBins (s : State) : List (Word × Word) :=
  (List.range s.cfg.n).map fun k => (at0 s.scratch.re k, at0 s.scratch.im k)

/-- `SY.IRFFT`: `y <- NUM.irfft(re, im)` (45_synthesizer.md R143). -/
def syIrfft (s : State) : State :=
  { s with
    scratch :=
      { s.scratch with
        y := irfft s.cfg s.fullBins
        yFromFinite := s.scratch.binsFromFinite } }

/-- Whether sample `n` starts the frame with 0: `WIN[0]` is a zero, and `y[0]` is finite
(45_synthesizer.md R144) or the frame comes from a finite mixed spectrum (R148). -/
def State.startsAtZero (s : State) (n : Nat) : Bool :=
  decide (n = 0) && s.cfg.numerics.isZero (windowAt s.cfg 0) &&
    (s.cfg.numerics.isFinite (at0 s.scratch.y 0) || s.scratch.yFromFinite)

/-- Whether the mixed spectrum of a channel is all zeros, and `y` with it, as law N-FFT0 has it
(45_synthesizer.md R148). -/
def State.mixSilent (s : State) (c : Chan) : Bool :=
  ((List.range s.cfg.nb).all fun k =>
    s.cfg.numerics.isZero (s.element (.mixMag c) k) && s.cfg.numerics.isFinite (s.element (.mixPh c) k)) &&
    (List.range s.cfg.n).all fun n => s.cfg.numerics.isZero (at0 s.scratch.y n)

/-- Sample `n` of the frame after division and window; a zero where the frame starts with 0 or comes from
the all-zero mixed spectrum, which the product is too unless the division, the window or the transform left
the finite values or `0 / N` is no zero (DESIGN CHOICE, log 34); unspecified for a spectrum from a frame
with a NaN or an infinity (70_reset_and_hazards.md R207, log 9). DESIGN CHOICE (log 24): whether it comes
from such a frame is read from `MIX[c]` of the channel named, at this moment, and not carried with `y`: an
`SY.NORMWIN` queued by itself for another channel than `y` came from, which the driver never issues, leaves
free values of a clean `y` when that channel's mixed spectrum is marked, and the product of any other. -/
def State.frameSample (s : State) (c : Chan) (n : Nat) : Word :=
  let N := s.cfg.numerics
  let v := N.mul (N.div (at0 s.scratch.y n) (N.ofNat s.cfg.n)) (windowAt s.cfg n)
  if s.mixMark c then Config.unspecified .frame s.scratch.y n
  else keepZero N.isZero (s.startsAtZero n || s.mixSilent c) v

/-- `SY.NORMWIN c`: division by `N`, then the window (45_synthesizer.md R144). -/
def syNormwin (c : Chan) (s : State) : State :=
  { s with scratch := { s.scratch with y := (List.range s.cfg.n).map (s.frameSample c) } }

/-- An overlap-add element with sample `k` added; unspecified once a frame with a NaN or an infinity is
added into it, until it is emitted (70_reset_and_hazards.md R207, log 9). DESIGN CHOICE (log 24): as in
`SY.NORMWIN`, the mark is that of `MIX[c]` of the channel named, at this moment, and none that `y`
carries. -/
def State.overlapSum (s : State) (c : Chan) (i k : Nat) : Word :=
  if s.mixMark c || s.olaMark c i then
    Config.unspecified .overlapAdd [s.element (.ola c) i, at0 s.scratch.y k] i
  else s.cfg.numerics.add (s.element (.ola c) i) (at0 s.scratch.y k)

/-- One addition of `SY.OLA`: element `(OLA_WR + k) mod L` (45_synthesizer.md R145), marked when `MIX[c]`
of the channel named is (DESIGN CHOICE, log 24). -/
def olaAddAt (c : Chan) (s : State) (k : Nat) : State :=
  let i := (s.olaWr + k) % s.cfg.len
  let t := s.setElement (.ola c) i (s.overlapSum c i k)
  if s.mixMark c then State.markOla c i t else t

/-- `SY.OLA c`: the frame added at the write cursor. -/
def syOla (c : Chan) (s : State) : State := (List.range s.cfg.n).foldl (olaAddAt c) s

/-- `SYNTHESIZE c` (45_synthesizer.md R146). -/
def synthesize (c : Chan) (s : State) : State :=
  syOla c (syNormwin c (syIrfft (sySymm (syRect c s))))

/-- `SY.ADV`: the write cursor moves by the hop (45_synthesizer.md R147). -/
def syAdv (s : State) : State := { s with olaWr := (s.olaWr + s.cfg.hop) % s.cfg.len }

/-- `SY.RECT`. -/
def execSyRect (c : Chan) (s : State) : Host.Outcome State Fault Refusal := onChannel c s (syRect c s)

/-- `SY.SYMM`. -/
def execSySymm (c : Chan) (s : State) : Host.Outcome State Fault Refusal := onChannel c s (sySymm s)

/-- `SY.IRFFT`. -/
def execSyIrfft (c : Chan) (s : State) : Host.Outcome State Fault Refusal := onChannel c s (syIrfft s)

/-- `SY.NORMWIN`. -/
def execSyNormwin (c : Chan) (s : State) : Host.Outcome State Fault Refusal :=
  onChannel c s (syNormwin c s)

/-- `SY.OLA`. -/
def execSyOla (c : Chan) (s : State) : Host.Outcome State Fault Refusal := onChannel c s (syOla c s)

/-- `SYNTHESIZE`. -/
def execSynthesize (c : Chan) (s : State) : Host.Outcome State Fault Refusal :=
  onChannel c s (synthesize c s)

/-- `SY.ADV`. -/
def execSyAdv (s : State) : Host.Outcome State Fault Refusal := .next (syAdv s)

end Sys2Proof.Machine
end

