-- ==== Sys2Proof/Machine/Driver.lean ====
section
/-! DEFINITION. The Stream Driver (46_driver.md). -/

namespace Sys2Proof.Machine

/-! ### PROCESS (46_driver.md R156) -/

/-- Whether a block runs the spectral path. -/
def State.blockActive (s : State) (scActive : Bool) (scNch : BitVec 4) : Bool :=
  s.usable && scActive && decide (scNch.toNat = s.cfg.nch)

/-- The cause of `EV_MISMATCH`: tested only on a valid core with the sidechain active
(60_exceptions.md R183). -/
def State.blockMismatch (s : State) (scActive : Bool) (scNch : BitVec 4) : Bool :=
  s.usable && scActive && !decide (scNch.toNat = s.cfg.nch)

/-- `PROCESS`: the choice of the block's path and its length. Its beats are the next steps of the
machine, one a step, so that a register access may fall between two of them (20_memory.md R44). DESIGN
CHOICE (log 17): one may also fall between this choice and the block's first beat, which R44 does not
name. -/
def execProcess (nsamp : BitVec 16) (scActive : Bool) (scNch : BitVec 4) (s : State) :
    Host.Outcome State Fault Refusal :=
  .next
    { State.raiseIf (s.blockMismatch scActive scNch) .mismatch
        (State.raiseIf (!s.usable) .degen s) with
      blkActive := s.blockActive scActive scNch
      blkRem := nsamp }

/-! ### DRV.EMIT and DRV.BYPASS (46_driver.md R158, R159) -/

/-- One channel's emission: the element goes out and is cleared, and what a non-finite sample left
unspecified in it with it (70_reset_and_hazards.md R207). -/
def emitChannel (c : Chan) (s : State) : State :=
  State.unmarkOla c s.olaRd
    ((s.putSample c (s.element (.ola c) s.olaRd)).setElement (.ola c) s.olaRd Numerics.zero)

/-- `DRV.EMIT`. -/
def emit (s : State) : State :=
  let t := forChannels emitChannel s
  { t with olaRd := (t.olaRd + 1) % t.cfg.len }

/-- One channel's copy. -/
def bypassChannel (c : Chan) (s : State) : State :=
  (s.putSample c (s.nextSample .main c)).dropSample .main c

/-- `DRV.BYPASS`: main input copied to output. -/
def bypass (s : State) : State := forChannels bypassChannel s

/-- `DRV.EMIT`. -/
def execDrvEmit (s : State) : Host.Outcome State Fault Refusal := .next (emit s)

/-- Whether every main sample of a bypassed beat is there. -/
def State.mainReady (s : State) : Bool := s.cfg.channels.all (s.hasSample .main)

/-- `DRV.BYPASS`; without a main sample on the port it is stuck (log 14). -/
def execDrvBypass (s : State) : Host.Outcome State Fault Refusal :=
  if s.mainReady then .next (bypass s) else .fault .samplePortStuck

/-! ### DRV.CYCLE (46_driver.md R161) -/

/-- One channel's part of a cycle. -/
def cycleChannel (c : Chan) (s : State) : State :=
  synthesize c (exchange c (analyze .side c (analyze .main c s)))

/-- `DRV.CYCLE`. -/
def cycle (s : State) : State :=
  { accConsume (syAdv (forChannels cycleChannel (snapAll { s with drv := .cycle }))) with
    drv := .accumulating }

/-- `DRV.CYCLE`. -/
def execDrvCycle (s : State) : Host.Outcome State Fault Refusal := .next (cycle s)

/-! ### DRV.BEAT (46_driver.md R157) -/

/-- `Idle` becomes `Accumulating`. -/
def leaveIdle (s : State) : State :=
  { s with drv := if s.drv = .idle then .accumulating else s.drv }

/-- The input of an active beat: main in ascending channel order, then sidechain. -/
def takeBeat (s : State) : State :=
  forChannels (accWrite .side) (forChannels (accWrite .main) s)

/-- A cycle, if `ACC.READY` answered true. -/
def cycleIfReady (s : State) : State := if s.scratch.ready then cycle s else s

/-- An active beat: emit, write, then a cycle if a frame is full. -/
def activeBeat (s : State) : State := cycleIfReady (accReady (leaveIdle (takeBeat (emit s))))

/-- One beat. -/
def beat (s : State) : State := if s.blkActive then activeBeat s else bypass s

/-- `DRV.BEAT`, indivisible; without its samples on the ports it is stuck (log 14). -/
def execDrvBeat (s : State) : Host.Outcome State Fault Refusal :=
  if s.beatReady then .next (beat s) else .fault .samplePortStuck

end Sys2Proof.Machine
end

