-- ==== Sys2Proof/Machine/Lifecycle.lean ====
section
/-! DEFINITION. The lifecycle commands `NOP`, `PREPARE`, `RELEASE` (40_lifecycle.md). -/

namespace Sys2Proof.Machine

/-- `NOP` (40_lifecycle.md R80): nothing. -/
def execNop (s : State) : Host.Outcome State Fault Refusal := .next s

/-- What `PREPARE` and `RELEASE` share (40_lifecycle.md R81, R82): every buffer, cursor, snapshot and
band register and the block context return to their initial values, and the driver is idle. -/
def clearBuffers (s : State) : State :=
  { s with
    rings := ringsCleared
    mem := Memory.zeroed
    olaWr := 0
    olaRd := s.cfg.len - s.cfg.n
    snap := Snapshot.zero
    band1 := BandRegs.zero
    band2 := BandRegs.zero
    blkRem := 0
    blkActive := false
    drv := .idle
    marks := Marks.none }

/-- `PREPARE` (40_lifecycle.md R81); any bit pattern is accepted for `sr`, and no event is raised. -/
def execPrepare (sr : Word) (maxBlk : BitVec 16) (s : State) : Host.Outcome State Fault Refusal :=
  .next { clearBuffers s with sr := sr, maxBlk := maxBlk, prepared := true }

/-- `RELEASE` (40_lifecycle.md R82): `SR`, `MAXBLK`, `P_*` and `EVENTS` keep their values. -/
def execRelease (s : State) : Host.Outcome State Fault Refusal :=
  .next { clearBuffers s with prepared := false }

end Sys2Proof.Machine
end

