-- ==== Sys2Proof/Machine/Dispatch.lean ====
section
/-! DEFINITION. One arm for every instruction: one direct call of its meaning. -/

namespace Sys2Proof.Machine

def exec (i : Instr) (s : State) : Host.Outcome State Fault Refusal :=
  match i with
  | .nop => Sys2Proof.Machine.execNop s
  | .prepare sr maxBlk => Sys2Proof.Machine.execPrepare sr maxBlk s
  | .release => Sys2Proof.Machine.execRelease s
  | .setpCut1 v => Sys2Proof.Machine.execSetpCut1 v s
  | .setpCut2 v => Sys2Proof.Machine.execSetpCut2 v s
  | .setpBlen v => Sys2Proof.Machine.execSetpBlen v s
  | .setpXmode v => Sys2Proof.Machine.execSetpXmode v s
  | .setpMix1 v => Sys2Proof.Machine.execSetpMix1 v s
  | .setpMix2 v => Sys2Proof.Machine.execSetpMix2 v s
  | .process nsamp scActive scNch => Sys2Proof.Machine.execProcess nsamp scActive scNch s
  | .accWrite st c => Sys2Proof.Machine.execAccWrite st c s
  | .accReady => Sys2Proof.Machine.execAccReady s
  | .accFrame st c => Sys2Proof.Machine.execAccFrame st c s
  | .accConsume => Sys2Proof.Machine.execAccConsume s
  | .snap => Sys2Proof.Machine.execSnap s
  | .anWindow st c => Sys2Proof.Machine.execAnWindow st c s
  | .anRfft st c => Sys2Proof.Machine.execAnRfft st c s
  | .anPolar st c => Sys2Proof.Machine.execAnPolar st c s
  | .analyze st c => Sys2Proof.Machine.execAnalyze st c s
  | .bxBin b => Sys2Proof.Machine.execBxBin b s
  | .bxHalfw b => Sys2Proof.Machine.execBxHalfw b s
  | .bxInterval b => Sys2Proof.Machine.execBxInterval b s
  | .bxMixp b c => Sys2Proof.Machine.execBxMixp b c s
  | .bxMixf c => Sys2Proof.Machine.execBxMixf c s
  | .exchange c => Sys2Proof.Machine.execExchange c s
  | .syRect c => Sys2Proof.Machine.execSyRect c s
  | .sySymm c => Sys2Proof.Machine.execSySymm c s
  | .syIrfft c => Sys2Proof.Machine.execSyIrfft c s
  | .syNormwin c => Sys2Proof.Machine.execSyNormwin c s
  | .syOla c => Sys2Proof.Machine.execSyOla c s
  | .synthesize c => Sys2Proof.Machine.execSynthesize c s
  | .syAdv => Sys2Proof.Machine.execSyAdv s
  | .drvEmit => Sys2Proof.Machine.execDrvEmit s
  | .drvBypass => Sys2Proof.Machine.execDrvBypass s
  | .drvCycle => Sys2Proof.Machine.execDrvCycle s
  | .drvBeat => Sys2Proof.Machine.execDrvBeat s

end Sys2Proof.Machine
end

