-- ==== Sys2Proof/Machine/RegisterPort.lean ====
section
/-! DEFINITION. The register port (20_memory.md R42, R44, R48, R49). An address is a word
address of 32 bits: those above `0x1F` read 0 and ignore writes like the other reserved ones (R49,
log 23). -/

namespace Sys2Proof.Machine

/-- `RegRead(addr)`: the word at an address; reserved addresses read 0. -/
def regRead (s : State) (addr : BitVec 32) : Word :=
  if addr = 0x00 then s.cfgWord
  else if addr = 0x01 then s.statusWord
  else if addr = 0x02 then s.events.setWidth 32
  else if addr = 0x03 then s.sr
  else if addr = 0x04 then s.maxBlk.setWidth 32
  else if addr = 0x08 then s.params.cut1
  else if addr = 0x09 then s.params.cut2
  else if addr = 0x0A then s.params.blen
  else if addr = 0x0B then s.params.xmode
  else if addr = 0x0C then s.params.mix1
  else if addr = 0x0D then s.params.mix2
  else if addr = 0x10 then s.snap.cut1
  else if addr = 0x11 then s.snap.cut2
  else if addr = 0x12 then s.snap.blen
  else if addr = 0x13 then s.snap.xmode.setWidth 32
  else if addr = 0x14 then s.snap.mix1
  else if addr = 0x15 then s.snap.mix2
  else if addr = 0x18 then s.band1.bin
  else if addr = 0x19 then s.band1.hw
  else if addr = 0x1A then s.band1.start
  else if addr = 0x1B then s.band1.stop
  else if addr = 0x1C then s.band2.bin
  else if addr = 0x1D then s.band2.hw
  else if addr = 0x1E then s.band2.start
  else if addr = 0x1F then s.band2.stop
  else 0

/-- The parameters after a write to an address: plain for the six `P_*` addresses, no effect at any
other (41_config.md R91). -/
def paramsAfterWrite (p : Params) (addr : BitVec 32) (v : Word) : Params :=
  if addr = 0x08 then { p with cut1 := v }
  else if addr = 0x09 then { p with cut2 := v }
  else if addr = 0x0A then { p with blen := v }
  else if addr = 0x0B then { p with xmode := v }
  else if addr = 0x0C then { p with mix1 := v }
  else if addr = 0x0D then { p with mix2 := v }
  else p

/-- `EVENTS` after a write to an address: write-one-to-clear at its own, no effect at any other
(10_state.md R16). -/
def eventsAfterWrite (e : BitVec 5) (addr : BitVec 32) (v : Word) : BitVec 5 :=
  if addr = 0x02 then e &&& ~~~(v.setWidth 5) else e

/-- `RegWrite(addr, v)`: ignored where the register is not writable. -/
def regWrite (addr : BitVec 32) (v : Word) (s : State) : State :=
  { s with
    params := paramsAfterWrite s.params addr v
    events := eventsAfterWrite s.events addr v }

/-- `RegRead` as a turn: the word is returned, nothing else changes (20_memory.md R48). -/
def answerRead (addr : BitVec 32) (s : State) : State :=
  { s with regOut := s.regOut ++ [regRead s addr] }

end Sys2Proof.Machine
end

