-- ==== Sys2Proof/Machine/Fetch.lean ====
section
/-! DEFINITION. Where the next operation comes from: the register port between beats and commands
(20_memory.md R44, R51), the micro-operations queued to the data path (log 18), the beats of the block
in progress (46_driver.md R156), and the command port (30_encoding.md R71). -/

namespace Sys2Proof.Machine

/-- A word issued to the data path: the micro-operation of 30_encoding.md R64 it stands for is run. -/
def runMicro (w : Word) (s : State) : Host.Outcome State Fault Refusal :=
  match decodeMicro w with
  | .op i => exec i s
  | .rejected _ => .refused .unassignedMicroOperation

/-- `BLK_REM <- BLK_REM - 1`, after a beat that completed (46_driver.md R156). -/
def countBeat : Host.Outcome State Fault Refusal → Host.Outcome State Fault Refusal
  | .next t => .next { t with blkRem := t.blkRem - 1 }
  | .fault r => .fault r
  | .refused r => .refused r

/-- One beat of the block in progress. -/
def runBeat (s : State) : Host.Outcome State Fault Refusal := countBeat (exec .drvBeat s)

/-- The command port: a whole command is run; an illegal header is consumed as one word and raises
`EV_ILLCMD` (30_encoding.md R65); without a whole command the core waits and nothing changes
(20_memory.md R47, 70_reset_and_hazards.md R195, log 15). -/
def runCommand (s : State) : Host.Outcome State Fault Refusal :=
  match decodeCommand s.cmdIn with
  | .awaiting => .next s
  | .illegal _ rest => .next (State.raiseIf true .illCmd { s with cmdIn := rest })
  | .taken i rest => exec i { s with cmdIn := rest }

/-- The Stream Driver's turn. No command is taken while a block is in progress (20_memory.md R43). -/
def driverTurn (s : State) : Host.Outcome State Fault Refusal :=
  match s.issue with
  | w :: ws => runMicro w { s with issue := ws }
  | [] => if s.blkRem = 0 then runCommand s else runBeat s

/-- One turn of the total order of 20_memory.md R51; with no turn given, the driver moves. -/
def takeTurn (s : State) : Host.Outcome State Fault Refusal :=
  match s.turns with
  | [] => driverTurn s
  | .driver :: ts => driverTurn { s with turns := ts }
  | .regRead addr :: ts => .next (answerRead addr { s with turns := ts })
  | .regWrite addr v :: ts => .next (regWrite addr v { s with turns := ts })

/-- The state whose next driver's turn takes its operation from the given words: a micro-operation
word goes to the data path's queue, command words to the head of the command port with no block in
progress and no micro-operation queued (log 18). -/
def placeWords (ws : List Word) (s : State) : State :=
  if isMicroWord (ws.headD 0) then { s with issue := ws.headD 0 :: s.issue, turns := .driver :: s.turns }
  else { s with issue := [], blkRem := 0, cmdIn := ws ++ s.cmdIn, turns := .driver :: s.turns }

end Sys2Proof.Machine
end

