-- ==== Sys2Proof/Safety.lean ====
section
/-! DEFINITION. The terms in which statements speak: the laws and the accuracy of a numerics record,
running instructions in sequence, whose turn it is, and the invariants of the machine. -/

namespace Sys2Proof

open Machine

/-! ### The numerics record (00_scope.md R8) -/

/-- Two values are the same up to the bits of a NaN (93_implementation_defined.md U10). -/
def Numerics.agrees (N : Numerics) (a b : Word) : Prop := a = b ∨ (N.isNaN a = true ∧ N.isNaN b = true)

/-- The numbers, in units of `1/per`, that the values of a record stand for (00_scope.md R8): the constants
for 0, 1 and 2, the values that are no NaN in the order of their numbers; `ofNat` is exact up to `2^13`
(92_eei_decisions.md D46); `roundsat` gives the nearest integer, ties away from zero, saturated to the 32-bit
signed range (D12); law N-ATAN, where `-pi_F` is the value whose number is the negative of that of `pi_F`
(log 33): every angle lies in `[-pi_F, pi_F]`, and a zero `im` with `re < 0` gives `pi_F`, or one of the two
when it is no positive zero (43_analyzer.md R114, 93_implementation_defined.md U11). -/
structure Numerics.Values (N : Numerics) (per : Nat) (value : Word → Int) : Prop where
  pos : 0 < per
  constants : value Numerics.zero = 0 ∧ value N.one = per ∧ value N.two = 2 * per
  ofNat : ∀ n, n ≤ 2 ^ 13 → N.isFinite (N.ofNat n) = true ∧ value (N.ofNat n) = n * per
  order : ∀ a b, N.isNaN a = false → N.isNaN b = false →
    N.lt a b = decide (value a < value b)
  roundsat : ∀ x, N.isFinite x = true → N.roundsat x = saturate (nearestInt per (value x))
  atanRange : ∀ im re, N.isNaN (N.atan2 im re) = false ∧
    |value (N.atan2 im re)| ≤ value (N.ofReal .pi)
  atanPi : ∀ im re, N.isZero im = true → N.lt re Numerics.zero = true →
    N.atan2 im re = N.ofReal .pi ∨
      (im ≠ Numerics.zero ∧ value (N.atan2 im re) = -value (N.ofReal .pi))

/-- The laws every `NUM` must meet (00_scope.md R8), N-PURE aside, which is that the fields are
functions. Where a field's docstring names another rule, the law is read from that rule (log 2). -/
structure Numerics.Lawful (N : Numerics) : Prop where
  /-- "Every comparison with a NaN is false." -/
  nanCompares : ∀ a b, N.isNaN a = true ∨ N.isNaN b = true →
    N.lt a b = false ∧ N.le a b = false ∧ N.eq a b = false
  /-- `lt`, `le`, `eq` are order and equality on the values that are no NaN. -/
  order : ∀ a b, N.isNaN a = false → N.isNaN b = false →
    N.lt a b = !N.le b a ∧ N.eq a b = (N.le a b && N.le b a) ∧ (N.le a b = true ∨ N.le b a = true)
  transitive : ∀ a b c, N.le a b = true → N.le b c = true → N.le a c = true
  constants : N.isNaN Numerics.zero = false ∧ N.lt Numerics.zero N.one = true ∧
    N.isFinite Numerics.zero = true ∧ N.isFinite N.one = true ∧ N.isFinite N.two = true
  /-- A finite value is no NaN, and a value between two finite values is finite (41_config.md R92). -/
  finite : ∀ a, N.isFinite a = true → N.isNaN a = false
  finiteBetween : ∀ a b x, N.isFinite a = true → N.isFinite b = true →
    N.le a x = true → N.le x b = true → N.isFinite x = true
  /-- N-ONE. -/
  mulOne : ∀ x, N.agrees (N.mul N.one x) x
  subOneZero : N.sub N.one Numerics.zero = N.one
  subOneOne : N.sub N.one N.one = Numerics.zero
  divOne : ∀ x, N.agrees (N.div x N.one) x
  /-- N-ZERO, in both orders of the operands (43_analyzer.md R110, 44_exchanger.md R129,
  45_synthesizer.md R144). -/
  mulZero : ∀ z x, N.isZero z = true → N.isFinite x = true →
    N.isZero (N.mul z x) = true ∧ N.isZero (N.mul x z) = true
  addZero : ∀ z x, N.isZero z = true → N.isFinite x = true → N.isZero x = false →
    N.add x z = x ∧ N.add z x = x
  addZeros : ∀ y z, N.isZero y = true → N.isZero z = true → N.isZero (N.add y z) = true
  /-- N-SQRT. -/
  sqrt : ∀ x, N.lt (N.sqrt x) Numerics.zero = false ∧ (N.isZero x = true → N.isZero (N.sqrt x) = true)
  /-- N-ATAN, with its range in `numbers`; `atan2(0, 0) = 0` for every sign of zero (92_eei_decisions.md
  D11). -/
  atanZero : ∀ re, N.le Numerics.zero re = true → N.atan2 Numerics.zero re = Numerics.zero
  atanOrigin : ∀ im re, N.isZero im = true → N.isZero re = true → N.isZero (N.atan2 im re) = true
  /-- The values stand for numbers. -/
  numbers : ∃ per value, N.Values per value
  /-- `roundsat` saturates an infinity, and a NaN gives 0 (92_eei_decisions.md D12). -/
  roundsat : ∀ x, N.isFinite x = false →
    N.roundsat x = if N.isNaN x then 0 else if N.lt x Numerics.zero then -2 ^ 31 else 2 ^ 31 - 1
  /-- The entries that are exact, and the window's symmetry (00_scope.md R9, 43_analyzer.md R113). -/
  exactEntries : ∀ logn, 2 ≤ logn → logn ≤ 12 →
    N.ofReal (.hann 0 (2 ^ logn)) = Numerics.zero ∧
    N.ofReal (.hann (2 ^ logn / 2) (2 ^ logn)) = N.one ∧
    N.ofReal (.cosTurn 0 (2 ^ logn)) = N.one ∧
    N.ofReal (.sinTurn 0 (2 ^ logn)) = Numerics.zero ∧
    N.ofReal (.cosTurn (2 ^ logn / 4) (2 ^ logn)) = Numerics.zero ∧
    N.ofReal (.sinTurn (2 ^ logn / 4) (2 ^ logn)) = N.one
  windowSymmetric : ∀ logn n, 2 ≤ logn → logn ≤ 12 → 1 ≤ n → n < 2 ^ logn →
    N.ofReal (.hann n (2 ^ logn)) = N.ofReal (.hann (2 ^ logn - n) (2 ^ logn))
  /-- N-FFT0. -/
  rfftZero : ∀ logn xw, 2 ≤ logn → logn ≤ 12 → xw.length = 2 ^ logn →
    (∀ x ∈ xw, N.isZero x = true) →
    ∀ b ∈ N.rfft logn xw, N.isZero b.1 = true ∧ N.isZero b.2 = true
  irfftZero : ∀ logn bins, 2 ≤ logn → logn ≤ 12 → bins.length = 2 ^ logn →
    (∀ b ∈ bins, N.isZero b.1 = true ∧ N.isZero b.2 = true) →
    ∀ y ∈ N.irfft logn bins, N.isZero y = true

/-- The real number that `NUM.ofReal` converts (00_scope.md R8, R9; 43_analyzer.md R113). -/
def ExactReal.Denotes : ExactReal → ℝ → Prop
  | .ratio p q, x => q ≠ 0 ∧ x * q = p
  | .pi, x => x = Real.pi
  | .hann i n, x => n ≠ 0 ∧ x = (1 - Real.cos (2 * Real.pi * i / n)) / 2
  | .cosTurn k n, x => n ≠ 0 ∧ x = Real.cos (2 * Real.pi * k / n)
  | .sinTurn k n, x => n ≠ 0 ∧ x = Real.sin (2 * Real.pi * k / n)

/-- The operations that `EPS` speaks of (00_scope.md R8, law N-ACC). -/
inductive Operation where
  | ofReal (x : ExactReal)
  | add
  | sub
  | mul
  | div
  | sqrt
  | cos
  | sin
  | atan2
  | rfft
  | irfft
  deriving DecidableEq, Repr

/-- N-ACC (00_scope.md R8, 93_implementation_defined.md U1): a record is accurate to the open parameter
`EPS` against the ideal meaning, where `value` is the real number a finite value stands for. A claim
that needs accuracy takes this as a premise and so names the bound it assumes. The ideal transforms are
43_analyzer.md R111 and 45_synthesizer.md R142. -/
structure Numerics.Accurate (N : Numerics) (value : Word → ℝ) (eps : Operation → List Word → ℝ) :
    Prop where
  zero : value Numerics.zero = 0
  one : value N.one = 1
  two : value N.two = 2
  ofNat : ∀ n : Nat, n ≤ 2 ^ 13 → value (N.ofNat n) = n
  ofReal : ∀ x r, x.Denotes r → N.isFinite (N.ofReal x) = true →
    |value (N.ofReal x) - r| ≤ eps (.ofReal x) []
  add : ∀ a b, N.isFinite a = true → N.isFinite b = true → N.isFinite (N.add a b) = true →
    |value (N.add a b) - (value a + value b)| ≤ eps .add [a, b]
  sub : ∀ a b, N.isFinite a = true → N.isFinite b = true → N.isFinite (N.sub a b) = true →
    |value (N.sub a b) - (value a - value b)| ≤ eps .sub [a, b]
  mul : ∀ a b, N.isFinite a = true → N.isFinite b = true → N.isFinite (N.mul a b) = true →
    |value (N.mul a b) - value a * value b| ≤ eps .mul [a, b]
  div : ∀ a b, N.isFinite a = true → N.isFinite b = true → value b ≠ 0 →
    N.isFinite (N.div a b) = true → |value (N.div a b) - value a / value b| ≤ eps .div [a, b]
  sqrt : ∀ a, N.isFinite a = true → 0 ≤ value a → N.isFinite (N.sqrt a) = true →
    |value (N.sqrt a) - Real.sqrt (value a)| ≤ eps .sqrt [a]
  cos : ∀ a, N.isFinite a = true → N.isFinite (N.cos a) = true →
    |value (N.cos a) - Real.cos (value a)| ≤ eps .cos [a]
  sin : ∀ a, N.isFinite a = true → N.isFinite (N.sin a) = true →
    |value (N.sin a) - Real.sin (value a)| ≤ eps .sin [a]
  atan2 : ∀ im re, N.isFinite im = true → N.isFinite re = true →
    N.isFinite (N.atan2 im re) = true →
    |value (N.atan2 im re) - Complex.arg ⟨value re, value im⟩| ≤ eps .atan2 [im, re]
  rfft : ∀ logn xw k, xw.length = 2 ^ logn → (∀ x ∈ xw, N.isFinite x = true) →
    k ≤ 2 ^ logn / 2 →
    let bin := (N.rfft logn xw).getD k (0, 0)
    let angle := fun n : Nat => 2 * Real.pi * k * n / 2 ^ logn
    let x := fun n => value (xw.getD n 0)
    N.isFinite bin.1 = true → N.isFinite bin.2 = true →
    |value bin.1 - ∑ n ∈ Finset.range (2 ^ logn), x n * Real.cos (angle n)| ≤ eps .rfft xw ∧
    |value bin.2 + ∑ n ∈ Finset.range (2 ^ logn), x n * Real.sin (angle n)| ≤ eps .rfft xw
  irfft : ∀ logn bins n, bins.length = 2 ^ logn →
    (∀ b ∈ bins, N.isFinite b.1 = true ∧ N.isFinite b.2 = true) → n < 2 ^ logn →
    let sample := (N.irfft logn bins).getD n 0
    let angle := fun k : Nat => 2 * Real.pi * k * n / 2 ^ logn
    let re := fun k => value (bins.getD k (0, 0)).1
    let im := fun k => value (bins.getD k (0, 0)).2
    N.isFinite sample = true →
    |value sample - ∑ k ∈ Finset.range (2 ^ logn),
        (re k * Real.cos (angle k) - im k * Real.sin (angle k))| ≤
      eps .irfft (bins.flatMap fun b => [b.1, b.2])

end Sys2Proof

namespace Sys2Proof.Machine

/-- The instructions of a list, one after another, stopping at the first stop. -/
def execAll : List Instr → State → Host.Outcome State Fault Refusal
  | [], s => .next s
  | i :: is, s =>
    match exec i s with
    | .next t => execAll is t
    | .fault r => .fault r
    | .refused r => .refused r

/-- `k` steps of the machine. -/
def stepMany : Nat → State → Host.Outcome State Fault Refusal
  | 0, s => .next s
  | k + 1, s =>
    match step s with
    | .next t => stepMany k t
    | .fault r => .fault r
    | .refused r => .refused r

/-- The next turn is the Stream Driver's (20_memory.md R51). -/
def State.driverNext (s : State) : Prop := s.turns = [] ∨ s.turns.head? = some .driver

/-- The state with that turn taken from the turns to come. -/
def State.turnTaken (s : State) : State := { s with turns := s.turns.tail }

/-- No register access is to come: every turn is the driver's. -/
def State.undisturbed (s : State) : Prop := s.turns = []

/-- At least `k` samples wait for every channel on main-in, and on sidechain-in when the block is
active (20_memory.md R45). -/
def State.supplied (s : State) (k : Nat) : Prop :=
  ∀ c : Chan, c.val < s.cfg.nch →
    k ≤ (s.waiting .main c).length ∧ (s.blkActive → k ≤ (s.waiting .side c).length)

/-- Every element at an address outside a set reads as before. -/
def sameOutside (touched : Nat → Prop) (s t : State) : Prop :=
  ∀ a, ¬ touched a → t.mem.read a = s.mem.read a

/-- The addresses of the first `n` elements of a memory. -/
def firstElements (sp : Space) (n : Nat) (a : Nat) : Prop := ∃ i, i < n ∧ a = elementAddr sp i

/-- The bounds of a ring's cursor and count (10_state.md R18). -/
def RingCtl.inBounds (g : Cfg) (r : RingCtl) : Prop := r.wr < g.n ∧ r.cnt ≤ g.n

/-- The bounds of a band's registers: the half-width is not negative and the interval lies in
`[0, N/2]` (10_state.md R13). -/
def BandRegs.inBounds (g : Cfg) (r : BandRegs) : Prop :=
  0 ≤ r.hw.toInt ∧ 0 ≤ r.start.toInt ∧ r.stop.toInt ≤ ((g.n / 2 : Nat) : Int)

/-- The driver's next operation is a beat of an active block (46_driver.md R157). -/
def State.activeBeatNext (s : State) : Prop :=
  s.driverNext ∧ s.issue = [] ∧ s.blkRem ≠ 0 ∧ s.blkActive = true

/-- Every overlap-add element holds 0. -/
def State.Quiet (s : State) : Prop :=
  ∀ c : Chan, c.val < s.cfg.nch → ∀ i, s.element (.ola c) i = 0

/-- The machine's invariant, which every step keeps whatever the hosts do and whatever
micro-operation is queued: a legal construction, memory in canonical form, cursors and counts in range
(10_state.md R18, R20), band intervals in range (R13), `DRV_STATE` not `Cycle` between steps (R14), an
active block only on a prepared core with a valid sample rate (46_driver.md R156), and cleared
memories on a prepared core (70_reset_and_hazards.md R196). -/
structure State.Sound (s : State) : Prop where
  legal : s.cfg.legal = true
  memory : s.mem.wf
  rings : ∀ st c, (s.ring st c).inBounds s.cfg
  olaWrite : s.olaWr < s.cfg.len ∧ s.cfg.hop ∣ s.olaWr
  olaRead : s.olaRd < s.cfg.len
  bands : ∀ b, (s.band b).inBounds s.cfg
  notInCycle : s.drv ≠ .cycle
  active : s.blkActive = true → s.usable = true
  cleared : s.prepared = true → s.mem.cleared = true

/-- The driver's invariant, on a machine whose data path is fed by the driver alone: every ring is at
the same place, short of a full frame, and the read cursor runs `N` beats of input ahead of the write
cursor's frame (10_state.md R18, R21; 46_driver.md R163). -/
structure State.InStep (s : State) : Prop where
  noQueue : s.issue = []
  same : ∀ st c, c.val < s.cfg.nch → s.ring st c = s.ring .main 0
  notFull : (s.ring .main 0).cnt < s.cfg.n
  readCursor : s.olaRd = (s.cfg.n + s.olaWr + (s.ring .main 0).cnt) % s.cfg.len
  writeCursor : (s.ring .main 0).wr = s.olaRd % s.cfg.n

/-- The overlap-add region that no frame has been added to since it was last emitted, from the end of
the last frame up to the read cursor, holds 0 on a prepared core, so that no addition collides with
history still to be emitted (10_state.md R21, 46_driver.md R163). -/
def State.TailClear (s : State) : Prop :=
  s.prepared = true →
    ∀ c : Chan, c.val < s.cfg.nch →
      ∀ j, s.cfg.n - s.cfg.hop ≤ j → j < s.cfg.n + (s.ring .main 0).cnt →
        s.element (.ola c) ((s.olaWr + j) % s.cfg.len) = 0

end Sys2Proof.Machine
end

