-- ==== Sys2Proof/Certificates/Slice0/Obligations.lean ====
section
/-! DEFINITION. The statements for the provers. Each docstring names the rule of spec/ it formalises, or
says what it is derived from. Where a statement speaks of memory, it asks for the canonical form, which
every step keeps (`SoundnessIsKept`). -/

open Sys2Proof Sys2Proof.Machine

/-! ### Encoding -/

/-- 30_encoding.md R63, R64: decoding the words of an instruction gives the instruction back, on the
path its header belongs to, and leaves the words after it. -/
def Obligations.DecodingInvertsEncoding : Prop :=
  ∀ (i : Instr) (rest : List Word),
    ∃ w ws, encode i = w :: ws ∧
      (if isMicroWord w then ws = [] ∧ decodeMicro w = .op i
       else decodeCommand (encode i ++ rest) = .taken i rest)

/-- 30_encoding.md R64, R68, R71: every command the port decodes, and every word the data path accepts,
is the encoding of its instruction and nothing else, so no bit of a legal word goes unread. -/
def Obligations.DecodedWordsAreTheirEncoding : Prop :=
  (∀ (ws : List Word) (i : Instr) (rest : List Word),
    decodeCommand ws = .taken i rest → ws = encode i ++ rest) ∧
  ∀ (w : Word) (i : Instr), decodeMicro w = .op i → encode i = [w]

/-- 30_encoding.md R63, R64: the ten host command patterns and the twenty-six micro-operation patterns,
as numbers, with every operand. -/
def Obligations.InstructionPatterns : Prop :=
  (∀ (v : Word) (imm : BitVec 16) (sc : Bool) (k : BitVec 4) (rest : List Word),
    decodeCommand (0x00000000 :: rest) = .taken .nop rest ∧
    decodeCommand (BitVec.ofNat 32 (0x01000000 + imm.toNat) :: v :: rest)
      = .taken (.prepare v imm) rest ∧
    decodeCommand (0x02000000 :: rest) = .taken .release rest ∧
    decodeCommand (0x03000000 :: v :: rest) = .taken (.setpCut1 v) rest ∧
    decodeCommand (0x03100000 :: v :: rest) = .taken (.setpCut2 v) rest ∧
    decodeCommand (0x03200000 :: v :: rest) = .taken (.setpBlen v) rest ∧
    decodeCommand (0x03300000 :: v :: rest) = .taken (.setpXmode v) rest ∧
    decodeCommand (0x03400000 :: v :: rest) = .taken (.setpMix1 v) rest ∧
    decodeCommand (0x03500000 :: v :: rest) = .taken (.setpMix2 v) rest ∧
    decodeCommand
        (BitVec.ofNat 32 (0x04000000 + k.toNat * 2 ^ 20 + sc.toNat * 2 ^ 16 + imm.toNat) :: rest)
      = .taken (.process imm sc k) rest) ∧
  ∀ (st : Stream) (b : Band) (c : Chan),
    let stc := streamNumber st * 2 ^ 20 + c.val * 2 ^ 16
    let bc := (if b = .one then 1 else 2) * 2 ^ 20
    let word : Nat → Word := BitVec.ofNat 32
    decodeMicro (word (0x80000000 + stc)) = .op (.accWrite st c) ∧
    decodeMicro (word 0x81000000) = .op .accReady ∧
    decodeMicro (word (0x82000000 + stc)) = .op (.accFrame st c) ∧
    decodeMicro (word 0x83000000) = .op .accConsume ∧
    decodeMicro (word 0x88000000) = .op .snap ∧
    decodeMicro (word (0x90000000 + stc)) = .op (.anWindow st c) ∧
    decodeMicro (word (0x91000000 + stc)) = .op (.anRfft st c) ∧
    decodeMicro (word (0x92000000 + stc)) = .op (.anPolar st c) ∧
    decodeMicro (word (0x93000000 + stc)) = .op (.analyze st c) ∧
    decodeMicro (word (0xA0000000 + bc)) = .op (.bxBin b) ∧
    decodeMicro (word (0xA1000000 + bc)) = .op (.bxHalfw b) ∧
    decodeMicro (word (0xA2000000 + bc)) = .op (.bxInterval b) ∧
    decodeMicro (word (0xA3000000 + bc + c.val * 2 ^ 16)) = .op (.bxMixp b c) ∧
    decodeMicro (word (0xA4000000 + c.val * 2 ^ 16)) = .op (.bxMixf c) ∧
    decodeMicro (word (0xA5000000 + c.val * 2 ^ 16)) = .op (.exchange c) ∧
    decodeMicro (word (0xB0000000 + c.val * 2 ^ 16)) = .op (.syRect c) ∧
    decodeMicro (word (0xB1000000 + c.val * 2 ^ 16)) = .op (.sySymm c) ∧
    decodeMicro (word (0xB2000000 + c.val * 2 ^ 16)) = .op (.syIrfft c) ∧
    decodeMicro (word (0xB3000000 + c.val * 2 ^ 16)) = .op (.syNormwin c) ∧
    decodeMicro (word (0xB4000000 + c.val * 2 ^ 16)) = .op (.syOla c) ∧
    decodeMicro (word (0xB5000000 + c.val * 2 ^ 16)) = .op (.synthesize c) ∧
    decodeMicro (word 0xB6000000) = .op .syAdv ∧
    decodeMicro (word 0xC0000000) = .op .drvEmit ∧
    decodeMicro (word 0xC1000000) = .op .drvBypass ∧
    decodeMicro (word 0xC2000000) = .op .drvCycle ∧
    decodeMicro (word 0xC3000000) = .op .drvBeat

/-- 30_encoding.md R65: a header is illegal exactly when its `OP` is above `0x04`, a field its format
requires to be 0 is not 0, or it is `SETP` with `SEL > 5`. The step at an illegal header consumes that
one word, sets `EV_ILLCMD` and changes nothing else; at any other header the decoder does not answer
illegal. -/
def Obligations.IllegalHeaderIsConsumedAndFlagged : Prop :=
  ∀ (s : State) (w : Word) (ws : List Word),
    s.driverNext → s.issue = [] → s.blkRem = 0 → s.cmdIn = w :: ws →
    let op := w.toNat / 2 ^ 24
    let sel := w.toNat / 2 ^ 20 % 16
    let aux := w.toNat / 2 ^ 16 % 16
    let imm := w.toNat % 2 ^ 16
    let illegal :=
      4 < op ∨ ((op = 0 ∨ op = 2) ∧ (sel ≠ 0 ∨ aux ≠ 0 ∨ imm ≠ 0)) ∨
        (op = 1 ∧ (sel ≠ 0 ∨ aux ≠ 0)) ∨ (op = 3 ∧ (5 < sel ∨ aux ≠ 0 ∨ imm ≠ 0)) ∨
        (op = 4 ∧ 2 ≤ aux)
    (illegal → step s = .next { s.turnTaken with cmdIn := ws, events := s.events ||| 0x10 }) ∧
    (¬ illegal → ∀ why rest, decodeCommand (w :: ws) ≠ .illegal why rest)

/-- 20_memory.md R47, 30_encoding.md R68, 70_reset_and_hazards.md R195: with no header at the port, or
with a legal `PREPARE` or `SETP` header whose payload has not come, the driver's turn changes nothing. -/
def Obligations.CoreWaitsForAWholeCommand : Prop :=
  ∀ (s : State) (mb : BitVec 16) (p : BitVec 4),
    s.driverNext → s.issue = [] → s.blkRem = 0 → p ≤ 5 →
    (s.cmdIn = [] ∨ s.cmdIn = [header 0x01 0 0 mb] ∨ s.cmdIn = [header 0x03 p 0 0]) →
    step s = .next s.turnTaken

/-! ### Steps -/

/-- 20_memory.md R43: on the driver's turn, with no micro-operation queued and no block in progress,
the step is the meaning of the instruction that the words at the port decode to, run where those words
have been taken. -/
def Obligations.StepRunsTheDecodedCommand : Prop :=
  ∀ (s : State) (i : Instr) (rest : List Word),
    s.driverNext → s.issue = [] → s.blkRem = 0 → decodeCommand s.cmdIn = .taken i rest →
    step s = exec i { s.turnTaken with cmdIn := rest }

/-- 30_encoding.md R64 and the model's choice of log 18: on the driver's turn a queued micro-operation
word comes first, and the step is the meaning of the micro-operation it encodes; a queued word that is
no micro-operation, which the sequencer never issues (R65), is refused by name. -/
def Obligations.StepRunsAQueuedMicroOperation : Prop :=
  ∀ (s : State) (w : Word) (ws : List Word), s.driverNext → s.issue = w :: ws →
    (∀ i, decodeMicro w = .op i → step s = exec i { s.turnTaken with issue := ws }) ∧
    (∀ why, decodeMicro w = .rejected why → step s = .refused .unassignedMicroOperation)

/-- 46_driver.md R156 and the model's choice of log 17: while a block is in progress the driver's turn
is one `DRV.BEAT`, after which one beat less remains; the beat itself does not change `BLK_REM`. -/
def Obligations.StepRunsOneBeatOfTheBlock : Prop :=
  ∀ (s : State), s.driverNext → s.issue = [] → s.blkRem ≠ 0 → s.beatReady = true →
    ∃ t, exec .drvBeat s.turnTaken = .next t ∧ t.blkRem = s.blkRem ∧
      step s = .next { t with blkRem := s.blkRem - 1 }

/-- 20_memory.md R42, R49 (with 10_state.md R12, R13, R15, R16 for what the registers hold): the word at
every address, the reserved ones and those above `0x1F` reading 0; and what a write to every address
does. A register access
is one step that changes nothing else. -/
def Obligations.RegisterMap : Prop :=
  ∀ (s : State) (ts : List Turn),
    (∀ addr, step { s with turns := .regRead addr :: ts }
      = .next { s with turns := ts, regOut := s.regOut ++ [regRead s addr] }) ∧
    (s.cfg.legal = true → (regRead s 0x00).toNat =
      s.cfg.logn + 16 * s.cfg.hopHalf.toNat + (if s.cfg.wpol = .absHz then 32 else 0)
        + (if s.cfg.sidepol = .other then 64 else 0) + 256 * s.cfg.nch) ∧
    (regRead s 0x01).toNat =
      s.prepared.toNat + 2 * s.drv.bits.toNat
        + 8 * (s.cfg.numerics.isFinite s.sr && s.cfg.numerics.lt Numerics.zero s.sr).toNat ∧
    (regRead s 0x02).toNat = s.events.toNat ∧
    regRead s 0x03 = s.sr ∧ (regRead s 0x04).toNat = s.maxBlk.toNat ∧
    [0x08, 0x09, 0x0A, 0x0B, 0x0C, 0x0D].map (regRead s)
      = [s.params.cut1, s.params.cut2, s.params.blen, s.params.xmode, s.params.mix1, s.params.mix2] ∧
    [0x10, 0x11, 0x12, 0x14, 0x15].map (regRead s)
      = [s.snap.cut1, s.snap.cut2, s.snap.blen, s.snap.mix1, s.snap.mix2] ∧
    (regRead s 0x13).toNat = s.snap.xmode.toNat ∧
    [0x18, 0x19, 0x1A, 0x1B].map (regRead s)
      = [s.band1.bin, s.band1.hw, s.band1.start, s.band1.stop] ∧
    [0x1C, 0x1D, 0x1E, 0x1F].map (regRead s)
      = [s.band2.bin, s.band2.hw, s.band2.start, s.band2.stop] ∧
    [0x05, 0x06, 0x07, 0x0E, 0x0F, 0x16, 0x17].map (regRead s) = [0, 0, 0, 0, 0, 0, 0] ∧
    (∀ addr, 0x1F < addr → regRead s addr = 0) ∧
    (∀ (addr : BitVec 32) (v : Word),
      step { s with turns := .regWrite addr v :: ts } =
        if addr = 0x02 then .next { s with turns := ts, events := s.events &&& ~~~(v.setWidth 5) }
        else if addr = 0x08 then exec (.setpCut1 v) { s with turns := ts }
        else if addr = 0x09 then exec (.setpCut2 v) { s with turns := ts }
        else if addr = 0x0A then exec (.setpBlen v) { s with turns := ts }
        else if addr = 0x0B then exec (.setpXmode v) { s with turns := ts }
        else if addr = 0x0C then exec (.setpMix1 v) { s with turns := ts }
        else if addr = 0x0D then exec (.setpMix2 v) { s with turns := ts }
        else .next { s with turns := ts })

/-! ### Lifecycle commands -/

/-- 40_lifecycle.md R80: `NOP`, the all-zero word, reads and writes no state; a header with `OP = 0x00`
and any other bit set is illegal. -/
def Obligations.NopChangesNothing : Prop :=
  (∀ s : State, exec .nop s = .next s) ∧
    (∀ rest, decodeCommand (0x00000000 :: rest) = .taken .nop rest) ∧
    ∀ (w : Word) (ws : List Word), w.toNat / 2 ^ 24 = 0 → w ≠ 0 →
      decodeCommand (w :: ws) = .illegal .nonzeroField ws

/-- 40_lifecycle.md R81: `PREPARE` stores the sample rate and the maximum block size whatever they are,
clears every memory element, cursor, snapshot and band register and the block context, makes the
driver idle and the core prepared, and writes nothing else: no parameter, no event. -/
def Obligations.PrepareInitialisesEveryBuffer : Prop :=
  ∀ (s : State) (sr : Word) (mb : BitVec 16),
    (∀ rest, decodeCommand (BitVec.ofNat 32 (0x01000000 + mb.toNat) :: sr :: rest)
      = .taken (.prepare sr mb) rest) ∧
    ∃ t, exec (.prepare sr mb) s = .next t ∧
      t.sr = sr ∧ t.maxBlk = mb ∧ t.prepared = true ∧ t.drv = .idle ∧
      (∀ sp i, t.element sp i = 0) ∧ (∀ st c, t.ring st c = { wr := 0, cnt := 0 }) ∧
      t.olaWr = 0 ∧ t.olaRd = s.cfg.len - s.cfg.n ∧
      t.snap = { cut1 := 0, cut2 := 0, blen := 0, xmode := 0, mix1 := 0, mix2 := 0 } ∧
      (∀ b, t.band b = { bin := 0, hw := 0, start := 0, stop := 0 }) ∧
      t.blkRem = 0 ∧ t.blkActive = false ∧ t.mem.wf ∧ t.marks = Marks.none ∧
      t = { s with
        sr := t.sr, maxBlk := t.maxBlk, prepared := t.prepared, drv := t.drv, mem := t.mem
        rings := t.rings, olaWr := t.olaWr, olaRd := t.olaRd, snap := t.snap
        band1 := t.band1, band2 := t.band2, blkRem := t.blkRem, blkActive := t.blkActive
        marks := t.marks }

/-- 40_lifecycle.md R82: `RELEASE` clears what `PREPARE` clears, leaves the core not prepared, and
keeps `SR`, `MAXBLK`, the parameters and the events. -/
def Obligations.ReleaseClearsAndKeepsTheSampleRate : Prop :=
  ∀ (s : State),
    (∀ rest, decodeCommand (0x02000000 :: rest) = .taken .release rest) ∧
    ∃ t, exec .release s = .next t ∧
      t.prepared = false ∧ t.drv = .idle ∧
      (∀ sp i, t.element sp i = 0) ∧ (∀ st c, t.ring st c = { wr := 0, cnt := 0 }) ∧
      t.olaWr = 0 ∧ t.olaRd = s.cfg.len - s.cfg.n ∧
      t.snap = { cut1 := 0, cut2 := 0, blen := 0, xmode := 0, mix1 := 0, mix2 := 0 } ∧
      (∀ b, t.band b = { bin := 0, hw := 0, start := 0, stop := 0 }) ∧
      t.blkRem = 0 ∧ t.blkActive = false ∧ t.mem.wf ∧ t.marks = Marks.none ∧
      t = { s with
        prepared := t.prepared, drv := t.drv, mem := t.mem
        rings := t.rings, olaWr := t.olaWr, olaRd := t.olaRd, snap := t.snap
        band1 := t.band1, band2 := t.band2, blkRem := t.blkRem, blkActive := t.blkActive
        marks := t.marks }

/-- 40_lifecycle.md R83: each lifecycle command issued twice leaves what one issue leaves, and
`PREPARE` after `RELEASE` leaves what `PREPARE` after `PREPARE` leaves. -/
def Obligations.LifecycleCommandsAreIdempotent : Prop :=
  ∀ (s : State) (sr sr' : Word) (mb mb' : BitVec 16),
    (∃ t, exec (.prepare sr mb) s = .next t ∧ exec (.prepare sr mb) t = .next t) ∧
    (∃ t, exec .release s = .next t ∧ exec .release t = .next t) ∧
    execAll [.release, .prepare sr mb] s = execAll [.prepare sr' mb', .prepare sr mb] s ∧
    execAll [.release, .prepare sr mb] s = exec (.prepare sr mb) s

/-! ### Numerics -/

/-- 00_scope.md R8: the numerics record of every construction, the default instance and any other, with
its own transforms or the reference datapath (43_analyzer.md R113), meets the laws of the rule:
N-ONE, N-ZERO, N-SQRT, N-ATAN, N-FFT0, the order of the comparisons, `ofNat` exact up to `2^13` and
`roundsat` to nearest, ties away (92_eei_decisions.md D46, D12), with what the model reads from other rules
beside them (log 2) and `-pi_F` as the negative of `pi_F` (log 33). Three clauses are the model's: N-ONE of a
NaN holds up to the NaN's bits (93_implementation_defined.md U10, the model's choice of log 3), the reference
datapath meets N-FFT0 in a record whose arithmetic on zeros breaks it by the choice of log 7, and what
`NUM.ofReal` is bound by is log 35's reading. -/
def Obligations.NumericsMeetTheLaws : Prop :=
  ∀ (g : Cfg), g.numerics.Lawful

/-! ### Configuration -/

/-- 41_config.md R90: each form of `SETP` stores its payload raw, whatever it is, in its own parameter
register and changes nothing else; a param id above 5 makes the header illegal, and no payload is
consumed. -/
def Obligations.SetpStoresTheRawValue : Prop :=
  ∀ (s : State) (v : Word),
    (∀ rest, (List.range 6).map (fun p =>
        decodeCommand (BitVec.ofNat 32 (0x03000000 + p * 2 ^ 20) :: v :: rest))
      = [.taken (.setpCut1 v) rest, .taken (.setpCut2 v) rest, .taken (.setpBlen v) rest,
         .taken (.setpXmode v) rest, .taken (.setpMix1 v) rest, .taken (.setpMix2 v) rest]) ∧
    (∀ p rest, 5 < p → p < 16 →
      decodeCommand (BitVec.ofNat 32 (0x03000000 + p * 2 ^ 20) :: v :: rest)
        = .illegal .parameterId (v :: rest)) ∧
    exec (.setpCut1 v) s = .next { s with params := { s.params with cut1 := v } } ∧
    exec (.setpCut2 v) s = .next { s with params := { s.params with cut2 := v } } ∧
    exec (.setpBlen v) s = .next { s with params := { s.params with blen := v } } ∧
    exec (.setpXmode v) s = .next { s with params := { s.params with xmode := v } } ∧
    exec (.setpMix1 v) s = .next { s with params := { s.params with mix1 := v } } ∧
    exec (.setpMix2 v) s = .next { s with params := { s.params with mix2 := v } }

/-- 41_config.md R92: the `clamp` function, over the numerics record of every construction: its two
tests, and that it changes a value when the result is not `NUM.eq` to it. With bounds that are no NaN: a
value inside the bounds is kept; below the lower bound, or a NaN, it becomes the lower bound when the
bounds are in order; above the upper bound it becomes the upper bound; with the bounds inverted the
result is the upper bound; and with finite bounds it is finite. -/
def Obligations.ClampLaws : Prop :=
  ∀ (g : Cfg) (v lo hi : Word),
    let N := g.numerics
    (let raised := if N.le lo v then v else lo
     clamp N v lo hi = if N.lt hi raised then hi else raised) ∧
    clampChanges N v lo hi = !N.eq (clamp N v lo hi) v ∧
    (N.isNaN lo = false → N.isNaN hi = false →
      (N.le lo v = true → N.le v hi = true → clamp N v lo hi = v ∧ clampChanges N v lo hi = false) ∧
      (N.le lo hi = true → N.lt v lo = true → clamp N v lo hi = lo ∧ clampChanges N v lo hi = true) ∧
      (N.le lo hi = true → N.isNaN v = true → clamp N v lo hi = lo ∧ clampChanges N v lo hi = true) ∧
      (N.le lo hi = true → N.lt hi v = true → clamp N v lo hi = hi ∧ clampChanges N v lo hi = true) ∧
      (N.lt hi lo = true → clamp N v lo hi = hi) ∧
      (N.isFinite lo = true → N.isFinite hi = true → N.isFinite (clamp N v lo hi) = true))

/-- 41_config.md R93 with 44_exchanger.md R126, R127, R128: `SNAP` copies the six parameters, clamped,
derives both bands from the copies, and sets `EV_CLAMP` and `EV_EDGE` exactly when their causes hold.
It changes nothing else; the raw parameters stay. That frequency 0 has index 0 and a ratio of 0 has
`h0 = 0` whatever the record's quotient is, with a valid sample rate, is R126's and R127's sentence set over
their formula by the model's choice (log 34). -/
def Obligations.SnapTakesOneConsistentSnapshot : Prop :=
  ∀ (s : State), s.cfg.legal = true →
    ∃ t, exec .snap s = .next t ∧
      let N := s.cfg.numerics
      let real := fun p q => N.ofReal (.ratio p q)
      let fmax := minF N (real 20000 1) (N.div s.sr N.two)
      let low := if s.cfg.wpol = .ratio then Numerics.zero else real 20 1
      let high := if s.cfg.wpol = .ratio then N.two else real 2000 1
      let valid := N.isFinite s.sr && N.lt Numerics.zero s.sr
      let index := fun f =>
        if N.isZero f && valid then 0 else N.roundsat (N.div (N.mul f (N.ofNat s.cfg.n)) s.sr)
      let width := fun b =>
        if s.cfg.wpol = .ratio then N.mul t.snap.blen (t.snapCut b) else t.snap.blen
      let h0 := fun b =>
        if s.cfg.wpol = .ratio ∧ (N.isZero t.snap.blen && valid) = true then 0
        else index (N.div (width b) N.two)
      let top : Int := (s.cfg.n / 2 : Nat)
      let edge := fun b => h0 b < 1 ∨ (t.band b).bin.toInt - (t.band b).hw.toInt < 0 ∨
        top < (t.band b).bin.toInt + (t.band b).hw.toInt
      t.snap.cut1 = clamp N s.params.cut1 (real 20 1) fmax ∧
      t.snap.cut2 = clamp N s.params.cut2 (real 20 1) fmax ∧
      t.snap.blen = clamp N s.params.blen low high ∧
      (t.snap.xmode = 1 ↔ N.le (real 1 2) s.params.xmode = true) ∧
      t.snap.mix1 = clamp N s.params.mix1 Numerics.zero N.one ∧
      t.snap.mix2 = clamp N s.params.mix2 Numerics.zero N.one ∧
      (∀ b, (t.band b).bin.toInt = index (t.snapCut b) ∧ (t.band b).hw.toInt = max 1 (h0 b) ∧
        (t.band b).start.toInt = max ((t.band b).bin.toInt - (t.band b).hw.toInt) 0 ∧
        (t.band b).stop.toInt = min ((t.band b).bin.toInt + (t.band b).hw.toInt) top) ∧
      t.events = s.events
        ||| (if clampChanges N s.params.cut1 (real 20 1) fmax ∨
              clampChanges N s.params.cut2 (real 20 1) fmax ∨
              clampChanges N s.params.blen low high ∨ clampChanges N s.params.mix1 Numerics.zero N.one ∨
              clampChanges N s.params.mix2 Numerics.zero N.one then 0x01 else 0)
        ||| (if edge .one ∨ edge .two then 0x04 else 0) ∧
      t = { s with snap := t.snap, band1 := t.band1, band2 := t.band2, events := t.events }

/-- 41_config.md R92, R93: whatever the parameters hold, the snapshot's mix ratios lie in `[0, 1]`, its
band length lies in its declared bounds and its centre frequencies in theirs, wherever the record's
values of those bounds are in order (which they are in binary32, but for `fmax` below 20). -/
def Obligations.SnapshotLiesInItsBounds : Prop :=
  ∀ (s : State),
    ∃ t, exec .snap s = .next t ∧
      let N := s.cfg.numerics
      let real := fun p q => N.ofReal (.ratio p q)
      (∀ b, N.le Numerics.zero (t.snapMix b) = true ∧ N.le (t.snapMix b) N.one = true) ∧
      (s.cfg.wpol = .ratio → N.le Numerics.zero N.two = true →
        N.le Numerics.zero t.snap.blen = true ∧ N.le t.snap.blen N.two = true) ∧
      (s.cfg.wpol = .absHz → N.le (real 20 1) (real 2000 1) = true →
        N.le (real 20 1) t.snap.blen = true ∧ N.le t.snap.blen (real 2000 1) = true) ∧
      (N.le (real 20 1) s.centreMax = true →
        ∀ b, N.le (real 20 1) (t.snapCut b) = true ∧ N.le (t.snapCut b) s.centreMax = true) ∧
      (s.cfg.num = .binary32 →
        N.le Numerics.zero N.two = true ∧ N.le (real 20 1) (real 2000 1) = true)

/-! ### Frame Accumulator -/

/-- 42_accumulator.md R100: `ACC.WRITE` takes one sample from its port, stores it at the write cursor,
moves the cursor modulo `N` and counts it, the count stopping at `N`. Every other ring, element, port
and register is unchanged. -/
def Obligations.AccWriteStoresTheSample : Prop :=
  ∀ (s : State) (st : Stream) (c : Chan) (v : Word) (vs : List Word),
    s.mem.wf → c.val < s.cfg.nch → s.waiting st c = v :: vs →
    ∃ t, exec (.accWrite st c) s = .next t ∧
      (t.ring st c).wr = ((s.ring st c).wr + 1) % s.cfg.n ∧
      (t.ring st c).cnt = (if (s.ring st c).cnt < s.cfg.n then (s.ring st c).cnt + 1
        else (s.ring st c).cnt) ∧
      t.waiting st c = vs ∧
      (∀ st' c', ¬ (st' = st ∧ c' = c) →
        t.ring st' c' = s.ring st' c' ∧ t.waiting st' c' = s.waiting st' c') ∧
      t.element (.ring st c) (s.ring st c).wr = v ∧
      sameOutside (· = elementAddr (.ring st c) (s.ring st c).wr) s t ∧
      t = { s with rings := t.rings, mem := t.mem, samplesIn := t.samplesIn }

/-- 42_accumulator.md R101, R102: `ACC.FRAME` and `ACC.READY` write scratch only. The frame's element
`i` is the ring's element `(WR + i) mod N`; the test answers true exactly when every count of both
streams is `N`. -/
def Obligations.FrameAndReadyWriteScratchOnly : Prop :=
  ∀ (s : State) (st : Stream) (c : Chan), c.val < s.cfg.nch →
    (∃ t, exec (.accFrame st c) s = .next t ∧ t.scratch.fr.length = s.cfg.n ∧
      (∀ i, i < s.cfg.n →
        at0 t.scratch.fr i = s.element (.ring st c) (((s.ring st c).wr + i) % s.cfg.n)) ∧
      t = { s with scratch := { s.scratch with fr := t.scratch.fr } }) ∧
    (∃ t, exec .accReady s = .next t ∧
      (t.scratch.ready = true ↔
        ∀ st' (c' : Chan), c'.val < s.cfg.nch → (s.ring st' c').cnt = s.cfg.n) ∧
      t = { s with scratch := { s.scratch with ready := t.scratch.ready } })

/-- 42_accumulator.md R102, derived there from R100: after `N` or more writes, wherever the cursor
stood, `ACC.FRAME` gives the last `N` samples written, oldest first. -/
def Obligations.FrameIsTheLastSamplesInOrder : Prop :=
  ∀ (s : State) (st : Stream) (c : Chan) (vs rest : List Word),
    s.mem.wf → s.cfg.legal = true → c.val < s.cfg.nch → (s.ring st c).wr < s.cfg.n →
    s.waiting st c = vs ++ rest → s.cfg.n ≤ vs.length →
    ∃ t, execAll (List.replicate vs.length (.accWrite st c) ++ [.accFrame st c]) s = .next t ∧
      t.scratch.fr = vs.drop (vs.length - s.cfg.n)

/-- 42_accumulator.md R103: `ACC.CONSUME` takes `HOP` from every count and changes nothing else; stated
for every state whose counts reach `HOP`, which the rule's precondition `CNT = N` implies. -/
def Obligations.AccConsumeFreesOneHop : Prop :=
  ∀ (s : State), (∀ st (c : Chan), c.val < s.cfg.nch → s.cfg.hop ≤ (s.ring st c).cnt) →
    ∃ t, exec .accConsume s = .next t ∧
      (∀ st (c : Chan), c.val < s.cfg.nch →
        (t.ring st c).wr = (s.ring st c).wr ∧ (t.ring st c).cnt = (s.ring st c).cnt - s.cfg.hop) ∧
      (∀ st (c : Chan), s.cfg.nch ≤ c.val → t.ring st c = s.ring st c) ∧
      t = { s with rings := t.rings }

/-! ### Spectral Analyzer -/

/-- 43_analyzer.md R110, R112: `AN.WINDOW` multiplies the frame by the window element by element, and
`AN.RFFT` takes the transform of the windowed frame to `N/2 + 1` bins; both write scratch only, and carry
the model's notes of a frame with a NaN or an infinity (70_reset_and_hazards.md R207) and of a silent one
(R116 (d)) along (log 9). Bins of a windowed frame with a NaN or an infinity are unspecified, and zeros when
that frame was silent before the window. -/
def Obligations.WindowAndTransformWriteScratchOnly : Prop :=
  ∀ (s : State) (st : Stream) (c : Chan), s.cfg.legal = true → c.val < s.cfg.nch →
    (∃ t, exec (.anWindow st c) s = .next t ∧ t.scratch.xw.length = s.cfg.n ∧
      (∀ n, n < s.cfg.n →
        at0 t.scratch.xw n = s.cfg.numerics.mul (at0 s.scratch.fr n) (windowAt s.cfg n)) ∧
      (t.scratch.xwBroken = true ↔
        ¬ ∀ i, i < s.cfg.n → s.cfg.numerics.isFinite (at0 s.scratch.fr i) = true) ∧
      (t.scratch.xwSilent = true ↔
        ∀ i, i < s.cfg.n → s.cfg.numerics.isZero (at0 s.scratch.fr i) = true) ∧
      t = { s with
        scratch := { s.scratch with
          xw := t.scratch.xw, xwBroken := t.scratch.xwBroken, xwSilent := t.scratch.xwSilent } }) ∧
    (s.scratch.xw.length = s.cfg.n →
      ∃ t, exec (.anRfft st c) s = .next t ∧
        t.scratch.re.length = s.cfg.nb ∧ t.scratch.im.length = s.cfg.nb ∧
        (∀ k, k < s.cfg.nb →
          (rfft s.cfg s.scratch.xwSilent s.scratch.xw).getD k (0, 0)
            = (at0 t.scratch.re k, at0 t.scratch.im k)) ∧
        (s.scratch.xwSilent = true →
          ¬ (∀ n, n < s.cfg.n → s.cfg.numerics.isFinite (at0 s.scratch.xw n) = true) →
          ∀ k, k < s.cfg.nb → s.cfg.numerics.isZero (at0 t.scratch.re k) = true ∧
            s.cfg.numerics.isZero (at0 t.scratch.im k) = true) ∧
        t = { s with
          scratch := { s.scratch with
            re := t.scratch.re, im := t.scratch.im, binsBroken := s.scratch.xwBroken
            binsFromFinite := false } })

/-- 43_analyzer.md R114: `AN.POLAR` stores the magnitude and the phase of every bin, and changes no
other element and no register. For bins of a frame with a NaN or an infinity the stored values are
unspecified (70_reset_and_hazards.md R207), and the spectrum is marked so; bins of a finite frame remove
the mark (the marks are the model's, log 9). -/
def Obligations.PolarStoresMagnitudeAndPhase : Prop :=
  ∀ (s : State) (st : Stream) (c : Chan), s.mem.wf → c.val < s.cfg.nch →
    ∃ t, exec (.anPolar st c) s = .next t ∧
      let N := s.cfg.numerics
      (s.scratch.binsBroken = false → ∀ k, k < s.cfg.nb →
        t.element (.specMag st c) k =
          N.sqrt (N.add (N.mul (at0 s.scratch.re k) (at0 s.scratch.re k))
            (N.mul (at0 s.scratch.im k) (at0 s.scratch.im k))) ∧
        t.element (.specPh st c) k = N.atan2 (at0 s.scratch.im k) (at0 s.scratch.re k)) ∧
      (s.scratch.binsBroken = true → ∀ k, k < s.cfg.nb →
        t.element (.specMag st c) k =
          Config.unspecified .magnitude (s.scratch.re ++ s.scratch.im) k ∧
        t.element (.specPh st c) k = Config.unspecified .phase (s.scratch.re ++ s.scratch.im) k) ∧
      t.specMark st c = s.scratch.binsBroken ∧
      (∀ st' c', ¬ (st' = st ∧ c' = c) → t.specMark st' c' = s.specMark st' c') ∧
      sameOutside (fun a => firstElements (.specMag st c) s.cfg.nb a ∨
        firstElements (.specPh st c) s.cfg.nb a) s t ∧
      t = { s with mem := t.mem, marks := { s.marks with spec := t.marks.spec } }

/-- 43_analyzer.md R115, R116: `ANALYZE` is the sequence of its four steps; it completes, changes only
the spectrum of its own stream and channel and scratch values, and its result is a function of the
frame alone: two machines of one construction whose rings hold the same frame get the same spectrum,
whatever else they hold. -/
def Obligations.AnalyzeIsItsStepsAndPure : Prop :=
  ∀ (s : State) (st : Stream) (c : Chan), s.mem.wf → c.val < s.cfg.nch →
    exec (.analyze st c) s
      = execAll [.accFrame st c, .anWindow st c, .anRfft st c, .anPolar st c] s ∧
    ∃ t, exec (.analyze st c) s = .next t ∧
      sameOutside (fun a => firstElements (.specMag st c) s.cfg.nb a ∨
        firstElements (.specPh st c) s.cfg.nb a) s t ∧
      t = { s with mem := t.mem, scratch := t.scratch
                   marks := { s.marks with spec := t.marks.spec } } ∧
      ∀ (s' : State) (st' : Stream) (c' : Chan), s'.mem.wf → s'.cfg = s.cfg → c'.val < s.cfg.nch →
        (∀ i, i < s.cfg.n → wrappedRead s' st' c' i = wrappedRead s st c i) →
        ∃ t', exec (.analyze st' c') s' = .next t' ∧
          ∀ k, k < s.cfg.nb →
            t'.element (.specMag st' c') k = t.element (.specMag st c) k ∧
            t'.element (.specPh st' c') k = t.element (.specPh st c) k ∧
            t'.specMark st' c' = t.specMark st c

/-- 43_analyzer.md R116 (d), from N-FFT0 of 00_scope.md R8: in every legal construction, whichever numerics
record and whichever transform it has, a silent frame has magnitude 0 and phase 0 in every bin, numerically: in
binary32 whatever the window, and in another record whatever the window too, but for an entry that is not
finite and whose product with a zero is finite, where R110 and R112 stand (the model's choice, log 34). That
the bins R112 leaves unspecified are zeros for a silent frame is the model's reading of (d) (log 9). -/
def Obligations.SilentFrameHasZeroSpectrum : Prop :=
  ∀ (s : State) (st : Stream) (c : Chan), s.mem.wf → s.cfg.legal = true → c.val < s.cfg.nch →
    (∀ i, i < s.cfg.n → s.cfg.numerics.isZero (wrappedRead s st c i) = true) →
    (s.cfg.num = .binary32 ∨ ∀ n, n < s.cfg.n →
      s.cfg.numerics.isFinite (windowAt s.cfg n) = true ∨
        s.cfg.numerics.isFinite (s.cfg.numerics.mul (wrappedRead s st c n) (windowAt s.cfg n)) = false) →
    ∃ t, exec (.analyze st c) s = .next t ∧
      ∀ k, k < s.cfg.nb →
        s.cfg.numerics.isZero (t.element (.specMag st c) k) = true ∧
        s.cfg.numerics.isZero (t.element (.specPh st c) k) = true

/-! ### Band Exchanger -/

/-- 44_exchanger.md R126, R127, R128: what each step of the index derivation writes into the registers
of its band, and that it changes nothing else but `EV_EDGE` where the rule raises it. With a finite sample
rate above 0, the index of frequency 0 is 0 and under `RATIO` a ratio of 0 gives `h0 = 0`, so `HW = 1`, and width 0
for a finite centre: in binary32 by the formula, in another record also where the formula is none, by the
model's choice (log 34). -/
def Obligations.IndexDerivationSteps : Prop :=
  ∀ (s : State) (b b' : Band), s.cfg.legal = true → b' ≠ b →
    let N := s.cfg.numerics
    let formula := fun f => N.roundsat (N.div (N.mul f (N.ofNat s.cfg.n)) s.sr)
    let valid := N.isFinite s.sr && N.lt Numerics.zero s.sr
    let index := fun f => if N.isZero f && valid then 0 else formula f
    let width := if s.cfg.wpol = .ratio then N.mul s.snap.blen (s.snapCut b) else s.snap.blen
    let ratioZero := s.cfg.wpol = .ratio ∧ N.isZero s.snap.blen = true
    let h0 := if s.cfg.wpol = .ratio ∧ (N.isZero s.snap.blen && valid) = true then 0
      else index (N.div width N.two)
    let low := (s.band b).bin.toInt - (s.band b).hw.toInt
    let high := (s.band b).bin.toInt + (s.band b).hw.toInt
    let top : Int := (s.cfg.n / 2 : Nat)
    (∃ t, exec (.bxBin b) s = .next t ∧ (t.band b).bin.toInt = index (s.snapCut b) ∧
      t.band b = { s.band b with bin := (t.band b).bin } ∧ t.band b' = s.band b' ∧
      t = { s with band1 := t.band1, band2 := t.band2 }) ∧
    (∃ t, exec (.bxHalfw b) s = .next t ∧ (t.band b).hw.toInt = max 1 h0 ∧
      t.band b = { s.band b with hw := (t.band b).hw } ∧ t.band b' = s.band b' ∧
      t.events = (if h0 < 1 then s.events ||| 0x04 else s.events) ∧
      t = { s with band1 := t.band1, band2 := t.band2, events := t.events }) ∧
    (0 ≤ (s.band b).hw.toInt →
      ∃ t, exec (.bxInterval b) s = .next t ∧
        (t.band b).start.toInt = max low 0 ∧ (t.band b).stop.toInt = min high top ∧
        t.band b = { s.band b with start := (t.band b).start, stop := (t.band b).stop } ∧
        t.band b' = s.band b' ∧
        t.events = (if low < 0 ∨ top < high then s.events ||| 0x04 else s.events) ∧
        t = { s with band1 := t.band1, band2 := t.band2, events := t.events }) ∧
    (N.isFinite s.sr = true → N.lt Numerics.zero s.sr = true →
      (∀ z, N.isZero z = true → index z = 0 ∧ (s.cfg.num = .binary32 → formula z = 0)) ∧
      (ratioZero → h0 = 0 ∧ (N.isFinite (s.snapCut b) = true → N.isZero width = true) ∧
        (s.cfg.num = .binary32 → formula (N.div width N.two) = 0)))

/-- 44_exchanger.md R128: from a centre bin in `[0, N/2]` and a half-width of at least 1, the derived
interval satisfies `0 <= START <= BIN <= END <= N/2`, so it is never empty. -/
def Obligations.IntervalHoldsItsCentreBin : Prop :=
  ∀ (s : State) (b : Band), s.cfg.legal = true →
    0 ≤ (s.band b).bin.toInt → (s.band b).bin.toInt ≤ ((s.cfg.n / 2 : Nat) : Int) →
    1 ≤ (s.band b).hw.toInt →
    ∃ t, exec (.bxInterval b) s = .next t ∧
      0 ≤ (t.band b).start.toInt ∧ (t.band b).start.toInt ≤ (t.band b).bin.toInt ∧
      (t.band b).bin.toInt ≤ (t.band b).stop.toInt ∧
      (t.band b).stop.toInt ≤ ((s.cfg.n / 2 : Nat) : Int)

/-- 44_exchanger.md R130, R131: on bands inside the spectrum, `BX.MIXP` blends both working copies
inside the band from the old values of both, and `BX.MIXF` blends the main copy at `START1 + k`
against the sidechain copy at `START2 + k` for the first `k` of both intervals; every other element of
the copies is unchanged, and nothing else changes. -/
def Obligations.MixStepsWriteTheWorkingCopies : Prop :=
  ∀ (s : State) (b : Band) (c : Chan), c.val < s.cfg.nch → (∀ b, (s.band b).inBounds s.cfg) →
    let N := s.cfg.numerics
    (∃ t, exec (.bxMixp b c) s = .next t ∧
      (∀ i, i < s.cfg.nb →
        let inside := (s.band b).start.toInt ≤ (i : Int) ∧ (i : Int) ≤ (s.band b).stop.toInt
        let w := s.snapMix b
        let r := if s.cfg.sidepol = .same then s.snapMix b else s.snapMix (otherBand b)
        let k := s.scratch
        at0 t.scratch.wmMag i = (if inside then blend N w (at0 k.wmMag i) (at0 k.wsMag i)
          else at0 k.wmMag i) ∧
        at0 t.scratch.wsMag i = (if inside then blend N r (at0 k.wsMag i) (at0 k.wmMag i)
          else at0 k.wsMag i) ∧
        at0 t.scratch.wmPh i = (if inside then blend N w (at0 k.wmPh i) (at0 k.wsPh i)
          else at0 k.wmPh i) ∧
        at0 t.scratch.wsPh i = (if inside then blend N r (at0 k.wsPh i) (at0 k.wmPh i)
          else at0 k.wsPh i)) ∧
      t = { s with scratch := { s.scratch with
        wmMag := t.scratch.wmMag, wsMag := t.scratch.wsMag
        wmPh := t.scratch.wmPh, wsPh := t.scratch.wsPh } }) ∧
    (∃ t, exec (.bxMixf c) s = .next t ∧
      (let start1 := s.band1.start.toInt.toNat
       let start2 := s.band2.start.toInt.toNat
       let pairs := min (max (s.band1.stop.toInt - s.band1.start.toInt + 1) 0)
        (max (s.band2.stop.toInt - s.band2.start.toInt + 1) 0)
       let k := s.scratch
       (∀ p : Nat, (p : Int) < pairs →
        at0 t.scratch.wmMag (start1 + p) =
          blend N s.snap.mix1 (at0 k.wmMag (start1 + p)) (at0 k.wsMag (start2 + p)) ∧
        at0 t.scratch.wsMag (start2 + p) =
          blend N s.snap.mix2 (at0 k.wsMag (start2 + p)) (at0 k.wmMag (start1 + p)) ∧
        at0 t.scratch.wmPh (start1 + p) =
          blend N s.snap.mix1 (at0 k.wmPh (start1 + p)) (at0 k.wsPh (start2 + p)) ∧
        at0 t.scratch.wsPh (start2 + p) =
          blend N s.snap.mix2 (at0 k.wsPh (start2 + p)) (at0 k.wmPh (start1 + p))) ∧
       (∀ i, i < s.cfg.nb → ¬ (start1 ≤ i ∧ (i : Int) < start1 + pairs) →
        at0 t.scratch.wmMag i = at0 k.wmMag i ∧ at0 t.scratch.wmPh i = at0 k.wmPh i) ∧
       (∀ i, i < s.cfg.nb → ¬ (start2 ≤ i ∧ (i : Int) < start2 + pairs) →
        at0 t.scratch.wsMag i = at0 k.wsMag i ∧ at0 t.scratch.wsPh i = at0 k.wsPh i)) ∧
      t = { s with scratch := { s.scratch with
        wmMag := t.scratch.wmMag, wsMag := t.scratch.wsMag
        wmPh := t.scratch.wmPh, wsPh := t.scratch.wsPh } })

/-- 44_exchanger.md R132, R133: `EXCHANGE` completes; every bin that lies in neither band leaves it bit
for bit as the main spectrum has it, in both modes; only the mixed spectrum of its channel and scratch
values change. The mixed spectrum is marked when either spectrum comes from a frame with a NaN or an
infinity, and its blended bins are then unspecified (70_reset_and_hazards.md R207; the marks are the
model's, log 9). -/
def Obligations.ExchangeKeepsBinsOutsideBothBands : Prop :=
  ∀ (s : State) (c : Chan), s.mem.wf → c.val < s.cfg.nch →
    ∃ t, exec (.exchange c) s = .next t ∧
      (∀ i, i < s.cfg.nb → s.band1.holds i = false → s.band2.holds i = false →
        t.element (.mixMag c) i = s.element (.specMag .main c) i ∧
        t.element (.mixPh c) i = s.element (.specPh .main c) i) ∧
      t.mixMark c = (s.specMark .main c || s.specMark .side c) ∧
      (∀ c', c' ≠ c → t.mixMark c' = s.mixMark c') ∧
      (t.mixMark c = true → ∀ i, i < s.cfg.nb → s.mixes i = true →
        t.element (.mixMag c) i = Config.unspecified .mixMagnitude t.scratch.wmMag i ∧
        t.element (.mixPh c) i = Config.unspecified .mixPhase t.scratch.wmPh i) ∧
      sameOutside (fun a => firstElements (.mixMag c) s.cfg.nb a ∨
        firstElements (.mixPh c) s.cfg.nb a) s t ∧
      t = { s with mem := t.mem, scratch := t.scratch, marks := { s.marks with mix := t.marks.mix } }

/-- 44_exchanger.md R130, R132: in proportional mode every mixed bin is the main bin blended for band 1
and then, on band 1's results, for band 2, the sidechain bin in between having been blended with the
old main bin by the weight `SIDEPOL` selects. Stated for spectra of finite frames; for the others see
`ExchangeKeepsBinsOutsideBothBands`. -/
def Obligations.ProportionalExchange : Prop :=
  ∀ (s : State) (c : Chan), s.mem.wf → c.val < s.cfg.nch → s.snap.xmode = 0 →
    s.specMark .main c = false → s.specMark .side c = false →
    ∃ t, exec (.exchange c) s = .next t ∧
      ∀ i, i < s.cfg.nb →
        let mixed := fun (m x : Word) =>
          let r := if s.cfg.sidepol = .same then s.snap.mix1 else s.snap.mix2
          let m1 := if s.band1.holds i then blend s.cfg.numerics s.snap.mix1 m x else m
          let x1 := if s.band1.holds i then blend s.cfg.numerics r x m else x
          if s.band2.holds i then blend s.cfg.numerics s.snap.mix2 m1 x1 else m1
        t.element (.mixMag c) i
          = mixed (s.element (.specMag .main c) i) (s.element (.specMag .side c) i) ∧
        t.element (.mixPh c) i
          = mixed (s.element (.specPh .main c) i) (s.element (.specPh .side c) i)

/-- 44_exchanger.md R131, R132: in full exchange, with bands inside the spectrum, the mixed bin
`START1 + k` is the main bin blended by band 1's ratio with the sidechain bin `START2 + k`, while both
intervals last, and every other bin is the main bin. Stated for spectra of finite frames; for the others
see `ExchangeKeepsBinsOutsideBothBands`. -/
def Obligations.FullExchange : Prop :=
  ∀ (s : State) (c : Chan), s.mem.wf → c.val < s.cfg.nch → s.snap.xmode = 1 →
    s.specMark .main c = false → s.specMark .side c = false →
    (∀ b, (s.band b).inBounds s.cfg) →
    ∃ t, exec (.exchange c) s = .next t ∧
      let start1 := s.band1.start.toInt.toNat
      let start2 := s.band2.start.toInt.toNat
      let pairs := min (max (s.band1.stop.toInt - s.band1.start.toInt + 1) 0)
        (max (s.band2.stop.toInt - s.band2.start.toInt + 1) 0)
      (∀ k : Nat, (k : Int) < pairs →
        t.element (.mixMag c) (start1 + k) = blend s.cfg.numerics s.snap.mix1
          (s.element (.specMag .main c) (start1 + k)) (s.element (.specMag .side c) (start2 + k)) ∧
        t.element (.mixPh c) (start1 + k) = blend s.cfg.numerics s.snap.mix1
          (s.element (.specPh .main c) (start1 + k)) (s.element (.specPh .side c) (start2 + k))) ∧
      ∀ i, i < s.cfg.nb → ¬ (start1 ≤ i ∧ (i : Int) < start1 + pairs) →
        t.element (.mixMag c) i = s.element (.specMag .main c) i ∧
        t.element (.mixPh c) i = s.element (.specPh .main c) i

/-- 44_exchanger.md R129: for finite `a` and `b`, `blend` with weight 0 is `a` and with weight 1 is `b`,
up to the sign of a zero, in the numerics record of every construction (in binary32 for a weight of
`-0` too). And the bound that the accuracy `EPS` of the record's operations (00_scope.md R8, law N-ACC)
gives for `blend` with any weight, wherever no operation of it leaves the finite values. -/
def Obligations.BlendAtTheBoundaryWeights : Prop :=
  ∀ (g : Cfg) (w a b : Word),
    let N := g.numerics
    N.isFinite a = true → N.isFinite b = true →
    (w = Numerics.zero ∨ (g.num = .binary32 ∧ N.isZero w = true) → N.eq (blend N w a b) a = true) ∧
    N.eq (blend N N.one a b) b = true ∧
    ∀ (value : Word → ℝ) (eps : Operation → List Word → ℝ), N.Accurate value eps →
      let rest := N.sub N.one w
      N.isFinite w = true → N.isFinite N.one = true → N.isFinite rest = true →
      N.isFinite (N.mul rest a) = true → N.isFinite (N.mul w b) = true →
      N.isFinite (blend N w a b) = true →
      |value (blend N w a b) - ((1 - value w) * value a + value w * value b)| ≤
        eps .sub [N.one, w] * |value a| + eps .mul [rest, a] + eps .mul [w, b] +
          eps .add [N.mul rest a, N.mul w b]

/-- 44_exchanger.md R134 (c): with both ratios 0 the exchange is the identity on a finite main spectrum
in both modes, up to the sign of zeros, in the numerics record of every construction (in binary32 for
ratios of `-0` too). -/
def Obligations.ZeroRatiosKeepTheMainSpectrum : Prop :=
  ∀ (s : State) (c : Chan),
    let N := s.cfg.numerics
    s.mem.wf → c.val < s.cfg.nch → (∀ b, (s.band b).inBounds s.cfg) →
    s.specMark .main c = false → s.specMark .side c = false →
    (∀ b, s.snapMix b = Numerics.zero ∨ (s.cfg.num = .binary32 ∧ N.isZero (s.snapMix b) = true)) →
    (∀ st i, i < s.cfg.nb → N.isFinite (s.element (.specMag st c) i) = true ∧
      N.isFinite (s.element (.specPh st c) i) = true) →
    ∃ t, exec (.exchange c) s = .next t ∧
      ∀ i, i < s.cfg.nb →
        N.eq (t.element (.mixMag c) i) (s.element (.specMag .main c) i) = true ∧
        N.eq (t.element (.mixPh c) i) (s.element (.specPh .main c) i) = true

/-! ### Spectral Synthesizer -/

/-- 45_synthesizer.md R140, R141, R143, R144: what `SY.RECT`, `SY.SYMM`, `SY.IRFFT` and `SY.NORMWIN`
leave in scratch, and that they change nothing else. The samples of a spectrum marked as coming from a
frame with a NaN or an infinity are unspecified (70_reset_and_hazards.md R207, log 9); the mark is that of the
channel named (the model's choice, log 24). Magnitude 0 with a finite phase gives zeros, and phase 0 gives
the magnitude where `cos(0) = 1` and `sin(0) = 0` (R140); a zero mirrors to a zero (R141); the frame starts
with 0 for a finite `y[0]` (R144) or a finite mixed spectrum, and is zeros for the all-zero mixed spectrum
(R148). Where a formula of the record gives another value, the model lets these sentences stand over it, and
carries two notes of its own for it (log 34); at phase 0 with an infinite or NaN magnitude the imaginary part
is the formula's, by the same log's choice. -/
def Obligations.SynthesizerStagesWriteScratchOnly : Prop :=
  ∀ (s : State) (c : Chan), s.cfg.legal = true → c.val < s.cfg.nch →
    let N := s.cfg.numerics
    (∃ t, exec (.syRect c) s = .next t ∧
      t.scratch.re.length = s.cfg.nb ∧ t.scratch.im.length = s.cfg.nb ∧
      (∀ k, k < s.cfg.nb →
        let mag := s.element (.mixMag c) k
        let ph := s.element (.mixPh c) k
        let silent := N.isZero mag = true ∧ N.isFinite ph = true
        let straight := N.isZero ph = true ∧ N.cos ph = N.one ∧ N.isZero (N.sin ph) = true ∧
          N.isNaN mag = false
        (silent → N.isZero (at0 t.scratch.re k) = true ∧ N.isZero (at0 t.scratch.im k) = true) ∧
        (straight → at0 t.scratch.re k = mag) ∧
        (¬ straight → ¬ silent ∨ N.isZero (N.mul mag (N.cos ph)) = true →
          at0 t.scratch.re k = N.mul mag (N.cos ph)) ∧
        (s.cfg.num = .binary32 → ¬ silent → at0 t.scratch.re k = N.mul mag (N.cos ph)) ∧
        (¬ silent ∨ N.isZero (N.mul mag (N.sin ph)) = true →
          at0 t.scratch.im k = N.mul mag (N.sin ph))) ∧
      (t.scratch.binsFromFinite = true ↔ ∀ k, k < s.cfg.nb →
        N.isFinite (s.element (.mixMag c) k) = true ∧ N.isFinite (s.element (.mixPh c) k) = true) ∧
      t = { s with
        scratch := { s.scratch with
          re := t.scratch.re, im := t.scratch.im, binsBroken := s.mixMark c
          binsFromFinite := t.scratch.binsFromFinite } }) ∧
    (∃ t, exec (.sySymm c) s = .next t ∧
      t.scratch.re.length = s.cfg.n ∧ t.scratch.im.length = s.cfg.n ∧
      at0 t.scratch.im 0 = 0 ∧ at0 t.scratch.im (s.cfg.n / 2) = 0 ∧
      at0 t.scratch.re 0 = at0 s.scratch.re 0 ∧
      at0 t.scratch.re (s.cfg.n / 2) = at0 s.scratch.re (s.cfg.n / 2) ∧
      (∀ i, 1 ≤ i → i < s.cfg.n / 2 →
        at0 t.scratch.re i = at0 s.scratch.re i ∧ at0 t.scratch.im i = at0 s.scratch.im i ∧
        at0 t.scratch.re (s.cfg.n - i) = at0 s.scratch.re i ∧
        (let negated := N.sub Numerics.zero (at0 s.scratch.im i)
         let zero := N.isZero (at0 s.scratch.im i) = true
         (zero → N.isZero (at0 t.scratch.im (s.cfg.n - i)) = true) ∧
         (¬ zero ∨ N.isZero negated = true → at0 t.scratch.im (s.cfg.n - i) = negated))) ∧
      t = { s with scratch := { s.scratch with re := t.scratch.re, im := t.scratch.im } }) ∧
    (∃ t, exec (.syIrfft c) s = .next t ∧ t.scratch.y.length = s.cfg.n ∧
      t.scratch.y = irfft s.cfg
        ((List.range s.cfg.n).map fun k => (at0 s.scratch.re k, at0 s.scratch.im k)) ∧
      t = { s with
        scratch := { s.scratch with y := t.scratch.y, yFromFinite := s.scratch.binsFromFinite } }) ∧
    (∃ t, exec (.syNormwin c) s = .next t ∧ t.scratch.y.length = s.cfg.n ∧
      (∀ n, n < s.cfg.n →
        let v := N.mul (N.div (at0 s.scratch.y n) (N.ofNat s.cfg.n)) (windowAt s.cfg n)
        let starts := n = 0 ∧ N.isZero (windowAt s.cfg 0) = true ∧
          (N.isFinite (at0 s.scratch.y 0) = true ∨ s.scratch.yFromFinite = true)
        let silent := (∀ k, k < s.cfg.nb → N.isZero (s.element (.mixMag c) k) = true ∧
            N.isFinite (s.element (.mixPh c) k) = true) ∧
          ∀ k, k < s.cfg.n → N.isZero (at0 s.scratch.y k) = true
        (s.mixMark c = true → at0 t.scratch.y n = Config.unspecified .frame s.scratch.y n) ∧
        (s.mixMark c = false →
          (starts ∨ silent → N.isZero (at0 t.scratch.y n) = true) ∧
          (¬ (starts ∨ silent) ∨ N.isZero v = true → at0 t.scratch.y n = v))) ∧
      t = { s with scratch := { s.scratch with y := t.scratch.y } })

/-- 45_synthesizer.md R145, R147: `SY.OLA` adds element `k` of the frame to element `(OLA_WR + k) mod L`
of its channel's overlap-add memory and changes nothing else; `SY.ADV` moves `OLA_WR` by `HOP` modulo
`L` and changes nothing else. An element that a frame from non-finite samples is added into, or was since
it was last emitted, is unspecified, and stays marked so (70_reset_and_hazards.md R207; the marks are the
model's, log 9). Whether the frame is such a one is read from the mark of `MIX[c]` of the channel named, at
that moment, and not from `y`: the model's choice for a word queued for another channel than `y` came from
(log 24). -/
def Obligations.OverlapAddAndAdvance : Prop :=
  ∀ (s : State) (c : Chan), s.mem.wf → s.cfg.legal = true → c.val < s.cfg.nch →
    (∃ t, exec (.syOla c) s = .next t ∧
      (∀ k, k < s.cfg.n →
        let i := (s.olaWr + k) % s.cfg.len
        t.element (.ola c) i =
          if s.mixMark c || s.olaMark c i then
            Config.unspecified .overlapAdd [s.element (.ola c) i, at0 s.scratch.y k] i
          else s.cfg.numerics.add (s.element (.ola c) i) (at0 s.scratch.y k)) ∧
      (∀ i, t.olaMark c i = true ↔ s.olaMark c i = true ∨
        (s.mixMark c = true ∧ ∃ k, k < s.cfg.n ∧ i = (s.olaWr + k) % s.cfg.len)) ∧
      (∀ c', c' ≠ c → ∀ i, t.olaMark c' i = s.olaMark c' i) ∧
      sameOutside (fun a => ∃ k, k < s.cfg.n ∧ a = elementAddr (.ola c) ((s.olaWr + k) % s.cfg.len))
        s t ∧
      t = { s with mem := t.mem, marks := { s.marks with ola := t.marks.ola } }) ∧
    exec .syAdv s = .next { s with olaWr := (s.olaWr + s.cfg.hop) % s.cfg.len }

/-- 45_synthesizer.md R146: `SYNTHESIZE` is the sequence of its five steps; it completes, and changes
only the overlap-add memory of its channel, at the `N` elements from the write cursor, and scratch
values. -/
def Obligations.SynthesizeIsItsSteps : Prop :=
  ∀ (s : State) (c : Chan), s.mem.wf → s.cfg.legal = true → c.val < s.cfg.nch →
    exec (.synthesize c) s
      = execAll [.syRect c, .sySymm c, .syIrfft c, .syNormwin c, .syOla c] s ∧
    ∃ t, exec (.synthesize c) s = .next t ∧
      sameOutside (fun a => ∃ k, k < s.cfg.n ∧ a = elementAddr (.ola c) ((s.olaWr + k) % s.cfg.len))
        s t ∧
      t = { s with mem := t.mem, scratch := t.scratch, marks := { s.marks with ola := t.marks.ola } }

/-- 45_synthesizer.md R148, R140, R144: in every legal construction, a mixed spectrum of zero magnitudes and
finite phases gives an all-zero frame and leaves every finite overlap-add element unchanged, numerically. With the Hann window the frame starts with 0: `SY.NORMWIN`
leaves a zero in `y[0]` when it finds a finite value there (R144), and `SYNTHESIZE` of a finite mixed spectrum
does whatever the record's functions and whichever its transform (R148). Where a formula of R140, R141 or R144
would give no zero, because a cosine, the transform of finite values or the window is not finite or a
difference or quotient of zeros is no zero, that R148's sentence stands over it is the model's choice
(log 34). -/
def Obligations.SilentSpectrumAddsSilence : Prop :=
  ∀ (s : State) (c : Chan),
    let N := s.cfg.numerics
    s.mem.wf → s.cfg.legal = true → c.val < s.cfg.nch → s.mixMark c = false →
    ((∀ k, k < s.cfg.nb → N.isZero (s.element (.mixMag c) k) = true ∧
        N.isFinite (s.element (.mixPh c) k) = true) →
      ∃ t, exec (.synthesize c) s = .next t ∧
        (∀ n, n < s.cfg.n → N.isZero (at0 t.scratch.y n) = true) ∧
        ∀ i, s.olaMark c i = false → N.isFinite (s.element (.ola c) i) = true →
          N.eq (t.element (.ola c) i) (s.element (.ola c) i) = true) ∧
    (s.cfg.window = .hann → N.isFinite (at0 s.scratch.y 0) = true →
      ∃ t, exec (.syNormwin c) s = .next t ∧ N.isZero (at0 t.scratch.y 0) = true) ∧
    (s.cfg.window = .hann →
      (∀ k, k < s.cfg.nb → N.isFinite (s.element (.mixMag c) k) = true ∧
        N.isFinite (s.element (.mixPh c) k) = true) →
      ∃ t, exec (.synthesize c) s = .next t ∧ N.isZero (at0 t.scratch.y 0) = true)

/-! ### Stream Driver -/

/-- 46_driver.md R156, 60_exceptions.md R183: `PROCESS` takes exactly one of the four branches, in the
rule's order, and raises that branch's event. That it sets the block context and changes nothing else,
its `n` beats being the steps that follow, is the model's split of the rule's loop (log 17,
`StepRunsOneBeatOfTheBlock`, `BlockRunsItsBeats`). -/
def Obligations.ProcessChoosesThePath : Prop :=
  ∀ (s : State) (n : BitVec 16) (sc : Bool) (k : BitVec 4),
    let valid := s.prepared = true ∧ s.cfg.numerics.isFinite s.sr = true ∧
      s.cfg.numerics.lt Numerics.zero s.sr = true
    (¬ valid → exec (.process n sc k) s =
      .next { s with events := s.events ||| 0x02, blkActive := false, blkRem := n }) ∧
    (valid → sc = false → exec (.process n sc k) s =
      .next { s with blkActive := false, blkRem := n }) ∧
    (valid → sc = true → k.toNat ≠ s.cfg.nch → exec (.process n sc k) s =
      .next { s with events := s.events ||| 0x08, blkActive := false, blkRem := n }) ∧
    (valid → sc = true → k.toNat = s.cfg.nch → exec (.process n sc k) s =
      .next { s with blkActive := true, blkRem := n })

/-- 46_driver.md R158: `DRV.EMIT` puts element `OLA_RD` of each channel's overlap-add memory on
main-out, clears it, and moves `OLA_RD` by 1 modulo `L`; it changes nothing else. An
emitted element is clean again (70_reset_and_hazards.md R207). -/
def Obligations.EmitOutputsAndClears : Prop :=
  ∀ (s : State), s.mem.wf →
    ∃ t, exec .drvEmit s = .next t ∧
      (∀ c : Chan, c.val < s.cfg.nch →
        t.samplesOut[c] = s.samplesOut[c] ++ [s.element (.ola c) s.olaRd] ∧
        t.element (.ola c) s.olaRd = 0) ∧
      (∀ c : Chan, s.cfg.nch ≤ c.val → t.samplesOut[c] = s.samplesOut[c]) ∧
      t.olaRd = (s.olaRd + 1) % s.cfg.len ∧
      sameOutside (fun a => ∃ c : Chan, c.val < s.cfg.nch ∧ a = elementAddr (.ola c) s.olaRd) s t ∧
      (∀ c i, t.olaMark c i = true ↔ s.olaMark c i = true ∧ ¬ (c.val < s.cfg.nch ∧ i = s.olaRd)) ∧
      t = { s with mem := t.mem, marks := { s.marks with ola := t.marks.ola }
                   samplesOut := t.samplesOut, olaRd := t.olaRd }

/-- 46_driver.md R159: `DRV.BYPASS`, with a main sample waiting for every channel, copies each to
main-out bit for bit; no sidechain sample is taken, and nothing else changes. -/
def Obligations.BypassCopiesMainToOutput : Prop :=
  decodeMicro 0xC1000000 = .op .drvBypass ∧
  ∀ (s : State), s.mainReady = true →
    ∃ t, exec .drvBypass s = .next t ∧
      (∀ c : Chan, c.val < s.cfg.nch →
        ∃ v vs, s.waiting .main c = v :: vs ∧ t.waiting .main c = vs ∧
          t.samplesOut[c] = s.samplesOut[c] ++ [v]) ∧
      (∀ c : Chan, s.cfg.nch ≤ c.val →
        t.waiting .main c = s.waiting .main c ∧ t.samplesOut[c] = s.samplesOut[c]) ∧
      (∀ c : Chan, t.waiting .side c = s.waiting .side c) ∧
      t = { s with samplesIn := t.samplesIn, samplesOut := t.samplesOut }

/-- 46_driver.md R157: with its samples waiting, a beat of a bypassed block is `DRV.BYPASS`; a beat of an
active block is `DRV.EMIT`, then `ACC.WRITE` for the main channels in ascending order, then for the
sidechain channels, then `Idle` becomes `Accumulating`, then `DRV.CYCLE` if `ACC.READY` answers true. -/
def Obligations.BeatIsItsSequence : Prop :=
  ∀ (s : State), s.beatReady = true →
    (s.blkActive = false → ∃ t, exec .drvBypass s = .next t ∧ exec .drvBeat s = .next t) ∧
    (s.blkActive = true →
      ∃ u v w, execAll ([.drvEmit] ++ s.cfg.channels.map (.accWrite .main)
          ++ s.cfg.channels.map (.accWrite .side)) s = .next u ∧
        exec .accReady { u with drv := if u.drv = .idle then .accumulating else u.drv } = .next v ∧
        (if v.scratch.ready then exec .drvCycle v = .next w else w = v) ∧
        exec .drvBeat s = .next w)

/-- 46_driver.md R161: `DRV.CYCLE` enters `Cycle`, takes the snapshot, runs `ANALYZE` of both streams,
`EXCHANGE` and `SYNTHESIZE` for each channel in ascending order, then `SY.ADV` and `ACC.CONSUME`, and
leaves `Accumulating`. -/
def Obligations.CycleIsItsSequence : Prop :=
  ∀ (s : State),
    ∃ t, execAll ([.snap]
        ++ s.cfg.channels.flatMap (fun c =>
          [.analyze .main c, .analyze .side c, .exchange c, .synthesize c])
        ++ [.syAdv, .accConsume]) { s with drv := .cycle } = .next t ∧
      exec .drvCycle s = .next { t with drv := .accumulating }

/-- 46_driver.md R161, 42_accumulator.md R103, 45_synthesizer.md R147: what one cycle changes. From full
rings it frees `HOP` samples of each, moves the write cursor by `HOP`, ends in `Accumulating`, leaves
the rings' contents, the read cursor, the ports, the parameters and the sequencing registers alone, and
adds nothing to the overlap-add memories outside the `N` elements from the write cursor. -/
def Obligations.CycleFrame : Prop :=
  ∀ (s : State), s.mem.wf → s.cfg.legal = true →
    (∀ st (c : Chan), c.val < s.cfg.nch → (s.ring st c).cnt = s.cfg.n) →
    ∃ t, exec .drvCycle s = .next t ∧ t.drv = .accumulating ∧
      t.olaWr = (s.olaWr + s.cfg.hop) % s.cfg.len ∧
      (∀ st (c : Chan), c.val < s.cfg.nch →
        t.ring st c = { wr := (s.ring st c).wr, cnt := s.cfg.n - s.cfg.hop }) ∧
      (∀ st c i, t.element (.ring st c) i = s.element (.ring st c) i) ∧
      (∀ c j, (∀ k, k < s.cfg.n → j ≠ (s.olaWr + k) % s.cfg.len) →
        t.element (.ola c) j = s.element (.ola c) j) ∧
      t = { s with
        drv := t.drv, snap := t.snap, band1 := t.band1, band2 := t.band2, events := t.events
        mem := t.mem, scratch := t.scratch, marks := t.marks, olaWr := t.olaWr, rings := t.rings }

/-! ### Runs of a block -/

/-- 46_driver.md R156, R165, with 20_memory.md R43 and R45 for the command port and the sample ports: a
block of `n` beats whose samples wait runs to its end, in `n` steps (one a beat, the model's, log 17). It
puts exactly `n` samples on every channel of main-out after those already there, takes exactly `n` of
every main port and, when it is active, of every sidechain port, and takes no command. -/
def Obligations.BlockRunsItsBeats : Prop :=
  ∀ (s : State), s.undisturbed → s.issue = [] → s.supplied s.blkRem.toNat →
    ∃ t, stepMany s.blkRem.toNat s = .next t ∧ t.blkRem = 0 ∧ t.blkActive = s.blkActive ∧
      t.cmdIn = s.cmdIn ∧ t.cfg = s.cfg ∧
      ∀ c : Chan, c.val < s.cfg.nch →
        (∃ out, t.samplesOut[c] = s.samplesOut[c] ++ out ∧ out.length = s.blkRem.toNat) ∧
        t.waiting .main c = (s.waiting .main c).drop s.blkRem.toNat ∧
        t.waiting .side c = if s.blkActive then (s.waiting .side c).drop s.blkRem.toNat
          else s.waiting .side c

/-- 46_driver.md R159, R164: a bypassed block copies its main input to output bit for bit and changes
nothing else of the core (in one step a beat, log 17). -/
def Obligations.BypassedBlockCopiesTheMainStream : Prop :=
  ∀ (s : State), s.undisturbed → s.issue = [] → s.blkActive = false → s.supplied s.blkRem.toNat →
    ∃ t, stepMany s.blkRem.toNat s = .next t ∧
      (∀ c : Chan, c.val < s.cfg.nch →
        t.samplesOut[c] = s.samplesOut[c] ++ (s.waiting .main c).take s.blkRem.toNat ∧
        t.waiting .main c = (s.waiting .main c).drop s.blkRem.toNat) ∧
      (∀ c : Chan, s.cfg.nch ≤ c.val →
        t.samplesOut[c] = s.samplesOut[c] ∧ t.waiting .main c = s.waiting .main c) ∧
      (∀ c, t.waiting .side c = s.waiting .side c) ∧
      t = { s with blkRem := 0, samplesIn := t.samplesIn, samplesOut := t.samplesOut }

/-- 46_driver.md R158, 70_reset_and_hazards.md R201, for one undisturbed block of at most `N` active
beats that follows `PREPARE`: it emits zeros. `SilenceUntilTheFirstCycle` covers every other way of
cutting the beats. -/
def Obligations.FirstFrameOfBeatsIsSilent : Prop :=
  ∀ (s₀ s : State) (sr : Word) (mb k : BitVec 16),
    exec (.prepare sr mb) s₀ = .next s → s.cfg.legal = true → s.undisturbed → s.issue = [] →
    k.toNat ≤ s.cfg.n → ({ s with blkActive := true, blkRem := k } : State).supplied k.toNat →
    ∃ t, stepMany k.toNat { s with blkActive := true, blkRem := k } = .next t ∧
      ∀ c : Chan, c.val < s.cfg.nch →
        t.samplesOut[c] = s.samplesOut[c] ++ List.replicate k.toNat 0

/-- 46_driver.md R158, 70_reset_and_hazards.md R201, step by step, whatever the blocks are and whatever
falls between the beats: on a prepared core that has run no cycle since `PREPARE`, so that every
overlap-add element is 0, an active beat emits zeros and counts one more sample; until the beat that
completes the frame, and so runs the first cycle, the elements stay 0; and no other step changes them or
the count, but `PREPARE`, which starts the count again. `PREPARE` leaves every element and the count at 0
(`PrepareInitialisesEveryBuffer`), so the first `N` active beats after it emit zeros. -/
def Obligations.SilenceUntilTheFirstCycle : Prop :=
  ∀ (s t : State), s.Sound → s.InStep → s.prepared = true → s.Quiet → step s = .next t →
    (s.activeBeatNext →
      (∀ c : Chan, c.val < s.cfg.nch → t.samplesOut[c] = s.samplesOut[c] ++ [0]) ∧
      ((s.ring .main 0).cnt + 1 < s.cfg.n →
        t.Quiet ∧ t.prepared = true ∧ (t.ring .main 0).cnt = (s.ring .main 0).cnt + 1)) ∧
    (¬ s.activeBeatNext →
      t.Quiet ∧
      (t.prepared = true →
        (t.ring .main 0).cnt = (s.ring .main 0).cnt ∨
        ∃ sr mb rest, decodeCommand s.cmdIn = .taken (.prepare sr mb) rest ∧
          (t.ring .main 0).cnt = 0))

/-- 46_driver.md R156: the result of processing a stream does not depend on how it is cut into blocks:
two blocks of `a` and `b` beats with the same `sc`, `k` fields end in the same state as one block of
`a + b` beats (the numbers of steps, one for each `PROCESS` and one for each beat, are the model's,
log 17). -/
def Obligations.BlockBoundariesDoNotMatter : Prop :=
  ∀ (s : State) (a b : BitVec 16) (sc : Bool) (k : BitVec 4) (rest : List Word),
    s.undisturbed → s.issue = [] → s.blkRem = 0 → a.toNat + b.toNat < 2 ^ 16 →
    ({ s with blkActive := true } : State).supplied (a.toNat + b.toNat) →
    ∃ t, stepMany (a.toNat + b.toNat + 2)
        { s with cmdIn := encode (.process a sc k) ++ encode (.process b sc k) ++ rest } = .next t ∧
      stepMany (a.toNat + b.toNat + 1)
        { s with cmdIn := encode (.process (a + b) sc k) ++ rest } = .next t

/-! ### Invariants -/

/-- 10_state.md R13, R14, R18, R20 and 70_reset_and_hazards.md R196: every step from a sound state ends
in a sound state, whatever the hosts do and whatever micro-operations are queued. -/
def Obligations.SoundnessIsKept : Prop :=
  ∀ (s t : State), s.Sound → step s = .next t → t.Sound

/-- 10_state.md R18, R21, 46_driver.md R160, R163: on a machine whose data path only the driver feeds,
every step keeps all rings at the same place, short of a full frame, and the read cursor `N` beats of
input ahead of the write cursor. -/
def Obligations.RingsAndCursorsStayInStep : Prop :=
  ∀ (s t : State), s.Sound → s.InStep → step s = .next t → t.InStep

/-- 10_state.md R21, 46_driver.md R163: every step keeps the overlap-add region between the end of the
last frame and the read cursor at 0, so no addition collides with history still to be emitted. -/
def Obligations.TailStaysClear : Prop :=
  ∀ (s t : State), s.Sound → s.InStep → s.TailClear → step s = .next t → t.TailClear

/-- The three invariants hold right after hardware reset, for every legal construction. -/
def Obligations.ResetMeetsTheInvariants : Prop :=
  ∀ (g : Cfg), g.legal = true →
    (State.resetOf g).Sound ∧ (State.resetOf g).InStep ∧ (State.resetOf g).TailClear

/-- 10_state.md R12, R24, 70_reset_and_hazards.md R195: the register values the spec gives for hardware
reset, for every construction, and as words for binary32; and that nothing waits on any interface, which
the model's queues say by being empty (logs 14, 15, 16, 18 and 31). -/
def Obligations.ResetValues : Prop :=
  ∀ (g : Cfg),
    let s := State.resetOf g
    let N := g.numerics
    [s.params.cut1, s.params.cut2, s.params.blen, s.params.xmode, s.params.mix1, s.params.mix2]
      = [N.ofReal (.ratio 2000 1), N.ofReal (.ratio 2000 1), N.one, Numerics.zero,
         N.ofReal (.ratio 1 100), N.ofReal (.ratio 1 100)] ∧
    (g.num = .binary32 →
      [s.params.cut1, s.params.cut2, s.params.blen, s.params.xmode, s.params.mix1, s.params.mix2]
        = [0x44FA0000, 0x44FA0000, 0x3F800000, 0x00000000, 0x3C23D70A, 0x3C23D70A]) ∧
    (∀ addr : BitVec 32, 0x10 ≤ addr → regRead s addr = 0) ∧
    regRead s 0x01 = 0 ∧ regRead s 0x02 = 0 ∧ regRead s 0x03 = 0 ∧ regRead s 0x04 = 0 ∧
    s.prepared = false ∧ s.drv = .idle ∧ s.blkRem = 0 ∧ s.blkActive = false ∧
    (∀ st c, s.ring st c = { wr := 0, cnt := 0 }) ∧ s.olaWr = 0 ∧ s.olaRd = g.len - g.n ∧
    s.cmdIn = [] ∧ s.issue = [] ∧ s.turns = [] ∧ s.regOut = [] ∧
    (∀ st c, s.waiting st c = []) ∧ (∀ c : Chan, s.samplesOut[c] = []) ∧
    regRead State.reset 0x00 = 0x0000020B

/-! ### Whole-machine rules -/

/-- 60_exceptions.md R175: `EVENTS` influences nothing. Two machines that differ in `EVENTS` only take
the same step and end differing in `EVENTS` only, unless the step is a read of `EVENTS` itself. -/
def Obligations.EventsInfluenceNothing : Prop :=
  ∀ (s : State) (e : BitVec 5), s.turns.head? ≠ some (.regRead 0x02) →
    match step s with
    | .next t => ∃ e', step { s with events := e } = .next { t with events := e' }
    | .fault r => step { s with events := e } = .fault r
    | .refused r => step { s with events := e } = .refused r

/-- 10_state.md R16: an event bit, once set, is cleared by nothing but a register write to `EVENTS`
(hardware reset is not a step). -/
def Obligations.EventsAreSticky : Prop :=
  ∀ (s t : State), (∀ v, s.turns.head? ≠ some (.regWrite 0x02 v)) → step s = .next t →
    t.events ||| s.events = t.events

/-- 10_state.md R12, 41_config.md R90, R91, 40_lifecycle.md R84: a step changes a parameter register
only by a register write to one of the six addresses or by a `SETP` command. -/
def Obligations.ParametersChangeOnlyByTheirWrites : Prop :=
  ∀ (s t : State), step s = .next t → t.params ≠ s.params →
    (∃ addr v, s.turns.head? = some (.regWrite addr v) ∧ 0x08 ≤ addr ∧ addr ≤ 0x0D) ∨
    (∃ v rest, s.driverNext ∧
      (decodeCommand s.cmdIn = .taken (.setpCut1 v) rest ∨
       decodeCommand s.cmdIn = .taken (.setpCut2 v) rest ∨
       decodeCommand s.cmdIn = .taken (.setpBlen v) rest ∨
       decodeCommand s.cmdIn = .taken (.setpXmode v) rest ∨
       decodeCommand s.cmdIn = .taken (.setpMix1 v) rest ∨
       decodeCommand s.cmdIn = .taken (.setpMix2 v) rest))

/-- 00_scope.md R5, 70_reset_and_hazards.md R198, 46_driver.md R162: no step changes the construction
parameters; `SR` and `MAXBLK` change only by a `PREPARE` command; and from outside `Cycle`, with no
micro-operation queued, `DRV_STATE` changes only to `Idle` by `PREPARE` or `RELEASE`, or from `Idle` to
`Accumulating` in a beat of an active block. -/
def Obligations.WhatChangesTheSequencingRegisters : Prop :=
  ∀ (s t : State), step s = .next t →
    t.cfg = s.cfg ∧
    (t.sr ≠ s.sr ∨ t.maxBlk ≠ s.maxBlk →
      ∃ sr mb rest, s.driverNext ∧ decodeCommand s.cmdIn = .taken (.prepare sr mb) rest ∧
        t.sr = sr ∧ t.maxBlk = mb) ∧
    (s.drv ≠ .cycle → s.issue = [] → t.drv ≠ s.drv →
      (t.drv = .idle ∧ s.driverNext ∧ s.blkRem = 0 ∧ ∃ i rest, decodeCommand s.cmdIn = .taken i rest ∧
        (i = .release ∨ ∃ sr mb, i = .prepare sr mb)) ∨
      (s.drv = .idle ∧ t.drv = .accumulating ∧ s.driverNext ∧ s.blkRem ≠ 0 ∧ s.blkActive = true))

/-- 41_config.md R93, 20_memory.md R52: the data path sees the parameter registers only through `SNAP`.
Every instruction but the six forms of `SETP` and those that take a snapshot does the same whatever the
parameters hold, and leaves them alone. -/
def Obligations.ParametersReachTheDataPathOnlyThroughSnap : Prop :=
  ∀ (i : Instr) (s : State) (p : Params),
    (∀ v, i ≠ .setpCut1 v ∧ i ≠ .setpCut2 v ∧ i ≠ .setpBlen v ∧ i ≠ .setpXmode v ∧
      i ≠ .setpMix1 v ∧ i ≠ .setpMix2 v) →
    i ≠ .snap → i ≠ .drvCycle → i ≠ .drvBeat →
    match exec i s with
    | .next t => t.params = s.params ∧ exec i { s with params := p } = .next { t with params := p }
    | .fault r => exec i { s with params := p } = .fault r
    | .refused r => exec i { s with params := p } = .refused r

/-- 60_exceptions.md R175, and the model's two stops of logs 14 and 20: no instruction traps. A
well-formed instruction completes, but for one that takes samples and does not find them; an
instruction for a channel the machine does not have stops by name. -/
def Obligations.OnlyMissingSamplesAndChannelsStop : Prop :=
  ∀ (i : Instr) (s : State),
    (i.wellFormed s.cfg.nch = false → exec i s = .fault .noSuchChannel) ∧
    (i.wellFormed s.cfg.nch = true →
      (∀ st c, i = .accWrite st c → s.hasSample st c = true) →
      (i = .drvBypass → s.mainReady = true) → (i = .drvBeat → s.beatReady = true) →
      ∃ t, exec i s = .next t) ∧
    (∀ st (c : Chan), i = .accWrite st c → c.val < s.cfg.nch → s.hasSample st c = false →
      exec i s = .fault .samplePortStuck) ∧
    (i = .drvBypass → s.mainReady = false → exec i s = .fault .samplePortStuck) ∧
    (i = .drvBeat → s.beatReady = false → exec i s = .fault .samplePortStuck)
end

