-- ==== Sys2Proof/Laws/Numerics.lean ====
section
/-! SUPPORT. What the operations of the default numerics record do with a datum, said once: its parts,
its rounding, its zeros; the fields of a construction's record; and the places of a record made of free
functions. -/

namespace Sys2Proof.Machine

/-- What `keepIf` answers meets the law that the zero meets. -/
theorem keepIf_law {law : Word → Bool} (h : law 0 = true) (w : Word) : law (keepIf law w) = true := by
  unfold keepIf
  split <;> assumption

/-- What a rule promises to be a zero is one, in a format whose zero is one. -/
theorem keepZero_promised {isZero : Word → Bool} (h : isZero 0 = true) (w : Word) :
    isZero (keepZero isZero true w) = true := keepIf_law h w

/-- A value with nothing promised, or a zero where one is, stays as it is. -/
theorem keepZero_eq {isZero : Word → Bool} {promised : Bool} {w : Word}
    (h : promised = true → isZero w = true) : keepZero isZero promised w = w := by
  unfold keepZero keepIf
  split
  · next hp => rw [if_pos (h hp)]
  · rfl

end Sys2Proof.Machine

namespace Sys2Proof

open Machine

/-- The choice of the transforms changes no other field of the record. -/
theorem numerics_eq (g : Cfg) :
    g.numerics =
      { baseNumerics g with rfft := g.numerics.rfft, irfft := g.numerics.irfft } := by
  unfold Cfg.numerics
  cases g.transform <;> rfl

theorem baseNumerics_binary32 {g : Cfg} (h : g.num = .binary32) : baseNumerics g = binary32 := by
  unfold baseNumerics
  rw [h]

/-! ### A record made of free functions -/

/-- Whatever the free functions are, `NUM.ofNat` of the record made of them is exact up to `2^13`. -/
theorem RawNum.sound_exact (r : RawNum) : r.sound.exact = true := by
  unfold sound
  split
  · assumption
  · simp only [exact, Bool.and_eq_true, decide_eq_true_eq, List.all_eq_true, List.mem_range]
    refine ⟨⟨by decide, rfl⟩, fun n hn => ?_⟩
    rw [Option.some_inj, BitVec.toInt_ofNat', mul_one, Int.bmod_eq_of_le_mul_two] <;> omega

section

variable {r : RawNum} (h : r.exact = true)
include h

theorem RawNum.perOne_pos : 0 < r.perOne := by
  simp only [exact, Bool.and_eq_true, decide_eq_true_eq] at h
  exact h.1.1

theorem RawNum.place_ofNat {n : Nat} (hn : n ≤ 2 ^ 13) :
    r.place (r.ofNat n) = some ((n * r.perOne : Nat) : Int) := by
  simp only [exact, Bool.and_eq_true, decide_eq_true_eq, List.all_eq_true, List.mem_range] at h
  exact h.2 n (by omega)

theorem RawNum.place_zero : r.place Numerics.zero = some 0 := by
  have hz : r.ofNat 0 = Numerics.zero := by
    simp only [exact, Bool.and_eq_true, decide_eq_true_eq] at h
    exact h.1.2
  rw [← hz, place_ofNat h (by decide), Nat.zero_mul]
  rfl

theorem RawNum.isZero_iff (w : Word) : r.isZero w = true ↔ r.place w = some 0 := by
  unfold isZero same compare
  rw [place_zero h]
  cases r.place w <;> simp

end

theorem RawNum.finite_iff (r : RawNum) (w : Word) :
    r.finite w = true ↔ ∃ p : Int, r.place w = some p ∧ -(r.lowest : Int) ≤ p ∧
      p ≤ (max r.highest (2 ^ 13 * r.perOne) : Nat) := by
  unfold finite
  cases r.place w <;> simp

theorem RawNum.atMost_iff (r : RawNum) (a b : Word) :
    r.atMost a b = true ↔ ∃ p q, r.place a = some p ∧ r.place b = some q ∧ p ≤ q := by
  unfold atMost compare
  cases r.place a <;> cases r.place b <;> simp

theorem RawNum.less_iff (r : RawNum) (a b : Word) :
    r.less a b = true ↔ ∃ p q, r.place a = some p ∧ r.place b = some q ∧ p < q := by
  unfold less compare
  cases r.place a <;> cases r.place b <;> simp

/-- `pi_F` stands for a number that is not below 0. -/
theorem RawNum.place_piF {r : RawNum} (h : r.exact = true) : ∃ q, r.place r.piF = some q ∧ 0 ≤ q := by
  have law : r.atMost Numerics.zero r.piF = true :=
    keepIf_law (law := fun w => r.atMost Numerics.zero w)
      ((r.atMost_iff _ _).2 ⟨0, 0, place_zero h, place_zero h, le_refl _⟩) _
  obtain ⟨p, q, hp, hq, hpq⟩ := (r.atMost_iff _ _).1 law
  rw [place_zero h, Option.some_inj] at hp
  exact ⟨q, hq, hp ▸ hpq⟩

theorem RawNum.isNaN_record (r : RawNum) (w : Word) : r.record.isNaN w = (r.place w).isNone := by
  show (!r.same w w) = _
  unfold same compare
  cases r.place w <;> simp

end Sys2Proof

namespace Sys2Proof.Machine.F32

/-! ### The parts of a datum -/

theorem magnitude_lt (w : Word) : magnitude w < 2 ^ 31 := Nat.mod_lt _ (by decide)

theorem ofParts_sign_magnitude (w : Word) : ofParts (sign w) (magnitude w) = w := by
  apply BitVec.eq_of_toNat_eq
  unfold ofParts sign magnitude
  rw [BitVec.getLsbD, Nat.testBit_eq_decide_div_mod_eq]
  have := w.isLt
  split <;> simp_all <;> omega

theorem magnitude_ofParts (s : Bool) {m : Nat} (h : m < 2 ^ 31) : magnitude (ofParts s m) = m := by
  unfold magnitude ofParts
  cases s <;> simp <;> omega

theorem sign_ofParts (s : Bool) {m : Nat} (h : m < 2 ^ 31) : sign (ofParts s m) = s := by
  unfold sign ofParts
  rw [BitVec.getLsbD, Nat.testBit_eq_decide_div_mod_eq]
  cases s <;> simp <;> omega

theorem isFinite_iff {w : Word} : isFinite w = true ↔ magnitude w < infMagnitude := by
  simp [isFinite]

theorem isZero_iff {w : Word} : isZero w = true ↔ magnitude w = 0 := by simp [isZero]

theorem not_isNaN_isInf_of_isFinite {w : Word} (h : isFinite w = true) :
    isNaN w = false ∧ isInf w = false := by
  simp [isFinite, isNaN, isInf] at *
  omega

theorem isFinite_of_isZero {w : Word} (h : isZero w = true) : isFinite w = true := by
  rw [isFinite_iff, isZero_iff.1 h]
  decide

theorem isZero_ofParts (s : Bool) : isZero (ofParts s 0) = true := by cases s <;> decide

theorem units_of_isZero {w : Word} (h : isZero w = true) : units w = 0 := by
  simp [units, isZero_iff.1 h]

theorem nanResult_isNaN (src : NanSource) (a b : Word) : isNaN (nanResult src a b) = true := by
  unfold nanResult
  split
  · assumption
  · decide

theorem magnitude_negate (w : Word) : magnitude (negate w) = magnitude w := by
  unfold magnitude negate
  rw [BitVec.toNat_xor, show BitVec.toNat (0x80000000 : BitVec 32) = 2 ^ 31 from rfl]
  apply Nat.eq_of_testBit_eq
  intro i
  rw [Nat.testBit_mod_two_pow, Nat.testBit_mod_two_pow, Nat.testBit_xor, Nat.testBit_two_pow]
  by_cases h : i < 31
  · have : ¬ 31 = i := by omega
    simp [h, this]
  · simp [h]

/-! ### Rounding -/

theorem roundPack_zero (s : Bool) (sh : Nat) : roundPack s 0 sh = ofParts s 0 := by
  simp [roundPack, dropped, roundShift]

/-- A finite datum's own units round to the datum. -/
theorem roundPack_units {w : Word} (h : isFinite w = true) (s : Bool) (sh : Nat) :
    roundPack s (units w * 2 ^ sh) sh = ofParts s (magnitude w) := by
  rw [isFinite_iff] at h
  unfold roundPack
  congr 1
  have key : (dropped (units w * 2 ^ sh) sh - sh) * 2 ^ 23 +
      roundShift (units w * 2 ^ sh) (dropped (units w * 2 ^ sh) sh) = magnitude w := by
    have rs : ∀ q e, roundShift (q * 2 ^ e * 2 ^ sh) (sh + e) = q := by
      intro q e
      have : q * 2 ^ e * 2 ^ sh = q * 2 ^ (sh + e) := by rw [pow_add]; ring
      unfold roundShift
      rw [this, Nat.mul_mod_left, Nat.mul_div_cancel _ (by positivity)]
      have : 2 ^ (sh + e) ≠ 0 := by positivity
      rw [if_neg]
      simp
      omega
    by_cases h0 : magnitude w / 2 ^ 23 = 0
    · have hu : units w = magnitude w := by unfold units; rw [if_pos h0]; omega
      have hd : dropped (units w * 2 ^ sh) sh = sh := by
        unfold dropped
        have : (units w * 2 ^ sh).log2 ≤ sh + 23 := by
          by_cases hz : units w * 2 ^ sh = 0
          · rw [hz]; simp
          · apply Nat.le_of_lt_succ
            rw [Nat.log2_lt hz, pow_succ, pow_add]
            have : units w < 2 ^ 23 := by omega
            have := Nat.mul_lt_mul_of_pos_right this (show 0 < 2 ^ sh by positivity)
            have e2 : 2 ^ sh * 2 ^ 23 = 2 ^ 23 * 2 ^ sh := by ring
            omega
        omega
      have := rs (units w) 0
      simp only [pow_zero, mul_one, add_zero] at this
      rw [hd, this, hu]; omega
    · have hu : units w = (2 ^ 23 + magnitude w % 2 ^ 23) * 2 ^ (magnitude w / 2 ^ 23 - 1) := by
        unfold units
        rw [if_neg h0]
      generalize he : magnitude w / 2 ^ 23 - 1 = e at *
      generalize hf : magnitude w % 2 ^ 23 = f at *
      have hlt : f < 2 ^ 23 := by omega
      have hl : (units w * 2 ^ sh).log2 = 23 + e + sh := by
        rw [hu]
        have hne : (2 ^ 23 + f) * 2 ^ e * 2 ^ sh ≠ 0 := by positivity
        have pe : 0 < 2 ^ e * 2 ^ sh := by positivity
        apply Nat.le_antisymm
        · apply Nat.le_of_lt_succ
          rw [Nat.log2_lt hne]
          calc (2 ^ 23 + f) * 2 ^ e * 2 ^ sh = (2^23 + f) * (2 ^ e * 2 ^ sh) := by ring
            _ < 2 ^ 24 * (2 ^ e * 2 ^ sh) := Nat.mul_lt_mul_of_pos_right (by omega) pe
            _ = 2 ^ (23 + e + sh + 1) := by ring
        · rw [Nat.le_log2 hne]
          calc 2 ^ (23 + e + sh) = 2 ^ 23 * (2 ^ e * 2 ^ sh) := by ring
            _ ≤ (2^23 + f) * (2 ^ e * 2 ^ sh) := Nat.mul_le_mul_right _ (by omega)
            _ = _ := by ring
      have hd : dropped (units w * 2 ^ sh) sh = sh + e := by unfold dropped; rw [hl]; omega
      rw [hd, hu, rs]
      have : sh + e - sh = e := by omega
      rw [this]; omega
  rw [key]; omega

/-- What is below `2^127` in magnitude rounds to a finite datum. -/
theorem roundPack_isFinite {s : Bool} {p sh : Nat} (h : p < 2 ^ (sh + 276)) :
    isFinite (roundPack s p sh) = true := by
  have d : dropped p sh - sh ≤ 252 := by
    unfold dropped
    by_cases hp : p = 0
    · subst hp; simp
    · have := (Nat.log2_lt hp).2 h; omega
  have ds : sh ≤ dropped p sh := by unfold dropped; omega
  have r : roundShift p (dropped p sh) ≤ 2 ^ 24 := by
    have : p / 2 ^ dropped p sh < 2 ^ 24 := by
      rw [Nat.div_lt_iff_lt_mul (by positivity), ← pow_add]
      by_cases hp : p = 0
      · subst hp; positivity
      · have := Nat.lt_log2_self (n := p)
        apply lt_of_lt_of_le this
        apply Nat.pow_le_pow_right (by decide)
        unfold dropped; omega
    unfold roundShift; split <;> omega
  have hm : min ((dropped p sh - sh) * 2 ^ 23 + roundShift p (dropped p sh)) infMagnitude <
      infMagnitude := by
    have : infMagnitude = 255 * 2 ^ 23 := by decide
    omega
  unfold roundPack
  rw [isFinite_iff, magnitude_ofParts _ (lt_trans hm (by decide))]
  exact hm

/-- The units of a datum are in the order of its magnitude. -/
theorem units_lt_units {a b : Word} (h : magnitude a < magnitude b) : units a < units b := by
  unfold units
  generalize magnitude a = x at *
  generalize magnitude b = y at *
  by_cases hy : y / 2 ^ 23 = 0
  · rw [if_pos (by omega), if_pos hy]
    omega
  · rw [if_neg hy]
    have hp : 0 < 2 ^ (y / 2 ^ 23 - 1) := by positivity
    by_cases hx : x / 2 ^ 23 = 0
    · rw [if_pos hx]
      calc x % 2 ^ 23 < (2 ^ 23 + y % 2 ^ 23) * 1 := by omega
        _ ≤ _ := Nat.mul_le_mul_left _ hp
    · rw [if_neg hx]
      by_cases he : x / 2 ^ 23 = y / 2 ^ 23
      · rw [he]
        exact Nat.mul_lt_mul_of_pos_right (by omega) hp
      · have hs : 2 ^ (x / 2 ^ 23 - 1) * 2 ≤ 2 ^ (y / 2 ^ 23 - 1) := by
          rw [← pow_succ]
          exact Nat.pow_le_pow_right (by decide) (by omega)
        have hq : 0 < 2 ^ (x / 2 ^ 23 - 1) := by positivity
        calc (2 ^ 23 + x % 2 ^ 23) * 2 ^ (x / 2 ^ 23 - 1)
            < 2 ^ 24 * 2 ^ (x / 2 ^ 23 - 1) := Nat.mul_lt_mul_of_pos_right (by omega) hq
          _ = 2 ^ 23 * (2 ^ (x / 2 ^ 23 - 1) * 2) := by ring
          _ ≤ 2 ^ 23 * 2 ^ (y / 2 ^ 23 - 1) := Nat.mul_le_mul_left _ hs
          _ ≤ _ := Nat.mul_le_mul_right _ (by omega)

/-- The order of data that are no NaN is the order of their values. -/
theorem place_lt_iff (a b : Word) : place a < place b ↔ signedUnits a < signedUnits b := by
  have ha := magnitude_lt a
  have mono : ∀ x y : Word, magnitude x ≤ magnitude y → units x ≤ units y := by
    intro x y h
    rcases Nat.lt_or_eq_of_le h with h | h
    · exact (units_lt_units h).le
    · unfold units
      rw [h]
  have pos : ∀ x : Word, 0 < magnitude x → 0 < units x := by
    intro x h
    have := units_lt_units (a := 0) (b := x) (by rwa [show magnitude 0 = 0 by decide])
    omega
  have zero : ∀ x : Word, magnitude x = 0 → units x = 0 := by
    intro x h
    simp [units, h]
  have p1 := pos a
  have p2 := pos b
  have z1 := zero a
  have z2 := zero b
  have m1 := mono a b
  have m2 := mono b a
  have l1 := units_lt_units (a := a) (b := b)
  have l2 := units_lt_units (a := b) (b := a)
  unfold place signedUnits
  split <;> split <;> constructor <;> intro h <;> omega

/-- `NUM.ofNat` is exact below `2^24`. -/
theorem ofNat_exact {n : Nat} (h : n < 2 ^ 24) : signedUnits (ofNat n) = n * 2 ^ 149 := by
  by_cases h0 : n = 0
  · subst h0
    decide
  obtain ⟨l, hl⟩ : ∃ l, Nat.log2 n = l := ⟨_, rfl⟩
  have lo : 2 ^ l ≤ n := hl ▸ Nat.log2_self_le h0
  have hi : n < 2 ^ (l + 1) := hl ▸ Nat.lt_log2_self
  have l23 : l ≤ 23 := by
    have := (Nat.log2_lt h0).2 h
    omega
  have hp : n * 2 ^ 149 ≠ 0 := by positivity
  have hlog : Nat.log2 (n * 2 ^ 149) = l + 149 := by
    refine Nat.le_antisymm (Nat.le_of_lt_succ ((Nat.log2_lt hp).2 ?_)) ((Nat.le_log2 hp).2 ?_)
    · calc n * 2 ^ 149 < 2 ^ (l + 1) * 2 ^ 149 := Nat.mul_lt_mul_of_pos_right hi (by positivity)
        _ = 2 ^ (l + 149 + 1) := by ring
    · calc 2 ^ (l + 149) = 2 ^ l * 2 ^ 149 := by ring
        _ ≤ n * 2 ^ 149 := Nat.mul_le_mul_right _ lo
  have hd : dropped (n * 2 ^ 149) 0 = 126 + l := by
    unfold dropped
    omega
  have hq : n * 2 ^ 149 = n * 2 ^ (23 - l) * 2 ^ (126 + l) := by
    rw [mul_assoc, ← pow_add]
    congr 2
    omega
  have hr : roundShift (n * 2 ^ 149) (126 + l) = n * 2 ^ (23 - l) := by
    have : 2 ^ (126 + l) ≠ 0 := by positivity
    unfold roundShift
    rw [hq, Nat.mul_mod_left, Nat.mul_div_cancel _ (by positivity), if_neg (by simp; omega)]
  have q1 : 2 ^ 23 ≤ n * 2 ^ (23 - l) := by
    calc 2 ^ 23 = 2 ^ l * 2 ^ (23 - l) := by rw [← pow_add]; congr 1; omega
      _ ≤ _ := Nat.mul_le_mul_right _ lo
  have q2 : n * 2 ^ (23 - l) < 2 ^ 24 := by
    calc n * 2 ^ (23 - l) < 2 ^ (l + 1) * 2 ^ (23 - l) := Nat.mul_lt_mul_of_pos_right hi (by positivity)
      _ = 2 ^ 24 := by rw [← pow_add]; congr 1; omega
  generalize hQ : n * 2 ^ (23 - l) = q at *
  have hm : ofNat n = BitVec.ofNat 32 ((126 + l) * 2 ^ 23 + q) := by
    unfold ofNat roundPack ofParts infMagnitude
    rw [hd, hr]
    congr 1
    simp
    omega
  have hmag : magnitude (ofNat n) = (126 + l) * 2 ^ 23 + q := by
    rw [hm, magnitude, BitVec.toNat_ofNat]
    omega
  have hs : sign (ofNat n) = false := by
    rw [hm, sign, BitVec.getLsbD_ofNat, Nat.testBit_eq_decide_div_mod_eq]
    simp
    omega
  have e1 : ((126 + l) * 2 ^ 23 + q) / 2 ^ 23 = 127 + l := by omega
  have e2 : 2 ^ 23 + ((126 + l) * 2 ^ 23 + q) % 2 ^ 23 = q := by omega
  rw [signedUnits, hs, units, hmag, e1, e2, if_neg (by simp), if_neg (by omega),
    show 127 + l - 1 = 126 + l by omega, ← hq]
  push_cast
  rfl

end Sys2Proof.Machine.F32
end

