-- ==== Sys2Proof/Laws/State.lean ====
section
/-! SUPPORT. The field laws of the elementary state updates: each leaves every field alone but those
it is for. Later proofs cite these and unfold no update. -/

namespace Sys2Proof.Machine

/-! `State.raiseIf` -/

@[simp] theorem raiseIf_cfg (cause : Bool) (e : Event) (s : State) :
    (State.raiseIf cause e s).cfg = s.cfg := rfl

@[simp] theorem raiseIf_params (cause : Bool) (e : Event) (s : State) :
    (State.raiseIf cause e s).params = s.params := rfl

@[simp] theorem raiseIf_snap (cause : Bool) (e : Event) (s : State) :
    (State.raiseIf cause e s).snap = s.snap := rfl

@[simp] theorem raiseIf_band1 (cause : Bool) (e : Event) (s : State) :
    (State.raiseIf cause e s).band1 = s.band1 := rfl

@[simp] theorem raiseIf_band2 (cause : Bool) (e : Event) (s : State) :
    (State.raiseIf cause e s).band2 = s.band2 := rfl

@[simp] theorem raiseIf_drv (cause : Bool) (e : Event) (s : State) :
    (State.raiseIf cause e s).drv = s.drv := rfl

@[simp] theorem raiseIf_prepared (cause : Bool) (e : Event) (s : State) :
    (State.raiseIf cause e s).prepared = s.prepared := rfl

@[simp] theorem raiseIf_sr (cause : Bool) (e : Event) (s : State) :
    (State.raiseIf cause e s).sr = s.sr := rfl

@[simp] theorem raiseIf_maxBlk (cause : Bool) (e : Event) (s : State) :
    (State.raiseIf cause e s).maxBlk = s.maxBlk := rfl

@[simp] theorem raiseIf_rings (cause : Bool) (e : Event) (s : State) :
    (State.raiseIf cause e s).rings = s.rings := rfl

@[simp] theorem raiseIf_mem (cause : Bool) (e : Event) (s : State) :
    (State.raiseIf cause e s).mem = s.mem := rfl

@[simp] theorem raiseIf_olaWr (cause : Bool) (e : Event) (s : State) :
    (State.raiseIf cause e s).olaWr = s.olaWr := rfl

@[simp] theorem raiseIf_olaRd (cause : Bool) (e : Event) (s : State) :
    (State.raiseIf cause e s).olaRd = s.olaRd := rfl

@[simp] theorem raiseIf_blkRem (cause : Bool) (e : Event) (s : State) :
    (State.raiseIf cause e s).blkRem = s.blkRem := rfl

@[simp] theorem raiseIf_blkActive (cause : Bool) (e : Event) (s : State) :
    (State.raiseIf cause e s).blkActive = s.blkActive := rfl

@[simp] theorem raiseIf_scratch (cause : Bool) (e : Event) (s : State) :
    (State.raiseIf cause e s).scratch = s.scratch := rfl

@[simp] theorem raiseIf_marks (cause : Bool) (e : Event) (s : State) :
    (State.raiseIf cause e s).marks = s.marks := rfl

@[simp] theorem raiseIf_cmdIn (cause : Bool) (e : Event) (s : State) :
    (State.raiseIf cause e s).cmdIn = s.cmdIn := rfl

@[simp] theorem raiseIf_issue (cause : Bool) (e : Event) (s : State) :
    (State.raiseIf cause e s).issue = s.issue := rfl

@[simp] theorem raiseIf_samplesIn (cause : Bool) (e : Event) (s : State) :
    (State.raiseIf cause e s).samplesIn = s.samplesIn := rfl

@[simp] theorem raiseIf_samplesOut (cause : Bool) (e : Event) (s : State) :
    (State.raiseIf cause e s).samplesOut = s.samplesOut := rfl

@[simp] theorem raiseIf_turns (cause : Bool) (e : Event) (s : State) :
    (State.raiseIf cause e s).turns = s.turns := rfl

@[simp] theorem raiseIf_regOut (cause : Bool) (e : Event) (s : State) :
    (State.raiseIf cause e s).regOut = s.regOut := rfl

/-! `State.setBand` -/

@[simp] theorem setBand_cfg (b : Band) (r : BandRegs) (s : State) :
    (State.setBand b r s).cfg = s.cfg := by cases b <;> rfl

@[simp] theorem setBand_params (b : Band) (r : BandRegs) (s : State) :
    (State.setBand b r s).params = s.params := by cases b <;> rfl

@[simp] theorem setBand_snap (b : Band) (r : BandRegs) (s : State) :
    (State.setBand b r s).snap = s.snap := by cases b <;> rfl

@[simp] theorem setBand_drv (b : Band) (r : BandRegs) (s : State) :
    (State.setBand b r s).drv = s.drv := by cases b <;> rfl

@[simp] theorem setBand_prepared (b : Band) (r : BandRegs) (s : State) :
    (State.setBand b r s).prepared = s.prepared := by cases b <;> rfl

@[simp] theorem setBand_sr (b : Band) (r : BandRegs) (s : State) :
    (State.setBand b r s).sr = s.sr := by cases b <;> rfl

@[simp] theorem setBand_maxBlk (b : Band) (r : BandRegs) (s : State) :
    (State.setBand b r s).maxBlk = s.maxBlk := by cases b <;> rfl

@[simp] theorem setBand_events (b : Band) (r : BandRegs) (s : State) :
    (State.setBand b r s).events = s.events := by cases b <;> rfl

@[simp] theorem setBand_rings (b : Band) (r : BandRegs) (s : State) :
    (State.setBand b r s).rings = s.rings := by cases b <;> rfl

@[simp] theorem setBand_mem (b : Band) (r : BandRegs) (s : State) :
    (State.setBand b r s).mem = s.mem := by cases b <;> rfl

@[simp] theorem setBand_olaWr (b : Band) (r : BandRegs) (s : State) :
    (State.setBand b r s).olaWr = s.olaWr := by cases b <;> rfl

@[simp] theorem setBand_olaRd (b : Band) (r : BandRegs) (s : State) :
    (State.setBand b r s).olaRd = s.olaRd := by cases b <;> rfl

@[simp] theorem setBand_blkRem (b : Band) (r : BandRegs) (s : State) :
    (State.setBand b r s).blkRem = s.blkRem := by cases b <;> rfl

@[simp] theorem setBand_blkActive (b : Band) (r : BandRegs) (s : State) :
    (State.setBand b r s).blkActive = s.blkActive := by cases b <;> rfl

@[simp] theorem setBand_scratch (b : Band) (r : BandRegs) (s : State) :
    (State.setBand b r s).scratch = s.scratch := by cases b <;> rfl

@[simp] theorem setBand_marks (b : Band) (r : BandRegs) (s : State) :
    (State.setBand b r s).marks = s.marks := by cases b <;> rfl

@[simp] theorem setBand_cmdIn (b : Band) (r : BandRegs) (s : State) :
    (State.setBand b r s).cmdIn = s.cmdIn := by cases b <;> rfl

@[simp] theorem setBand_issue (b : Band) (r : BandRegs) (s : State) :
    (State.setBand b r s).issue = s.issue := by cases b <;> rfl

@[simp] theorem setBand_samplesIn (b : Band) (r : BandRegs) (s : State) :
    (State.setBand b r s).samplesIn = s.samplesIn := by cases b <;> rfl

@[simp] theorem setBand_samplesOut (b : Band) (r : BandRegs) (s : State) :
    (State.setBand b r s).samplesOut = s.samplesOut := by cases b <;> rfl

@[simp] theorem setBand_turns (b : Band) (r : BandRegs) (s : State) :
    (State.setBand b r s).turns = s.turns := by cases b <;> rfl

@[simp] theorem setBand_regOut (b : Band) (r : BandRegs) (s : State) :
    (State.setBand b r s).regOut = s.regOut := by cases b <;> rfl

/-! `State.setElement` -/

@[simp] theorem setElement_cfg (sp : Space) (i : Nat) (v : Word) (s : State) :
    (State.setElement sp i v s).cfg = s.cfg := rfl

@[simp] theorem setElement_params (sp : Space) (i : Nat) (v : Word) (s : State) :
    (State.setElement sp i v s).params = s.params := rfl

@[simp] theorem setElement_snap (sp : Space) (i : Nat) (v : Word) (s : State) :
    (State.setElement sp i v s).snap = s.snap := rfl

@[simp] theorem setElement_band1 (sp : Space) (i : Nat) (v : Word) (s : State) :
    (State.setElement sp i v s).band1 = s.band1 := rfl

@[simp] theorem setElement_band2 (sp : Space) (i : Nat) (v : Word) (s : State) :
    (State.setElement sp i v s).band2 = s.band2 := rfl

@[simp] theorem setElement_drv (sp : Space) (i : Nat) (v : Word) (s : State) :
    (State.setElement sp i v s).drv = s.drv := rfl

@[simp] theorem setElement_prepared (sp : Space) (i : Nat) (v : Word) (s : State) :
    (State.setElement sp i v s).prepared = s.prepared := rfl

@[simp] theorem setElement_sr (sp : Space) (i : Nat) (v : Word) (s : State) :
    (State.setElement sp i v s).sr = s.sr := rfl

@[simp] theorem setElement_maxBlk (sp : Space) (i : Nat) (v : Word) (s : State) :
    (State.setElement sp i v s).maxBlk = s.maxBlk := rfl

@[simp] theorem setElement_events (sp : Space) (i : Nat) (v : Word) (s : State) :
    (State.setElement sp i v s).events = s.events := rfl

@[simp] theorem setElement_rings (sp : Space) (i : Nat) (v : Word) (s : State) :
    (State.setElement sp i v s).rings = s.rings := rfl

@[simp] theorem setElement_olaWr (sp : Space) (i : Nat) (v : Word) (s : State) :
    (State.setElement sp i v s).olaWr = s.olaWr := rfl

@[simp] theorem setElement_olaRd (sp : Space) (i : Nat) (v : Word) (s : State) :
    (State.setElement sp i v s).olaRd = s.olaRd := rfl

@[simp] theorem setElement_blkRem (sp : Space) (i : Nat) (v : Word) (s : State) :
    (State.setElement sp i v s).blkRem = s.blkRem := rfl

@[simp] theorem setElement_blkActive (sp : Space) (i : Nat) (v : Word) (s : State) :
    (State.setElement sp i v s).blkActive = s.blkActive := rfl

@[simp] theorem setElement_scratch (sp : Space) (i : Nat) (v : Word) (s : State) :
    (State.setElement sp i v s).scratch = s.scratch := rfl

@[simp] theorem setElement_marks (sp : Space) (i : Nat) (v : Word) (s : State) :
    (State.setElement sp i v s).marks = s.marks := rfl

@[simp] theorem setElement_cmdIn (sp : Space) (i : Nat) (v : Word) (s : State) :
    (State.setElement sp i v s).cmdIn = s.cmdIn := rfl

@[simp] theorem setElement_issue (sp : Space) (i : Nat) (v : Word) (s : State) :
    (State.setElement sp i v s).issue = s.issue := rfl

@[simp] theorem setElement_samplesIn (sp : Space) (i : Nat) (v : Word) (s : State) :
    (State.setElement sp i v s).samplesIn = s.samplesIn := rfl

@[simp] theorem setElement_samplesOut (sp : Space) (i : Nat) (v : Word) (s : State) :
    (State.setElement sp i v s).samplesOut = s.samplesOut := rfl

@[simp] theorem setElement_turns (sp : Space) (i : Nat) (v : Word) (s : State) :
    (State.setElement sp i v s).turns = s.turns := rfl

@[simp] theorem setElement_regOut (sp : Space) (i : Nat) (v : Word) (s : State) :
    (State.setElement sp i v s).regOut = s.regOut := rfl

/-! `State.setElements` -/

@[simp] theorem setElements_cfg (sp : Space) (vs : List Word) (s : State) :
    (State.setElements sp vs s).cfg = s.cfg := rfl

@[simp] theorem setElements_params (sp : Space) (vs : List Word) (s : State) :
    (State.setElements sp vs s).params = s.params := rfl

@[simp] theorem setElements_snap (sp : Space) (vs : List Word) (s : State) :
    (State.setElements sp vs s).snap = s.snap := rfl

@[simp] theorem setElements_band1 (sp : Space) (vs : List Word) (s : State) :
    (State.setElements sp vs s).band1 = s.band1 := rfl

@[simp] theorem setElements_band2 (sp : Space) (vs : List Word) (s : State) :
    (State.setElements sp vs s).band2 = s.band2 := rfl

@[simp] theorem setElements_drv (sp : Space) (vs : List Word) (s : State) :
    (State.setElements sp vs s).drv = s.drv := rfl

@[simp] theorem setElements_prepared (sp : Space) (vs : List Word) (s : State) :
    (State.setElements sp vs s).prepared = s.prepared := rfl

@[simp] theorem setElements_sr (sp : Space) (vs : List Word) (s : State) :
    (State.setElements sp vs s).sr = s.sr := rfl

@[simp] theorem setElements_maxBlk (sp : Space) (vs : List Word) (s : State) :
    (State.setElements sp vs s).maxBlk = s.maxBlk := rfl

@[simp] theorem setElements_events (sp : Space) (vs : List Word) (s : State) :
    (State.setElements sp vs s).events = s.events := rfl

@[simp] theorem setElements_rings (sp : Space) (vs : List Word) (s : State) :
    (State.setElements sp vs s).rings = s.rings := rfl

@[simp] theorem setElements_olaWr (sp : Space) (vs : List Word) (s : State) :
    (State.setElements sp vs s).olaWr = s.olaWr := rfl

@[simp] theorem setElements_olaRd (sp : Space) (vs : List Word) (s : State) :
    (State.setElements sp vs s).olaRd = s.olaRd := rfl

@[simp] theorem setElements_blkRem (sp : Space) (vs : List Word) (s : State) :
    (State.setElements sp vs s).blkRem = s.blkRem := rfl

@[simp] theorem setElements_blkActive (sp : Space) (vs : List Word) (s : State) :
    (State.setElements sp vs s).blkActive = s.blkActive := rfl

@[simp] theorem setElements_scratch (sp : Space) (vs : List Word) (s : State) :
    (State.setElements sp vs s).scratch = s.scratch := rfl

@[simp] theorem setElements_marks (sp : Space) (vs : List Word) (s : State) :
    (State.setElements sp vs s).marks = s.marks := rfl

@[simp] theorem setElements_cmdIn (sp : Space) (vs : List Word) (s : State) :
    (State.setElements sp vs s).cmdIn = s.cmdIn := rfl

@[simp] theorem setElements_issue (sp : Space) (vs : List Word) (s : State) :
    (State.setElements sp vs s).issue = s.issue := rfl

@[simp] theorem setElements_samplesIn (sp : Space) (vs : List Word) (s : State) :
    (State.setElements sp vs s).samplesIn = s.samplesIn := rfl

@[simp] theorem setElements_samplesOut (sp : Space) (vs : List Word) (s : State) :
    (State.setElements sp vs s).samplesOut = s.samplesOut := rfl

@[simp] theorem setElements_turns (sp : Space) (vs : List Word) (s : State) :
    (State.setElements sp vs s).turns = s.turns := rfl

@[simp] theorem setElements_regOut (sp : Space) (vs : List Word) (s : State) :
    (State.setElements sp vs s).regOut = s.regOut := rfl

/-! `State.setRing` -/

@[simp] theorem setRing_cfg (st : Stream) (c : Chan) (r : RingCtl) (s : State) :
    (State.setRing st c r s).cfg = s.cfg := rfl

@[simp] theorem setRing_params (st : Stream) (c : Chan) (r : RingCtl) (s : State) :
    (State.setRing st c r s).params = s.params := rfl

@[simp] theorem setRing_snap (st : Stream) (c : Chan) (r : RingCtl) (s : State) :
    (State.setRing st c r s).snap = s.snap := rfl

@[simp] theorem setRing_band1 (st : Stream) (c : Chan) (r : RingCtl) (s : State) :
    (State.setRing st c r s).band1 = s.band1 := rfl

@[simp] theorem setRing_band2 (st : Stream) (c : Chan) (r : RingCtl) (s : State) :
    (State.setRing st c r s).band2 = s.band2 := rfl

@[simp] theorem setRing_drv (st : Stream) (c : Chan) (r : RingCtl) (s : State) :
    (State.setRing st c r s).drv = s.drv := rfl

@[simp] theorem setRing_prepared (st : Stream) (c : Chan) (r : RingCtl) (s : State) :
    (State.setRing st c r s).prepared = s.prepared := rfl

@[simp] theorem setRing_sr (st : Stream) (c : Chan) (r : RingCtl) (s : State) :
    (State.setRing st c r s).sr = s.sr := rfl

@[simp] theorem setRing_maxBlk (st : Stream) (c : Chan) (r : RingCtl) (s : State) :
    (State.setRing st c r s).maxBlk = s.maxBlk := rfl

@[simp] theorem setRing_events (st : Stream) (c : Chan) (r : RingCtl) (s : State) :
    (State.setRing st c r s).events = s.events := rfl

@[simp] theorem setRing_mem (st : Stream) (c : Chan) (r : RingCtl) (s : State) :
    (State.setRing st c r s).mem = s.mem := rfl

@[simp] theorem setRing_olaWr (st : Stream) (c : Chan) (r : RingCtl) (s : State) :
    (State.setRing st c r s).olaWr = s.olaWr := rfl

@[simp] theorem setRing_olaRd (st : Stream) (c : Chan) (r : RingCtl) (s : State) :
    (State.setRing st c r s).olaRd = s.olaRd := rfl

@[simp] theorem setRing_blkRem (st : Stream) (c : Chan) (r : RingCtl) (s : State) :
    (State.setRing st c r s).blkRem = s.blkRem := rfl

@[simp] theorem setRing_blkActive (st : Stream) (c : Chan) (r : RingCtl) (s : State) :
    (State.setRing st c r s).blkActive = s.blkActive := rfl

@[simp] theorem setRing_scratch (st : Stream) (c : Chan) (r : RingCtl) (s : State) :
    (State.setRing st c r s).scratch = s.scratch := rfl

@[simp] theorem setRing_marks (st : Stream) (c : Chan) (r : RingCtl) (s : State) :
    (State.setRing st c r s).marks = s.marks := rfl

@[simp] theorem setRing_cmdIn (st : Stream) (c : Chan) (r : RingCtl) (s : State) :
    (State.setRing st c r s).cmdIn = s.cmdIn := rfl

@[simp] theorem setRing_issue (st : Stream) (c : Chan) (r : RingCtl) (s : State) :
    (State.setRing st c r s).issue = s.issue := rfl

@[simp] theorem setRing_samplesIn (st : Stream) (c : Chan) (r : RingCtl) (s : State) :
    (State.setRing st c r s).samplesIn = s.samplesIn := rfl

@[simp] theorem setRing_samplesOut (st : Stream) (c : Chan) (r : RingCtl) (s : State) :
    (State.setRing st c r s).samplesOut = s.samplesOut := rfl

@[simp] theorem setRing_turns (st : Stream) (c : Chan) (r : RingCtl) (s : State) :
    (State.setRing st c r s).turns = s.turns := rfl

@[simp] theorem setRing_regOut (st : Stream) (c : Chan) (r : RingCtl) (s : State) :
    (State.setRing st c r s).regOut = s.regOut := rfl

/-! `State.dropSample` -/

@[simp] theorem dropSample_cfg (st : Stream) (c : Chan) (s : State) :
    (State.dropSample st c s).cfg = s.cfg := rfl

@[simp] theorem dropSample_params (st : Stream) (c : Chan) (s : State) :
    (State.dropSample st c s).params = s.params := rfl

@[simp] theorem dropSample_snap (st : Stream) (c : Chan) (s : State) :
    (State.dropSample st c s).snap = s.snap := rfl

@[simp] theorem dropSample_band1 (st : Stream) (c : Chan) (s : State) :
    (State.dropSample st c s).band1 = s.band1 := rfl

@[simp] theorem dropSample_band2 (st : Stream) (c : Chan) (s : State) :
    (State.dropSample st c s).band2 = s.band2 := rfl

@[simp] theorem dropSample_drv (st : Stream) (c : Chan) (s : State) :
    (State.dropSample st c s).drv = s.drv := rfl

@[simp] theorem dropSample_prepared (st : Stream) (c : Chan) (s : State) :
    (State.dropSample st c s).prepared = s.prepared := rfl

@[simp] theorem dropSample_sr (st : Stream) (c : Chan) (s : State) :
    (State.dropSample st c s).sr = s.sr := rfl

@[simp] theorem dropSample_maxBlk (st : Stream) (c : Chan) (s : State) :
    (State.dropSample st c s).maxBlk = s.maxBlk := rfl

@[simp] theorem dropSample_events (st : Stream) (c : Chan) (s : State) :
    (State.dropSample st c s).events = s.events := rfl

@[simp] theorem dropSample_rings (st : Stream) (c : Chan) (s : State) :
    (State.dropSample st c s).rings = s.rings := rfl

@[simp] theorem dropSample_mem (st : Stream) (c : Chan) (s : State) :
    (State.dropSample st c s).mem = s.mem := rfl

@[simp] theorem dropSample_olaWr (st : Stream) (c : Chan) (s : State) :
    (State.dropSample st c s).olaWr = s.olaWr := rfl

@[simp] theorem dropSample_olaRd (st : Stream) (c : Chan) (s : State) :
    (State.dropSample st c s).olaRd = s.olaRd := rfl

@[simp] theorem dropSample_blkRem (st : Stream) (c : Chan) (s : State) :
    (State.dropSample st c s).blkRem = s.blkRem := rfl

@[simp] theorem dropSample_blkActive (st : Stream) (c : Chan) (s : State) :
    (State.dropSample st c s).blkActive = s.blkActive := rfl

@[simp] theorem dropSample_scratch (st : Stream) (c : Chan) (s : State) :
    (State.dropSample st c s).scratch = s.scratch := rfl

@[simp] theorem dropSample_marks (st : Stream) (c : Chan) (s : State) :
    (State.dropSample st c s).marks = s.marks := rfl

@[simp] theorem dropSample_cmdIn (st : Stream) (c : Chan) (s : State) :
    (State.dropSample st c s).cmdIn = s.cmdIn := rfl

@[simp] theorem dropSample_issue (st : Stream) (c : Chan) (s : State) :
    (State.dropSample st c s).issue = s.issue := rfl

@[simp] theorem dropSample_samplesOut (st : Stream) (c : Chan) (s : State) :
    (State.dropSample st c s).samplesOut = s.samplesOut := rfl

@[simp] theorem dropSample_turns (st : Stream) (c : Chan) (s : State) :
    (State.dropSample st c s).turns = s.turns := rfl

@[simp] theorem dropSample_regOut (st : Stream) (c : Chan) (s : State) :
    (State.dropSample st c s).regOut = s.regOut := rfl

/-! `State.putSample` -/

@[simp] theorem putSample_cfg (c : Chan) (v : Word) (s : State) :
    (State.putSample c v s).cfg = s.cfg := rfl

@[simp] theorem putSample_params (c : Chan) (v : Word) (s : State) :
    (State.putSample c v s).params = s.params := rfl

@[simp] theorem putSample_snap (c : Chan) (v : Word) (s : State) :
    (State.putSample c v s).snap = s.snap := rfl

@[simp] theorem putSample_band1 (c : Chan) (v : Word) (s : State) :
    (State.putSample c v s).band1 = s.band1 := rfl

@[simp] theorem putSample_band2 (c : Chan) (v : Word) (s : State) :
    (State.putSample c v s).band2 = s.band2 := rfl

@[simp] theorem putSample_drv (c : Chan) (v : Word) (s : State) :
    (State.putSample c v s).drv = s.drv := rfl

@[simp] theorem putSample_prepared (c : Chan) (v : Word) (s : State) :
    (State.putSample c v s).prepared = s.prepared := rfl

@[simp] theorem putSample_sr (c : Chan) (v : Word) (s : State) :
    (State.putSample c v s).sr = s.sr := rfl

@[simp] theorem putSample_maxBlk (c : Chan) (v : Word) (s : State) :
    (State.putSample c v s).maxBlk = s.maxBlk := rfl

@[simp] theorem putSample_events (c : Chan) (v : Word) (s : State) :
    (State.putSample c v s).events = s.events := rfl

@[simp] theorem putSample_rings (c : Chan) (v : Word) (s : State) :
    (State.putSample c v s).rings = s.rings := rfl

@[simp] theorem putSample_mem (c : Chan) (v : Word) (s : State) :
    (State.putSample c v s).mem = s.mem := rfl

@[simp] theorem putSample_olaWr (c : Chan) (v : Word) (s : State) :
    (State.putSample c v s).olaWr = s.olaWr := rfl

@[simp] theorem putSample_olaRd (c : Chan) (v : Word) (s : State) :
    (State.putSample c v s).olaRd = s.olaRd := rfl

@[simp] theorem putSample_blkRem (c : Chan) (v : Word) (s : State) :
    (State.putSample c v s).blkRem = s.blkRem := rfl

@[simp] theorem putSample_blkActive (c : Chan) (v : Word) (s : State) :
    (State.putSample c v s).blkActive = s.blkActive := rfl

@[simp] theorem putSample_scratch (c : Chan) (v : Word) (s : State) :
    (State.putSample c v s).scratch = s.scratch := rfl

@[simp] theorem putSample_marks (c : Chan) (v : Word) (s : State) :
    (State.putSample c v s).marks = s.marks := rfl

@[simp] theorem putSample_cmdIn (c : Chan) (v : Word) (s : State) :
    (State.putSample c v s).cmdIn = s.cmdIn := rfl

@[simp] theorem putSample_issue (c : Chan) (v : Word) (s : State) :
    (State.putSample c v s).issue = s.issue := rfl

@[simp] theorem putSample_samplesIn (c : Chan) (v : Word) (s : State) :
    (State.putSample c v s).samplesIn = s.samplesIn := rfl

@[simp] theorem putSample_turns (c : Chan) (v : Word) (s : State) :
    (State.putSample c v s).turns = s.turns := rfl

@[simp] theorem putSample_regOut (c : Chan) (v : Word) (s : State) :
    (State.putSample c v s).regOut = s.regOut := rfl

/-! `State.markSpec` -/

@[simp] theorem markSpec_cfg (st : Stream) (c : Chan) (b : Bool) (s : State) :
    (State.markSpec st c b s).cfg = s.cfg := rfl

@[simp] theorem markSpec_params (st : Stream) (c : Chan) (b : Bool) (s : State) :
    (State.markSpec st c b s).params = s.params := rfl

@[simp] theorem markSpec_snap (st : Stream) (c : Chan) (b : Bool) (s : State) :
    (State.markSpec st c b s).snap = s.snap := rfl

@[simp] theorem markSpec_band1 (st : Stream) (c : Chan) (b : Bool) (s : State) :
    (State.markSpec st c b s).band1 = s.band1 := rfl

@[simp] theorem markSpec_band2 (st : Stream) (c : Chan) (b : Bool) (s : State) :
    (State.markSpec st c b s).band2 = s.band2 := rfl

@[simp] theorem markSpec_drv (st : Stream) (c : Chan) (b : Bool) (s : State) :
    (State.markSpec st c b s).drv = s.drv := rfl

@[simp] theorem markSpec_prepared (st : Stream) (c : Chan) (b : Bool) (s : State) :
    (State.markSpec st c b s).prepared = s.prepared := rfl

@[simp] theorem markSpec_sr (st : Stream) (c : Chan) (b : Bool) (s : State) :
    (State.markSpec st c b s).sr = s.sr := rfl

@[simp] theorem markSpec_maxBlk (st : Stream) (c : Chan) (b : Bool) (s : State) :
    (State.markSpec st c b s).maxBlk = s.maxBlk := rfl

@[simp] theorem markSpec_events (st : Stream) (c : Chan) (b : Bool) (s : State) :
    (State.markSpec st c b s).events = s.events := rfl

@[simp] theorem markSpec_rings (st : Stream) (c : Chan) (b : Bool) (s : State) :
    (State.markSpec st c b s).rings = s.rings := rfl

@[simp] theorem markSpec_mem (st : Stream) (c : Chan) (b : Bool) (s : State) :
    (State.markSpec st c b s).mem = s.mem := rfl

@[simp] theorem markSpec_olaWr (st : Stream) (c : Chan) (b : Bool) (s : State) :
    (State.markSpec st c b s).olaWr = s.olaWr := rfl

@[simp] theorem markSpec_olaRd (st : Stream) (c : Chan) (b : Bool) (s : State) :
    (State.markSpec st c b s).olaRd = s.olaRd := rfl

@[simp] theorem markSpec_blkRem (st : Stream) (c : Chan) (b : Bool) (s : State) :
    (State.markSpec st c b s).blkRem = s.blkRem := rfl

@[simp] theorem markSpec_blkActive (st : Stream) (c : Chan) (b : Bool) (s : State) :
    (State.markSpec st c b s).blkActive = s.blkActive := rfl

@[simp] theorem markSpec_scratch (st : Stream) (c : Chan) (b : Bool) (s : State) :
    (State.markSpec st c b s).scratch = s.scratch := rfl

@[simp] theorem markSpec_cmdIn (st : Stream) (c : Chan) (b : Bool) (s : State) :
    (State.markSpec st c b s).cmdIn = s.cmdIn := rfl

@[simp] theorem markSpec_issue (st : Stream) (c : Chan) (b : Bool) (s : State) :
    (State.markSpec st c b s).issue = s.issue := rfl

@[simp] theorem markSpec_samplesIn (st : Stream) (c : Chan) (b : Bool) (s : State) :
    (State.markSpec st c b s).samplesIn = s.samplesIn := rfl

@[simp] theorem markSpec_samplesOut (st : Stream) (c : Chan) (b : Bool) (s : State) :
    (State.markSpec st c b s).samplesOut = s.samplesOut := rfl

@[simp] theorem markSpec_turns (st : Stream) (c : Chan) (b : Bool) (s : State) :
    (State.markSpec st c b s).turns = s.turns := rfl

@[simp] theorem markSpec_regOut (st : Stream) (c : Chan) (b : Bool) (s : State) :
    (State.markSpec st c b s).regOut = s.regOut := rfl

/-! `State.markMix` -/

@[simp] theorem markMix_cfg (c : Chan) (b : Bool) (s : State) :
    (State.markMix c b s).cfg = s.cfg := rfl

@[simp] theorem markMix_params (c : Chan) (b : Bool) (s : State) :
    (State.markMix c b s).params = s.params := rfl

@[simp] theorem markMix_snap (c : Chan) (b : Bool) (s : State) :
    (State.markMix c b s).snap = s.snap := rfl

@[simp] theorem markMix_band1 (c : Chan) (b : Bool) (s : State) :
    (State.markMix c b s).band1 = s.band1 := rfl

@[simp] theorem markMix_band2 (c : Chan) (b : Bool) (s : State) :
    (State.markMix c b s).band2 = s.band2 := rfl

@[simp] theorem markMix_drv (c : Chan) (b : Bool) (s : State) :
    (State.markMix c b s).drv = s.drv := rfl

@[simp] theorem markMix_prepared (c : Chan) (b : Bool) (s : State) :
    (State.markMix c b s).prepared = s.prepared := rfl

@[simp] theorem markMix_sr (c : Chan) (b : Bool) (s : State) :
    (State.markMix c b s).sr = s.sr := rfl

@[simp] theorem markMix_maxBlk (c : Chan) (b : Bool) (s : State) :
    (State.markMix c b s).maxBlk = s.maxBlk := rfl

@[simp] theorem markMix_events (c : Chan) (b : Bool) (s : State) :
    (State.markMix c b s).events = s.events := rfl

@[simp] theorem markMix_rings (c : Chan) (b : Bool) (s : State) :
    (State.markMix c b s).rings = s.rings := rfl

@[simp] theorem markMix_mem (c : Chan) (b : Bool) (s : State) :
    (State.markMix c b s).mem = s.mem := rfl

@[simp] theorem markMix_olaWr (c : Chan) (b : Bool) (s : State) :
    (State.markMix c b s).olaWr = s.olaWr := rfl

@[simp] theorem markMix_olaRd (c : Chan) (b : Bool) (s : State) :
    (State.markMix c b s).olaRd = s.olaRd := rfl

@[simp] theorem markMix_blkRem (c : Chan) (b : Bool) (s : State) :
    (State.markMix c b s).blkRem = s.blkRem := rfl

@[simp] theorem markMix_blkActive (c : Chan) (b : Bool) (s : State) :
    (State.markMix c b s).blkActive = s.blkActive := rfl

@[simp] theorem markMix_scratch (c : Chan) (b : Bool) (s : State) :
    (State.markMix c b s).scratch = s.scratch := rfl

@[simp] theorem markMix_cmdIn (c : Chan) (b : Bool) (s : State) :
    (State.markMix c b s).cmdIn = s.cmdIn := rfl

@[simp] theorem markMix_issue (c : Chan) (b : Bool) (s : State) :
    (State.markMix c b s).issue = s.issue := rfl

@[simp] theorem markMix_samplesIn (c : Chan) (b : Bool) (s : State) :
    (State.markMix c b s).samplesIn = s.samplesIn := rfl

@[simp] theorem markMix_samplesOut (c : Chan) (b : Bool) (s : State) :
    (State.markMix c b s).samplesOut = s.samplesOut := rfl

@[simp] theorem markMix_turns (c : Chan) (b : Bool) (s : State) :
    (State.markMix c b s).turns = s.turns := rfl

@[simp] theorem markMix_regOut (c : Chan) (b : Bool) (s : State) :
    (State.markMix c b s).regOut = s.regOut := rfl

/-! `State.markOla` -/

@[simp] theorem markOla_cfg (c : Chan) (i : Nat) (s : State) :
    (State.markOla c i s).cfg = s.cfg := by unfold State.markOla; split <;> rfl

@[simp] theorem markOla_params (c : Chan) (i : Nat) (s : State) :
    (State.markOla c i s).params = s.params := by unfold State.markOla; split <;> rfl

@[simp] theorem markOla_snap (c : Chan) (i : Nat) (s : State) :
    (State.markOla c i s).snap = s.snap := by unfold State.markOla; split <;> rfl

@[simp] theorem markOla_band1 (c : Chan) (i : Nat) (s : State) :
    (State.markOla c i s).band1 = s.band1 := by unfold State.markOla; split <;> rfl

@[simp] theorem markOla_band2 (c : Chan) (i : Nat) (s : State) :
    (State.markOla c i s).band2 = s.band2 := by unfold State.markOla; split <;> rfl

@[simp] theorem markOla_drv (c : Chan) (i : Nat) (s : State) :
    (State.markOla c i s).drv = s.drv := by unfold State.markOla; split <;> rfl

@[simp] theorem markOla_prepared (c : Chan) (i : Nat) (s : State) :
    (State.markOla c i s).prepared = s.prepared := by unfold State.markOla; split <;> rfl

@[simp] theorem markOla_sr (c : Chan) (i : Nat) (s : State) :
    (State.markOla c i s).sr = s.sr := by unfold State.markOla; split <;> rfl

@[simp] theorem markOla_maxBlk (c : Chan) (i : Nat) (s : State) :
    (State.markOla c i s).maxBlk = s.maxBlk := by unfold State.markOla; split <;> rfl

@[simp] theorem markOla_events (c : Chan) (i : Nat) (s : State) :
    (State.markOla c i s).events = s.events := by unfold State.markOla; split <;> rfl

@[simp] theorem markOla_rings (c : Chan) (i : Nat) (s : State) :
    (State.markOla c i s).rings = s.rings := by unfold State.markOla; split <;> rfl

@[simp] theorem markOla_mem (c : Chan) (i : Nat) (s : State) :
    (State.markOla c i s).mem = s.mem := by unfold State.markOla; split <;> rfl

@[simp] theorem markOla_olaWr (c : Chan) (i : Nat) (s : State) :
    (State.markOla c i s).olaWr = s.olaWr := by unfold State.markOla; split <;> rfl

@[simp] theorem markOla_olaRd (c : Chan) (i : Nat) (s : State) :
    (State.markOla c i s).olaRd = s.olaRd := by unfold State.markOla; split <;> rfl

@[simp] theorem markOla_blkRem (c : Chan) (i : Nat) (s : State) :
    (State.markOla c i s).blkRem = s.blkRem := by unfold State.markOla; split <;> rfl

@[simp] theorem markOla_blkActive (c : Chan) (i : Nat) (s : State) :
    (State.markOla c i s).blkActive = s.blkActive := by unfold State.markOla; split <;> rfl

@[simp] theorem markOla_scratch (c : Chan) (i : Nat) (s : State) :
    (State.markOla c i s).scratch = s.scratch := by unfold State.markOla; split <;> rfl

@[simp] theorem markOla_cmdIn (c : Chan) (i : Nat) (s : State) :
    (State.markOla c i s).cmdIn = s.cmdIn := by unfold State.markOla; split <;> rfl

@[simp] theorem markOla_issue (c : Chan) (i : Nat) (s : State) :
    (State.markOla c i s).issue = s.issue := by unfold State.markOla; split <;> rfl

@[simp] theorem markOla_samplesIn (c : Chan) (i : Nat) (s : State) :
    (State.markOla c i s).samplesIn = s.samplesIn := by unfold State.markOla; split <;> rfl

@[simp] theorem markOla_samplesOut (c : Chan) (i : Nat) (s : State) :
    (State.markOla c i s).samplesOut = s.samplesOut := by unfold State.markOla; split <;> rfl

@[simp] theorem markOla_turns (c : Chan) (i : Nat) (s : State) :
    (State.markOla c i s).turns = s.turns := by unfold State.markOla; split <;> rfl

@[simp] theorem markOla_regOut (c : Chan) (i : Nat) (s : State) :
    (State.markOla c i s).regOut = s.regOut := by unfold State.markOla; split <;> rfl

/-! `State.unmarkOla` -/

@[simp] theorem unmarkOla_cfg (c : Chan) (i : Nat) (s : State) :
    (State.unmarkOla c i s).cfg = s.cfg := rfl

@[simp] theorem unmarkOla_params (c : Chan) (i : Nat) (s : State) :
    (State.unmarkOla c i s).params = s.params := rfl

@[simp] theorem unmarkOla_snap (c : Chan) (i : Nat) (s : State) :
    (State.unmarkOla c i s).snap = s.snap := rfl

@[simp] theorem unmarkOla_band1 (c : Chan) (i : Nat) (s : State) :
    (State.unmarkOla c i s).band1 = s.band1 := rfl

@[simp] theorem unmarkOla_band2 (c : Chan) (i : Nat) (s : State) :
    (State.unmarkOla c i s).band2 = s.band2 := rfl

@[simp] theorem unmarkOla_drv (c : Chan) (i : Nat) (s : State) :
    (State.unmarkOla c i s).drv = s.drv := rfl

@[simp] theorem unmarkOla_prepared (c : Chan) (i : Nat) (s : State) :
    (State.unmarkOla c i s).prepared = s.prepared := rfl

@[simp] theorem unmarkOla_sr (c : Chan) (i : Nat) (s : State) :
    (State.unmarkOla c i s).sr = s.sr := rfl

@[simp] theorem unmarkOla_maxBlk (c : Chan) (i : Nat) (s : State) :
    (State.unmarkOla c i s).maxBlk = s.maxBlk := rfl

@[simp] theorem unmarkOla_events (c : Chan) (i : Nat) (s : State) :
    (State.unmarkOla c i s).events = s.events := rfl

@[simp] theorem unmarkOla_rings (c : Chan) (i : Nat) (s : State) :
    (State.unmarkOla c i s).rings = s.rings := rfl

@[simp] theorem unmarkOla_mem (c : Chan) (i : Nat) (s : State) :
    (State.unmarkOla c i s).mem = s.mem := rfl

@[simp] theorem unmarkOla_olaWr (c : Chan) (i : Nat) (s : State) :
    (State.unmarkOla c i s).olaWr = s.olaWr := rfl

@[simp] theorem unmarkOla_olaRd (c : Chan) (i : Nat) (s : State) :
    (State.unmarkOla c i s).olaRd = s.olaRd := rfl

@[simp] theorem unmarkOla_blkRem (c : Chan) (i : Nat) (s : State) :
    (State.unmarkOla c i s).blkRem = s.blkRem := rfl

@[simp] theorem unmarkOla_blkActive (c : Chan) (i : Nat) (s : State) :
    (State.unmarkOla c i s).blkActive = s.blkActive := rfl

@[simp] theorem unmarkOla_scratch (c : Chan) (i : Nat) (s : State) :
    (State.unmarkOla c i s).scratch = s.scratch := rfl

@[simp] theorem unmarkOla_cmdIn (c : Chan) (i : Nat) (s : State) :
    (State.unmarkOla c i s).cmdIn = s.cmdIn := rfl

@[simp] theorem unmarkOla_issue (c : Chan) (i : Nat) (s : State) :
    (State.unmarkOla c i s).issue = s.issue := rfl

@[simp] theorem unmarkOla_samplesIn (c : Chan) (i : Nat) (s : State) :
    (State.unmarkOla c i s).samplesIn = s.samplesIn := rfl

@[simp] theorem unmarkOla_samplesOut (c : Chan) (i : Nat) (s : State) :
    (State.unmarkOla c i s).samplesOut = s.samplesOut := rfl

@[simp] theorem unmarkOla_turns (c : Chan) (i : Nat) (s : State) :
    (State.unmarkOla c i s).turns = s.turns := rfl

@[simp] theorem unmarkOla_regOut (c : Chan) (i : Nat) (s : State) :
    (State.unmarkOla c i s).regOut = s.regOut := rfl

/-! `clearBuffers` -/

@[simp] theorem clearBuffers_cfg (s : State) :
    (clearBuffers s).cfg = s.cfg := rfl

@[simp] theorem clearBuffers_params (s : State) :
    (clearBuffers s).params = s.params := rfl

@[simp] theorem clearBuffers_prepared (s : State) :
    (clearBuffers s).prepared = s.prepared := rfl

@[simp] theorem clearBuffers_sr (s : State) :
    (clearBuffers s).sr = s.sr := rfl

@[simp] theorem clearBuffers_maxBlk (s : State) :
    (clearBuffers s).maxBlk = s.maxBlk := rfl

@[simp] theorem clearBuffers_events (s : State) :
    (clearBuffers s).events = s.events := rfl

@[simp] theorem clearBuffers_scratch (s : State) :
    (clearBuffers s).scratch = s.scratch := rfl

@[simp] theorem clearBuffers_cmdIn (s : State) :
    (clearBuffers s).cmdIn = s.cmdIn := rfl

@[simp] theorem clearBuffers_issue (s : State) :
    (clearBuffers s).issue = s.issue := rfl

@[simp] theorem clearBuffers_samplesIn (s : State) :
    (clearBuffers s).samplesIn = s.samplesIn := rfl

@[simp] theorem clearBuffers_samplesOut (s : State) :
    (clearBuffers s).samplesOut = s.samplesOut := rfl

@[simp] theorem clearBuffers_turns (s : State) :
    (clearBuffers s).turns = s.turns := rfl

@[simp] theorem clearBuffers_regOut (s : State) :
    (clearBuffers s).regOut = s.regOut := rfl

/-! `regWrite` -/

@[simp] theorem regWrite_cfg (addr : BitVec 32) (v : Word) (s : State) :
    (regWrite addr v s).cfg = s.cfg := rfl

@[simp] theorem regWrite_snap (addr : BitVec 32) (v : Word) (s : State) :
    (regWrite addr v s).snap = s.snap := rfl

@[simp] theorem regWrite_band1 (addr : BitVec 32) (v : Word) (s : State) :
    (regWrite addr v s).band1 = s.band1 := rfl

@[simp] theorem regWrite_band2 (addr : BitVec 32) (v : Word) (s : State) :
    (regWrite addr v s).band2 = s.band2 := rfl

@[simp] theorem regWrite_drv (addr : BitVec 32) (v : Word) (s : State) :
    (regWrite addr v s).drv = s.drv := rfl

@[simp] theorem regWrite_prepared (addr : BitVec 32) (v : Word) (s : State) :
    (regWrite addr v s).prepared = s.prepared := rfl

@[simp] theorem regWrite_sr (addr : BitVec 32) (v : Word) (s : State) :
    (regWrite addr v s).sr = s.sr := rfl

@[simp] theorem regWrite_maxBlk (addr : BitVec 32) (v : Word) (s : State) :
    (regWrite addr v s).maxBlk = s.maxBlk := rfl

@[simp] theorem regWrite_rings (addr : BitVec 32) (v : Word) (s : State) :
    (regWrite addr v s).rings = s.rings := rfl

@[simp] theorem regWrite_mem (addr : BitVec 32) (v : Word) (s : State) :
    (regWrite addr v s).mem = s.mem := rfl

@[simp] theorem regWrite_olaWr (addr : BitVec 32) (v : Word) (s : State) :
    (regWrite addr v s).olaWr = s.olaWr := rfl

@[simp] theorem regWrite_olaRd (addr : BitVec 32) (v : Word) (s : State) :
    (regWrite addr v s).olaRd = s.olaRd := rfl

@[simp] theorem regWrite_blkRem (addr : BitVec 32) (v : Word) (s : State) :
    (regWrite addr v s).blkRem = s.blkRem := rfl

@[simp] theorem regWrite_blkActive (addr : BitVec 32) (v : Word) (s : State) :
    (regWrite addr v s).blkActive = s.blkActive := rfl

@[simp] theorem regWrite_scratch (addr : BitVec 32) (v : Word) (s : State) :
    (regWrite addr v s).scratch = s.scratch := rfl

@[simp] theorem regWrite_marks (addr : BitVec 32) (v : Word) (s : State) :
    (regWrite addr v s).marks = s.marks := rfl

@[simp] theorem regWrite_cmdIn (addr : BitVec 32) (v : Word) (s : State) :
    (regWrite addr v s).cmdIn = s.cmdIn := rfl

@[simp] theorem regWrite_issue (addr : BitVec 32) (v : Word) (s : State) :
    (regWrite addr v s).issue = s.issue := rfl

@[simp] theorem regWrite_samplesIn (addr : BitVec 32) (v : Word) (s : State) :
    (regWrite addr v s).samplesIn = s.samplesIn := rfl

@[simp] theorem regWrite_samplesOut (addr : BitVec 32) (v : Word) (s : State) :
    (regWrite addr v s).samplesOut = s.samplesOut := rfl

@[simp] theorem regWrite_turns (addr : BitVec 32) (v : Word) (s : State) :
    (regWrite addr v s).turns = s.turns := rfl

@[simp] theorem regWrite_regOut (addr : BitVec 32) (v : Word) (s : State) :
    (regWrite addr v s).regOut = s.regOut := rfl

/-! `answerRead` -/

@[simp] theorem answerRead_cfg (addr : BitVec 32) (s : State) :
    (answerRead addr s).cfg = s.cfg := rfl

@[simp] theorem answerRead_params (addr : BitVec 32) (s : State) :
    (answerRead addr s).params = s.params := rfl

@[simp] theorem answerRead_snap (addr : BitVec 32) (s : State) :
    (answerRead addr s).snap = s.snap := rfl

@[simp] theorem answerRead_band1 (addr : BitVec 32) (s : State) :
    (answerRead addr s).band1 = s.band1 := rfl

@[simp] theorem answerRead_band2 (addr : BitVec 32) (s : State) :
    (answerRead addr s).band2 = s.band2 := rfl

@[simp] theorem answerRead_drv (addr : BitVec 32) (s : State) :
    (answerRead addr s).drv = s.drv := rfl

@[simp] theorem answerRead_prepared (addr : BitVec 32) (s : State) :
    (answerRead addr s).prepared = s.prepared := rfl

@[simp] theorem answerRead_sr (addr : BitVec 32) (s : State) :
    (answerRead addr s).sr = s.sr := rfl

@[simp] theorem answerRead_maxBlk (addr : BitVec 32) (s : State) :
    (answerRead addr s).maxBlk = s.maxBlk := rfl

@[simp] theorem answerRead_events (addr : BitVec 32) (s : State) :
    (answerRead addr s).events = s.events := rfl

@[simp] theorem answerRead_rings (addr : BitVec 32) (s : State) :
    (answerRead addr s).rings = s.rings := rfl

@[simp] theorem answerRead_mem (addr : BitVec 32) (s : State) :
    (answerRead addr s).mem = s.mem := rfl

@[simp] theorem answerRead_olaWr (addr : BitVec 32) (s : State) :
    (answerRead addr s).olaWr = s.olaWr := rfl

@[simp] theorem answerRead_olaRd (addr : BitVec 32) (s : State) :
    (answerRead addr s).olaRd = s.olaRd := rfl

@[simp] theorem answerRead_blkRem (addr : BitVec 32) (s : State) :
    (answerRead addr s).blkRem = s.blkRem := rfl

@[simp] theorem answerRead_blkActive (addr : BitVec 32) (s : State) :
    (answerRead addr s).blkActive = s.blkActive := rfl

@[simp] theorem answerRead_scratch (addr : BitVec 32) (s : State) :
    (answerRead addr s).scratch = s.scratch := rfl

@[simp] theorem answerRead_marks (addr : BitVec 32) (s : State) :
    (answerRead addr s).marks = s.marks := rfl

@[simp] theorem answerRead_cmdIn (addr : BitVec 32) (s : State) :
    (answerRead addr s).cmdIn = s.cmdIn := rfl

@[simp] theorem answerRead_issue (addr : BitVec 32) (s : State) :
    (answerRead addr s).issue = s.issue := rfl

@[simp] theorem answerRead_samplesIn (addr : BitVec 32) (s : State) :
    (answerRead addr s).samplesIn = s.samplesIn := rfl

@[simp] theorem answerRead_samplesOut (addr : BitVec 32) (s : State) :
    (answerRead addr s).samplesOut = s.samplesOut := rfl

@[simp] theorem answerRead_turns (addr : BitVec 32) (s : State) :
    (answerRead addr s).turns = s.turns := rfl

/-! What an update writes, seen through the accessors -/

@[simp] theorem raiseIf_events (cause : Bool) (e : Event) (s : State) :
    (State.raiseIf cause e s).events = if cause then s.events ||| e.mask else s.events := rfl

@[simp] theorem setBand_band_same (b : Band) (r : BandRegs) (s : State) :
    (State.setBand b r s).band b = r := by cases b <;> rfl

theorem setBand_band_other {b b' : Band} (h : b' ≠ b) (r : BandRegs) (s : State) :
    (State.setBand b r s).band b' = s.band b' := by
  cases b <;> cases b' <;> first | rfl | exact absurd rfl h

@[simp] theorem raiseIf_band (cause : Bool) (e : Event) (s : State) (b : Band) :
    (State.raiseIf cause e s).band b = s.band b := by cases b <;> rfl

@[simp] theorem setElement_mem (sp : Space) (i : Nat) (v : Word) (s : State) :
    (State.setElement sp i v s).mem = s.mem.write (elementAddr sp i) v := rfl

@[simp] theorem setElements_mem (sp : Space) (vs : List Word) (s : State) :
    (State.setElements sp vs s).mem = s.mem.writeFrom sp 0 vs := rfl

@[simp] theorem PerStream.get_set_same {α : Type} (p : PerStream α) (st : Stream) (x : α) :
    (p.set st x).get st = x := by cases st <;> rfl

theorem PerStream.get_set_other {α : Type} {st st' : Stream} (h : st' ≠ st) (p : PerStream α) (x : α) :
    (p.set st x).get st' = p.get st' := by
  cases st <;> cases st' <;> first | rfl | exact absurd rfl h

theorem vector_get_set {α : Type} (v : Vector α 16) (c c' : Chan) (x : α) :
    (v.set c.val x)[c'.val] = if c' = c then x else v[c'.val] := by
  by_cases e : c' = c
  · subst e
    simp
  · rw [if_neg e, Vector.getElem_set_ne]
    exact fun h => e (Fin.ext h.symm)

@[simp] theorem setRing_ring (st st' : Stream) (c c' : Chan) (r : RingCtl) (s : State) :
    (State.setRing st c r s).ring st' c' = if st' = st ∧ c' = c then r else s.ring st' c' := by
  by_cases h : st' = st
  · subst h
    simp [State.setRing, State.ring, vector_get_set]
  · simp [State.setRing, State.ring, PerStream.get_set_other h, h]

@[simp] theorem dropSample_waiting (st st' : Stream) (c c' : Chan) (s : State) :
    (State.dropSample st c s).waiting st' c' =
      if st' = st ∧ c' = c then (s.waiting st c).tail else s.waiting st' c' := by
  by_cases h : st' = st
  · subst h
    simp [State.dropSample, State.waiting, vector_get_set]
  · simp [State.dropSample, State.waiting, PerStream.get_set_other h, h]

@[simp] theorem putSample_out (c c' : Chan) (v : Word) (s : State) :
    (State.putSample c v s).samplesOut[c'] =
      if c' = c then s.samplesOut[c] ++ [v] else s.samplesOut[c'] := by
  simp [State.putSample, vector_get_set]

/-! Marks -/

@[simp] theorem markSpec_specMark (st st' : Stream) (c c' : Chan) (b : Bool) (s : State) :
    (State.markSpec st c b s).specMark st' c' =
      if st' = st ∧ c' = c then b else s.specMark st' c' := by
  by_cases h : st' = st
  · subst h
    simp [State.markSpec, State.specMark, vector_get_set]
  · simp [State.markSpec, State.specMark, PerStream.get_set_other h, h]

@[simp] theorem markMix_mixMark (c c' : Chan) (b : Bool) (s : State) :
    (State.markMix c b s).mixMark c' = if c' = c then b else s.mixMark c' := by
  simp [State.markMix, State.mixMark, vector_get_set]

@[simp] theorem markOla_mixMark (c c' : Chan) (i : Nat) (s : State) :
    (State.markOla c i s).mixMark c' = s.mixMark c' := by
  unfold State.markOla
  split <;> rfl

@[simp] theorem setElement_mixMark (sp : Space) (i : Nat) (v : Word) (s : State) (c : Chan) :
    (State.setElement sp i v s).mixMark c = s.mixMark c := rfl

@[simp] theorem setElement_olaMark (sp : Space) (i : Nat) (v : Word) (s : State) (c : Chan) (j : Nat) :
    (State.setElement sp i v s).olaMark c j = s.olaMark c j := rfl

@[simp] theorem markOla_olaMark (c c' : Chan) (i j : Nat) (s : State) :
    (State.markOla c i s).olaMark c' j = (decide (c' = c ∧ j = i) || s.olaMark c' j) := by
  unfold State.markOla
  split
  · next h =>
    by_cases e : c' = c ∧ j = i
    · rw [e.1, e.2]
      simp [h]
    · simp [e]
  · by_cases e : c' = c
    · subst e
      simp [State.olaMark]
    · simp [State.olaMark, vector_get_set, e]

@[simp] theorem unmarkOla_olaMark (c c' : Chan) (i j : Nat) (s : State) :
    (State.unmarkOla c i s).olaMark c' j = (!decide (c' = c ∧ j = i) && s.olaMark c' j) := by
  by_cases e : c' = c
  · subst e
    simp [State.unmarkOla, State.olaMark, and_comm]
  · simp [State.unmarkOla, State.olaMark, vector_get_set, e]

@[simp] theorem markOla_element (c : Chan) (i : Nat) (s : State) (sp : Space) (j : Nat) :
    (State.markOla c i s).element sp j = s.element sp j := by
  unfold State.markOla
  split <;> rfl

@[simp] theorem unmarkOla_element (c : Chan) (i : Nat) (s : State) (sp : Space) (j : Nat) :
    (State.unmarkOla c i s).element sp j = s.element sp j := rfl

@[simp] theorem markSpec_element (st : Stream) (c : Chan) (b : Bool) (s : State) (sp : Space) (i : Nat) :
    (State.markSpec st c b s).element sp i = s.element sp i := rfl

@[simp] theorem markMix_element (c : Chan) (b : Bool) (s : State) (sp : Space) (i : Nat) :
    (State.markMix c b s).element sp i = s.element sp i := rfl

/-! Accessors that read fields an update leaves alone -/

@[simp] theorem setElement_ring (sp : Space) (i : Nat) (v : Word) (s : State) (st : Stream) (c : Chan) :
    (State.setElement sp i v s).ring st c = s.ring st c := rfl

@[simp] theorem dropSample_ring (st st' : Stream) (c c' : Chan) (s : State) :
    (State.dropSample st c s).ring st' c' = s.ring st' c' := rfl

@[simp] theorem putSample_ring (c c' : Chan) (v : Word) (s : State) (st : Stream) :
    (State.putSample c v s).ring st c' = s.ring st c' := rfl

@[simp] theorem setElement_waiting (sp : Space) (i : Nat) (v : Word) (s : State) (st : Stream)
    (c : Chan) : (State.setElement sp i v s).waiting st c = s.waiting st c := rfl

@[simp] theorem setRing_waiting (st st' : Stream) (c c' : Chan) (r : RingCtl) (s : State) :
    (State.setRing st c r s).waiting st' c' = s.waiting st' c' := rfl

@[simp] theorem putSample_waiting (c c' : Chan) (v : Word) (s : State) (st : Stream) :
    (State.putSample c v s).waiting st c' = s.waiting st c' := rfl

@[simp] theorem setRing_element (st : Stream) (c : Chan) (r : RingCtl) (s : State) (sp : Space)
    (i : Nat) : (State.setRing st c r s).element sp i = s.element sp i := rfl

@[simp] theorem dropSample_element (st : Stream) (c : Chan) (s : State) (sp : Space) (i : Nat) :
    (State.dropSample st c s).element sp i = s.element sp i := rfl

@[simp] theorem putSample_element (c : Chan) (v : Word) (s : State) (sp : Space) (i : Nat) :
    (State.putSample c v s).element sp i = s.element sp i := rfl

end Sys2Proof.Machine
end

