-- ==== Sys2Proof/Laws/Fields.lean ====
section
/-! SUPPORT. The field laws of the operations of the data path: each leaves every field alone but
those it is for. -/

namespace Sys2Proof.Machine

/-- A loop over the channels keeps what each of its rounds keeps. -/
theorem forChannels_keeps {α : Type} (π : State → α) {f : Chan → State → State}
    (h : ∀ c s, π (f c s) = π s) (s : State) : π (forChannels f s) = π s := by
  have fold : ∀ (cs : List Chan) (t : State), π (cs.foldl (fun t c => f c t) t) = π t := by
    intro cs
    induction cs with
    | nil => intro t; rfl
    | cons c cs ih => intro t; rw [List.foldl_cons, ih, h]
  exact fold _ s

/-- The additions of a frame keep what each addition keeps. -/
theorem syOla_keeps {α : Type} {π : State → α} (h : ∀ c s k, π (olaAddAt c s k) = π s)
    (c : Chan) (s : State) : π (syOla c s) = π s := by
  have fold : ∀ (ks : List Nat) (t : State), π (ks.foldl (olaAddAt c) t) = π t := by
    intro ks
    induction ks with
    | nil => intro t; rfl
    | cons k ks ih => intro t; rw [List.foldl_cons, ih, h]
  exact fold _ s

/-! `bxBin` -/

@[simp] theorem bxBin_cfg (b : Band) (s : State) :
    (bxBin b s).cfg = s.cfg := by simp [bxBin]

@[simp] theorem bxBin_params (b : Band) (s : State) :
    (bxBin b s).params = s.params := by simp [bxBin]

@[simp] theorem bxBin_snap (b : Band) (s : State) :
    (bxBin b s).snap = s.snap := by simp [bxBin]

@[simp] theorem bxBin_drv (b : Band) (s : State) :
    (bxBin b s).drv = s.drv := by simp [bxBin]

@[simp] theorem bxBin_prepared (b : Band) (s : State) :
    (bxBin b s).prepared = s.prepared := by simp [bxBin]

@[simp] theorem bxBin_sr (b : Band) (s : State) :
    (bxBin b s).sr = s.sr := by simp [bxBin]

@[simp] theorem bxBin_maxBlk (b : Band) (s : State) :
    (bxBin b s).maxBlk = s.maxBlk := by simp [bxBin]

@[simp] theorem bxBin_events (b : Band) (s : State) :
    (bxBin b s).events = s.events := by simp [bxBin]

@[simp] theorem bxBin_rings (b : Band) (s : State) :
    (bxBin b s).rings = s.rings := by simp [bxBin]

@[simp] theorem bxBin_mem (b : Band) (s : State) :
    (bxBin b s).mem = s.mem := by simp [bxBin]

@[simp] theorem bxBin_olaWr (b : Band) (s : State) :
    (bxBin b s).olaWr = s.olaWr := by simp [bxBin]

@[simp] theorem bxBin_olaRd (b : Band) (s : State) :
    (bxBin b s).olaRd = s.olaRd := by simp [bxBin]

@[simp] theorem bxBin_blkRem (b : Band) (s : State) :
    (bxBin b s).blkRem = s.blkRem := by simp [bxBin]

@[simp] theorem bxBin_blkActive (b : Band) (s : State) :
    (bxBin b s).blkActive = s.blkActive := by simp [bxBin]

@[simp] theorem bxBin_scratch (b : Band) (s : State) :
    (bxBin b s).scratch = s.scratch := by simp [bxBin]

@[simp] theorem bxBin_marks (b : Band) (s : State) :
    (bxBin b s).marks = s.marks := by simp [bxBin]

@[simp] theorem bxBin_cmdIn (b : Band) (s : State) :
    (bxBin b s).cmdIn = s.cmdIn := by simp [bxBin]

@[simp] theorem bxBin_issue (b : Band) (s : State) :
    (bxBin b s).issue = s.issue := by simp [bxBin]

@[simp] theorem bxBin_samplesIn (b : Band) (s : State) :
    (bxBin b s).samplesIn = s.samplesIn := by simp [bxBin]

@[simp] theorem bxBin_samplesOut (b : Band) (s : State) :
    (bxBin b s).samplesOut = s.samplesOut := by simp [bxBin]

@[simp] theorem bxBin_turns (b : Band) (s : State) :
    (bxBin b s).turns = s.turns := by simp [bxBin]

@[simp] theorem bxBin_regOut (b : Band) (s : State) :
    (bxBin b s).regOut = s.regOut := by simp [bxBin]

/-! `bxHalfw` -/

@[simp] theorem bxHalfw_cfg (b : Band) (s : State) :
    (bxHalfw b s).cfg = s.cfg := by simp [bxHalfw]

@[simp] theorem bxHalfw_params (b : Band) (s : State) :
    (bxHalfw b s).params = s.params := by simp [bxHalfw]

@[simp] theorem bxHalfw_snap (b : Band) (s : State) :
    (bxHalfw b s).snap = s.snap := by simp [bxHalfw]

@[simp] theorem bxHalfw_drv (b : Band) (s : State) :
    (bxHalfw b s).drv = s.drv := by simp [bxHalfw]

@[simp] theorem bxHalfw_prepared (b : Band) (s : State) :
    (bxHalfw b s).prepared = s.prepared := by simp [bxHalfw]

@[simp] theorem bxHalfw_sr (b : Band) (s : State) :
    (bxHalfw b s).sr = s.sr := by simp [bxHalfw]

@[simp] theorem bxHalfw_maxBlk (b : Band) (s : State) :
    (bxHalfw b s).maxBlk = s.maxBlk := by simp [bxHalfw]

@[simp] theorem bxHalfw_rings (b : Band) (s : State) :
    (bxHalfw b s).rings = s.rings := by simp [bxHalfw]

@[simp] theorem bxHalfw_mem (b : Band) (s : State) :
    (bxHalfw b s).mem = s.mem := by simp [bxHalfw]

@[simp] theorem bxHalfw_olaWr (b : Band) (s : State) :
    (bxHalfw b s).olaWr = s.olaWr := by simp [bxHalfw]

@[simp] theorem bxHalfw_olaRd (b : Band) (s : State) :
    (bxHalfw b s).olaRd = s.olaRd := by simp [bxHalfw]

@[simp] theorem bxHalfw_blkRem (b : Band) (s : State) :
    (bxHalfw b s).blkRem = s.blkRem := by simp [bxHalfw]

@[simp] theorem bxHalfw_blkActive (b : Band) (s : State) :
    (bxHalfw b s).blkActive = s.blkActive := by simp [bxHalfw]

@[simp] theorem bxHalfw_scratch (b : Band) (s : State) :
    (bxHalfw b s).scratch = s.scratch := by simp [bxHalfw]

@[simp] theorem bxHalfw_marks (b : Band) (s : State) :
    (bxHalfw b s).marks = s.marks := by simp [bxHalfw]

@[simp] theorem bxHalfw_cmdIn (b : Band) (s : State) :
    (bxHalfw b s).cmdIn = s.cmdIn := by simp [bxHalfw]

@[simp] theorem bxHalfw_issue (b : Band) (s : State) :
    (bxHalfw b s).issue = s.issue := by simp [bxHalfw]

@[simp] theorem bxHalfw_samplesIn (b : Band) (s : State) :
    (bxHalfw b s).samplesIn = s.samplesIn := by simp [bxHalfw]

@[simp] theorem bxHalfw_samplesOut (b : Band) (s : State) :
    (bxHalfw b s).samplesOut = s.samplesOut := by simp [bxHalfw]

@[simp] theorem bxHalfw_turns (b : Band) (s : State) :
    (bxHalfw b s).turns = s.turns := by simp [bxHalfw]

@[simp] theorem bxHalfw_regOut (b : Band) (s : State) :
    (bxHalfw b s).regOut = s.regOut := by simp [bxHalfw]

/-! `bxInterval` -/

@[simp] theorem bxInterval_cfg (b : Band) (s : State) :
    (bxInterval b s).cfg = s.cfg := by simp [bxInterval]

@[simp] theorem bxInterval_params (b : Band) (s : State) :
    (bxInterval b s).params = s.params := by simp [bxInterval]

@[simp] theorem bxInterval_snap (b : Band) (s : State) :
    (bxInterval b s).snap = s.snap := by simp [bxInterval]

@[simp] theorem bxInterval_drv (b : Band) (s : State) :
    (bxInterval b s).drv = s.drv := by simp [bxInterval]

@[simp] theorem bxInterval_prepared (b : Band) (s : State) :
    (bxInterval b s).prepared = s.prepared := by simp [bxInterval]

@[simp] theorem bxInterval_sr (b : Band) (s : State) :
    (bxInterval b s).sr = s.sr := by simp [bxInterval]

@[simp] theorem bxInterval_maxBlk (b : Band) (s : State) :
    (bxInterval b s).maxBlk = s.maxBlk := by simp [bxInterval]

@[simp] theorem bxInterval_rings (b : Band) (s : State) :
    (bxInterval b s).rings = s.rings := by simp [bxInterval]

@[simp] theorem bxInterval_mem (b : Band) (s : State) :
    (bxInterval b s).mem = s.mem := by simp [bxInterval]

@[simp] theorem bxInterval_olaWr (b : Band) (s : State) :
    (bxInterval b s).olaWr = s.olaWr := by simp [bxInterval]

@[simp] theorem bxInterval_olaRd (b : Band) (s : State) :
    (bxInterval b s).olaRd = s.olaRd := by simp [bxInterval]

@[simp] theorem bxInterval_blkRem (b : Band) (s : State) :
    (bxInterval b s).blkRem = s.blkRem := by simp [bxInterval]

@[simp] theorem bxInterval_blkActive (b : Band) (s : State) :
    (bxInterval b s).blkActive = s.blkActive := by simp [bxInterval]

@[simp] theorem bxInterval_scratch (b : Band) (s : State) :
    (bxInterval b s).scratch = s.scratch := by simp [bxInterval]

@[simp] theorem bxInterval_marks (b : Band) (s : State) :
    (bxInterval b s).marks = s.marks := by simp [bxInterval]

@[simp] theorem bxInterval_cmdIn (b : Band) (s : State) :
    (bxInterval b s).cmdIn = s.cmdIn := by simp [bxInterval]

@[simp] theorem bxInterval_issue (b : Band) (s : State) :
    (bxInterval b s).issue = s.issue := by simp [bxInterval]

@[simp] theorem bxInterval_samplesIn (b : Band) (s : State) :
    (bxInterval b s).samplesIn = s.samplesIn := by simp [bxInterval]

@[simp] theorem bxInterval_samplesOut (b : Band) (s : State) :
    (bxInterval b s).samplesOut = s.samplesOut := by simp [bxInterval]

@[simp] theorem bxInterval_turns (b : Band) (s : State) :
    (bxInterval b s).turns = s.turns := by simp [bxInterval]

@[simp] theorem bxInterval_regOut (b : Band) (s : State) :
    (bxInterval b s).regOut = s.regOut := by simp [bxInterval]

/-! `takeSnapshot` -/

@[simp] theorem takeSnapshot_cfg (s : State) :
    (takeSnapshot s).cfg = s.cfg := by simp [takeSnapshot]

@[simp] theorem takeSnapshot_params (s : State) :
    (takeSnapshot s).params = s.params := by simp [takeSnapshot]

@[simp] theorem takeSnapshot_band1 (s : State) :
    (takeSnapshot s).band1 = s.band1 := by simp [takeSnapshot]

@[simp] theorem takeSnapshot_band2 (s : State) :
    (takeSnapshot s).band2 = s.band2 := by simp [takeSnapshot]

@[simp] theorem takeSnapshot_drv (s : State) :
    (takeSnapshot s).drv = s.drv := by simp [takeSnapshot]

@[simp] theorem takeSnapshot_prepared (s : State) :
    (takeSnapshot s).prepared = s.prepared := by simp [takeSnapshot]

@[simp] theorem takeSnapshot_sr (s : State) :
    (takeSnapshot s).sr = s.sr := by simp [takeSnapshot]

@[simp] theorem takeSnapshot_maxBlk (s : State) :
    (takeSnapshot s).maxBlk = s.maxBlk := by simp [takeSnapshot]

@[simp] theorem takeSnapshot_rings (s : State) :
    (takeSnapshot s).rings = s.rings := by simp [takeSnapshot]

@[simp] theorem takeSnapshot_mem (s : State) :
    (takeSnapshot s).mem = s.mem := by simp [takeSnapshot]

@[simp] theorem takeSnapshot_olaWr (s : State) :
    (takeSnapshot s).olaWr = s.olaWr := by simp [takeSnapshot]

@[simp] theorem takeSnapshot_olaRd (s : State) :
    (takeSnapshot s).olaRd = s.olaRd := by simp [takeSnapshot]

@[simp] theorem takeSnapshot_blkRem (s : State) :
    (takeSnapshot s).blkRem = s.blkRem := by simp [takeSnapshot]

@[simp] theorem takeSnapshot_blkActive (s : State) :
    (takeSnapshot s).blkActive = s.blkActive := by simp [takeSnapshot]

@[simp] theorem takeSnapshot_scratch (s : State) :
    (takeSnapshot s).scratch = s.scratch := by simp [takeSnapshot]

@[simp] theorem takeSnapshot_marks (s : State) :
    (takeSnapshot s).marks = s.marks := by simp [takeSnapshot]

@[simp] theorem takeSnapshot_cmdIn (s : State) :
    (takeSnapshot s).cmdIn = s.cmdIn := by simp [takeSnapshot]

@[simp] theorem takeSnapshot_issue (s : State) :
    (takeSnapshot s).issue = s.issue := by simp [takeSnapshot]

@[simp] theorem takeSnapshot_samplesIn (s : State) :
    (takeSnapshot s).samplesIn = s.samplesIn := by simp [takeSnapshot]

@[simp] theorem takeSnapshot_samplesOut (s : State) :
    (takeSnapshot s).samplesOut = s.samplesOut := by simp [takeSnapshot]

@[simp] theorem takeSnapshot_turns (s : State) :
    (takeSnapshot s).turns = s.turns := by simp [takeSnapshot]

@[simp] theorem takeSnapshot_regOut (s : State) :
    (takeSnapshot s).regOut = s.regOut := by simp [takeSnapshot]

/-! `deriveBand` -/

@[simp] theorem deriveBand_cfg (b : Band) (s : State) :
    (deriveBand b s).cfg = s.cfg := by simp [deriveBand]

@[simp] theorem deriveBand_params (b : Band) (s : State) :
    (deriveBand b s).params = s.params := by simp [deriveBand]

@[simp] theorem deriveBand_snap (b : Band) (s : State) :
    (deriveBand b s).snap = s.snap := by simp [deriveBand]

@[simp] theorem deriveBand_drv (b : Band) (s : State) :
    (deriveBand b s).drv = s.drv := by simp [deriveBand]

@[simp] theorem deriveBand_prepared (b : Band) (s : State) :
    (deriveBand b s).prepared = s.prepared := by simp [deriveBand]

@[simp] theorem deriveBand_sr (b : Band) (s : State) :
    (deriveBand b s).sr = s.sr := by simp [deriveBand]

@[simp] theorem deriveBand_maxBlk (b : Band) (s : State) :
    (deriveBand b s).maxBlk = s.maxBlk := by simp [deriveBand]

@[simp] theorem deriveBand_rings (b : Band) (s : State) :
    (deriveBand b s).rings = s.rings := by simp [deriveBand]

@[simp] theorem deriveBand_mem (b : Band) (s : State) :
    (deriveBand b s).mem = s.mem := by simp [deriveBand]

@[simp] theorem deriveBand_olaWr (b : Band) (s : State) :
    (deriveBand b s).olaWr = s.olaWr := by simp [deriveBand]

@[simp] theorem deriveBand_olaRd (b : Band) (s : State) :
    (deriveBand b s).olaRd = s.olaRd := by simp [deriveBand]

@[simp] theorem deriveBand_blkRem (b : Band) (s : State) :
    (deriveBand b s).blkRem = s.blkRem := by simp [deriveBand]

@[simp] theorem deriveBand_blkActive (b : Band) (s : State) :
    (deriveBand b s).blkActive = s.blkActive := by simp [deriveBand]

@[simp] theorem deriveBand_scratch (b : Band) (s : State) :
    (deriveBand b s).scratch = s.scratch := by simp [deriveBand]

@[simp] theorem deriveBand_marks (b : Band) (s : State) :
    (deriveBand b s).marks = s.marks := by simp [deriveBand]

@[simp] theorem deriveBand_cmdIn (b : Band) (s : State) :
    (deriveBand b s).cmdIn = s.cmdIn := by simp [deriveBand]

@[simp] theorem deriveBand_issue (b : Band) (s : State) :
    (deriveBand b s).issue = s.issue := by simp [deriveBand]

@[simp] theorem deriveBand_samplesIn (b : Band) (s : State) :
    (deriveBand b s).samplesIn = s.samplesIn := by simp [deriveBand]

@[simp] theorem deriveBand_samplesOut (b : Band) (s : State) :
    (deriveBand b s).samplesOut = s.samplesOut := by simp [deriveBand]

@[simp] theorem deriveBand_turns (b : Band) (s : State) :
    (deriveBand b s).turns = s.turns := by simp [deriveBand]

@[simp] theorem deriveBand_regOut (b : Band) (s : State) :
    (deriveBand b s).regOut = s.regOut := by simp [deriveBand]

/-! `snapAll` -/

@[simp] theorem snapAll_cfg (s : State) :
    (snapAll s).cfg = s.cfg := by simp [snapAll]

@[simp] theorem snapAll_params (s : State) :
    (snapAll s).params = s.params := by simp [snapAll]

@[simp] theorem snapAll_drv (s : State) :
    (snapAll s).drv = s.drv := by simp [snapAll]

@[simp] theorem snapAll_prepared (s : State) :
    (snapAll s).prepared = s.prepared := by simp [snapAll]

@[simp] theorem snapAll_sr (s : State) :
    (snapAll s).sr = s.sr := by simp [snapAll]

@[simp] theorem snapAll_maxBlk (s : State) :
    (snapAll s).maxBlk = s.maxBlk := by simp [snapAll]

@[simp] theorem snapAll_rings (s : State) :
    (snapAll s).rings = s.rings := by simp [snapAll]

@[simp] theorem snapAll_mem (s : State) :
    (snapAll s).mem = s.mem := by simp [snapAll]

@[simp] theorem snapAll_olaWr (s : State) :
    (snapAll s).olaWr = s.olaWr := by simp [snapAll]

@[simp] theorem snapAll_olaRd (s : State) :
    (snapAll s).olaRd = s.olaRd := by simp [snapAll]

@[simp] theorem snapAll_blkRem (s : State) :
    (snapAll s).blkRem = s.blkRem := by simp [snapAll]

@[simp] theorem snapAll_blkActive (s : State) :
    (snapAll s).blkActive = s.blkActive := by simp [snapAll]

@[simp] theorem snapAll_scratch (s : State) :
    (snapAll s).scratch = s.scratch := by simp [snapAll]

@[simp] theorem snapAll_marks (s : State) :
    (snapAll s).marks = s.marks := by simp [snapAll]

@[simp] theorem snapAll_cmdIn (s : State) :
    (snapAll s).cmdIn = s.cmdIn := by simp [snapAll]

@[simp] theorem snapAll_issue (s : State) :
    (snapAll s).issue = s.issue := by simp [snapAll]

@[simp] theorem snapAll_samplesIn (s : State) :
    (snapAll s).samplesIn = s.samplesIn := by simp [snapAll]

@[simp] theorem snapAll_samplesOut (s : State) :
    (snapAll s).samplesOut = s.samplesOut := by simp [snapAll]

@[simp] theorem snapAll_turns (s : State) :
    (snapAll s).turns = s.turns := by simp [snapAll]

@[simp] theorem snapAll_regOut (s : State) :
    (snapAll s).regOut = s.regOut := by simp [snapAll]

/-! `bxMixp` -/

@[simp] theorem bxMixp_cfg (b : Band) (s : State) :
    (bxMixp b s).cfg = s.cfg := rfl

@[simp] theorem bxMixp_params (b : Band) (s : State) :
    (bxMixp b s).params = s.params := rfl

@[simp] theorem bxMixp_snap (b : Band) (s : State) :
    (bxMixp b s).snap = s.snap := rfl

@[simp] theorem bxMixp_band1 (b : Band) (s : State) :
    (bxMixp b s).band1 = s.band1 := rfl

@[simp] theorem bxMixp_band2 (b : Band) (s : State) :
    (bxMixp b s).band2 = s.band2 := rfl

@[simp] theorem bxMixp_drv (b : Band) (s : State) :
    (bxMixp b s).drv = s.drv := rfl

@[simp] theorem bxMixp_prepared (b : Band) (s : State) :
    (bxMixp b s).prepared = s.prepared := rfl

@[simp] theorem bxMixp_sr (b : Band) (s : State) :
    (bxMixp b s).sr = s.sr := rfl

@[simp] theorem bxMixp_maxBlk (b : Band) (s : State) :
    (bxMixp b s).maxBlk = s.maxBlk := rfl

@[simp] theorem bxMixp_events (b : Band) (s : State) :
    (bxMixp b s).events = s.events := rfl

@[simp] theorem bxMixp_rings (b : Band) (s : State) :
    (bxMixp b s).rings = s.rings := rfl

@[simp] theorem bxMixp_mem (b : Band) (s : State) :
    (bxMixp b s).mem = s.mem := rfl

@[simp] theorem bxMixp_olaWr (b : Band) (s : State) :
    (bxMixp b s).olaWr = s.olaWr := rfl

@[simp] theorem bxMixp_olaRd (b : Band) (s : State) :
    (bxMixp b s).olaRd = s.olaRd := rfl

@[simp] theorem bxMixp_blkRem (b : Band) (s : State) :
    (bxMixp b s).blkRem = s.blkRem := rfl

@[simp] theorem bxMixp_blkActive (b : Band) (s : State) :
    (bxMixp b s).blkActive = s.blkActive := rfl

@[simp] theorem bxMixp_marks (b : Band) (s : State) :
    (bxMixp b s).marks = s.marks := rfl

@[simp] theorem bxMixp_cmdIn (b : Band) (s : State) :
    (bxMixp b s).cmdIn = s.cmdIn := rfl

@[simp] theorem bxMixp_issue (b : Band) (s : State) :
    (bxMixp b s).issue = s.issue := rfl

@[simp] theorem bxMixp_samplesIn (b : Band) (s : State) :
    (bxMixp b s).samplesIn = s.samplesIn := rfl

@[simp] theorem bxMixp_samplesOut (b : Band) (s : State) :
    (bxMixp b s).samplesOut = s.samplesOut := rfl

@[simp] theorem bxMixp_turns (b : Band) (s : State) :
    (bxMixp b s).turns = s.turns := rfl

@[simp] theorem bxMixp_regOut (b : Band) (s : State) :
    (bxMixp b s).regOut = s.regOut := rfl

/-! `bxMixf` -/

@[simp] theorem bxMixf_cfg (s : State) :
    (bxMixf s).cfg = s.cfg := rfl

@[simp] theorem bxMixf_params (s : State) :
    (bxMixf s).params = s.params := rfl

@[simp] theorem bxMixf_snap (s : State) :
    (bxMixf s).snap = s.snap := rfl

@[simp] theorem bxMixf_band1 (s : State) :
    (bxMixf s).band1 = s.band1 := rfl

@[simp] theorem bxMixf_band2 (s : State) :
    (bxMixf s).band2 = s.band2 := rfl

@[simp] theorem bxMixf_drv (s : State) :
    (bxMixf s).drv = s.drv := rfl

@[simp] theorem bxMixf_prepared (s : State) :
    (bxMixf s).prepared = s.prepared := rfl

@[simp] theorem bxMixf_sr (s : State) :
    (bxMixf s).sr = s.sr := rfl

@[simp] theorem bxMixf_maxBlk (s : State) :
    (bxMixf s).maxBlk = s.maxBlk := rfl

@[simp] theorem bxMixf_events (s : State) :
    (bxMixf s).events = s.events := rfl

@[simp] theorem bxMixf_rings (s : State) :
    (bxMixf s).rings = s.rings := rfl

@[simp] theorem bxMixf_mem (s : State) :
    (bxMixf s).mem = s.mem := rfl

@[simp] theorem bxMixf_olaWr (s : State) :
    (bxMixf s).olaWr = s.olaWr := rfl

@[simp] theorem bxMixf_olaRd (s : State) :
    (bxMixf s).olaRd = s.olaRd := rfl

@[simp] theorem bxMixf_blkRem (s : State) :
    (bxMixf s).blkRem = s.blkRem := rfl

@[simp] theorem bxMixf_blkActive (s : State) :
    (bxMixf s).blkActive = s.blkActive := rfl

@[simp] theorem bxMixf_marks (s : State) :
    (bxMixf s).marks = s.marks := rfl

@[simp] theorem bxMixf_cmdIn (s : State) :
    (bxMixf s).cmdIn = s.cmdIn := rfl

@[simp] theorem bxMixf_issue (s : State) :
    (bxMixf s).issue = s.issue := rfl

@[simp] theorem bxMixf_samplesIn (s : State) :
    (bxMixf s).samplesIn = s.samplesIn := rfl

@[simp] theorem bxMixf_samplesOut (s : State) :
    (bxMixf s).samplesOut = s.samplesOut := rfl

@[simp] theorem bxMixf_turns (s : State) :
    (bxMixf s).turns = s.turns := rfl

@[simp] theorem bxMixf_regOut (s : State) :
    (bxMixf s).regOut = s.regOut := rfl

/-! `loadCopies` -/

@[simp] theorem loadCopies_cfg (c : Chan) (s : State) :
    (loadCopies c s).cfg = s.cfg := rfl

@[simp] theorem loadCopies_params (c : Chan) (s : State) :
    (loadCopies c s).params = s.params := rfl

@[simp] theorem loadCopies_snap (c : Chan) (s : State) :
    (loadCopies c s).snap = s.snap := rfl

@[simp] theorem loadCopies_band1 (c : Chan) (s : State) :
    (loadCopies c s).band1 = s.band1 := rfl

@[simp] theorem loadCopies_band2 (c : Chan) (s : State) :
    (loadCopies c s).band2 = s.band2 := rfl

@[simp] theorem loadCopies_drv (c : Chan) (s : State) :
    (loadCopies c s).drv = s.drv := rfl

@[simp] theorem loadCopies_prepared (c : Chan) (s : State) :
    (loadCopies c s).prepared = s.prepared := rfl

@[simp] theorem loadCopies_sr (c : Chan) (s : State) :
    (loadCopies c s).sr = s.sr := rfl

@[simp] theorem loadCopies_maxBlk (c : Chan) (s : State) :
    (loadCopies c s).maxBlk = s.maxBlk := rfl

@[simp] theorem loadCopies_events (c : Chan) (s : State) :
    (loadCopies c s).events = s.events := rfl

@[simp] theorem loadCopies_rings (c : Chan) (s : State) :
    (loadCopies c s).rings = s.rings := rfl

@[simp] theorem loadCopies_mem (c : Chan) (s : State) :
    (loadCopies c s).mem = s.mem := rfl

@[simp] theorem loadCopies_olaWr (c : Chan) (s : State) :
    (loadCopies c s).olaWr = s.olaWr := rfl

@[simp] theorem loadCopies_olaRd (c : Chan) (s : State) :
    (loadCopies c s).olaRd = s.olaRd := rfl

@[simp] theorem loadCopies_blkRem (c : Chan) (s : State) :
    (loadCopies c s).blkRem = s.blkRem := rfl

@[simp] theorem loadCopies_blkActive (c : Chan) (s : State) :
    (loadCopies c s).blkActive = s.blkActive := rfl

@[simp] theorem loadCopies_marks (c : Chan) (s : State) :
    (loadCopies c s).marks = s.marks := rfl

@[simp] theorem loadCopies_cmdIn (c : Chan) (s : State) :
    (loadCopies c s).cmdIn = s.cmdIn := rfl

@[simp] theorem loadCopies_issue (c : Chan) (s : State) :
    (loadCopies c s).issue = s.issue := rfl

@[simp] theorem loadCopies_samplesIn (c : Chan) (s : State) :
    (loadCopies c s).samplesIn = s.samplesIn := rfl

@[simp] theorem loadCopies_samplesOut (c : Chan) (s : State) :
    (loadCopies c s).samplesOut = s.samplesOut := rfl

@[simp] theorem loadCopies_turns (c : Chan) (s : State) :
    (loadCopies c s).turns = s.turns := rfl

@[simp] theorem loadCopies_regOut (c : Chan) (s : State) :
    (loadCopies c s).regOut = s.regOut := rfl

/-! `mixSelected` -/

@[simp] theorem mixSelected_cfg (s : State) :
    (mixSelected s).cfg = s.cfg := by unfold mixSelected; split <;> simp

@[simp] theorem mixSelected_params (s : State) :
    (mixSelected s).params = s.params := by unfold mixSelected; split <;> simp

@[simp] theorem mixSelected_snap (s : State) :
    (mixSelected s).snap = s.snap := by unfold mixSelected; split <;> simp

@[simp] theorem mixSelected_band1 (s : State) :
    (mixSelected s).band1 = s.band1 := by unfold mixSelected; split <;> simp

@[simp] theorem mixSelected_band2 (s : State) :
    (mixSelected s).band2 = s.band2 := by unfold mixSelected; split <;> simp

@[simp] theorem mixSelected_drv (s : State) :
    (mixSelected s).drv = s.drv := by unfold mixSelected; split <;> simp

@[simp] theorem mixSelected_prepared (s : State) :
    (mixSelected s).prepared = s.prepared := by unfold mixSelected; split <;> simp

@[simp] theorem mixSelected_sr (s : State) :
    (mixSelected s).sr = s.sr := by unfold mixSelected; split <;> simp

@[simp] theorem mixSelected_maxBlk (s : State) :
    (mixSelected s).maxBlk = s.maxBlk := by unfold mixSelected; split <;> simp

@[simp] theorem mixSelected_events (s : State) :
    (mixSelected s).events = s.events := by unfold mixSelected; split <;> simp

@[simp] theorem mixSelected_rings (s : State) :
    (mixSelected s).rings = s.rings := by unfold mixSelected; split <;> simp

@[simp] theorem mixSelected_mem (s : State) :
    (mixSelected s).mem = s.mem := by unfold mixSelected; split <;> simp

@[simp] theorem mixSelected_olaWr (s : State) :
    (mixSelected s).olaWr = s.olaWr := by unfold mixSelected; split <;> simp

@[simp] theorem mixSelected_olaRd (s : State) :
    (mixSelected s).olaRd = s.olaRd := by unfold mixSelected; split <;> simp

@[simp] theorem mixSelected_blkRem (s : State) :
    (mixSelected s).blkRem = s.blkRem := by unfold mixSelected; split <;> simp

@[simp] theorem mixSelected_blkActive (s : State) :
    (mixSelected s).blkActive = s.blkActive := by unfold mixSelected; split <;> simp

@[simp] theorem mixSelected_marks (s : State) :
    (mixSelected s).marks = s.marks := by unfold mixSelected; split <;> simp

@[simp] theorem mixSelected_cmdIn (s : State) :
    (mixSelected s).cmdIn = s.cmdIn := by unfold mixSelected; split <;> simp

@[simp] theorem mixSelected_issue (s : State) :
    (mixSelected s).issue = s.issue := by unfold mixSelected; split <;> simp

@[simp] theorem mixSelected_samplesIn (s : State) :
    (mixSelected s).samplesIn = s.samplesIn := by unfold mixSelected; split <;> simp

@[simp] theorem mixSelected_samplesOut (s : State) :
    (mixSelected s).samplesOut = s.samplesOut := by unfold mixSelected; split <;> simp

@[simp] theorem mixSelected_turns (s : State) :
    (mixSelected s).turns = s.turns := by unfold mixSelected; split <;> simp

@[simp] theorem mixSelected_regOut (s : State) :
    (mixSelected s).regOut = s.regOut := by unfold mixSelected; split <;> simp

/-! `storeMix` -/

@[simp] theorem storeMix_cfg (c : Chan) (s : State) :
    (storeMix c s).cfg = s.cfg := rfl

@[simp] theorem storeMix_params (c : Chan) (s : State) :
    (storeMix c s).params = s.params := rfl

@[simp] theorem storeMix_snap (c : Chan) (s : State) :
    (storeMix c s).snap = s.snap := rfl

@[simp] theorem storeMix_band1 (c : Chan) (s : State) :
    (storeMix c s).band1 = s.band1 := rfl

@[simp] theorem storeMix_band2 (c : Chan) (s : State) :
    (storeMix c s).band2 = s.band2 := rfl

@[simp] theorem storeMix_drv (c : Chan) (s : State) :
    (storeMix c s).drv = s.drv := rfl

@[simp] theorem storeMix_prepared (c : Chan) (s : State) :
    (storeMix c s).prepared = s.prepared := rfl

@[simp] theorem storeMix_sr (c : Chan) (s : State) :
    (storeMix c s).sr = s.sr := rfl

@[simp] theorem storeMix_maxBlk (c : Chan) (s : State) :
    (storeMix c s).maxBlk = s.maxBlk := rfl

@[simp] theorem storeMix_events (c : Chan) (s : State) :
    (storeMix c s).events = s.events := rfl

@[simp] theorem storeMix_rings (c : Chan) (s : State) :
    (storeMix c s).rings = s.rings := rfl

@[simp] theorem storeMix_olaWr (c : Chan) (s : State) :
    (storeMix c s).olaWr = s.olaWr := rfl

@[simp] theorem storeMix_olaRd (c : Chan) (s : State) :
    (storeMix c s).olaRd = s.olaRd := rfl

@[simp] theorem storeMix_blkRem (c : Chan) (s : State) :
    (storeMix c s).blkRem = s.blkRem := rfl

@[simp] theorem storeMix_blkActive (c : Chan) (s : State) :
    (storeMix c s).blkActive = s.blkActive := rfl

@[simp] theorem storeMix_scratch (c : Chan) (s : State) :
    (storeMix c s).scratch = s.scratch := rfl

@[simp] theorem storeMix_marks (c : Chan) (s : State) :
    (storeMix c s).marks = s.marks := rfl

@[simp] theorem storeMix_cmdIn (c : Chan) (s : State) :
    (storeMix c s).cmdIn = s.cmdIn := rfl

@[simp] theorem storeMix_issue (c : Chan) (s : State) :
    (storeMix c s).issue = s.issue := rfl

@[simp] theorem storeMix_samplesIn (c : Chan) (s : State) :
    (storeMix c s).samplesIn = s.samplesIn := rfl

@[simp] theorem storeMix_samplesOut (c : Chan) (s : State) :
    (storeMix c s).samplesOut = s.samplesOut := rfl

@[simp] theorem storeMix_turns (c : Chan) (s : State) :
    (storeMix c s).turns = s.turns := rfl

@[simp] theorem storeMix_regOut (c : Chan) (s : State) :
    (storeMix c s).regOut = s.regOut := rfl

/-! `joinMarks` -/

@[simp] theorem joinMarks_cfg (c : Chan) (s : State) :
    (joinMarks c s).cfg = s.cfg := rfl

@[simp] theorem joinMarks_params (c : Chan) (s : State) :
    (joinMarks c s).params = s.params := rfl

@[simp] theorem joinMarks_snap (c : Chan) (s : State) :
    (joinMarks c s).snap = s.snap := rfl

@[simp] theorem joinMarks_band1 (c : Chan) (s : State) :
    (joinMarks c s).band1 = s.band1 := rfl

@[simp] theorem joinMarks_band2 (c : Chan) (s : State) :
    (joinMarks c s).band2 = s.band2 := rfl

@[simp] theorem joinMarks_drv (c : Chan) (s : State) :
    (joinMarks c s).drv = s.drv := rfl

@[simp] theorem joinMarks_prepared (c : Chan) (s : State) :
    (joinMarks c s).prepared = s.prepared := rfl

@[simp] theorem joinMarks_sr (c : Chan) (s : State) :
    (joinMarks c s).sr = s.sr := rfl

@[simp] theorem joinMarks_maxBlk (c : Chan) (s : State) :
    (joinMarks c s).maxBlk = s.maxBlk := rfl

@[simp] theorem joinMarks_events (c : Chan) (s : State) :
    (joinMarks c s).events = s.events := rfl

@[simp] theorem joinMarks_rings (c : Chan) (s : State) :
    (joinMarks c s).rings = s.rings := rfl

@[simp] theorem joinMarks_mem (c : Chan) (s : State) :
    (joinMarks c s).mem = s.mem := rfl

@[simp] theorem joinMarks_olaWr (c : Chan) (s : State) :
    (joinMarks c s).olaWr = s.olaWr := rfl

@[simp] theorem joinMarks_olaRd (c : Chan) (s : State) :
    (joinMarks c s).olaRd = s.olaRd := rfl

@[simp] theorem joinMarks_blkRem (c : Chan) (s : State) :
    (joinMarks c s).blkRem = s.blkRem := rfl

@[simp] theorem joinMarks_blkActive (c : Chan) (s : State) :
    (joinMarks c s).blkActive = s.blkActive := rfl

@[simp] theorem joinMarks_scratch (c : Chan) (s : State) :
    (joinMarks c s).scratch = s.scratch := rfl

@[simp] theorem joinMarks_cmdIn (c : Chan) (s : State) :
    (joinMarks c s).cmdIn = s.cmdIn := rfl

@[simp] theorem joinMarks_issue (c : Chan) (s : State) :
    (joinMarks c s).issue = s.issue := rfl

@[simp] theorem joinMarks_samplesIn (c : Chan) (s : State) :
    (joinMarks c s).samplesIn = s.samplesIn := rfl

@[simp] theorem joinMarks_samplesOut (c : Chan) (s : State) :
    (joinMarks c s).samplesOut = s.samplesOut := rfl

@[simp] theorem joinMarks_turns (c : Chan) (s : State) :
    (joinMarks c s).turns = s.turns := rfl

@[simp] theorem joinMarks_regOut (c : Chan) (s : State) :
    (joinMarks c s).regOut = s.regOut := rfl

/-! `exchange` -/

@[simp] theorem exchange_cfg (c : Chan) (s : State) :
    (exchange c s).cfg = s.cfg := by simp [exchange]

@[simp] theorem exchange_params (c : Chan) (s : State) :
    (exchange c s).params = s.params := by simp [exchange]

@[simp] theorem exchange_snap (c : Chan) (s : State) :
    (exchange c s).snap = s.snap := by simp [exchange]

@[simp] theorem exchange_band1 (c : Chan) (s : State) :
    (exchange c s).band1 = s.band1 := by simp [exchange]

@[simp] theorem exchange_band2 (c : Chan) (s : State) :
    (exchange c s).band2 = s.band2 := by simp [exchange]

@[simp] theorem exchange_drv (c : Chan) (s : State) :
    (exchange c s).drv = s.drv := by simp [exchange]

@[simp] theorem exchange_prepared (c : Chan) (s : State) :
    (exchange c s).prepared = s.prepared := by simp [exchange]

@[simp] theorem exchange_sr (c : Chan) (s : State) :
    (exchange c s).sr = s.sr := by simp [exchange]

@[simp] theorem exchange_maxBlk (c : Chan) (s : State) :
    (exchange c s).maxBlk = s.maxBlk := by simp [exchange]

@[simp] theorem exchange_events (c : Chan) (s : State) :
    (exchange c s).events = s.events := by simp [exchange]

@[simp] theorem exchange_rings (c : Chan) (s : State) :
    (exchange c s).rings = s.rings := by simp [exchange]

@[simp] theorem exchange_olaWr (c : Chan) (s : State) :
    (exchange c s).olaWr = s.olaWr := by simp [exchange]

@[simp] theorem exchange_olaRd (c : Chan) (s : State) :
    (exchange c s).olaRd = s.olaRd := by simp [exchange]

@[simp] theorem exchange_blkRem (c : Chan) (s : State) :
    (exchange c s).blkRem = s.blkRem := by simp [exchange]

@[simp] theorem exchange_blkActive (c : Chan) (s : State) :
    (exchange c s).blkActive = s.blkActive := by simp [exchange]

@[simp] theorem exchange_cmdIn (c : Chan) (s : State) :
    (exchange c s).cmdIn = s.cmdIn := by simp [exchange]

@[simp] theorem exchange_issue (c : Chan) (s : State) :
    (exchange c s).issue = s.issue := by simp [exchange]

@[simp] theorem exchange_samplesIn (c : Chan) (s : State) :
    (exchange c s).samplesIn = s.samplesIn := by simp [exchange]

@[simp] theorem exchange_samplesOut (c : Chan) (s : State) :
    (exchange c s).samplesOut = s.samplesOut := by simp [exchange]

@[simp] theorem exchange_turns (c : Chan) (s : State) :
    (exchange c s).turns = s.turns := by simp [exchange]

@[simp] theorem exchange_regOut (c : Chan) (s : State) :
    (exchange c s).regOut = s.regOut := by simp [exchange]

/-! `ringWrite` -/

@[simp] theorem ringWrite_cfg (st : Stream) (c : Chan) (v : Word) (s : State) :
    (ringWrite st c v s).cfg = s.cfg := rfl

@[simp] theorem ringWrite_params (st : Stream) (c : Chan) (v : Word) (s : State) :
    (ringWrite st c v s).params = s.params := rfl

@[simp] theorem ringWrite_snap (st : Stream) (c : Chan) (v : Word) (s : State) :
    (ringWrite st c v s).snap = s.snap := rfl

@[simp] theorem ringWrite_band1 (st : Stream) (c : Chan) (v : Word) (s : State) :
    (ringWrite st c v s).band1 = s.band1 := rfl

@[simp] theorem ringWrite_band2 (st : Stream) (c : Chan) (v : Word) (s : State) :
    (ringWrite st c v s).band2 = s.band2 := rfl

@[simp] theorem ringWrite_drv (st : Stream) (c : Chan) (v : Word) (s : State) :
    (ringWrite st c v s).drv = s.drv := rfl

@[simp] theorem ringWrite_prepared (st : Stream) (c : Chan) (v : Word) (s : State) :
    (ringWrite st c v s).prepared = s.prepared := rfl

@[simp] theorem ringWrite_sr (st : Stream) (c : Chan) (v : Word) (s : State) :
    (ringWrite st c v s).sr = s.sr := rfl

@[simp] theorem ringWrite_maxBlk (st : Stream) (c : Chan) (v : Word) (s : State) :
    (ringWrite st c v s).maxBlk = s.maxBlk := rfl

@[simp] theorem ringWrite_events (st : Stream) (c : Chan) (v : Word) (s : State) :
    (ringWrite st c v s).events = s.events := rfl

@[simp] theorem ringWrite_olaWr (st : Stream) (c : Chan) (v : Word) (s : State) :
    (ringWrite st c v s).olaWr = s.olaWr := rfl

@[simp] theorem ringWrite_olaRd (st : Stream) (c : Chan) (v : Word) (s : State) :
    (ringWrite st c v s).olaRd = s.olaRd := rfl

@[simp] theorem ringWrite_blkRem (st : Stream) (c : Chan) (v : Word) (s : State) :
    (ringWrite st c v s).blkRem = s.blkRem := rfl

@[simp] theorem ringWrite_blkActive (st : Stream) (c : Chan) (v : Word) (s : State) :
    (ringWrite st c v s).blkActive = s.blkActive := rfl

@[simp] theorem ringWrite_scratch (st : Stream) (c : Chan) (v : Word) (s : State) :
    (ringWrite st c v s).scratch = s.scratch := rfl

@[simp] theorem ringWrite_marks (st : Stream) (c : Chan) (v : Word) (s : State) :
    (ringWrite st c v s).marks = s.marks := rfl

@[simp] theorem ringWrite_cmdIn (st : Stream) (c : Chan) (v : Word) (s : State) :
    (ringWrite st c v s).cmdIn = s.cmdIn := rfl

@[simp] theorem ringWrite_issue (st : Stream) (c : Chan) (v : Word) (s : State) :
    (ringWrite st c v s).issue = s.issue := rfl

@[simp] theorem ringWrite_samplesIn (st : Stream) (c : Chan) (v : Word) (s : State) :
    (ringWrite st c v s).samplesIn = s.samplesIn := rfl

@[simp] theorem ringWrite_samplesOut (st : Stream) (c : Chan) (v : Word) (s : State) :
    (ringWrite st c v s).samplesOut = s.samplesOut := rfl

@[simp] theorem ringWrite_turns (st : Stream) (c : Chan) (v : Word) (s : State) :
    (ringWrite st c v s).turns = s.turns := rfl

@[simp] theorem ringWrite_regOut (st : Stream) (c : Chan) (v : Word) (s : State) :
    (ringWrite st c v s).regOut = s.regOut := rfl

/-! `accWrite` -/

@[simp] theorem accWrite_cfg (st : Stream) (c : Chan) (s : State) :
    (accWrite st c s).cfg = s.cfg := rfl

@[simp] theorem accWrite_params (st : Stream) (c : Chan) (s : State) :
    (accWrite st c s).params = s.params := rfl

@[simp] theorem accWrite_snap (st : Stream) (c : Chan) (s : State) :
    (accWrite st c s).snap = s.snap := rfl

@[simp] theorem accWrite_band1 (st : Stream) (c : Chan) (s : State) :
    (accWrite st c s).band1 = s.band1 := rfl

@[simp] theorem accWrite_band2 (st : Stream) (c : Chan) (s : State) :
    (accWrite st c s).band2 = s.band2 := rfl

@[simp] theorem accWrite_drv (st : Stream) (c : Chan) (s : State) :
    (accWrite st c s).drv = s.drv := rfl

@[simp] theorem accWrite_prepared (st : Stream) (c : Chan) (s : State) :
    (accWrite st c s).prepared = s.prepared := rfl

@[simp] theorem accWrite_sr (st : Stream) (c : Chan) (s : State) :
    (accWrite st c s).sr = s.sr := rfl

@[simp] theorem accWrite_maxBlk (st : Stream) (c : Chan) (s : State) :
    (accWrite st c s).maxBlk = s.maxBlk := rfl

@[simp] theorem accWrite_events (st : Stream) (c : Chan) (s : State) :
    (accWrite st c s).events = s.events := rfl

@[simp] theorem accWrite_olaWr (st : Stream) (c : Chan) (s : State) :
    (accWrite st c s).olaWr = s.olaWr := rfl

@[simp] theorem accWrite_olaRd (st : Stream) (c : Chan) (s : State) :
    (accWrite st c s).olaRd = s.olaRd := rfl

@[simp] theorem accWrite_blkRem (st : Stream) (c : Chan) (s : State) :
    (accWrite st c s).blkRem = s.blkRem := rfl

@[simp] theorem accWrite_blkActive (st : Stream) (c : Chan) (s : State) :
    (accWrite st c s).blkActive = s.blkActive := rfl

@[simp] theorem accWrite_scratch (st : Stream) (c : Chan) (s : State) :
    (accWrite st c s).scratch = s.scratch := rfl

@[simp] theorem accWrite_marks (st : Stream) (c : Chan) (s : State) :
    (accWrite st c s).marks = s.marks := rfl

@[simp] theorem accWrite_cmdIn (st : Stream) (c : Chan) (s : State) :
    (accWrite st c s).cmdIn = s.cmdIn := rfl

@[simp] theorem accWrite_issue (st : Stream) (c : Chan) (s : State) :
    (accWrite st c s).issue = s.issue := rfl

@[simp] theorem accWrite_samplesOut (st : Stream) (c : Chan) (s : State) :
    (accWrite st c s).samplesOut = s.samplesOut := rfl

@[simp] theorem accWrite_turns (st : Stream) (c : Chan) (s : State) :
    (accWrite st c s).turns = s.turns := rfl

@[simp] theorem accWrite_regOut (st : Stream) (c : Chan) (s : State) :
    (accWrite st c s).regOut = s.regOut := rfl

/-! `accReady` -/

@[simp] theorem accReady_cfg (s : State) :
    (accReady s).cfg = s.cfg := rfl

@[simp] theorem accReady_params (s : State) :
    (accReady s).params = s.params := rfl

@[simp] theorem accReady_snap (s : State) :
    (accReady s).snap = s.snap := rfl

@[simp] theorem accReady_band1 (s : State) :
    (accReady s).band1 = s.band1 := rfl

@[simp] theorem accReady_band2 (s : State) :
    (accReady s).band2 = s.band2 := rfl

@[simp] theorem accReady_drv (s : State) :
    (accReady s).drv = s.drv := rfl

@[simp] theorem accReady_prepared (s : State) :
    (accReady s).prepared = s.prepared := rfl

@[simp] theorem accReady_sr (s : State) :
    (accReady s).sr = s.sr := rfl

@[simp] theorem accReady_maxBlk (s : State) :
    (accReady s).maxBlk = s.maxBlk := rfl

@[simp] theorem accReady_events (s : State) :
    (accReady s).events = s.events := rfl

@[simp] theorem accReady_rings (s : State) :
    (accReady s).rings = s.rings := rfl

@[simp] theorem accReady_mem (s : State) :
    (accReady s).mem = s.mem := rfl

@[simp] theorem accReady_olaWr (s : State) :
    (accReady s).olaWr = s.olaWr := rfl

@[simp] theorem accReady_olaRd (s : State) :
    (accReady s).olaRd = s.olaRd := rfl

@[simp] theorem accReady_blkRem (s : State) :
    (accReady s).blkRem = s.blkRem := rfl

@[simp] theorem accReady_blkActive (s : State) :
    (accReady s).blkActive = s.blkActive := rfl

@[simp] theorem accReady_marks (s : State) :
    (accReady s).marks = s.marks := rfl

@[simp] theorem accReady_cmdIn (s : State) :
    (accReady s).cmdIn = s.cmdIn := rfl

@[simp] theorem accReady_issue (s : State) :
    (accReady s).issue = s.issue := rfl

@[simp] theorem accReady_samplesIn (s : State) :
    (accReady s).samplesIn = s.samplesIn := rfl

@[simp] theorem accReady_samplesOut (s : State) :
    (accReady s).samplesOut = s.samplesOut := rfl

@[simp] theorem accReady_turns (s : State) :
    (accReady s).turns = s.turns := rfl

@[simp] theorem accReady_regOut (s : State) :
    (accReady s).regOut = s.regOut := rfl

/-! `accFrame` -/

@[simp] theorem accFrame_cfg (st : Stream) (c : Chan) (s : State) :
    (accFrame st c s).cfg = s.cfg := rfl

@[simp] theorem accFrame_params (st : Stream) (c : Chan) (s : State) :
    (accFrame st c s).params = s.params := rfl

@[simp] theorem accFrame_snap (st : Stream) (c : Chan) (s : State) :
    (accFrame st c s).snap = s.snap := rfl

@[simp] theorem accFrame_band1 (st : Stream) (c : Chan) (s : State) :
    (accFrame st c s).band1 = s.band1 := rfl

@[simp] theorem accFrame_band2 (st : Stream) (c : Chan) (s : State) :
    (accFrame st c s).band2 = s.band2 := rfl

@[simp] theorem accFrame_drv (st : Stream) (c : Chan) (s : State) :
    (accFrame st c s).drv = s.drv := rfl

@[simp] theorem accFrame_prepared (st : Stream) (c : Chan) (s : State) :
    (accFrame st c s).prepared = s.prepared := rfl

@[simp] theorem accFrame_sr (st : Stream) (c : Chan) (s : State) :
    (accFrame st c s).sr = s.sr := rfl

@[simp] theorem accFrame_maxBlk (st : Stream) (c : Chan) (s : State) :
    (accFrame st c s).maxBlk = s.maxBlk := rfl

@[simp] theorem accFrame_events (st : Stream) (c : Chan) (s : State) :
    (accFrame st c s).events = s.events := rfl

@[simp] theorem accFrame_rings (st : Stream) (c : Chan) (s : State) :
    (accFrame st c s).rings = s.rings := rfl

@[simp] theorem accFrame_mem (st : Stream) (c : Chan) (s : State) :
    (accFrame st c s).mem = s.mem := rfl

@[simp] theorem accFrame_olaWr (st : Stream) (c : Chan) (s : State) :
    (accFrame st c s).olaWr = s.olaWr := rfl

@[simp] theorem accFrame_olaRd (st : Stream) (c : Chan) (s : State) :
    (accFrame st c s).olaRd = s.olaRd := rfl

@[simp] theorem accFrame_blkRem (st : Stream) (c : Chan) (s : State) :
    (accFrame st c s).blkRem = s.blkRem := rfl

@[simp] theorem accFrame_blkActive (st : Stream) (c : Chan) (s : State) :
    (accFrame st c s).blkActive = s.blkActive := rfl

@[simp] theorem accFrame_marks (st : Stream) (c : Chan) (s : State) :
    (accFrame st c s).marks = s.marks := rfl

@[simp] theorem accFrame_cmdIn (st : Stream) (c : Chan) (s : State) :
    (accFrame st c s).cmdIn = s.cmdIn := rfl

@[simp] theorem accFrame_issue (st : Stream) (c : Chan) (s : State) :
    (accFrame st c s).issue = s.issue := rfl

@[simp] theorem accFrame_samplesIn (st : Stream) (c : Chan) (s : State) :
    (accFrame st c s).samplesIn = s.samplesIn := rfl

@[simp] theorem accFrame_samplesOut (st : Stream) (c : Chan) (s : State) :
    (accFrame st c s).samplesOut = s.samplesOut := rfl

@[simp] theorem accFrame_turns (st : Stream) (c : Chan) (s : State) :
    (accFrame st c s).turns = s.turns := rfl

@[simp] theorem accFrame_regOut (st : Stream) (c : Chan) (s : State) :
    (accFrame st c s).regOut = s.regOut := rfl

/-! `consumeRing` -/

@[simp] theorem consumeRing_cfg (st : Stream) (c : Chan) (s : State) :
    (consumeRing st c s).cfg = s.cfg := rfl

@[simp] theorem consumeRing_params (st : Stream) (c : Chan) (s : State) :
    (consumeRing st c s).params = s.params := rfl

@[simp] theorem consumeRing_snap (st : Stream) (c : Chan) (s : State) :
    (consumeRing st c s).snap = s.snap := rfl

@[simp] theorem consumeRing_band1 (st : Stream) (c : Chan) (s : State) :
    (consumeRing st c s).band1 = s.band1 := rfl

@[simp] theorem consumeRing_band2 (st : Stream) (c : Chan) (s : State) :
    (consumeRing st c s).band2 = s.band2 := rfl

@[simp] theorem consumeRing_drv (st : Stream) (c : Chan) (s : State) :
    (consumeRing st c s).drv = s.drv := rfl

@[simp] theorem consumeRing_prepared (st : Stream) (c : Chan) (s : State) :
    (consumeRing st c s).prepared = s.prepared := rfl

@[simp] theorem consumeRing_sr (st : Stream) (c : Chan) (s : State) :
    (consumeRing st c s).sr = s.sr := rfl

@[simp] theorem consumeRing_maxBlk (st : Stream) (c : Chan) (s : State) :
    (consumeRing st c s).maxBlk = s.maxBlk := rfl

@[simp] theorem consumeRing_events (st : Stream) (c : Chan) (s : State) :
    (consumeRing st c s).events = s.events := rfl

@[simp] theorem consumeRing_mem (st : Stream) (c : Chan) (s : State) :
    (consumeRing st c s).mem = s.mem := rfl

@[simp] theorem consumeRing_olaWr (st : Stream) (c : Chan) (s : State) :
    (consumeRing st c s).olaWr = s.olaWr := rfl

@[simp] theorem consumeRing_olaRd (st : Stream) (c : Chan) (s : State) :
    (consumeRing st c s).olaRd = s.olaRd := rfl

@[simp] theorem consumeRing_blkRem (st : Stream) (c : Chan) (s : State) :
    (consumeRing st c s).blkRem = s.blkRem := rfl

@[simp] theorem consumeRing_blkActive (st : Stream) (c : Chan) (s : State) :
    (consumeRing st c s).blkActive = s.blkActive := rfl

@[simp] theorem consumeRing_scratch (st : Stream) (c : Chan) (s : State) :
    (consumeRing st c s).scratch = s.scratch := rfl

@[simp] theorem consumeRing_marks (st : Stream) (c : Chan) (s : State) :
    (consumeRing st c s).marks = s.marks := rfl

@[simp] theorem consumeRing_cmdIn (st : Stream) (c : Chan) (s : State) :
    (consumeRing st c s).cmdIn = s.cmdIn := rfl

@[simp] theorem consumeRing_issue (st : Stream) (c : Chan) (s : State) :
    (consumeRing st c s).issue = s.issue := rfl

@[simp] theorem consumeRing_samplesIn (st : Stream) (c : Chan) (s : State) :
    (consumeRing st c s).samplesIn = s.samplesIn := rfl

@[simp] theorem consumeRing_samplesOut (st : Stream) (c : Chan) (s : State) :
    (consumeRing st c s).samplesOut = s.samplesOut := rfl

@[simp] theorem consumeRing_turns (st : Stream) (c : Chan) (s : State) :
    (consumeRing st c s).turns = s.turns := rfl

@[simp] theorem consumeRing_regOut (st : Stream) (c : Chan) (s : State) :
    (consumeRing st c s).regOut = s.regOut := rfl

/-! `accConsume` -/

@[simp] theorem accConsume_cfg (s : State) :
    (accConsume s).cfg = s.cfg := by
  rw [accConsume, forChannels_keeps State.cfg (consumeRing_cfg .side),
    forChannels_keeps State.cfg (consumeRing_cfg .main)]

@[simp] theorem accConsume_params (s : State) :
    (accConsume s).params = s.params := by
  rw [accConsume, forChannels_keeps State.params (consumeRing_params .side),
    forChannels_keeps State.params (consumeRing_params .main)]

@[simp] theorem accConsume_snap (s : State) :
    (accConsume s).snap = s.snap := by
  rw [accConsume, forChannels_keeps State.snap (consumeRing_snap .side),
    forChannels_keeps State.snap (consumeRing_snap .main)]

@[simp] theorem accConsume_band1 (s : State) :
    (accConsume s).band1 = s.band1 := by
  rw [accConsume, forChannels_keeps State.band1 (consumeRing_band1 .side),
    forChannels_keeps State.band1 (consumeRing_band1 .main)]

@[simp] theorem accConsume_band2 (s : State) :
    (accConsume s).band2 = s.band2 := by
  rw [accConsume, forChannels_keeps State.band2 (consumeRing_band2 .side),
    forChannels_keeps State.band2 (consumeRing_band2 .main)]

@[simp] theorem accConsume_drv (s : State) :
    (accConsume s).drv = s.drv := by
  rw [accConsume, forChannels_keeps State.drv (consumeRing_drv .side),
    forChannels_keeps State.drv (consumeRing_drv .main)]

@[simp] theorem accConsume_prepared (s : State) :
    (accConsume s).prepared = s.prepared := by
  rw [accConsume, forChannels_keeps State.prepared (consumeRing_prepared .side),
    forChannels_keeps State.prepared (consumeRing_prepared .main)]

@[simp] theorem accConsume_sr (s : State) :
    (accConsume s).sr = s.sr := by
  rw [accConsume, forChannels_keeps State.sr (consumeRing_sr .side),
    forChannels_keeps State.sr (consumeRing_sr .main)]

@[simp] theorem accConsume_maxBlk (s : State) :
    (accConsume s).maxBlk = s.maxBlk := by
  rw [accConsume, forChannels_keeps State.maxBlk (consumeRing_maxBlk .side),
    forChannels_keeps State.maxBlk (consumeRing_maxBlk .main)]

@[simp] theorem accConsume_events (s : State) :
    (accConsume s).events = s.events := by
  rw [accConsume, forChannels_keeps State.events (consumeRing_events .side),
    forChannels_keeps State.events (consumeRing_events .main)]

@[simp] theorem accConsume_mem (s : State) :
    (accConsume s).mem = s.mem := by
  rw [accConsume, forChannels_keeps State.mem (consumeRing_mem .side),
    forChannels_keeps State.mem (consumeRing_mem .main)]

@[simp] theorem accConsume_olaWr (s : State) :
    (accConsume s).olaWr = s.olaWr := by
  rw [accConsume, forChannels_keeps State.olaWr (consumeRing_olaWr .side),
    forChannels_keeps State.olaWr (consumeRing_olaWr .main)]

@[simp] theorem accConsume_olaRd (s : State) :
    (accConsume s).olaRd = s.olaRd := by
  rw [accConsume, forChannels_keeps State.olaRd (consumeRing_olaRd .side),
    forChannels_keeps State.olaRd (consumeRing_olaRd .main)]

@[simp] theorem accConsume_blkRem (s : State) :
    (accConsume s).blkRem = s.blkRem := by
  rw [accConsume, forChannels_keeps State.blkRem (consumeRing_blkRem .side),
    forChannels_keeps State.blkRem (consumeRing_blkRem .main)]

@[simp] theorem accConsume_blkActive (s : State) :
    (accConsume s).blkActive = s.blkActive := by
  rw [accConsume, forChannels_keeps State.blkActive (consumeRing_blkActive .side),
    forChannels_keeps State.blkActive (consumeRing_blkActive .main)]

@[simp] theorem accConsume_scratch (s : State) :
    (accConsume s).scratch = s.scratch := by
  rw [accConsume, forChannels_keeps State.scratch (consumeRing_scratch .side),
    forChannels_keeps State.scratch (consumeRing_scratch .main)]

@[simp] theorem accConsume_marks (s : State) :
    (accConsume s).marks = s.marks := by
  rw [accConsume, forChannels_keeps State.marks (consumeRing_marks .side),
    forChannels_keeps State.marks (consumeRing_marks .main)]

@[simp] theorem accConsume_cmdIn (s : State) :
    (accConsume s).cmdIn = s.cmdIn := by
  rw [accConsume, forChannels_keeps State.cmdIn (consumeRing_cmdIn .side),
    forChannels_keeps State.cmdIn (consumeRing_cmdIn .main)]

@[simp] theorem accConsume_issue (s : State) :
    (accConsume s).issue = s.issue := by
  rw [accConsume, forChannels_keeps State.issue (consumeRing_issue .side),
    forChannels_keeps State.issue (consumeRing_issue .main)]

@[simp] theorem accConsume_samplesIn (s : State) :
    (accConsume s).samplesIn = s.samplesIn := by
  rw [accConsume, forChannels_keeps State.samplesIn (consumeRing_samplesIn .side),
    forChannels_keeps State.samplesIn (consumeRing_samplesIn .main)]

@[simp] theorem accConsume_samplesOut (s : State) :
    (accConsume s).samplesOut = s.samplesOut := by
  rw [accConsume, forChannels_keeps State.samplesOut (consumeRing_samplesOut .side),
    forChannels_keeps State.samplesOut (consumeRing_samplesOut .main)]

@[simp] theorem accConsume_turns (s : State) :
    (accConsume s).turns = s.turns := by
  rw [accConsume, forChannels_keeps State.turns (consumeRing_turns .side),
    forChannels_keeps State.turns (consumeRing_turns .main)]

@[simp] theorem accConsume_regOut (s : State) :
    (accConsume s).regOut = s.regOut := by
  rw [accConsume, forChannels_keeps State.regOut (consumeRing_regOut .side),
    forChannels_keeps State.regOut (consumeRing_regOut .main)]

/-! `anWindow` -/

@[simp] theorem anWindow_cfg (s : State) :
    (anWindow s).cfg = s.cfg := rfl

@[simp] theorem anWindow_params (s : State) :
    (anWindow s).params = s.params := rfl

@[simp] theorem anWindow_snap (s : State) :
    (anWindow s).snap = s.snap := rfl

@[simp] theorem anWindow_band1 (s : State) :
    (anWindow s).band1 = s.band1 := rfl

@[simp] theorem anWindow_band2 (s : State) :
    (anWindow s).band2 = s.band2 := rfl

@[simp] theorem anWindow_drv (s : State) :
    (anWindow s).drv = s.drv := rfl

@[simp] theorem anWindow_prepared (s : State) :
    (anWindow s).prepared = s.prepared := rfl

@[simp] theorem anWindow_sr (s : State) :
    (anWindow s).sr = s.sr := rfl

@[simp] theorem anWindow_maxBlk (s : State) :
    (anWindow s).maxBlk = s.maxBlk := rfl

@[simp] theorem anWindow_events (s : State) :
    (anWindow s).events = s.events := rfl

@[simp] theorem anWindow_rings (s : State) :
    (anWindow s).rings = s.rings := rfl

@[simp] theorem anWindow_mem (s : State) :
    (anWindow s).mem = s.mem := rfl

@[simp] theorem anWindow_olaWr (s : State) :
    (anWindow s).olaWr = s.olaWr := rfl

@[simp] theorem anWindow_olaRd (s : State) :
    (anWindow s).olaRd = s.olaRd := rfl

@[simp] theorem anWindow_blkRem (s : State) :
    (anWindow s).blkRem = s.blkRem := rfl

@[simp] theorem anWindow_blkActive (s : State) :
    (anWindow s).blkActive = s.blkActive := rfl

@[simp] theorem anWindow_marks (s : State) :
    (anWindow s).marks = s.marks := rfl

@[simp] theorem anWindow_cmdIn (s : State) :
    (anWindow s).cmdIn = s.cmdIn := rfl

@[simp] theorem anWindow_issue (s : State) :
    (anWindow s).issue = s.issue := rfl

@[simp] theorem anWindow_samplesIn (s : State) :
    (anWindow s).samplesIn = s.samplesIn := rfl

@[simp] theorem anWindow_samplesOut (s : State) :
    (anWindow s).samplesOut = s.samplesOut := rfl

@[simp] theorem anWindow_turns (s : State) :
    (anWindow s).turns = s.turns := rfl

@[simp] theorem anWindow_regOut (s : State) :
    (anWindow s).regOut = s.regOut := rfl

/-! `anRfft` -/

@[simp] theorem anRfft_cfg (s : State) :
    (anRfft s).cfg = s.cfg := rfl

@[simp] theorem anRfft_params (s : State) :
    (anRfft s).params = s.params := rfl

@[simp] theorem anRfft_snap (s : State) :
    (anRfft s).snap = s.snap := rfl

@[simp] theorem anRfft_band1 (s : State) :
    (anRfft s).band1 = s.band1 := rfl

@[simp] theorem anRfft_band2 (s : State) :
    (anRfft s).band2 = s.band2 := rfl

@[simp] theorem anRfft_drv (s : State) :
    (anRfft s).drv = s.drv := rfl

@[simp] theorem anRfft_prepared (s : State) :
    (anRfft s).prepared = s.prepared := rfl

@[simp] theorem anRfft_sr (s : State) :
    (anRfft s).sr = s.sr := rfl

@[simp] theorem anRfft_maxBlk (s : State) :
    (anRfft s).maxBlk = s.maxBlk := rfl

@[simp] theorem anRfft_events (s : State) :
    (anRfft s).events = s.events := rfl

@[simp] theorem anRfft_rings (s : State) :
    (anRfft s).rings = s.rings := rfl

@[simp] theorem anRfft_mem (s : State) :
    (anRfft s).mem = s.mem := rfl

@[simp] theorem anRfft_olaWr (s : State) :
    (anRfft s).olaWr = s.olaWr := rfl

@[simp] theorem anRfft_olaRd (s : State) :
    (anRfft s).olaRd = s.olaRd := rfl

@[simp] theorem anRfft_blkRem (s : State) :
    (anRfft s).blkRem = s.blkRem := rfl

@[simp] theorem anRfft_blkActive (s : State) :
    (anRfft s).blkActive = s.blkActive := rfl

@[simp] theorem anRfft_marks (s : State) :
    (anRfft s).marks = s.marks := rfl

@[simp] theorem anRfft_cmdIn (s : State) :
    (anRfft s).cmdIn = s.cmdIn := rfl

@[simp] theorem anRfft_issue (s : State) :
    (anRfft s).issue = s.issue := rfl

@[simp] theorem anRfft_samplesIn (s : State) :
    (anRfft s).samplesIn = s.samplesIn := rfl

@[simp] theorem anRfft_samplesOut (s : State) :
    (anRfft s).samplesOut = s.samplesOut := rfl

@[simp] theorem anRfft_turns (s : State) :
    (anRfft s).turns = s.turns := rfl

@[simp] theorem anRfft_regOut (s : State) :
    (anRfft s).regOut = s.regOut := rfl

/-! `anPolar` -/

@[simp] theorem anPolar_cfg (st : Stream) (c : Chan) (s : State) :
    (anPolar st c s).cfg = s.cfg := rfl

@[simp] theorem anPolar_params (st : Stream) (c : Chan) (s : State) :
    (anPolar st c s).params = s.params := rfl

@[simp] theorem anPolar_snap (st : Stream) (c : Chan) (s : State) :
    (anPolar st c s).snap = s.snap := rfl

@[simp] theorem anPolar_band1 (st : Stream) (c : Chan) (s : State) :
    (anPolar st c s).band1 = s.band1 := rfl

@[simp] theorem anPolar_band2 (st : Stream) (c : Chan) (s : State) :
    (anPolar st c s).band2 = s.band2 := rfl

@[simp] theorem anPolar_drv (st : Stream) (c : Chan) (s : State) :
    (anPolar st c s).drv = s.drv := rfl

@[simp] theorem anPolar_prepared (st : Stream) (c : Chan) (s : State) :
    (anPolar st c s).prepared = s.prepared := rfl

@[simp] theorem anPolar_sr (st : Stream) (c : Chan) (s : State) :
    (anPolar st c s).sr = s.sr := rfl

@[simp] theorem anPolar_maxBlk (st : Stream) (c : Chan) (s : State) :
    (anPolar st c s).maxBlk = s.maxBlk := rfl

@[simp] theorem anPolar_events (st : Stream) (c : Chan) (s : State) :
    (anPolar st c s).events = s.events := rfl

@[simp] theorem anPolar_rings (st : Stream) (c : Chan) (s : State) :
    (anPolar st c s).rings = s.rings := rfl

@[simp] theorem anPolar_olaWr (st : Stream) (c : Chan) (s : State) :
    (anPolar st c s).olaWr = s.olaWr := rfl

@[simp] theorem anPolar_olaRd (st : Stream) (c : Chan) (s : State) :
    (anPolar st c s).olaRd = s.olaRd := rfl

@[simp] theorem anPolar_blkRem (st : Stream) (c : Chan) (s : State) :
    (anPolar st c s).blkRem = s.blkRem := rfl

@[simp] theorem anPolar_blkActive (st : Stream) (c : Chan) (s : State) :
    (anPolar st c s).blkActive = s.blkActive := rfl

@[simp] theorem anPolar_scratch (st : Stream) (c : Chan) (s : State) :
    (anPolar st c s).scratch = s.scratch := rfl

@[simp] theorem anPolar_cmdIn (st : Stream) (c : Chan) (s : State) :
    (anPolar st c s).cmdIn = s.cmdIn := rfl

@[simp] theorem anPolar_issue (st : Stream) (c : Chan) (s : State) :
    (anPolar st c s).issue = s.issue := rfl

@[simp] theorem anPolar_samplesIn (st : Stream) (c : Chan) (s : State) :
    (anPolar st c s).samplesIn = s.samplesIn := rfl

@[simp] theorem anPolar_samplesOut (st : Stream) (c : Chan) (s : State) :
    (anPolar st c s).samplesOut = s.samplesOut := rfl

@[simp] theorem anPolar_turns (st : Stream) (c : Chan) (s : State) :
    (anPolar st c s).turns = s.turns := rfl

@[simp] theorem anPolar_regOut (st : Stream) (c : Chan) (s : State) :
    (anPolar st c s).regOut = s.regOut := rfl

/-! `analyze` -/

@[simp] theorem analyze_cfg (st : Stream) (c : Chan) (s : State) :
    (analyze st c s).cfg = s.cfg := by simp [analyze]

@[simp] theorem analyze_params (st : Stream) (c : Chan) (s : State) :
    (analyze st c s).params = s.params := by simp [analyze]

@[simp] theorem analyze_snap (st : Stream) (c : Chan) (s : State) :
    (analyze st c s).snap = s.snap := by simp [analyze]

@[simp] theorem analyze_band1 (st : Stream) (c : Chan) (s : State) :
    (analyze st c s).band1 = s.band1 := by simp [analyze]

@[simp] theorem analyze_band2 (st : Stream) (c : Chan) (s : State) :
    (analyze st c s).band2 = s.band2 := by simp [analyze]

@[simp] theorem analyze_drv (st : Stream) (c : Chan) (s : State) :
    (analyze st c s).drv = s.drv := by simp [analyze]

@[simp] theorem analyze_prepared (st : Stream) (c : Chan) (s : State) :
    (analyze st c s).prepared = s.prepared := by simp [analyze]

@[simp] theorem analyze_sr (st : Stream) (c : Chan) (s : State) :
    (analyze st c s).sr = s.sr := by simp [analyze]

@[simp] theorem analyze_maxBlk (st : Stream) (c : Chan) (s : State) :
    (analyze st c s).maxBlk = s.maxBlk := by simp [analyze]

@[simp] theorem analyze_events (st : Stream) (c : Chan) (s : State) :
    (analyze st c s).events = s.events := by simp [analyze]

@[simp] theorem analyze_rings (st : Stream) (c : Chan) (s : State) :
    (analyze st c s).rings = s.rings := by simp [analyze]

@[simp] theorem analyze_olaWr (st : Stream) (c : Chan) (s : State) :
    (analyze st c s).olaWr = s.olaWr := by simp [analyze]

@[simp] theorem analyze_olaRd (st : Stream) (c : Chan) (s : State) :
    (analyze st c s).olaRd = s.olaRd := by simp [analyze]

@[simp] theorem analyze_blkRem (st : Stream) (c : Chan) (s : State) :
    (analyze st c s).blkRem = s.blkRem := by simp [analyze]

@[simp] theorem analyze_blkActive (st : Stream) (c : Chan) (s : State) :
    (analyze st c s).blkActive = s.blkActive := by simp [analyze]

@[simp] theorem analyze_cmdIn (st : Stream) (c : Chan) (s : State) :
    (analyze st c s).cmdIn = s.cmdIn := by simp [analyze]

@[simp] theorem analyze_issue (st : Stream) (c : Chan) (s : State) :
    (analyze st c s).issue = s.issue := by simp [analyze]

@[simp] theorem analyze_samplesIn (st : Stream) (c : Chan) (s : State) :
    (analyze st c s).samplesIn = s.samplesIn := by simp [analyze]

@[simp] theorem analyze_samplesOut (st : Stream) (c : Chan) (s : State) :
    (analyze st c s).samplesOut = s.samplesOut := by simp [analyze]

@[simp] theorem analyze_turns (st : Stream) (c : Chan) (s : State) :
    (analyze st c s).turns = s.turns := by simp [analyze]

@[simp] theorem analyze_regOut (st : Stream) (c : Chan) (s : State) :
    (analyze st c s).regOut = s.regOut := by simp [analyze]

/-! `syRect` -/

@[simp] theorem syRect_cfg (c : Chan) (s : State) :
    (syRect c s).cfg = s.cfg := rfl

@[simp] theorem syRect_params (c : Chan) (s : State) :
    (syRect c s).params = s.params := rfl

@[simp] theorem syRect_snap (c : Chan) (s : State) :
    (syRect c s).snap = s.snap := rfl

@[simp] theorem syRect_band1 (c : Chan) (s : State) :
    (syRect c s).band1 = s.band1 := rfl

@[simp] theorem syRect_band2 (c : Chan) (s : State) :
    (syRect c s).band2 = s.band2 := rfl

@[simp] theorem syRect_drv (c : Chan) (s : State) :
    (syRect c s).drv = s.drv := rfl

@[simp] theorem syRect_prepared (c : Chan) (s : State) :
    (syRect c s).prepared = s.prepared := rfl

@[simp] theorem syRect_sr (c : Chan) (s : State) :
    (syRect c s).sr = s.sr := rfl

@[simp] theorem syRect_maxBlk (c : Chan) (s : State) :
    (syRect c s).maxBlk = s.maxBlk := rfl

@[simp] theorem syRect_events (c : Chan) (s : State) :
    (syRect c s).events = s.events := rfl

@[simp] theorem syRect_rings (c : Chan) (s : State) :
    (syRect c s).rings = s.rings := rfl

@[simp] theorem syRect_mem (c : Chan) (s : State) :
    (syRect c s).mem = s.mem := rfl

@[simp] theorem syRect_olaWr (c : Chan) (s : State) :
    (syRect c s).olaWr = s.olaWr := rfl

@[simp] theorem syRect_olaRd (c : Chan) (s : State) :
    (syRect c s).olaRd = s.olaRd := rfl

@[simp] theorem syRect_blkRem (c : Chan) (s : State) :
    (syRect c s).blkRem = s.blkRem := rfl

@[simp] theorem syRect_blkActive (c : Chan) (s : State) :
    (syRect c s).blkActive = s.blkActive := rfl

@[simp] theorem syRect_marks (c : Chan) (s : State) :
    (syRect c s).marks = s.marks := rfl

@[simp] theorem syRect_cmdIn (c : Chan) (s : State) :
    (syRect c s).cmdIn = s.cmdIn := rfl

@[simp] theorem syRect_issue (c : Chan) (s : State) :
    (syRect c s).issue = s.issue := rfl

@[simp] theorem syRect_samplesIn (c : Chan) (s : State) :
    (syRect c s).samplesIn = s.samplesIn := rfl

@[simp] theorem syRect_samplesOut (c : Chan) (s : State) :
    (syRect c s).samplesOut = s.samplesOut := rfl

@[simp] theorem syRect_turns (c : Chan) (s : State) :
    (syRect c s).turns = s.turns := rfl

@[simp] theorem syRect_regOut (c : Chan) (s : State) :
    (syRect c s).regOut = s.regOut := rfl

/-! `sySymm` -/

@[simp] theorem sySymm_cfg (s : State) :
    (sySymm s).cfg = s.cfg := rfl

@[simp] theorem sySymm_params (s : State) :
    (sySymm s).params = s.params := rfl

@[simp] theorem sySymm_snap (s : State) :
    (sySymm s).snap = s.snap := rfl

@[simp] theorem sySymm_band1 (s : State) :
    (sySymm s).band1 = s.band1 := rfl

@[simp] theorem sySymm_band2 (s : State) :
    (sySymm s).band2 = s.band2 := rfl

@[simp] theorem sySymm_drv (s : State) :
    (sySymm s).drv = s.drv := rfl

@[simp] theorem sySymm_prepared (s : State) :
    (sySymm s).prepared = s.prepared := rfl

@[simp] theorem sySymm_sr (s : State) :
    (sySymm s).sr = s.sr := rfl

@[simp] theorem sySymm_maxBlk (s : State) :
    (sySymm s).maxBlk = s.maxBlk := rfl

@[simp] theorem sySymm_events (s : State) :
    (sySymm s).events = s.events := rfl

@[simp] theorem sySymm_rings (s : State) :
    (sySymm s).rings = s.rings := rfl

@[simp] theorem sySymm_mem (s : State) :
    (sySymm s).mem = s.mem := rfl

@[simp] theorem sySymm_olaWr (s : State) :
    (sySymm s).olaWr = s.olaWr := rfl

@[simp] theorem sySymm_olaRd (s : State) :
    (sySymm s).olaRd = s.olaRd := rfl

@[simp] theorem sySymm_blkRem (s : State) :
    (sySymm s).blkRem = s.blkRem := rfl

@[simp] theorem sySymm_blkActive (s : State) :
    (sySymm s).blkActive = s.blkActive := rfl

@[simp] theorem sySymm_marks (s : State) :
    (sySymm s).marks = s.marks := rfl

@[simp] theorem sySymm_cmdIn (s : State) :
    (sySymm s).cmdIn = s.cmdIn := rfl

@[simp] theorem sySymm_issue (s : State) :
    (sySymm s).issue = s.issue := rfl

@[simp] theorem sySymm_samplesIn (s : State) :
    (sySymm s).samplesIn = s.samplesIn := rfl

@[simp] theorem sySymm_samplesOut (s : State) :
    (sySymm s).samplesOut = s.samplesOut := rfl

@[simp] theorem sySymm_turns (s : State) :
    (sySymm s).turns = s.turns := rfl

@[simp] theorem sySymm_regOut (s : State) :
    (sySymm s).regOut = s.regOut := rfl

/-! `syIrfft` -/

@[simp] theorem syIrfft_cfg (s : State) :
    (syIrfft s).cfg = s.cfg := rfl

@[simp] theorem syIrfft_params (s : State) :
    (syIrfft s).params = s.params := rfl

@[simp] theorem syIrfft_snap (s : State) :
    (syIrfft s).snap = s.snap := rfl

@[simp] theorem syIrfft_band1 (s : State) :
    (syIrfft s).band1 = s.band1 := rfl

@[simp] theorem syIrfft_band2 (s : State) :
    (syIrfft s).band2 = s.band2 := rfl

@[simp] theorem syIrfft_drv (s : State) :
    (syIrfft s).drv = s.drv := rfl

@[simp] theorem syIrfft_prepared (s : State) :
    (syIrfft s).prepared = s.prepared := rfl

@[simp] theorem syIrfft_sr (s : State) :
    (syIrfft s).sr = s.sr := rfl

@[simp] theorem syIrfft_maxBlk (s : State) :
    (syIrfft s).maxBlk = s.maxBlk := rfl

@[simp] theorem syIrfft_events (s : State) :
    (syIrfft s).events = s.events := rfl

@[simp] theorem syIrfft_rings (s : State) :
    (syIrfft s).rings = s.rings := rfl

@[simp] theorem syIrfft_mem (s : State) :
    (syIrfft s).mem = s.mem := rfl

@[simp] theorem syIrfft_olaWr (s : State) :
    (syIrfft s).olaWr = s.olaWr := rfl

@[simp] theorem syIrfft_olaRd (s : State) :
    (syIrfft s).olaRd = s.olaRd := rfl

@[simp] theorem syIrfft_blkRem (s : State) :
    (syIrfft s).blkRem = s.blkRem := rfl

@[simp] theorem syIrfft_blkActive (s : State) :
    (syIrfft s).blkActive = s.blkActive := rfl

@[simp] theorem syIrfft_marks (s : State) :
    (syIrfft s).marks = s.marks := rfl

@[simp] theorem syIrfft_cmdIn (s : State) :
    (syIrfft s).cmdIn = s.cmdIn := rfl

@[simp] theorem syIrfft_issue (s : State) :
    (syIrfft s).issue = s.issue := rfl

@[simp] theorem syIrfft_samplesIn (s : State) :
    (syIrfft s).samplesIn = s.samplesIn := rfl

@[simp] theorem syIrfft_samplesOut (s : State) :
    (syIrfft s).samplesOut = s.samplesOut := rfl

@[simp] theorem syIrfft_turns (s : State) :
    (syIrfft s).turns = s.turns := rfl

@[simp] theorem syIrfft_regOut (s : State) :
    (syIrfft s).regOut = s.regOut := rfl

/-! `syNormwin` -/

@[simp] theorem syNormwin_cfg (c : Chan) (s : State) :
    (syNormwin c s).cfg = s.cfg := rfl

@[simp] theorem syNormwin_params (c : Chan) (s : State) :
    (syNormwin c s).params = s.params := rfl

@[simp] theorem syNormwin_snap (c : Chan) (s : State) :
    (syNormwin c s).snap = s.snap := rfl

@[simp] theorem syNormwin_band1 (c : Chan) (s : State) :
    (syNormwin c s).band1 = s.band1 := rfl

@[simp] theorem syNormwin_band2 (c : Chan) (s : State) :
    (syNormwin c s).band2 = s.band2 := rfl

@[simp] theorem syNormwin_drv (c : Chan) (s : State) :
    (syNormwin c s).drv = s.drv := rfl

@[simp] theorem syNormwin_prepared (c : Chan) (s : State) :
    (syNormwin c s).prepared = s.prepared := rfl

@[simp] theorem syNormwin_sr (c : Chan) (s : State) :
    (syNormwin c s).sr = s.sr := rfl

@[simp] theorem syNormwin_maxBlk (c : Chan) (s : State) :
    (syNormwin c s).maxBlk = s.maxBlk := rfl

@[simp] theorem syNormwin_events (c : Chan) (s : State) :
    (syNormwin c s).events = s.events := rfl

@[simp] theorem syNormwin_rings (c : Chan) (s : State) :
    (syNormwin c s).rings = s.rings := rfl

@[simp] theorem syNormwin_mem (c : Chan) (s : State) :
    (syNormwin c s).mem = s.mem := rfl

@[simp] theorem syNormwin_olaWr (c : Chan) (s : State) :
    (syNormwin c s).olaWr = s.olaWr := rfl

@[simp] theorem syNormwin_olaRd (c : Chan) (s : State) :
    (syNormwin c s).olaRd = s.olaRd := rfl

@[simp] theorem syNormwin_blkRem (c : Chan) (s : State) :
    (syNormwin c s).blkRem = s.blkRem := rfl

@[simp] theorem syNormwin_blkActive (c : Chan) (s : State) :
    (syNormwin c s).blkActive = s.blkActive := rfl

@[simp] theorem syNormwin_marks (c : Chan) (s : State) :
    (syNormwin c s).marks = s.marks := rfl

@[simp] theorem syNormwin_cmdIn (c : Chan) (s : State) :
    (syNormwin c s).cmdIn = s.cmdIn := rfl

@[simp] theorem syNormwin_issue (c : Chan) (s : State) :
    (syNormwin c s).issue = s.issue := rfl

@[simp] theorem syNormwin_samplesIn (c : Chan) (s : State) :
    (syNormwin c s).samplesIn = s.samplesIn := rfl

@[simp] theorem syNormwin_samplesOut (c : Chan) (s : State) :
    (syNormwin c s).samplesOut = s.samplesOut := rfl

@[simp] theorem syNormwin_turns (c : Chan) (s : State) :
    (syNormwin c s).turns = s.turns := rfl

@[simp] theorem syNormwin_regOut (c : Chan) (s : State) :
    (syNormwin c s).regOut = s.regOut := rfl

/-! `olaAddAt` -/

@[simp] theorem olaAddAt_cfg (c : Chan) (s : State) (k : Nat) :
    (olaAddAt c s k).cfg = s.cfg := by simp only [olaAddAt]; split <;> simp

@[simp] theorem olaAddAt_params (c : Chan) (s : State) (k : Nat) :
    (olaAddAt c s k).params = s.params := by simp only [olaAddAt]; split <;> simp

@[simp] theorem olaAddAt_snap (c : Chan) (s : State) (k : Nat) :
    (olaAddAt c s k).snap = s.snap := by simp only [olaAddAt]; split <;> simp

@[simp] theorem olaAddAt_band1 (c : Chan) (s : State) (k : Nat) :
    (olaAddAt c s k).band1 = s.band1 := by simp only [olaAddAt]; split <;> simp

@[simp] theorem olaAddAt_band2 (c : Chan) (s : State) (k : Nat) :
    (olaAddAt c s k).band2 = s.band2 := by simp only [olaAddAt]; split <;> simp

@[simp] theorem olaAddAt_drv (c : Chan) (s : State) (k : Nat) :
    (olaAddAt c s k).drv = s.drv := by simp only [olaAddAt]; split <;> simp

@[simp] theorem olaAddAt_prepared (c : Chan) (s : State) (k : Nat) :
    (olaAddAt c s k).prepared = s.prepared := by simp only [olaAddAt]; split <;> simp

@[simp] theorem olaAddAt_sr (c : Chan) (s : State) (k : Nat) :
    (olaAddAt c s k).sr = s.sr := by simp only [olaAddAt]; split <;> simp

@[simp] theorem olaAddAt_maxBlk (c : Chan) (s : State) (k : Nat) :
    (olaAddAt c s k).maxBlk = s.maxBlk := by simp only [olaAddAt]; split <;> simp

@[simp] theorem olaAddAt_events (c : Chan) (s : State) (k : Nat) :
    (olaAddAt c s k).events = s.events := by simp only [olaAddAt]; split <;> simp

@[simp] theorem olaAddAt_rings (c : Chan) (s : State) (k : Nat) :
    (olaAddAt c s k).rings = s.rings := by simp only [olaAddAt]; split <;> simp

@[simp] theorem olaAddAt_olaWr (c : Chan) (s : State) (k : Nat) :
    (olaAddAt c s k).olaWr = s.olaWr := by simp only [olaAddAt]; split <;> simp

@[simp] theorem olaAddAt_olaRd (c : Chan) (s : State) (k : Nat) :
    (olaAddAt c s k).olaRd = s.olaRd := by simp only [olaAddAt]; split <;> simp

@[simp] theorem olaAddAt_blkRem (c : Chan) (s : State) (k : Nat) :
    (olaAddAt c s k).blkRem = s.blkRem := by simp only [olaAddAt]; split <;> simp

@[simp] theorem olaAddAt_blkActive (c : Chan) (s : State) (k : Nat) :
    (olaAddAt c s k).blkActive = s.blkActive := by simp only [olaAddAt]; split <;> simp

@[simp] theorem olaAddAt_scratch (c : Chan) (s : State) (k : Nat) :
    (olaAddAt c s k).scratch = s.scratch := by simp only [olaAddAt]; split <;> simp

@[simp] theorem olaAddAt_cmdIn (c : Chan) (s : State) (k : Nat) :
    (olaAddAt c s k).cmdIn = s.cmdIn := by simp only [olaAddAt]; split <;> simp

@[simp] theorem olaAddAt_issue (c : Chan) (s : State) (k : Nat) :
    (olaAddAt c s k).issue = s.issue := by simp only [olaAddAt]; split <;> simp

@[simp] theorem olaAddAt_samplesIn (c : Chan) (s : State) (k : Nat) :
    (olaAddAt c s k).samplesIn = s.samplesIn := by simp only [olaAddAt]; split <;> simp

@[simp] theorem olaAddAt_samplesOut (c : Chan) (s : State) (k : Nat) :
    (olaAddAt c s k).samplesOut = s.samplesOut := by simp only [olaAddAt]; split <;> simp

@[simp] theorem olaAddAt_turns (c : Chan) (s : State) (k : Nat) :
    (olaAddAt c s k).turns = s.turns := by simp only [olaAddAt]; split <;> simp

@[simp] theorem olaAddAt_regOut (c : Chan) (s : State) (k : Nat) :
    (olaAddAt c s k).regOut = s.regOut := by simp only [olaAddAt]; split <;> simp

/-! `syOla` -/

@[simp] theorem syOla_cfg (c : Chan) (s : State) :
    (syOla c s).cfg = s.cfg :=
  syOla_keeps (π := State.cfg) (fun c s k => olaAddAt_cfg c s k) c s

@[simp] theorem syOla_params (c : Chan) (s : State) :
    (syOla c s).params = s.params :=
  syOla_keeps (π := State.params) (fun c s k => olaAddAt_params c s k) c s

@[simp] theorem syOla_snap (c : Chan) (s : State) :
    (syOla c s).snap = s.snap :=
  syOla_keeps (π := State.snap) (fun c s k => olaAddAt_snap c s k) c s

@[simp] theorem syOla_band1 (c : Chan) (s : State) :
    (syOla c s).band1 = s.band1 :=
  syOla_keeps (π := State.band1) (fun c s k => olaAddAt_band1 c s k) c s

@[simp] theorem syOla_band2 (c : Chan) (s : State) :
    (syOla c s).band2 = s.band2 :=
  syOla_keeps (π := State.band2) (fun c s k => olaAddAt_band2 c s k) c s

@[simp] theorem syOla_drv (c : Chan) (s : State) :
    (syOla c s).drv = s.drv :=
  syOla_keeps (π := State.drv) (fun c s k => olaAddAt_drv c s k) c s

@[simp] theorem syOla_prepared (c : Chan) (s : State) :
    (syOla c s).prepared = s.prepared :=
  syOla_keeps (π := State.prepared) (fun c s k => olaAddAt_prepared c s k) c s

@[simp] theorem syOla_sr (c : Chan) (s : State) :
    (syOla c s).sr = s.sr :=
  syOla_keeps (π := State.sr) (fun c s k => olaAddAt_sr c s k) c s

@[simp] theorem syOla_maxBlk (c : Chan) (s : State) :
    (syOla c s).maxBlk = s.maxBlk :=
  syOla_keeps (π := State.maxBlk) (fun c s k => olaAddAt_maxBlk c s k) c s

@[simp] theorem syOla_events (c : Chan) (s : State) :
    (syOla c s).events = s.events :=
  syOla_keeps (π := State.events) (fun c s k => olaAddAt_events c s k) c s

@[simp] theorem syOla_rings (c : Chan) (s : State) :
    (syOla c s).rings = s.rings :=
  syOla_keeps (π := State.rings) (fun c s k => olaAddAt_rings c s k) c s

@[simp] theorem syOla_olaWr (c : Chan) (s : State) :
    (syOla c s).olaWr = s.olaWr :=
  syOla_keeps (π := State.olaWr) (fun c s k => olaAddAt_olaWr c s k) c s

@[simp] theorem syOla_olaRd (c : Chan) (s : State) :
    (syOla c s).olaRd = s.olaRd :=
  syOla_keeps (π := State.olaRd) (fun c s k => olaAddAt_olaRd c s k) c s

@[simp] theorem syOla_blkRem (c : Chan) (s : State) :
    (syOla c s).blkRem = s.blkRem :=
  syOla_keeps (π := State.blkRem) (fun c s k => olaAddAt_blkRem c s k) c s

@[simp] theorem syOla_blkActive (c : Chan) (s : State) :
    (syOla c s).blkActive = s.blkActive :=
  syOla_keeps (π := State.blkActive) (fun c s k => olaAddAt_blkActive c s k) c s

@[simp] theorem syOla_scratch (c : Chan) (s : State) :
    (syOla c s).scratch = s.scratch :=
  syOla_keeps (π := State.scratch) (fun c s k => olaAddAt_scratch c s k) c s

@[simp] theorem syOla_cmdIn (c : Chan) (s : State) :
    (syOla c s).cmdIn = s.cmdIn :=
  syOla_keeps (π := State.cmdIn) (fun c s k => olaAddAt_cmdIn c s k) c s

@[simp] theorem syOla_issue (c : Chan) (s : State) :
    (syOla c s).issue = s.issue :=
  syOla_keeps (π := State.issue) (fun c s k => olaAddAt_issue c s k) c s

@[simp] theorem syOla_samplesIn (c : Chan) (s : State) :
    (syOla c s).samplesIn = s.samplesIn :=
  syOla_keeps (π := State.samplesIn) (fun c s k => olaAddAt_samplesIn c s k) c s

@[simp] theorem syOla_samplesOut (c : Chan) (s : State) :
    (syOla c s).samplesOut = s.samplesOut :=
  syOla_keeps (π := State.samplesOut) (fun c s k => olaAddAt_samplesOut c s k) c s

@[simp] theorem syOla_turns (c : Chan) (s : State) :
    (syOla c s).turns = s.turns :=
  syOla_keeps (π := State.turns) (fun c s k => olaAddAt_turns c s k) c s

@[simp] theorem syOla_regOut (c : Chan) (s : State) :
    (syOla c s).regOut = s.regOut :=
  syOla_keeps (π := State.regOut) (fun c s k => olaAddAt_regOut c s k) c s

/-! `synthesize` -/

@[simp] theorem synthesize_cfg (c : Chan) (s : State) :
    (synthesize c s).cfg = s.cfg := by simp [synthesize]

@[simp] theorem synthesize_params (c : Chan) (s : State) :
    (synthesize c s).params = s.params := by simp [synthesize]

@[simp] theorem synthesize_snap (c : Chan) (s : State) :
    (synthesize c s).snap = s.snap := by simp [synthesize]

@[simp] theorem synthesize_band1 (c : Chan) (s : State) :
    (synthesize c s).band1 = s.band1 := by simp [synthesize]

@[simp] theorem synthesize_band2 (c : Chan) (s : State) :
    (synthesize c s).band2 = s.band2 := by simp [synthesize]

@[simp] theorem synthesize_drv (c : Chan) (s : State) :
    (synthesize c s).drv = s.drv := by simp [synthesize]

@[simp] theorem synthesize_prepared (c : Chan) (s : State) :
    (synthesize c s).prepared = s.prepared := by simp [synthesize]

@[simp] theorem synthesize_sr (c : Chan) (s : State) :
    (synthesize c s).sr = s.sr := by simp [synthesize]

@[simp] theorem synthesize_maxBlk (c : Chan) (s : State) :
    (synthesize c s).maxBlk = s.maxBlk := by simp [synthesize]

@[simp] theorem synthesize_events (c : Chan) (s : State) :
    (synthesize c s).events = s.events := by simp [synthesize]

@[simp] theorem synthesize_rings (c : Chan) (s : State) :
    (synthesize c s).rings = s.rings := by simp [synthesize]

@[simp] theorem synthesize_olaWr (c : Chan) (s : State) :
    (synthesize c s).olaWr = s.olaWr := by simp [synthesize]

@[simp] theorem synthesize_olaRd (c : Chan) (s : State) :
    (synthesize c s).olaRd = s.olaRd := by simp [synthesize]

@[simp] theorem synthesize_blkRem (c : Chan) (s : State) :
    (synthesize c s).blkRem = s.blkRem := by simp [synthesize]

@[simp] theorem synthesize_blkActive (c : Chan) (s : State) :
    (synthesize c s).blkActive = s.blkActive := by simp [synthesize]

@[simp] theorem synthesize_cmdIn (c : Chan) (s : State) :
    (synthesize c s).cmdIn = s.cmdIn := by simp [synthesize]

@[simp] theorem synthesize_issue (c : Chan) (s : State) :
    (synthesize c s).issue = s.issue := by simp [synthesize]

@[simp] theorem synthesize_samplesIn (c : Chan) (s : State) :
    (synthesize c s).samplesIn = s.samplesIn := by simp [synthesize]

@[simp] theorem synthesize_samplesOut (c : Chan) (s : State) :
    (synthesize c s).samplesOut = s.samplesOut := by simp [synthesize]

@[simp] theorem synthesize_turns (c : Chan) (s : State) :
    (synthesize c s).turns = s.turns := by simp [synthesize]

@[simp] theorem synthesize_regOut (c : Chan) (s : State) :
    (synthesize c s).regOut = s.regOut := by simp [synthesize]

/-! `syAdv` -/

@[simp] theorem syAdv_cfg (s : State) :
    (syAdv s).cfg = s.cfg := rfl

@[simp] theorem syAdv_params (s : State) :
    (syAdv s).params = s.params := rfl

@[simp] theorem syAdv_snap (s : State) :
    (syAdv s).snap = s.snap := rfl

@[simp] theorem syAdv_band1 (s : State) :
    (syAdv s).band1 = s.band1 := rfl

@[simp] theorem syAdv_band2 (s : State) :
    (syAdv s).band2 = s.band2 := rfl

@[simp] theorem syAdv_drv (s : State) :
    (syAdv s).drv = s.drv := rfl

@[simp] theorem syAdv_prepared (s : State) :
    (syAdv s).prepared = s.prepared := rfl

@[simp] theorem syAdv_sr (s : State) :
    (syAdv s).sr = s.sr := rfl

@[simp] theorem syAdv_maxBlk (s : State) :
    (syAdv s).maxBlk = s.maxBlk := rfl

@[simp] theorem syAdv_events (s : State) :
    (syAdv s).events = s.events := rfl

@[simp] theorem syAdv_rings (s : State) :
    (syAdv s).rings = s.rings := rfl

@[simp] theorem syAdv_mem (s : State) :
    (syAdv s).mem = s.mem := rfl

@[simp] theorem syAdv_olaRd (s : State) :
    (syAdv s).olaRd = s.olaRd := rfl

@[simp] theorem syAdv_blkRem (s : State) :
    (syAdv s).blkRem = s.blkRem := rfl

@[simp] theorem syAdv_blkActive (s : State) :
    (syAdv s).blkActive = s.blkActive := rfl

@[simp] theorem syAdv_scratch (s : State) :
    (syAdv s).scratch = s.scratch := rfl

@[simp] theorem syAdv_marks (s : State) :
    (syAdv s).marks = s.marks := rfl

@[simp] theorem syAdv_cmdIn (s : State) :
    (syAdv s).cmdIn = s.cmdIn := rfl

@[simp] theorem syAdv_issue (s : State) :
    (syAdv s).issue = s.issue := rfl

@[simp] theorem syAdv_samplesIn (s : State) :
    (syAdv s).samplesIn = s.samplesIn := rfl

@[simp] theorem syAdv_samplesOut (s : State) :
    (syAdv s).samplesOut = s.samplesOut := rfl

@[simp] theorem syAdv_turns (s : State) :
    (syAdv s).turns = s.turns := rfl

@[simp] theorem syAdv_regOut (s : State) :
    (syAdv s).regOut = s.regOut := rfl

/-! `emitChannel` -/

@[simp] theorem emitChannel_cfg (c : Chan) (s : State) :
    (emitChannel c s).cfg = s.cfg := rfl

@[simp] theorem emitChannel_params (c : Chan) (s : State) :
    (emitChannel c s).params = s.params := rfl

@[simp] theorem emitChannel_snap (c : Chan) (s : State) :
    (emitChannel c s).snap = s.snap := rfl

@[simp] theorem emitChannel_band1 (c : Chan) (s : State) :
    (emitChannel c s).band1 = s.band1 := rfl

@[simp] theorem emitChannel_band2 (c : Chan) (s : State) :
    (emitChannel c s).band2 = s.band2 := rfl

@[simp] theorem emitChannel_drv (c : Chan) (s : State) :
    (emitChannel c s).drv = s.drv := rfl

@[simp] theorem emitChannel_prepared (c : Chan) (s : State) :
    (emitChannel c s).prepared = s.prepared := rfl

@[simp] theorem emitChannel_sr (c : Chan) (s : State) :
    (emitChannel c s).sr = s.sr := rfl

@[simp] theorem emitChannel_maxBlk (c : Chan) (s : State) :
    (emitChannel c s).maxBlk = s.maxBlk := rfl

@[simp] theorem emitChannel_events (c : Chan) (s : State) :
    (emitChannel c s).events = s.events := rfl

@[simp] theorem emitChannel_rings (c : Chan) (s : State) :
    (emitChannel c s).rings = s.rings := rfl

@[simp] theorem emitChannel_olaWr (c : Chan) (s : State) :
    (emitChannel c s).olaWr = s.olaWr := rfl

@[simp] theorem emitChannel_olaRd (c : Chan) (s : State) :
    (emitChannel c s).olaRd = s.olaRd := rfl

@[simp] theorem emitChannel_blkRem (c : Chan) (s : State) :
    (emitChannel c s).blkRem = s.blkRem := rfl

@[simp] theorem emitChannel_blkActive (c : Chan) (s : State) :
    (emitChannel c s).blkActive = s.blkActive := rfl

@[simp] theorem emitChannel_scratch (c : Chan) (s : State) :
    (emitChannel c s).scratch = s.scratch := rfl

@[simp] theorem emitChannel_cmdIn (c : Chan) (s : State) :
    (emitChannel c s).cmdIn = s.cmdIn := rfl

@[simp] theorem emitChannel_issue (c : Chan) (s : State) :
    (emitChannel c s).issue = s.issue := rfl

@[simp] theorem emitChannel_samplesIn (c : Chan) (s : State) :
    (emitChannel c s).samplesIn = s.samplesIn := rfl

@[simp] theorem emitChannel_turns (c : Chan) (s : State) :
    (emitChannel c s).turns = s.turns := rfl

@[simp] theorem emitChannel_regOut (c : Chan) (s : State) :
    (emitChannel c s).regOut = s.regOut := rfl

/-! `emit` -/

@[simp] theorem emit_cfg (s : State) :
    (emit s).cfg = s.cfg :=
  forChannels_keeps State.cfg emitChannel_cfg s

@[simp] theorem emit_params (s : State) :
    (emit s).params = s.params :=
  forChannels_keeps State.params emitChannel_params s

@[simp] theorem emit_snap (s : State) :
    (emit s).snap = s.snap :=
  forChannels_keeps State.snap emitChannel_snap s

@[simp] theorem emit_band1 (s : State) :
    (emit s).band1 = s.band1 :=
  forChannels_keeps State.band1 emitChannel_band1 s

@[simp] theorem emit_band2 (s : State) :
    (emit s).band2 = s.band2 :=
  forChannels_keeps State.band2 emitChannel_band2 s

@[simp] theorem emit_drv (s : State) :
    (emit s).drv = s.drv :=
  forChannels_keeps State.drv emitChannel_drv s

@[simp] theorem emit_prepared (s : State) :
    (emit s).prepared = s.prepared :=
  forChannels_keeps State.prepared emitChannel_prepared s

@[simp] theorem emit_sr (s : State) :
    (emit s).sr = s.sr :=
  forChannels_keeps State.sr emitChannel_sr s

@[simp] theorem emit_maxBlk (s : State) :
    (emit s).maxBlk = s.maxBlk :=
  forChannels_keeps State.maxBlk emitChannel_maxBlk s

@[simp] theorem emit_events (s : State) :
    (emit s).events = s.events :=
  forChannels_keeps State.events emitChannel_events s

@[simp] theorem emit_rings (s : State) :
    (emit s).rings = s.rings :=
  forChannels_keeps State.rings emitChannel_rings s

@[simp] theorem emit_olaWr (s : State) :
    (emit s).olaWr = s.olaWr :=
  forChannels_keeps State.olaWr emitChannel_olaWr s

@[simp] theorem emit_blkRem (s : State) :
    (emit s).blkRem = s.blkRem :=
  forChannels_keeps State.blkRem emitChannel_blkRem s

@[simp] theorem emit_blkActive (s : State) :
    (emit s).blkActive = s.blkActive :=
  forChannels_keeps State.blkActive emitChannel_blkActive s

@[simp] theorem emit_scratch (s : State) :
    (emit s).scratch = s.scratch :=
  forChannels_keeps State.scratch emitChannel_scratch s

@[simp] theorem emit_cmdIn (s : State) :
    (emit s).cmdIn = s.cmdIn :=
  forChannels_keeps State.cmdIn emitChannel_cmdIn s

@[simp] theorem emit_issue (s : State) :
    (emit s).issue = s.issue :=
  forChannels_keeps State.issue emitChannel_issue s

@[simp] theorem emit_samplesIn (s : State) :
    (emit s).samplesIn = s.samplesIn :=
  forChannels_keeps State.samplesIn emitChannel_samplesIn s

@[simp] theorem emit_turns (s : State) :
    (emit s).turns = s.turns :=
  forChannels_keeps State.turns emitChannel_turns s

@[simp] theorem emit_regOut (s : State) :
    (emit s).regOut = s.regOut :=
  forChannels_keeps State.regOut emitChannel_regOut s

/-! `bypassChannel` -/

@[simp] theorem bypassChannel_cfg (c : Chan) (s : State) :
    (bypassChannel c s).cfg = s.cfg := rfl

@[simp] theorem bypassChannel_params (c : Chan) (s : State) :
    (bypassChannel c s).params = s.params := rfl

@[simp] theorem bypassChannel_snap (c : Chan) (s : State) :
    (bypassChannel c s).snap = s.snap := rfl

@[simp] theorem bypassChannel_band1 (c : Chan) (s : State) :
    (bypassChannel c s).band1 = s.band1 := rfl

@[simp] theorem bypassChannel_band2 (c : Chan) (s : State) :
    (bypassChannel c s).band2 = s.band2 := rfl

@[simp] theorem bypassChannel_drv (c : Chan) (s : State) :
    (bypassChannel c s).drv = s.drv := rfl

@[simp] theorem bypassChannel_prepared (c : Chan) (s : State) :
    (bypassChannel c s).prepared = s.prepared := rfl

@[simp] theorem bypassChannel_sr (c : Chan) (s : State) :
    (bypassChannel c s).sr = s.sr := rfl

@[simp] theorem bypassChannel_maxBlk (c : Chan) (s : State) :
    (bypassChannel c s).maxBlk = s.maxBlk := rfl

@[simp] theorem bypassChannel_events (c : Chan) (s : State) :
    (bypassChannel c s).events = s.events := rfl

@[simp] theorem bypassChannel_rings (c : Chan) (s : State) :
    (bypassChannel c s).rings = s.rings := rfl

@[simp] theorem bypassChannel_mem (c : Chan) (s : State) :
    (bypassChannel c s).mem = s.mem := rfl

@[simp] theorem bypassChannel_olaWr (c : Chan) (s : State) :
    (bypassChannel c s).olaWr = s.olaWr := rfl

@[simp] theorem bypassChannel_olaRd (c : Chan) (s : State) :
    (bypassChannel c s).olaRd = s.olaRd := rfl

@[simp] theorem bypassChannel_blkRem (c : Chan) (s : State) :
    (bypassChannel c s).blkRem = s.blkRem := rfl

@[simp] theorem bypassChannel_blkActive (c : Chan) (s : State) :
    (bypassChannel c s).blkActive = s.blkActive := rfl

@[simp] theorem bypassChannel_scratch (c : Chan) (s : State) :
    (bypassChannel c s).scratch = s.scratch := rfl

@[simp] theorem bypassChannel_marks (c : Chan) (s : State) :
    (bypassChannel c s).marks = s.marks := rfl

@[simp] theorem bypassChannel_cmdIn (c : Chan) (s : State) :
    (bypassChannel c s).cmdIn = s.cmdIn := rfl

@[simp] theorem bypassChannel_issue (c : Chan) (s : State) :
    (bypassChannel c s).issue = s.issue := rfl

@[simp] theorem bypassChannel_turns (c : Chan) (s : State) :
    (bypassChannel c s).turns = s.turns := rfl

@[simp] theorem bypassChannel_regOut (c : Chan) (s : State) :
    (bypassChannel c s).regOut = s.regOut := rfl

/-! `bypass` -/

@[simp] theorem bypass_cfg (s : State) :
    (bypass s).cfg = s.cfg :=
  forChannels_keeps State.cfg bypassChannel_cfg s

@[simp] theorem bypass_params (s : State) :
    (bypass s).params = s.params :=
  forChannels_keeps State.params bypassChannel_params s

@[simp] theorem bypass_snap (s : State) :
    (bypass s).snap = s.snap :=
  forChannels_keeps State.snap bypassChannel_snap s

@[simp] theorem bypass_band1 (s : State) :
    (bypass s).band1 = s.band1 :=
  forChannels_keeps State.band1 bypassChannel_band1 s

@[simp] theorem bypass_band2 (s : State) :
    (bypass s).band2 = s.band2 :=
  forChannels_keeps State.band2 bypassChannel_band2 s

@[simp] theorem bypass_drv (s : State) :
    (bypass s).drv = s.drv :=
  forChannels_keeps State.drv bypassChannel_drv s

@[simp] theorem bypass_prepared (s : State) :
    (bypass s).prepared = s.prepared :=
  forChannels_keeps State.prepared bypassChannel_prepared s

@[simp] theorem bypass_sr (s : State) :
    (bypass s).sr = s.sr :=
  forChannels_keeps State.sr bypassChannel_sr s

@[simp] theorem bypass_maxBlk (s : State) :
    (bypass s).maxBlk = s.maxBlk :=
  forChannels_keeps State.maxBlk bypassChannel_maxBlk s

@[simp] theorem bypass_events (s : State) :
    (bypass s).events = s.events :=
  forChannels_keeps State.events bypassChannel_events s

@[simp] theorem bypass_rings (s : State) :
    (bypass s).rings = s.rings :=
  forChannels_keeps State.rings bypassChannel_rings s

@[simp] theorem bypass_mem (s : State) :
    (bypass s).mem = s.mem :=
  forChannels_keeps State.mem bypassChannel_mem s

@[simp] theorem bypass_olaWr (s : State) :
    (bypass s).olaWr = s.olaWr :=
  forChannels_keeps State.olaWr bypassChannel_olaWr s

@[simp] theorem bypass_olaRd (s : State) :
    (bypass s).olaRd = s.olaRd :=
  forChannels_keeps State.olaRd bypassChannel_olaRd s

@[simp] theorem bypass_blkRem (s : State) :
    (bypass s).blkRem = s.blkRem :=
  forChannels_keeps State.blkRem bypassChannel_blkRem s

@[simp] theorem bypass_blkActive (s : State) :
    (bypass s).blkActive = s.blkActive :=
  forChannels_keeps State.blkActive bypassChannel_blkActive s

@[simp] theorem bypass_scratch (s : State) :
    (bypass s).scratch = s.scratch :=
  forChannels_keeps State.scratch bypassChannel_scratch s

@[simp] theorem bypass_marks (s : State) :
    (bypass s).marks = s.marks :=
  forChannels_keeps State.marks bypassChannel_marks s

@[simp] theorem bypass_cmdIn (s : State) :
    (bypass s).cmdIn = s.cmdIn :=
  forChannels_keeps State.cmdIn bypassChannel_cmdIn s

@[simp] theorem bypass_issue (s : State) :
    (bypass s).issue = s.issue :=
  forChannels_keeps State.issue bypassChannel_issue s

@[simp] theorem bypass_turns (s : State) :
    (bypass s).turns = s.turns :=
  forChannels_keeps State.turns bypassChannel_turns s

@[simp] theorem bypass_regOut (s : State) :
    (bypass s).regOut = s.regOut :=
  forChannels_keeps State.regOut bypassChannel_regOut s

/-! `cycleChannel` -/

@[simp] theorem cycleChannel_cfg (c : Chan) (s : State) :
    (cycleChannel c s).cfg = s.cfg := by simp [cycleChannel]

@[simp] theorem cycleChannel_params (c : Chan) (s : State) :
    (cycleChannel c s).params = s.params := by simp [cycleChannel]

@[simp] theorem cycleChannel_snap (c : Chan) (s : State) :
    (cycleChannel c s).snap = s.snap := by simp [cycleChannel]

@[simp] theorem cycleChannel_band1 (c : Chan) (s : State) :
    (cycleChannel c s).band1 = s.band1 := by simp [cycleChannel]

@[simp] theorem cycleChannel_band2 (c : Chan) (s : State) :
    (cycleChannel c s).band2 = s.band2 := by simp [cycleChannel]

@[simp] theorem cycleChannel_drv (c : Chan) (s : State) :
    (cycleChannel c s).drv = s.drv := by simp [cycleChannel]

@[simp] theorem cycleChannel_prepared (c : Chan) (s : State) :
    (cycleChannel c s).prepared = s.prepared := by simp [cycleChannel]

@[simp] theorem cycleChannel_sr (c : Chan) (s : State) :
    (cycleChannel c s).sr = s.sr := by simp [cycleChannel]

@[simp] theorem cycleChannel_maxBlk (c : Chan) (s : State) :
    (cycleChannel c s).maxBlk = s.maxBlk := by simp [cycleChannel]

@[simp] theorem cycleChannel_events (c : Chan) (s : State) :
    (cycleChannel c s).events = s.events := by simp [cycleChannel]

@[simp] theorem cycleChannel_rings (c : Chan) (s : State) :
    (cycleChannel c s).rings = s.rings := by simp [cycleChannel]

@[simp] theorem cycleChannel_olaWr (c : Chan) (s : State) :
    (cycleChannel c s).olaWr = s.olaWr := by simp [cycleChannel]

@[simp] theorem cycleChannel_olaRd (c : Chan) (s : State) :
    (cycleChannel c s).olaRd = s.olaRd := by simp [cycleChannel]

@[simp] theorem cycleChannel_blkRem (c : Chan) (s : State) :
    (cycleChannel c s).blkRem = s.blkRem := by simp [cycleChannel]

@[simp] theorem cycleChannel_blkActive (c : Chan) (s : State) :
    (cycleChannel c s).blkActive = s.blkActive := by simp [cycleChannel]

@[simp] theorem cycleChannel_cmdIn (c : Chan) (s : State) :
    (cycleChannel c s).cmdIn = s.cmdIn := by simp [cycleChannel]

@[simp] theorem cycleChannel_issue (c : Chan) (s : State) :
    (cycleChannel c s).issue = s.issue := by simp [cycleChannel]

@[simp] theorem cycleChannel_samplesIn (c : Chan) (s : State) :
    (cycleChannel c s).samplesIn = s.samplesIn := by simp [cycleChannel]

@[simp] theorem cycleChannel_samplesOut (c : Chan) (s : State) :
    (cycleChannel c s).samplesOut = s.samplesOut := by simp [cycleChannel]

@[simp] theorem cycleChannel_turns (c : Chan) (s : State) :
    (cycleChannel c s).turns = s.turns := by simp [cycleChannel]

@[simp] theorem cycleChannel_regOut (c : Chan) (s : State) :
    (cycleChannel c s).regOut = s.regOut := by simp [cycleChannel]

/-! `cycle` -/

@[simp] theorem cycle_cfg (s : State) :
    (cycle s).cfg = s.cfg := by
  simp [cycle, forChannels_keeps State.cfg cycleChannel_cfg]

@[simp] theorem cycle_params (s : State) :
    (cycle s).params = s.params := by
  simp [cycle, forChannels_keeps State.params cycleChannel_params]

@[simp] theorem cycle_prepared (s : State) :
    (cycle s).prepared = s.prepared := by
  simp [cycle, forChannels_keeps State.prepared cycleChannel_prepared]

@[simp] theorem cycle_sr (s : State) :
    (cycle s).sr = s.sr := by
  simp [cycle, forChannels_keeps State.sr cycleChannel_sr]

@[simp] theorem cycle_maxBlk (s : State) :
    (cycle s).maxBlk = s.maxBlk := by
  simp [cycle, forChannels_keeps State.maxBlk cycleChannel_maxBlk]

@[simp] theorem cycle_olaRd (s : State) :
    (cycle s).olaRd = s.olaRd := by
  simp [cycle, forChannels_keeps State.olaRd cycleChannel_olaRd]

@[simp] theorem cycle_blkRem (s : State) :
    (cycle s).blkRem = s.blkRem := by
  simp [cycle, forChannels_keeps State.blkRem cycleChannel_blkRem]

@[simp] theorem cycle_blkActive (s : State) :
    (cycle s).blkActive = s.blkActive := by
  simp [cycle, forChannels_keeps State.blkActive cycleChannel_blkActive]

@[simp] theorem cycle_cmdIn (s : State) :
    (cycle s).cmdIn = s.cmdIn := by
  simp [cycle, forChannels_keeps State.cmdIn cycleChannel_cmdIn]

@[simp] theorem cycle_issue (s : State) :
    (cycle s).issue = s.issue := by
  simp [cycle, forChannels_keeps State.issue cycleChannel_issue]

@[simp] theorem cycle_samplesIn (s : State) :
    (cycle s).samplesIn = s.samplesIn := by
  simp [cycle, forChannels_keeps State.samplesIn cycleChannel_samplesIn]

@[simp] theorem cycle_samplesOut (s : State) :
    (cycle s).samplesOut = s.samplesOut := by
  simp [cycle, forChannels_keeps State.samplesOut cycleChannel_samplesOut]

@[simp] theorem cycle_turns (s : State) :
    (cycle s).turns = s.turns := by
  simp [cycle, forChannels_keeps State.turns cycleChannel_turns]

@[simp] theorem cycle_regOut (s : State) :
    (cycle s).regOut = s.regOut := by
  simp [cycle, forChannels_keeps State.regOut cycleChannel_regOut]

/-! `leaveIdle` -/

@[simp] theorem leaveIdle_cfg (s : State) :
    (leaveIdle s).cfg = s.cfg := rfl

@[simp] theorem leaveIdle_params (s : State) :
    (leaveIdle s).params = s.params := rfl

@[simp] theorem leaveIdle_snap (s : State) :
    (leaveIdle s).snap = s.snap := rfl

@[simp] theorem leaveIdle_band1 (s : State) :
    (leaveIdle s).band1 = s.band1 := rfl

@[simp] theorem leaveIdle_band2 (s : State) :
    (leaveIdle s).band2 = s.band2 := rfl

@[simp] theorem leaveIdle_prepared (s : State) :
    (leaveIdle s).prepared = s.prepared := rfl

@[simp] theorem leaveIdle_sr (s : State) :
    (leaveIdle s).sr = s.sr := rfl

@[simp] theorem leaveIdle_maxBlk (s : State) :
    (leaveIdle s).maxBlk = s.maxBlk := rfl

@[simp] theorem leaveIdle_events (s : State) :
    (leaveIdle s).events = s.events := rfl

@[simp] theorem leaveIdle_rings (s : State) :
    (leaveIdle s).rings = s.rings := rfl

@[simp] theorem leaveIdle_mem (s : State) :
    (leaveIdle s).mem = s.mem := rfl

@[simp] theorem leaveIdle_olaWr (s : State) :
    (leaveIdle s).olaWr = s.olaWr := rfl

@[simp] theorem leaveIdle_olaRd (s : State) :
    (leaveIdle s).olaRd = s.olaRd := rfl

@[simp] theorem leaveIdle_blkRem (s : State) :
    (leaveIdle s).blkRem = s.blkRem := rfl

@[simp] theorem leaveIdle_blkActive (s : State) :
    (leaveIdle s).blkActive = s.blkActive := rfl

@[simp] theorem leaveIdle_scratch (s : State) :
    (leaveIdle s).scratch = s.scratch := rfl

@[simp] theorem leaveIdle_marks (s : State) :
    (leaveIdle s).marks = s.marks := rfl

@[simp] theorem leaveIdle_cmdIn (s : State) :
    (leaveIdle s).cmdIn = s.cmdIn := rfl

@[simp] theorem leaveIdle_issue (s : State) :
    (leaveIdle s).issue = s.issue := rfl

@[simp] theorem leaveIdle_samplesIn (s : State) :
    (leaveIdle s).samplesIn = s.samplesIn := rfl

@[simp] theorem leaveIdle_samplesOut (s : State) :
    (leaveIdle s).samplesOut = s.samplesOut := rfl

@[simp] theorem leaveIdle_turns (s : State) :
    (leaveIdle s).turns = s.turns := rfl

@[simp] theorem leaveIdle_regOut (s : State) :
    (leaveIdle s).regOut = s.regOut := rfl

/-! `takeBeat` -/

@[simp] theorem takeBeat_cfg (s : State) :
    (takeBeat s).cfg = s.cfg := by
  rw [takeBeat, forChannels_keeps State.cfg (accWrite_cfg .side),
    forChannels_keeps State.cfg (accWrite_cfg .main)]

@[simp] theorem takeBeat_params (s : State) :
    (takeBeat s).params = s.params := by
  rw [takeBeat, forChannels_keeps State.params (accWrite_params .side),
    forChannels_keeps State.params (accWrite_params .main)]

@[simp] theorem takeBeat_snap (s : State) :
    (takeBeat s).snap = s.snap := by
  rw [takeBeat, forChannels_keeps State.snap (accWrite_snap .side),
    forChannels_keeps State.snap (accWrite_snap .main)]

@[simp] theorem takeBeat_band1 (s : State) :
    (takeBeat s).band1 = s.band1 := by
  rw [takeBeat, forChannels_keeps State.band1 (accWrite_band1 .side),
    forChannels_keeps State.band1 (accWrite_band1 .main)]

@[simp] theorem takeBeat_band2 (s : State) :
    (takeBeat s).band2 = s.band2 := by
  rw [takeBeat, forChannels_keeps State.band2 (accWrite_band2 .side),
    forChannels_keeps State.band2 (accWrite_band2 .main)]

@[simp] theorem takeBeat_drv (s : State) :
    (takeBeat s).drv = s.drv := by
  rw [takeBeat, forChannels_keeps State.drv (accWrite_drv .side),
    forChannels_keeps State.drv (accWrite_drv .main)]

@[simp] theorem takeBeat_prepared (s : State) :
    (takeBeat s).prepared = s.prepared := by
  rw [takeBeat, forChannels_keeps State.prepared (accWrite_prepared .side),
    forChannels_keeps State.prepared (accWrite_prepared .main)]

@[simp] theorem takeBeat_sr (s : State) :
    (takeBeat s).sr = s.sr := by
  rw [takeBeat, forChannels_keeps State.sr (accWrite_sr .side),
    forChannels_keeps State.sr (accWrite_sr .main)]

@[simp] theorem takeBeat_maxBlk (s : State) :
    (takeBeat s).maxBlk = s.maxBlk := by
  rw [takeBeat, forChannels_keeps State.maxBlk (accWrite_maxBlk .side),
    forChannels_keeps State.maxBlk (accWrite_maxBlk .main)]

@[simp] theorem takeBeat_events (s : State) :
    (takeBeat s).events = s.events := by
  rw [takeBeat, forChannels_keeps State.events (accWrite_events .side),
    forChannels_keeps State.events (accWrite_events .main)]

@[simp] theorem takeBeat_olaWr (s : State) :
    (takeBeat s).olaWr = s.olaWr := by
  rw [takeBeat, forChannels_keeps State.olaWr (accWrite_olaWr .side),
    forChannels_keeps State.olaWr (accWrite_olaWr .main)]

@[simp] theorem takeBeat_olaRd (s : State) :
    (takeBeat s).olaRd = s.olaRd := by
  rw [takeBeat, forChannels_keeps State.olaRd (accWrite_olaRd .side),
    forChannels_keeps State.olaRd (accWrite_olaRd .main)]

@[simp] theorem takeBeat_blkRem (s : State) :
    (takeBeat s).blkRem = s.blkRem := by
  rw [takeBeat, forChannels_keeps State.blkRem (accWrite_blkRem .side),
    forChannels_keeps State.blkRem (accWrite_blkRem .main)]

@[simp] theorem takeBeat_blkActive (s : State) :
    (takeBeat s).blkActive = s.blkActive := by
  rw [takeBeat, forChannels_keeps State.blkActive (accWrite_blkActive .side),
    forChannels_keeps State.blkActive (accWrite_blkActive .main)]

@[simp] theorem takeBeat_scratch (s : State) :
    (takeBeat s).scratch = s.scratch := by
  rw [takeBeat, forChannels_keeps State.scratch (accWrite_scratch .side),
    forChannels_keeps State.scratch (accWrite_scratch .main)]

@[simp] theorem takeBeat_marks (s : State) :
    (takeBeat s).marks = s.marks := by
  rw [takeBeat, forChannels_keeps State.marks (accWrite_marks .side),
    forChannels_keeps State.marks (accWrite_marks .main)]

@[simp] theorem takeBeat_cmdIn (s : State) :
    (takeBeat s).cmdIn = s.cmdIn := by
  rw [takeBeat, forChannels_keeps State.cmdIn (accWrite_cmdIn .side),
    forChannels_keeps State.cmdIn (accWrite_cmdIn .main)]

@[simp] theorem takeBeat_issue (s : State) :
    (takeBeat s).issue = s.issue := by
  rw [takeBeat, forChannels_keeps State.issue (accWrite_issue .side),
    forChannels_keeps State.issue (accWrite_issue .main)]

@[simp] theorem takeBeat_samplesOut (s : State) :
    (takeBeat s).samplesOut = s.samplesOut := by
  rw [takeBeat, forChannels_keeps State.samplesOut (accWrite_samplesOut .side),
    forChannels_keeps State.samplesOut (accWrite_samplesOut .main)]

@[simp] theorem takeBeat_turns (s : State) :
    (takeBeat s).turns = s.turns := by
  rw [takeBeat, forChannels_keeps State.turns (accWrite_turns .side),
    forChannels_keeps State.turns (accWrite_turns .main)]

@[simp] theorem takeBeat_regOut (s : State) :
    (takeBeat s).regOut = s.regOut := by
  rw [takeBeat, forChannels_keeps State.regOut (accWrite_regOut .side),
    forChannels_keeps State.regOut (accWrite_regOut .main)]

/-! `cycleIfReady` -/

@[simp] theorem cycleIfReady_cfg (s : State) :
    (cycleIfReady s).cfg = s.cfg := by unfold cycleIfReady; split <;> simp

@[simp] theorem cycleIfReady_params (s : State) :
    (cycleIfReady s).params = s.params := by unfold cycleIfReady; split <;> simp

@[simp] theorem cycleIfReady_prepared (s : State) :
    (cycleIfReady s).prepared = s.prepared := by unfold cycleIfReady; split <;> simp

@[simp] theorem cycleIfReady_sr (s : State) :
    (cycleIfReady s).sr = s.sr := by unfold cycleIfReady; split <;> simp

@[simp] theorem cycleIfReady_maxBlk (s : State) :
    (cycleIfReady s).maxBlk = s.maxBlk := by unfold cycleIfReady; split <;> simp

@[simp] theorem cycleIfReady_olaRd (s : State) :
    (cycleIfReady s).olaRd = s.olaRd := by unfold cycleIfReady; split <;> simp

@[simp] theorem cycleIfReady_blkRem (s : State) :
    (cycleIfReady s).blkRem = s.blkRem := by unfold cycleIfReady; split <;> simp

@[simp] theorem cycleIfReady_blkActive (s : State) :
    (cycleIfReady s).blkActive = s.blkActive := by unfold cycleIfReady; split <;> simp

@[simp] theorem cycleIfReady_cmdIn (s : State) :
    (cycleIfReady s).cmdIn = s.cmdIn := by unfold cycleIfReady; split <;> simp

@[simp] theorem cycleIfReady_issue (s : State) :
    (cycleIfReady s).issue = s.issue := by unfold cycleIfReady; split <;> simp

@[simp] theorem cycleIfReady_samplesIn (s : State) :
    (cycleIfReady s).samplesIn = s.samplesIn := by unfold cycleIfReady; split <;> simp

@[simp] theorem cycleIfReady_samplesOut (s : State) :
    (cycleIfReady s).samplesOut = s.samplesOut := by unfold cycleIfReady; split <;> simp

@[simp] theorem cycleIfReady_turns (s : State) :
    (cycleIfReady s).turns = s.turns := by unfold cycleIfReady; split <;> simp

@[simp] theorem cycleIfReady_regOut (s : State) :
    (cycleIfReady s).regOut = s.regOut := by unfold cycleIfReady; split <;> simp

/-! `activeBeat` -/

@[simp] theorem activeBeat_cfg (s : State) :
    (activeBeat s).cfg = s.cfg := by simp [activeBeat]

@[simp] theorem activeBeat_params (s : State) :
    (activeBeat s).params = s.params := by simp [activeBeat]

@[simp] theorem activeBeat_prepared (s : State) :
    (activeBeat s).prepared = s.prepared := by simp [activeBeat]

@[simp] theorem activeBeat_sr (s : State) :
    (activeBeat s).sr = s.sr := by simp [activeBeat]

@[simp] theorem activeBeat_maxBlk (s : State) :
    (activeBeat s).maxBlk = s.maxBlk := by simp [activeBeat]

@[simp] theorem activeBeat_blkRem (s : State) :
    (activeBeat s).blkRem = s.blkRem := by simp [activeBeat]

@[simp] theorem activeBeat_blkActive (s : State) :
    (activeBeat s).blkActive = s.blkActive := by simp [activeBeat]

@[simp] theorem activeBeat_cmdIn (s : State) :
    (activeBeat s).cmdIn = s.cmdIn := by simp [activeBeat]

@[simp] theorem activeBeat_issue (s : State) :
    (activeBeat s).issue = s.issue := by simp [activeBeat]

@[simp] theorem activeBeat_turns (s : State) :
    (activeBeat s).turns = s.turns := by simp [activeBeat]

@[simp] theorem activeBeat_regOut (s : State) :
    (activeBeat s).regOut = s.regOut := by simp [activeBeat]

/-! `beat` -/

@[simp] theorem beat_cfg (s : State) :
    (beat s).cfg = s.cfg := by unfold beat; split <;> simp

@[simp] theorem beat_params (s : State) :
    (beat s).params = s.params := by unfold beat; split <;> simp

@[simp] theorem beat_prepared (s : State) :
    (beat s).prepared = s.prepared := by unfold beat; split <;> simp

@[simp] theorem beat_sr (s : State) :
    (beat s).sr = s.sr := by unfold beat; split <;> simp

@[simp] theorem beat_maxBlk (s : State) :
    (beat s).maxBlk = s.maxBlk := by unfold beat; split <;> simp

@[simp] theorem beat_blkRem (s : State) :
    (beat s).blkRem = s.blkRem := by unfold beat; split <;> simp

@[simp] theorem beat_blkActive (s : State) :
    (beat s).blkActive = s.blkActive := by unfold beat; split <;> simp

@[simp] theorem beat_cmdIn (s : State) :
    (beat s).cmdIn = s.cmdIn := by unfold beat; split <;> simp

@[simp] theorem beat_issue (s : State) :
    (beat s).issue = s.issue := by unfold beat; split <;> simp

@[simp] theorem beat_turns (s : State) :
    (beat s).turns = s.turns := by unfold beat; split <;> simp

@[simp] theorem beat_regOut (s : State) :
    (beat s).regOut = s.regOut := by unfold beat; split <;> simp

end Sys2Proof.Machine
end

