-- ==== Sys2Proof/Laws/Memory.lean ====
section
/-! SUPPORT. The laws of the internal memories: every operation keeps the canonical form, a read
after a write to the same element gives what was written, and a write leaves every other element
alone. -/

namespace Sys2Proof.Machine

/-! ### Addresses -/

theorem streamNumber_lt (st : Stream) : streamNumber st < 2 := by cases st <;> decide

theorem streamNumber_inj {st st' : Stream} (h : streamNumber st = streamNumber st') : st = st' := by
  cases st <;> cases st' <;> first | rfl | exact absurd h (by decide)

theorem spaceNumber_lt (sp : Space) : sp.number < 144 := by
  cases sp with
  | ring st c => have := streamNumber_lt st; have := c.isLt; simp only [Space.number]; omega
  | specMag st c => have := streamNumber_lt st; have := c.isLt; simp only [Space.number]; omega
  | specPh st c => have := streamNumber_lt st; have := c.isLt; simp only [Space.number]; omega
  | mixMag c => have := c.isLt; simp only [Space.number]; omega
  | mixPh c => have := c.isLt; simp only [Space.number]; omega
  | ola c => have := c.isLt; simp only [Space.number]; omega

theorem spaceNumber_inj {sp sp' : Space} (h : sp.number = sp'.number) : sp = sp' := by
  have key : ∀ (st st' : Stream) (c c' : Chan),
      16 * streamNumber st + c.val = 16 * streamNumber st' + c'.val → st = st' ∧ c = c' := by
    intro st st' c c' e
    have := c.isLt
    have := c'.isLt
    exact ⟨streamNumber_inj (by omega), Fin.ext (by omega)⟩
  cases sp <;> cases sp' <;> simp only [Space.number] at h
  case ring.ring st c st' c' => obtain ⟨rfl, rfl⟩ := key st st' c c' h; rfl
  case specMag.specMag st c st' c' => obtain ⟨rfl, rfl⟩ := key st st' c c' (by omega); rfl
  case specPh.specPh st c st' c' => obtain ⟨rfl, rfl⟩ := key st st' c c' (by omega); rfl
  case mixMag.mixMag c c' => rw [Fin.ext (by omega : c.val = c'.val)]
  case mixPh.mixPh c c' => rw [Fin.ext (by omega : c.val = c'.val)]
  case ola.ola c c' => rw [Fin.ext (by omega : c.val = c'.val)]
  all_goals
    first
    | (rename_i st c st' c'; have := streamNumber_lt st; have := streamNumber_lt st'
       have := c.isLt; have := c'.isLt; omega)
    | (rename_i st c c'; have := streamNumber_lt st; have := c.isLt; have := c'.isLt; omega)
    | (rename_i c st' c'; have := streamNumber_lt st'; have := c.isLt; have := c'.isLt; omega)
    | (rename_i c c'; have := c.isLt; have := c'.isLt; omega)

/-- Two elements have the same address only when they are the same element. -/
theorem elementAddr_inj {sp sp' : Space} {i j : Nat} :
    elementAddr sp i = elementAddr sp' j ↔ sp = sp' ∧ i = j := by
  constructor
  · intro h
    have := spaceNumber_lt sp
    have := spaceNumber_lt sp'
    simp only [elementAddr] at h
    exact ⟨spaceNumber_inj (by omega), by omega⟩
  · rintro ⟨rfl, rfl⟩
    rfl

/-! ### Cells -/

/-- The addresses of a list of cells rise strictly. -/
abbrev Rising (cells : List (Nat × Word)) : Prop := (cells.map Prod.fst).Pairwise (· < ·)

theorem cellAt_of_all_above {a : Nat} {cells : List (Nat × Word)}
    (h : ∀ c ∈ cells, a < c.1) : cellAt a cells = none := by
  induction cells with
  | nil => rfl
  | cons c cs ih =>
    have hc := h c (by simp)
    rw [cellAt, if_neg (by omega), ih (fun d hd => h d (by simp [hd]))]

theorem rising_cons {c : Nat × Word} {cs : List (Nat × Word)} :
    Rising (c :: cs) ↔ (∀ d ∈ cs, c.1 < d.1) ∧ Rising cs := by
  simp [Rising, List.pairwise_cons]

theorem cellAt_dropCell {cells : List (Nat × Word)} (h : Rising cells) (a b : Nat) :
    cellAt b (dropCell a cells) = if b = a then none else cellAt b cells := by
  induction cells with
  | nil => simp [dropCell, cellAt]
  | cons c cs ih =>
    obtain ⟨hall, hcs⟩ := rising_cons.mp h
    by_cases hca : c.1 = a
    · rw [dropCell, if_pos hca]
      by_cases hba : b = a
      · rw [if_pos hba, cellAt_of_all_above]
        intro d hd
        have := hall d hd
        omega
      · rw [if_neg hba, cellAt, if_neg (by omega)]
    · rw [dropCell, if_neg hca]
      by_cases hcb : c.1 = b
      · rw [cellAt, if_pos hcb, if_neg (by omega), cellAt, if_pos hcb]
      · rw [cellAt, if_neg hcb, ih hcs, cellAt, if_neg hcb]

theorem cellAt_putCell (cells : List (Nat × Word)) (a b : Nat) (v : Word) :
    cellAt b (putCell a v cells) = if b = a then some v else cellAt b cells := by
  induction cells with
  | nil =>
    by_cases h : b = a
    · simp [putCell, cellAt, h]
    · simp [putCell, cellAt, h, Ne.symm h]
  | cons c cs ih =>
    by_cases hac : a < c.1
    · rw [putCell, if_pos hac]
      by_cases h : b = a
      · simp [cellAt, h]
      · rw [cellAt, if_neg (Ne.symm h), if_neg h]
    · by_cases hca : c.1 = a
      · rw [putCell, if_neg hac, if_pos hca]
        by_cases h : b = a
        · simp [cellAt, h]
        · rw [cellAt, if_neg (Ne.symm h), if_neg h, cellAt, if_neg (by omega)]
      · rw [putCell, if_neg hac, if_neg hca, cellAt]
        by_cases hcb : c.1 = b
        · rw [if_pos hcb, if_neg (by omega), cellAt, if_pos hcb]
        · rw [if_neg hcb, ih, cellAt, if_neg hcb]

theorem mem_dropCell {cells : List (Nat × Word)} {a : Nat} {c : Nat × Word}
    (h : c ∈ dropCell a cells) : c ∈ cells := by
  induction cells with
  | nil => simp [dropCell] at h
  | cons d ds ih =>
    rw [dropCell] at h
    split at h
    · exact List.mem_cons_of_mem _ h
    · rcases List.mem_cons.mp h with rfl | h
      · simp
      · exact List.mem_cons_of_mem _ (ih h)

theorem mem_putCell {cells : List (Nat × Word)} {a : Nat} {v : Word} {c : Nat × Word}
    (h : c ∈ putCell a v cells) : c = (a, v) ∨ c ∈ cells := by
  induction cells with
  | nil => simpa [putCell] using h
  | cons d ds ih =>
    rw [putCell] at h
    split at h
    · rcases List.mem_cons.mp h with h | h
      · exact .inl h
      · exact .inr h
    · split at h
      · rcases List.mem_cons.mp h with h | h
        · exact .inl h
        · exact .inr (List.mem_cons_of_mem _ h)
      · rcases List.mem_cons.mp h with rfl | h
        · simp
        · rcases ih h with h | h
          · exact .inl h
          · exact .inr (List.mem_cons_of_mem _ h)

theorem rising_dropCell {cells : List (Nat × Word)} (h : Rising cells) (a : Nat) :
    Rising (dropCell a cells) := by
  induction cells with
  | nil => exact h
  | cons c cs ih =>
    obtain ⟨hall, hcs⟩ := rising_cons.mp h
    rw [dropCell]
    split
    · exact hcs
    · exact rising_cons.mpr ⟨fun d hd => hall d (mem_dropCell hd), ih hcs⟩

theorem rising_putCell {cells : List (Nat × Word)} (h : Rising cells) (a : Nat) (v : Word) :
    Rising (putCell a v cells) := by
  induction cells with
  | nil => simp [putCell, Rising]
  | cons c cs ih =>
    obtain ⟨hall, hcs⟩ := rising_cons.mp h
    rw [putCell]
    split
    · refine rising_cons.mpr ⟨fun d hd => ?_, h⟩
      rcases List.mem_cons.mp hd with rfl | hd
      · assumption
      · have := hall d hd
        change a < d.1
        omega
    · split
      · exact rising_cons.mpr ⟨fun d hd => by have := hall d hd; change a < d.1; omega, hcs⟩
      · refine rising_cons.mpr ⟨fun d hd => ?_, ih hcs⟩
        rcases mem_putCell hd with rfl | hd
        · change c.1 < a
          omega
        · exact hall d hd

/-! ### Memory -/

@[simp] theorem write_cleared (m : Memory) (a : Nat) (v : Word) :
    (m.write a v).cleared = m.cleared := rfl

@[simp] theorem write_unlisted (m : Memory) (a b : Nat) (v : Word) :
    (m.write a v).unlisted b = m.unlisted b := rfl

/-- A write keeps the canonical form. -/
theorem write_wf {m : Memory} (h : m.wf) (a : Nat) (v : Word) : (m.write a v).wf := by
  unfold Memory.wf Memory.write
  by_cases hv : v = m.unlisted a
  · simp only [hv, if_true]
    exact ⟨rising_dropCell h.1 a, fun c hc => h.2 c (mem_dropCell hc)⟩
  · simp only [hv, if_false]
    refine ⟨rising_putCell h.1 a v, fun c hc => ?_⟩
    rcases mem_putCell hc with rfl | hc
    · exact hv
    · exact h.2 c hc

/-- A read after a write. -/
theorem read_write {m : Memory} (h : m.wf) (a b : Nat) (v : Word) :
    (m.write a v).read b = if b = a then v else m.read b := by
  unfold Memory.read
  rw [write_unlisted]
  by_cases hv : v = m.unlisted a
  · simp only [Memory.write, hv, if_true, cellAt_dropCell h.1]
    by_cases hb : b = a
    · simp [hb]
    · simp [hb]
  · simp only [Memory.write, hv, if_false, cellAt_putCell]
    by_cases hb : b = a
    · simp [hb]
    · simp [hb]

theorem zeroed_wf : Memory.zeroed.wf := by simp [Memory.wf, Memory.zeroed]

@[simp] theorem zeroed_read (a : Nat) : Memory.zeroed.read a = 0 := rfl

@[simp] theorem writeFrom_cleared (m : Memory) (sp : Space) (i : Nat) (vs : List Word) :
    (m.writeFrom sp i vs).cleared = m.cleared := by
  induction vs generalizing m i with
  | nil => rfl
  | cons v vs ih => rw [Memory.writeFrom, ih, write_cleared]

/-- Writing a run of elements keeps the canonical form. -/
theorem writeFrom_wf {m : Memory} (h : m.wf) (sp : Space) (i : Nat) (vs : List Word) :
    (m.writeFrom sp i vs).wf := by
  induction vs generalizing m i with
  | nil => exact h
  | cons v vs ih => exact ih (write_wf h _ _) _

/-- A read after writing a run of elements: the value at its place inside the run, the old value
everywhere else. -/
theorem read_writeFrom {m : Memory} (h : m.wf) (sp sp' : Space) (i j : Nat) (vs : List Word) :
    (m.writeFrom sp i vs).read (elementAddr sp' j) =
      if sp' = sp ∧ i ≤ j ∧ j < i + vs.length then vs.getD (j - i) 0
      else m.read (elementAddr sp' j) := by
  induction vs generalizing m i with
  | nil =>
    rw [Memory.writeFrom, if_neg]
    simp
  | cons v vs ih =>
    rw [Memory.writeFrom, ih (write_wf h _ _), read_write h]
    by_cases hsp : sp' = sp
    · subst hsp
      by_cases hji : j = i
      · subst hji
        rw [if_neg (by omega), if_pos rfl, if_pos (by simp)]
        simp
      · have hne : ¬ elementAddr sp' j = elementAddr sp' i := fun e => hji (elementAddr_inj.mp e).2
        rw [if_neg hne]
        by_cases hlt : i + 1 ≤ j ∧ j < i + 1 + vs.length
        · have hget : j - i = (j - (i + 1)) + 1 := by omega
          rw [if_pos ⟨rfl, hlt⟩, if_pos ⟨rfl, by omega, by simp; omega⟩, hget, List.getD_cons_succ]
        · rw [if_neg (by omega), if_neg]
          simp only [List.length_cons]
          omega
    · have hne : ¬ elementAddr sp' j = elementAddr sp i := fun e => hsp (elementAddr_inj.mp e).1
      rw [if_neg (by simp [hsp]), if_neg hne, if_neg (by simp [hsp])]

/-- The address of an element of a memory is not the address of an element of another. -/
theorem read_writeFrom_addr {m : Memory} (h : m.wf) (sp : Space) (i a : Nat) (vs : List Word)
    (ha : ∀ j, i ≤ j → j < i + vs.length → a ≠ elementAddr sp j) :
    (m.writeFrom sp i vs).read a = m.read a := by
  induction vs generalizing m i with
  | nil => rfl
  | cons v vs ih =>
    rw [Memory.writeFrom, ih (write_wf h _ _), read_write h, if_neg]
    · exact ha i (Nat.le_refl i) (by simp)
    · intro j h1 h2
      exact ha j (by omega) (by simp; omega)

/-! ### Elements of a state -/

theorem setElement_element {s : State} (h : s.mem.wf) (sp sp' : Space) (i j : Nat) (v : Word) :
    (State.setElement sp i v s).element sp' j = if sp' = sp ∧ j = i then v else s.element sp' j := by
  unfold State.element
  rw [setElement_mem, read_write h]
  simp only [elementAddr_inj]

theorem setElements_element {s : State} (h : s.mem.wf) (sp sp' : Space) (j : Nat) (vs : List Word) :
    (State.setElements sp vs s).element sp' j =
      if sp' = sp ∧ j < vs.length then vs.getD j 0 else s.element sp' j := by
  unfold State.element
  rw [setElements_mem, read_writeFrom h]
  simp

theorem at0_range_map (f : Nat → Word) (n i : Nat) :
    at0 ((List.range n).map f) i = if i < n then f i else 0 := by
  unfold at0
  by_cases h : i < n
  · simp [List.getD, h]
  · simp [List.getD, h]

theorem at0_elements (s : State) (sp : Space) (n i : Nat) :
    at0 (s.elements sp n) i = if i < n then s.element sp i else 0 := at0_range_map _ n i

@[simp] theorem elements_length (s : State) (sp : Space) (n : Nat) :
    (s.elements sp n).length = n := by simp [State.elements]

end Sys2Proof.Machine
end

