-- ==== Sys2Proof/Laws/Channels.lean ====
section
/-! SUPPORT. The law of the channel loop, and with it what each looped operation of the data path does,
channel by channel. -/

namespace Sys2Proof.Machine

theorem mem_channels {g : Cfg} {c : Chan} : c ∈ g.channels ↔ c.val < g.nch := by
  simp [Cfg.channels]

theorem channels_nodup (g : Cfg) : g.channels.Nodup :=
  (List.nodup_finRange 16).filter _

/-- A loop over the channels preserves what each of its rounds preserves. -/
theorem forChannels_preserves {K : State → Prop} {f : Chan → State → State}
    (keep : ∀ c t, K t → K (f c t)) {s : State} (h : K s) : K (forChannels f s) := by
  have fold : ∀ (cs : List Chan) (t : State), K t → K (cs.foldl (fun t c => f c t) t) := by
    intro cs
    induction cs with
    | nil => intro t ht; exact ht
    | cons c cs ih => intro t ht; exact ih _ (keep c t ht)
  exact fold _ s h

/-- A loop whose round for a channel acts on that channel's own part only acts on every channel's part
once, where a condition that every round keeps holds. -/
theorem forChannels_pointwise {α : Type} {K : State → Prop} {π : Chan → State → α}
    {f : Chan → State → State} {g : Chan → α → α}
    (keep : ∀ c t, K t → K (f c t))
    (own : ∀ c t, K t → π c (f c t) = g c (π c t))
    (other : ∀ c c' t, K t → c' ≠ c → π c' (f c t) = π c' t)
    {s : State} (h : K s) (c : Chan) :
    π c (forChannels f s) = if c.val < s.cfg.nch then g c (π c s) else π c s := by
  have fold : ∀ (cs : List Chan) (t : State), cs.Nodup → K t →
      π c (cs.foldl (fun t c => f c t) t) = if c ∈ cs then g c (π c t) else π c t := by
    intro cs
    induction cs with
    | nil => intro t _ _; simp
    | cons d ds ih =>
      intro t hn ht
      obtain ⟨hd, hds⟩ := List.nodup_cons.mp hn
      rw [List.foldl_cons, ih _ hds (keep d t ht)]
      by_cases hc : c = d
      · subst hc
        rw [if_neg hd, if_pos (by simp), own c t ht]
      · rw [other d c t ht hc]
        by_cases hm : c ∈ ds <;> simp [hm, hc]
  have := fold s.cfg.channels s (channels_nodup _) h
  rw [forChannels, this]
  simp [mem_channels]

/-! ### Canonical memory -/

theorem setElement_wf {s : State} (h : s.mem.wf) (sp : Space) (i : Nat) (v : Word) :
    (State.setElement sp i v s).mem.wf := write_wf h _ _

theorem setElements_wf {s : State} (h : s.mem.wf) (sp : Space) (vs : List Word) :
    (State.setElements sp vs s).mem.wf := writeFrom_wf h _ _ _

/-! ### ACC.WRITE -/

theorem accWrite_mem (st : Stream) (c : Chan) (s : State) :
    (accWrite st c s).mem
      = s.mem.write (elementAddr (.ring st c) (s.ring st c).wr) (s.nextSample st c) := rfl

@[simp] theorem accWrite_ring (st st' : Stream) (c c' : Chan) (s : State) :
    (accWrite st c s).ring st' c' =
      if st' = st ∧ c' = c then (s.ring st c).afterWrite s.cfg.n else s.ring st' c' := by
  simp [accWrite, ringWrite]

@[simp] theorem accWrite_waiting (st st' : Stream) (c c' : Chan) (s : State) :
    (accWrite st c s).waiting st' c' =
      if st' = st ∧ c' = c then (s.waiting st c).tail else s.waiting st' c' := by
  simp [accWrite, ringWrite]

theorem accWrite_wf {s : State} (h : s.mem.wf) (st : Stream) (c : Chan) :
    (accWrite st c s).mem.wf := write_wf h _ _

theorem accWrite_element {s : State} (h : s.mem.wf) (st : Stream) (c : Chan) (sp : Space) (i : Nat) :
    (accWrite st c s).element sp i =
      if sp = .ring st c ∧ i = (s.ring st c).wr then s.nextSample st c else s.element sp i := by
  unfold State.element
  rw [accWrite_mem, read_write h]
  simp only [elementAddr_inj]

theorem takeBeat_wf {s : State} (h : s.mem.wf) : (takeBeat s).mem.wf :=
  forChannels_preserves (K := fun t => t.mem.wf) (fun c _ ht => accWrite_wf ht .side c)
    (forChannels_preserves (K := fun t => t.mem.wf) (fun c _ ht => accWrite_wf ht .main c) h)

theorem writeAll_ring (st st' : Stream) (c : Chan) (s : State) :
    (forChannels (accWrite st) s).ring st' c =
      if st' = st ∧ c.val < s.cfg.nch then (s.ring st c).afterWrite s.cfg.n else s.ring st' c := by
  by_cases h : st' = st
  · subst h
    rw [forChannels_pointwise (K := fun t => t.cfg = s.cfg) (π := fun c t => t.ring st' c)
      (g := fun _ r => r.afterWrite s.cfg.n) (by simp) (by simp +contextual)
      (by simp +contextual) rfl]
    simp
  · rw [if_neg (by simp [h])]
    refine forChannels_keeps (fun t => t.ring st' c) ?_ s
    simp [h]

theorem writeAll_waiting (st st' : Stream) (c : Chan) (s : State) :
    (forChannels (accWrite st) s).waiting st' c =
      if st' = st ∧ c.val < s.cfg.nch then (s.waiting st c).tail else s.waiting st' c := by
  by_cases h : st' = st
  · subst h
    rw [forChannels_pointwise (K := fun _ => True) (π := fun c t => t.waiting st' c)
      (g := fun _ r => r.tail) (by simp) (by simp) (by simp +contextual) trivial]
    simp
  · rw [if_neg (by simp [h])]
    refine forChannels_keeps (fun t => t.waiting st' c) ?_ s
    simp [h]

/-- An active beat's input writes every ring once. -/
theorem takeBeat_ring (st : Stream) (c : Chan) (s : State) :
    (takeBeat s).ring st c =
      if c.val < s.cfg.nch then (s.ring st c).afterWrite s.cfg.n else s.ring st c := by
  have hc : (forChannels (accWrite .main) s).cfg = s.cfg :=
    forChannels_keeps State.cfg (accWrite_cfg .main) s
  rw [takeBeat, writeAll_ring, writeAll_ring, writeAll_ring, hc]
  cases st <;> simp

/-- An active beat's input takes one sample of every port. -/
theorem takeBeat_waiting (st : Stream) (c : Chan) (s : State) :
    (takeBeat s).waiting st c =
      if c.val < s.cfg.nch then (s.waiting st c).tail else s.waiting st c := by
  have hc : (forChannels (accWrite .main) s).cfg = s.cfg :=
    forChannels_keeps State.cfg (accWrite_cfg .main) s
  rw [takeBeat, writeAll_waiting, writeAll_waiting, writeAll_waiting, hc]
  cases st <;> simp

/-- An active beat's input writes no memory but the rings. -/
theorem takeBeat_ola {s : State} (h : s.mem.wf) (c : Chan) (i : Nat) :
    (takeBeat s).element (.ola c) i = s.element (.ola c) i := by
  have once : ∀ (st : Stream) (t : State), t.mem.wf →
      (forChannels (accWrite st) t).mem.wf ∧
        (forChannels (accWrite st) t).element (.ola c) i = t.element (.ola c) i := by
    intro st t ht
    refine forChannels_preserves
      (K := fun u => u.mem.wf ∧ u.element (.ola c) i = t.element (.ola c) i) ?_ ⟨ht, rfl⟩
    intro d u hu
    refine ⟨accWrite_wf hu.1 st d, ?_⟩
    rw [accWrite_element hu.1, if_neg (by simp), hu.2]
  rw [takeBeat, (once .side _ (once .main s h).1).2, (once .main s h).2]

/-! ### ACC.CONSUME -/

theorem consumeAll_ring (st st' : Stream) (c : Chan) (s : State) :
    (forChannels (consumeRing st) s).ring st' c =
      if st' = st ∧ c.val < s.cfg.nch then (s.ring st c).afterConsume s.cfg else s.ring st' c := by
  by_cases h : st' = st
  · subst h
    rw [forChannels_pointwise (K := fun t => t.cfg = s.cfg) (π := fun c t => t.ring st' c)
      (g := fun _ r => r.afterConsume s.cfg) (by simp)
      (by simp +contextual [consumeRing]) (by simp +contextual [consumeRing]) rfl]
    simp
  · rw [if_neg (by simp [h])]
    refine forChannels_keeps (fun t => t.ring st' c) ?_ s
    simp [h, consumeRing]

/-- `ACC.CONSUME` consumes every ring of both streams once. -/
theorem accConsume_ring (st : Stream) (c : Chan) (s : State) :
    (accConsume s).ring st c =
      if c.val < s.cfg.nch then (s.ring st c).afterConsume s.cfg else s.ring st c := by
  have hc : (forChannels (consumeRing .main) s).cfg = s.cfg :=
    forChannels_keeps State.cfg (consumeRing_cfg .main) s
  rw [accConsume, consumeAll_ring, consumeAll_ring, consumeAll_ring, hc]
  cases st <;> simp

/-! ### DRV.EMIT and DRV.BYPASS -/

theorem emitChannel_wf {s : State} (h : s.mem.wf) (c : Chan) : (emitChannel c s).mem.wf :=
  write_wf h _ _

theorem emitChannel_element {s : State} (h : s.mem.wf) (c : Chan) (sp : Space) (i : Nat) :
    (emitChannel c s).element sp i =
      if sp = .ola c ∧ i = s.olaRd then Numerics.zero else s.element sp i := by
  rw [emitChannel, unmarkOla_element, setElement_element (by exact h)]
  simp

theorem emit_wf {s : State} (h : s.mem.wf) : (emit s).mem.wf :=
  forChannels_preserves (K := fun t => t.mem.wf) (fun c _ ht => emitChannel_wf ht c) h

@[simp] theorem emit_olaRd (s : State) : (emit s).olaRd = (s.olaRd + 1) % s.cfg.len := by
  simp only [emit]
  rw [forChannels_keeps State.olaRd emitChannel_olaRd, forChannels_keeps State.cfg emitChannel_cfg]

@[simp] theorem emit_ring (s : State) (st : Stream) (c : Chan) :
    (emit s).ring st c = s.ring st c := by
  unfold State.ring
  rw [emit_rings]

@[simp] theorem emit_waiting (s : State) (st : Stream) (c : Chan) :
    (emit s).waiting st c = s.waiting st c := by
  unfold State.waiting
  rw [emit_samplesIn]

/-- `DRV.EMIT` clears the element it emits of every channel and leaves every other element. -/
theorem emit_element {s : State} (h : s.mem.wf) (sp : Space) (i : Nat) :
    (emit s).element sp i =
      if (∃ c : Chan, c.val < s.cfg.nch ∧ sp = .ola c) ∧ i = s.olaRd then Numerics.zero
      else s.element sp i := by
  have key : ∀ (cs : List Chan) (t : State), t.mem.wf → t.olaRd = s.olaRd →
      (cs.foldl (fun t c => emitChannel c t) t).element sp i =
        if (∃ c ∈ cs, sp = .ola c) ∧ i = s.olaRd then Numerics.zero else t.element sp i := by
    intro cs
    induction cs with
    | nil => intro t _ _; simp
    | cons d ds ih =>
      intro t ht hr
      rw [List.foldl_cons, ih _ (emitChannel_wf ht d) (by simp [hr]), emitChannel_element ht, hr]
      by_cases h1 : ∃ c ∈ ds, sp = .ola c <;> by_cases h2 : sp = .ola d <;>
        by_cases h3 : i = s.olaRd <;> simp_all
  have := key s.cfg.channels s h rfl
  simp only [mem_channels] at this
  exact this

/-- `DRV.EMIT` puts the emitted element of every channel on main-out. -/
theorem emit_out {s : State} (h : s.mem.wf) (c : Chan) :
    (emit s).samplesOut[c] =
      if c.val < s.cfg.nch then s.samplesOut[c] ++ [s.element (.ola c) s.olaRd]
      else s.samplesOut[c] := by
  have hk := forChannels_pointwise
    (K := fun t => t.mem.wf ∧ t.olaRd = s.olaRd)
    (π := fun c t => (t.samplesOut[c], t.element (.ola c) s.olaRd))
    (f := emitChannel) (g := fun _ p => (p.1 ++ [p.2], Numerics.zero))
    (fun c t ht => ⟨emitChannel_wf ht.1 c, by simp [ht.2]⟩)
    (fun c t ht => by
      rw [emitChannel_element ht.1]
      simp [ht.2, emitChannel, State.putSample])
    (fun c c' t ht hne => by
      rw [emitChannel_element ht.1]
      simp [hne, emitChannel, State.putSample, vector_get_set])
    ⟨h, rfl⟩ c
  have := congrArg Prod.fst hk
  simp only [] at this
  rw [show (emit s).samplesOut = (forChannels emitChannel s).samplesOut from rfl, this]
  split <;> rfl

@[simp] theorem bypassChannel_waiting (st : Stream) (c c' : Chan) (s : State) :
    (bypassChannel c s).waiting st c' =
      if st = .main ∧ c' = c then (s.waiting .main c).tail else s.waiting st c' := by
  simp [bypassChannel]

/-- `DRV.BYPASS` takes one main sample of every channel. -/
theorem bypass_waiting (st : Stream) (c : Chan) (s : State) :
    (bypass s).waiting st c =
      if st = .main ∧ c.val < s.cfg.nch then (s.waiting .main c).tail else s.waiting st c := by
  cases st with
  | main =>
    rw [bypass, forChannels_pointwise (K := fun _ => True) (π := fun c t => t.waiting .main c)
      (g := fun _ r => r.tail) (by simp) (by simp) (by simp +contextual) trivial]
    simp
  | side =>
    rw [if_neg (by simp), bypass]
    refine forChannels_keeps (fun t => t.waiting .side c) ?_ s
    simp

/-- `DRV.BYPASS` puts the sample it takes on main-out. -/
theorem bypass_out (c : Chan) (s : State) :
    (bypass s).samplesOut[c] =
      if c.val < s.cfg.nch then s.samplesOut[c] ++ [s.nextSample .main c] else s.samplesOut[c] := by
  have hk := forChannels_pointwise (K := fun _ => True)
    (π := fun c t => (t.samplesOut[c], t.waiting .main c))
    (f := bypassChannel) (g := fun _ p => (p.1 ++ [p.2.headD 0], p.2.tail))
    (by simp)
    (fun c t _ => by
      rw [bypassChannel_waiting]
      simp [bypassChannel, State.nextSample, State.putSample])
    (fun c c' t _ hne => by
      rw [bypassChannel_waiting]
      simp [hne, bypassChannel, State.putSample, vector_get_set])
    (s := s) trivial c
  have := congrArg Prod.fst hk
  simp only [] at this
  rw [bypass, this]
  split <;> rfl

end Sys2Proof.Machine
end

