-- ==== Sys2Proof/Laws/Spectra.lean ====
section
/-! SUPPORT. What the analyzer, the exchanger, the synthesizer and a whole cycle do to the internal
memories, element by element. -/

namespace Sys2Proof.Machine

/-! ### Sizes -/

theorem legal_bounds {g : Cfg} (h : g.legal = true) :
    4 ≤ g.n ∧ g.n ≤ 4096 ∧ 1 ≤ g.nch ∧ g.nch ≤ 15 := by
  simp only [Cfg.legal, Bool.and_eq_true, decide_eq_true_eq] at h
  refine ⟨?_, ?_, by omega, by omega⟩
  · exact Nat.pow_le_pow_right (n := 2) (by decide) (by omega : 2 ≤ g.logn)
  · exact Nat.pow_le_pow_right (n := 2) (by decide) (by omega : g.logn ≤ 12)

theorem legal_even {g : Cfg} (h : g.legal = true) : g.n % 2 = 0 := by
  simp only [Cfg.legal, Bool.and_eq_true, decide_eq_true_eq] at h
  obtain ⟨m, hm⟩ : ∃ m, g.logn = m + 1 := ⟨g.logn - 1, by omega⟩
  rw [Cfg.n, hm, Nat.pow_succ]
  omega

theorem hop_cases (g : Cfg) : g.hop = g.n ∨ g.hop = g.n / 2 := by
  unfold Cfg.hop
  split <;> simp

theorem at0_mixIn (N : Numerics) (n : Nat) (r : BandRegs) (w : Word) (own other : List Word)
    (i : Nat) :
    at0 (mixIn N n r w own other) i =
      if i < n then if r.holds i then blend N w (at0 own i) (at0 other i) else at0 own i else 0 :=
  at0_range_map _ n i

@[simp] theorem mixIn_length (N : Numerics) (n : Nat) (r : BandRegs) (w : Word)
    (own other : List Word) : (mixIn N n r w own other).length = n := by simp [mixIn]

theorem at0_exchangeIn (N : Numerics) (n : Nat) (pairs : Int) (own other : BandRegs) (w : Word)
    (xs ys : List Word) (i : Nat) :
    at0 (exchangeIn N n pairs own other w xs ys) i =
      if i < n then
        if 0 ≤ (i : Int) - own.start.toInt ∧ (i : Int) - own.start.toInt < pairs then
          blend N w (at0 xs i) (at0 ys (other.start.toInt + ((i : Int) - own.start.toInt)).toNat)
        else at0 xs i
      else 0 :=
  at0_range_map _ n i

@[simp] theorem exchangeIn_length (N : Numerics) (n : Nat) (pairs : Int) (own other : BandRegs) (w : Word)
    (xs ys : List Word) : (exchangeIn N n pairs own other w xs ys).length = n := by
  simp [exchangeIn]

/-! ### Analyzer -/

theorem anPolar_wf {s : State} (h : s.mem.wf) (st : Stream) (c : Chan) :
    (anPolar st c s).mem.wf := writeFrom_wf (writeFrom_wf h _ _ _) _ _ _

theorem anPolar_element {s : State} (h : s.mem.wf) (st : Stream) (c : Chan) (sp : Space) (i : Nat) :
    (anPolar st c s).element sp i =
      if sp = .specMag st c ∧ i < s.cfg.nb then s.polarMagnitude i
      else if sp = .specPh st c ∧ i < s.cfg.nb then s.polarPhase i
      else s.element sp i := by
  rw [anPolar, markSpec_element, setElements_element (setElements_wf h _ _), setElements_element h]
  simp only [List.length_map, List.length_range]
  by_cases h2 : sp = .specPh st c ∧ i < s.cfg.nb
  · obtain ⟨rfl, hi⟩ := h2
    rw [if_pos ⟨rfl, hi⟩, if_neg (by simp), if_pos ⟨rfl, hi⟩]
    simp [List.getD, hi]
  · rw [if_neg h2, if_neg h2]
    by_cases h1 : sp = .specMag st c ∧ i < s.cfg.nb
    · rw [if_pos h1, if_pos h1]
      simp [List.getD, h1.2]
    · rw [if_neg h1, if_neg h1]

theorem analyze_wf {s : State} (h : s.mem.wf) (st : Stream) (c : Chan) :
    (analyze st c s).mem.wf := anPolar_wf (by simpa using h) st c

/-! ### Exchanger -/

@[simp] theorem mixedArray_length (s : State) (c : Chan) (place : Unspecified) (copy : List Word) :
    (s.mixedArray c place copy).length = s.cfg.nb := by simp [State.mixedArray]

theorem at0_mixedArray (s : State) (c : Chan) (place : Unspecified) (copy : List Word) (i : Nat) :
    at0 (s.mixedArray c place copy) i =
      if i < s.cfg.nb then
        if s.mixMark c && s.mixes i then Config.unspecified place copy i else at0 copy i
      else 0 :=
  at0_range_map _ _ i

theorem exchange_wf {s : State} (h : s.mem.wf) (c : Chan) : (exchange c s).mem.wf := by
  unfold exchange storeMix
  exact setElements_wf (setElements_wf (by simpa using h) _ _) _ _

/-- `EXCHANGE` stores the selected mix of the working copies, and no other element. -/
theorem exchange_element {s : State} (h : s.mem.wf) (c : Chan) (sp : Space) (i : Nat) :
    (exchange c s).element sp i =
      let m := mixSelected (loadCopies c (joinMarks c s))
      if sp = .mixMag c ∧ i < s.cfg.nb then at0 (m.mixedArray c .mixMagnitude m.scratch.wmMag) i
      else if sp = .mixPh c ∧ i < s.cfg.nb then at0 (m.mixedArray c .mixPhase m.scratch.wmPh) i
      else s.element sp i := by
  have hm : (mixSelected (loadCopies c (joinMarks c s))).mem = s.mem := by simp
  have hg : (mixSelected (loadCopies c (joinMarks c s))).cfg = s.cfg := by simp
  have he : ∀ sp i, (mixSelected (loadCopies c (joinMarks c s))).element sp i = s.element sp i := by
    intro sp i
    unfold State.element
    rw [hm]
  have hw : (mixSelected (loadCopies c (joinMarks c s))).mem.wf := by rw [hm]; exact h
  rw [exchange, storeMix, setElements_element (setElements_wf hw _ _), setElements_element hw, he]
  simp only [mixedArray_length, hg]
  by_cases h2 : sp = .mixPh c ∧ i < s.cfg.nb
  · obtain ⟨rfl, hi⟩ := h2
    simp [hi, at0]
  · rw [if_neg h2, if_neg h2]
    rfl

/-! ### Synthesizer -/

theorem olaAddAt_mem (c : Chan) (s : State) (k : Nat) :
    (olaAddAt c s k).mem =
      (s.setElement (.ola c) ((s.olaWr + k) % s.cfg.len)
        (s.overlapSum c ((s.olaWr + k) % s.cfg.len) k)).mem := by
  simp only [olaAddAt]
  split <;> simp

theorem olaAddAt_wf {s : State} (h : s.mem.wf) (c : Chan) (k : Nat) : (olaAddAt c s k).mem.wf := by
  rw [olaAddAt_mem]
  exact write_wf h _ _

theorem olaAddAt_element {s : State} (h : s.mem.wf) (c : Chan) (k : Nat) (sp : Space) (i : Nat) :
    (olaAddAt c s k).element sp i =
      if sp = .ola c ∧ i = (s.olaWr + k) % s.cfg.len then s.overlapSum c i k
      else s.element sp i := by
  unfold State.element
  rw [olaAddAt_mem]
  refine (setElement_element h _ _ _ _ _).trans ?_
  split
  · next e => rw [e.2]
  · rfl

@[simp] theorem olaAddAt_mixMark (c c' : Chan) (s : State) (k : Nat) :
    (olaAddAt c s k).mixMark c' = s.mixMark c' := by
  simp only [olaAddAt]
  split <;> simp

theorem olaAddAt_olaMark (c c' : Chan) (s : State) (k i : Nat) :
    (olaAddAt c s k).olaMark c' i =
      (s.olaMark c' i ||
        (s.mixMark c && decide (c' = c ∧ i = (s.olaWr + k) % s.cfg.len))) := by
  simp only [olaAddAt]
  split <;> next h => simp [h, Bool.or_comm]

/-- `SY.OLA` adds each sample of the frame to its own element and leaves every other element; it marks
the elements of a marked spectrum's frame. -/
theorem syOla_element {s : State} (h : s.mem.wf) (hn : s.cfg.n ≤ s.cfg.len) (c : Chan) (sp : Space)
    (i : Nat) :
    ((∀ k, k < s.cfg.n → ¬ (sp = .ola c ∧ i = (s.olaWr + k) % s.cfg.len)) →
        (syOla c s).element sp i = s.element sp i) ∧
      (∀ k, k < s.cfg.n → sp = .ola c → i = (s.olaWr + k) % s.cfg.len →
        (syOla c s).element sp i = s.overlapSum c i k) := by
  have inj : ∀ j k, j < s.cfg.n → k < s.cfg.n →
      (s.olaWr + j) % s.cfg.len = (s.olaWr + k) % s.cfg.len → j = k := by
    intro j k hj hk e
    have e1 := Nat.div_add_mod (s.olaWr + j) s.cfg.len
    have e2 := Nat.div_add_mod (s.olaWr + k) s.cfg.len
    rw [e] at e1
    rcases Nat.lt_trichotomy ((s.olaWr + j) / s.cfg.len) ((s.olaWr + k) / s.cfg.len) with hlt | heq | hgt
    · have := Nat.mul_le_mul_left s.cfg.len hlt
      rw [Nat.mul_succ] at this
      omega
    · rw [heq] at e1
      omega
    · have := Nat.mul_le_mul_left s.cfg.len hgt
      rw [Nat.mul_succ] at this
      omega
  have fold : ∀ m, m ≤ s.cfg.n →
      let t := (List.range m).foldl (olaAddAt c) s
      t.mem.wf ∧ t.cfg = s.cfg ∧ t.olaWr = s.olaWr ∧ t.scratch = s.scratch ∧
      t.mixMark c = s.mixMark c ∧
      ((∀ k, k < m → i ≠ (s.olaWr + k) % s.cfg.len) → t.olaMark c i = s.olaMark c i) ∧
      ((∀ k, k < m → ¬ (sp = .ola c ∧ i = (s.olaWr + k) % s.cfg.len)) →
        t.element sp i = s.element sp i) ∧
      (∀ k, k < m → sp = .ola c → i = (s.olaWr + k) % s.cfg.len →
        t.element sp i = s.overlapSum c i k) := by
    intro m
    induction m with
    | zero =>
      intro _
      exact ⟨h, rfl, rfl, rfl, rfl, fun _ => rfl, fun _ => rfl, fun k hk => absurd hk (by omega)⟩
    | succ m ih =>
      intro hm
      obtain ⟨hw, hc, ho, hs, hx, hl, h1, h2⟩ := ih (by omega)
      rw [List.range_succ, List.foldl_append]
      simp only [List.foldl_cons, List.foldl_nil]
      generalize (List.range m).foldl (olaAddAt c) s = t at *
      refine ⟨olaAddAt_wf hw c m, by simp [hc], by simp [ho], by simp [hs], by simp [hx], ?_, ?_, ?_⟩
      · intro hne
        rw [olaAddAt_olaMark, ho, hc, hl fun k hk => hne k (by omega)]
        simp [hne m (by omega)]
      · intro hne
        rw [olaAddAt_element hw, ho, hc, if_neg (hne m (by omega))]
        exact h1 fun k hk => hne k (by omega)
      · intro k hk hsp hi
        rw [olaAddAt_element hw, ho, hc]
        by_cases hkm : k = m
        · subst hkm
          have fresh : ∀ j, j < k → i ≠ (s.olaWr + j) % s.cfg.len := by
            intro j hj hbad
            have := inj j k (by omega) (by omega) (hbad.symm.trans hi)
            omega
          rw [if_pos ⟨hsp, hi⟩, State.overlapSum, State.overlapSum, hs, hc, hx, hl fresh, ← hsp,
            h1 fun j hj hbad => fresh j hj hbad.2]
        · rw [if_neg]
          · exact h2 k (by omega) hsp hi
          · intro hbad
            exact hkm (inj k m (by omega) (by omega) (hi.symm.trans hbad.2))
  obtain ⟨-, -, -, -, -, -, h1, h2⟩ := fold s.cfg.n (Nat.le_refl _)
  exact ⟨h1, h2⟩

/-- `SY.OLA` marks exactly the elements that a marked spectrum's frame is added into. -/
theorem syOla_olaMark (c c' : Chan) (s : State) (i : Nat) :
    (syOla c s).olaMark c' i = true ↔ s.olaMark c' i = true ∨
      (c' = c ∧ s.mixMark c = true ∧ ∃ k, k < s.cfg.n ∧ i = (s.olaWr + k) % s.cfg.len) := by
  have fold : ∀ m,
      let t := (List.range m).foldl (olaAddAt c) s
      t.cfg = s.cfg ∧ t.olaWr = s.olaWr ∧ t.mixMark c = s.mixMark c ∧
      (t.olaMark c' i = true ↔ s.olaMark c' i = true ∨
        (c' = c ∧ s.mixMark c = true ∧ ∃ k, k < m ∧ i = (s.olaWr + k) % s.cfg.len)) := by
    intro m
    induction m with
    | zero => simp
    | succ m ih =>
      obtain ⟨hc, ho, hx, hl⟩ := ih
      rw [List.range_succ, List.foldl_append]
      simp only [List.foldl_cons, List.foldl_nil]
      generalize (List.range m).foldl (olaAddAt c) s = t at *
      refine ⟨by simp [hc], by simp [ho], by simp [hx], ?_⟩
      rw [olaAddAt_olaMark, Bool.or_eq_true, hl, hc, ho, hx]
      simp only [Nat.lt_succ_iff_lt_or_eq, or_and_right, exists_or, exists_eq_left,
        Bool.and_eq_true, decide_eq_true_eq]
      by_cases h1 : c' = c <;> by_cases h2 : s.mixMark c = true <;> simp [h1, h2, or_assoc]
  exact (fold s.cfg.n).2.2.2

theorem syOla_wf {s : State} (h : s.mem.wf) (c : Chan) : (syOla c s).mem.wf := by
  have fold : ∀ (ks : List Nat) (t : State), t.mem.wf → (ks.foldl (olaAddAt c) t).mem.wf := by
    intro ks
    induction ks with
    | nil => intro t ht; exact ht
    | cons k ks ih => intro t ht; exact ih _ (olaAddAt_wf ht c k)
  exact fold _ s h

theorem synthesize_wf {s : State} (h : s.mem.wf) (c : Chan) : (synthesize c s).mem.wf :=
  syOla_wf (by simpa using h) c

theorem synthesize_element_other {s : State} (h : s.mem.wf) (c : Chan) (sp : Space) (i : Nat)
    (hne : ∀ k, k < s.cfg.n → ¬ (sp = .ola c ∧ i = (s.olaWr + k) % s.cfg.len)) :
    (synthesize c s).element sp i = s.element sp i := by
  have hu : (syNormwin c (syIrfft (sySymm (syRect c s)))).mem = s.mem := by simp
  have he : (syNormwin c (syIrfft (sySymm (syRect c s)))).element sp i = s.element sp i := by
    unfold State.element
    rw [hu]
  rw [synthesize, (syOla_element (by rw [hu]; exact h) (by simp [Cfg.len]; omega) c sp i).1
    (by simpa using hne), he]

/-! ### A cycle -/

theorem cycleChannel_wf {s : State} (h : s.mem.wf) (c : Chan) : (cycleChannel c s).mem.wf :=
  synthesize_wf (exchange_wf (analyze_wf (analyze_wf h _ _) _ _) _) _

/-- A channel's part of a cycle writes its own spectra and the `N` overlap-add elements from the write
cursor, and no other element. -/
theorem cycleChannel_element_other {s : State} (h : s.mem.wf) (c : Chan) (sp : Space) (i : Nat)
    (hm : ∀ st, sp ≠ .specMag st c) (hp : ∀ st, sp ≠ .specPh st c) (hmm : sp ≠ .mixMag c)
    (hmp : sp ≠ .mixPh c)
    (hne : ∀ k, k < s.cfg.n → ¬ (sp = .ola c ∧ i = (s.olaWr + k) % s.cfg.len)) :
    (cycleChannel c s).element sp i = s.element sp i := by
  have hA : ∀ (st : Stream) (t : State), t.mem.wf → (analyze st c t).element sp i = t.element sp i := by
    intro st t ht
    rw [analyze, anPolar_element (by simpa using ht), if_neg (by simp [hm]), if_neg (by simp [hp])]
    unfold State.element
    simp
  have hw := analyze_wf h .main c
  have hw2 := analyze_wf hw .side c
  rw [cycleChannel, synthesize_element_other (exchange_wf hw2 c) c sp i (by simpa using hne),
    exchange_element hw2, if_neg (by simp [hmm]), if_neg (by simp [hmp]), hA _ _ hw, hA _ _ h]

theorem cycle_wf {s : State} (h : s.mem.wf) : (cycle s).mem.wf := by
  have hc : (cycle s).mem
      = (forChannels cycleChannel (snapAll { s with drv := .cycle })).mem := by
    simp only [cycle]
    rw [accConsume_mem, syAdv_mem]
  rw [hc]
  exact forChannels_preserves (K := fun t => t.mem.wf) (fun c _ ht => cycleChannel_wf ht c)
    (by simpa using h)

/-- A cycle leaves every element of the rings alone, and every overlap-add element outside the frame. -/
theorem cycle_element_other {s : State} (h : s.mem.wf) (sp : Space) (i : Nat)
    (hsp : (∃ st c, sp = .ring st c) ∨
      ∃ c, sp = .ola c ∧ ∀ k, k < s.cfg.n → i ≠ (s.olaWr + k) % s.cfg.len) :
    (cycle s).element sp i = s.element sp i := by
  have hc : (cycle s).element sp i
      = (forChannels cycleChannel (snapAll { s with drv := .cycle })).element sp i := by
    unfold State.element
    simp only [cycle]
    rw [accConsume_mem, syAdv_mem]
  have hs : (snapAll { s with drv := .cycle }).element sp i = s.element sp i := by
    unfold State.element
    simp
  rw [hc]
  refine (forChannels_preserves (K := fun t => t.mem.wf ∧ t.cfg = s.cfg ∧ t.olaWr = s.olaWr ∧
    t.element sp i = s.element sp i) ?_ ⟨by simpa using h, by simp, by simp, hs⟩).2.2.2
  intro c t ⟨hw, hg, ho, he⟩
  refine ⟨cycleChannel_wf hw c, by simp [hg], by simp [ho], ?_⟩
  rw [cycleChannel_element_other hw, he]
  case hne =>
    intro k hk hbad
    rcases hsp with ⟨_, _, rfl⟩ | ⟨_, rfl, hne⟩
    · simp at hbad
    · rw [hg, ho] at hbad
      exact hne k (by rw [← hg]; exact hk) hbad.2
  all_goals (rcases hsp with ⟨_, _, rfl⟩ | ⟨_, rfl, _⟩ <;> simp)

@[simp] theorem cycle_olaWr (s : State) : (cycle s).olaWr = (s.olaWr + s.cfg.hop) % s.cfg.len := by
  simp only [cycle]
  rw [accConsume_olaWr, syAdv, forChannels_keeps State.olaWr cycleChannel_olaWr,
    forChannels_keeps State.cfg cycleChannel_cfg]
  simp

@[simp] theorem cycle_drv (s : State) : (cycle s).drv = .accumulating := rfl

theorem cycle_ring (st : Stream) (c : Chan) (s : State) :
    (cycle s).ring st c =
      if c.val < s.cfg.nch then (s.ring st c).afterConsume s.cfg else s.ring st c := by
  have hr : ∀ st c, (syAdv (forChannels cycleChannel (snapAll { s with drv := .cycle }))).ring st c
      = s.ring st c := by
    intro st c
    unfold State.ring
    rw [syAdv_rings, forChannels_keeps State.rings cycleChannel_rings]
    simp
  have hg : (syAdv (forChannels cycleChannel (snapAll { s with drv := .cycle }))).cfg = s.cfg := by
    rw [syAdv_cfg, forChannels_keeps State.cfg cycleChannel_cfg]
    simp
  have : (cycle s).ring st c
      = (accConsume (syAdv (forChannels cycleChannel (snapAll { s with drv := .cycle })))).ring st c :=
    rfl
  rw [this, accConsume_ring, hr, hg]

end Sys2Proof.Machine
end

