-- ==== Sys2Proof/Laws/Bands.lean ====
section
/-! SUPPORT. The integer laws of the index derivation (44_exchanger.md R126 to R128, R136): what each
step writes into its band, and that the registers hold the exact integers. -/

namespace Sys2Proof.Machine

/-- A register holds every integer of the 32-bit signed range exactly. -/
theorem register_toInt {z : Int} (h1 : -2 ^ 31 ≤ z) (h2 : z < 2 ^ 31) : (register z).toInt = z := by
  unfold register
  rw [BitVec.toInt_ofInt, Int.bmod_eq_of_le_mul_two] <;> omega

theorem saturate_range (z : Int) : -2 ^ 31 ≤ saturate z ∧ saturate z < 2 ^ 31 := by
  unfold saturate
  omega

/-- `NUM.roundsat` saturates to the 32-bit signed range in every construction. -/
theorem roundsat_range (g : Cfg) (w : Word) :
    -2 ^ 31 ≤ g.numerics.roundsat w ∧ g.numerics.roundsat w < 2 ^ 31 := by
  have base : g.numerics.roundsat = (baseNumerics g).roundsat := by rw [numerics_eq]
  rw [base, baseNumerics]
  split
  · simp only [binary32, F32.roundsat]
    split
    · omega
    · split
      · split <;> omega
      · exact saturate_range _
  · simp only [lawfulNum, RawNum.record, RawNum.toRegister]
    split
    · omega
    · split
      · exact saturate_range _
      · split <;> omega

theorem bxBin_band (b : Band) (s : State) :
    (bxBin b s).band b = { s.band b with bin := register (binIndex s (s.snapCut b)) } := by
  cases b <;> rfl

theorem bxBin_band_other {b b' : Band} (h : b' ≠ b) (s : State) :
    (bxBin b s).band b' = s.band b' := by
  cases b <;> cases b' <;> first | rfl | exact absurd rfl h

theorem bxHalfw_band (b : Band) (s : State) :
    (bxHalfw b s).band b = { s.band b with hw := register (max 1 (rawHalfWidth s b)) } := by
  cases b <;> rfl

theorem bxHalfw_band_other {b b' : Band} (h : b' ≠ b) (s : State) :
    (bxHalfw b s).band b' = s.band b' := by
  cases b <;> cases b' <;> first | rfl | exact absurd rfl h

theorem bxInterval_band (b : Band) (s : State) :
    (bxInterval b s).band b =
      { s.band b with
        start := register (max (s.band b).low 0)
        stop := register (min (s.band b).high (s.cfg.n / 2 : Nat)) } := by
  cases b <;> rfl

theorem bxInterval_band_other {b b' : Band} (h : b' ≠ b) (s : State) :
    (bxInterval b s).band b' = s.band b' := by
  cases b <;> cases b' <;> first | rfl | exact absurd rfl h

theorem bin_range (s : State) (f : Word) : -2 ^ 31 ≤ binIndex s f ∧ binIndex s f < 2 ^ 31 := by
  simp only [binIndex]
  split
  · omega
  · exact roundsat_range _ _

theorem bin_toInt (s : State) (f : Word) : (register (binIndex s f)).toInt = binIndex s f :=
  register_toInt (bin_range s f).1 (bin_range s f).2

theorem hw_toInt (s : State) (b : Band) :
    (register (max 1 (rawHalfWidth s b))).toInt = max 1 (rawHalfWidth s b) := by
  have := bin_range s (s.cfg.numerics.div (bandWidth s b) s.cfg.numerics.two)
  apply register_toInt <;> (unfold rawHalfWidth; split <;> omega)

theorem start_toInt {r : BandRegs} (h : 0 ≤ r.hw.toInt) :
    (register (max r.low 0)).toInt = max r.low 0 := by
  have := BitVec.toInt_lt (x := r.bin)
  apply register_toInt <;> (unfold BandRegs.low; omega)

theorem stop_toInt {r : BandRegs} (h : 0 ≤ r.hw.toInt) {g : Cfg} (hg : g.legal = true) :
    (register (min r.high (g.n / 2 : Nat))).toInt = min r.high (g.n / 2 : Nat) := by
  have := BitVec.le_toInt (x := r.bin)
  have := legal_bounds hg
  apply register_toInt <;> (unfold BandRegs.high; omega)

end Sys2Proof.Machine
end

