-- ==== Sys2Proof/Laws/Encoding.lean ====
section
/-! SUPPORT. The laws of the header fields and of the operand fields of the encodings. -/

namespace Sys2Proof

theorem header_toNat (op : BitVec 8) (sel aux : BitVec 4) (imm : BitVec 16) :
    (header op sel aux imm).toNat
      = op.toNat * 2 ^ 24 + sel.toNat * 2 ^ 20 + aux.toNat * 2 ^ 16 + imm.toNat := by
  have h1 := op.isLt
  have h2 := sel.isLt
  have h3 := aux.isLt
  have h4 := imm.isLt
  unfold header
  rw [BitVec.toNat_append, ← Nat.shiftLeft_add_eq_or_of_lt h4, BitVec.toNat_append,
    ← Nat.shiftLeft_add_eq_or_of_lt h3, BitVec.toNat_append, ← Nat.shiftLeft_add_eq_or_of_lt h2]
  simp only [Nat.shiftLeft_eq]
  omega

theorem opField_toNat (w : Word) : (opField w).toNat = w.toNat / 2 ^ 24 := by
  have := w.isLt
  simp only [opField, BitVec.extractLsb'_toNat, Nat.shiftRight_eq_div_pow]
  omega

theorem selField_toNat (w : Word) : (selField w).toNat = w.toNat / 2 ^ 20 % 16 := by
  simp only [selField, BitVec.extractLsb'_toNat, Nat.shiftRight_eq_div_pow]

theorem auxField_toNat (w : Word) : (auxField w).toNat = w.toNat / 2 ^ 16 % 16 := by
  simp only [auxField, BitVec.extractLsb'_toNat, Nat.shiftRight_eq_div_pow]

theorem immField_toNat (w : Word) : (immField w).toNat = w.toNat % 2 ^ 16 := by
  simp only [immField, BitVec.extractLsb'_toNat, Nat.shiftRight_eq_div_pow]
  omega

@[simp] theorem opField_header (op : BitVec 8) (sel aux : BitVec 4) (imm : BitVec 16) :
    opField (header op sel aux imm) = op := by
  have h1 := op.isLt
  have h2 := sel.isLt
  have h3 := aux.isLt
  have h4 := imm.isLt
  apply BitVec.eq_of_toNat_eq
  rw [opField_toNat, header_toNat]
  omega

@[simp] theorem selField_header (op : BitVec 8) (sel aux : BitVec 4) (imm : BitVec 16) :
    selField (header op sel aux imm) = sel := by
  have h1 := op.isLt
  have h2 := sel.isLt
  have h3 := aux.isLt
  have h4 := imm.isLt
  apply BitVec.eq_of_toNat_eq
  rw [selField_toNat, header_toNat]
  omega

@[simp] theorem auxField_header (op : BitVec 8) (sel aux : BitVec 4) (imm : BitVec 16) :
    auxField (header op sel aux imm) = aux := by
  have h1 := op.isLt
  have h2 := sel.isLt
  have h3 := aux.isLt
  have h4 := imm.isLt
  apply BitVec.eq_of_toNat_eq
  rw [auxField_toNat, header_toNat]
  omega

@[simp] theorem immField_header (op : BitVec 8) (sel aux : BitVec 4) (imm : BitVec 16) :
    immField (header op sel aux imm) = imm := by
  have h1 := op.isLt
  have h2 := sel.isLt
  have h3 := aux.isLt
  have h4 := imm.isLt
  apply BitVec.eq_of_toNat_eq
  rw [immField_toNat, header_toNat]
  omega

theorem header_fields (w : Word) :
    header (opField w) (selField w) (auxField w) (immField w) = w := by
  apply BitVec.eq_of_toNat_eq
  rw [header_toNat, opField_toNat, selField_toNat, auxField_toNat, immField_toNat]
  omega

@[simp] theorem isMicroWord_header (op : BitVec 8) (sel aux : BitVec 4) (imm : BitVec 16) :
    isMicroWord (header op sel aux imm) = op.getLsbD 7 := by simp [isMicroWord]

@[simp] theorem streamOf_streamField (st : Stream) : streamOf (streamField st) = st := by
  cases st <;> rfl

@[simp] theorem streamField_ok (st : Stream) : (streamField st).extractLsb' 1 3 = 0 := by
  cases st <;> decide

@[simp] theorem chanOf_chanField (c : Chan) : chanOf (chanField c) = c := rfl

@[simp] theorem bandOf_bandField (b : Band) : bandOf (bandField b) = some b := by
  cases b <;> rfl

@[simp] theorem activeField_ok (sc : Bool) : (activeField sc).extractLsb' 1 3 = 0 := by
  cases sc <;> decide

@[simp] theorem activeField_bit (sc : Bool) : (activeField sc).getLsbD 0 = sc := by
  cases sc <;> decide

@[simp] theorem activeField_bit0 (sc : Bool) : (activeField sc)[0] = sc := by
  cases sc <;> decide

theorem streamField_streamOf {sel : BitVec 4} (h : sel.extractLsb' 1 3 = 0) :
    streamField (streamOf sel) = sel := by
  revert h
  revert sel
  decide

theorem activeField_of {aux : BitVec 4} (h : aux.extractLsb' 1 3 = 0) :
    activeField (aux.getLsbD 0) = aux := by
  revert h
  revert aux
  decide

theorem bandField_of {sel : BitVec 4} {b : Band} (h : bandOf sel = some b) :
    bandField b = sel := by
  unfold bandOf at h
  split at h
  · next h1 => cases h; exact h1.symm
  · split at h
    · next h2 => cases h; exact h2.symm
    · cases h

@[simp] theorem chanField_chanOf (a : BitVec 4) : chanField (chanOf a) = a := rfl

theorem header_of {w : Word} {op : BitVec 8} {sel aux : BitVec 4} {imm : BitVec 16}
    (h1 : opField w = op) (h2 : selField w = sel) (h3 : auxField w = aux) (h4 : immField w = imm) :
    header op sel aux imm = w := by
  subst h1 h2 h3 h4
  exact header_fields w

theorem microStream_op {w : Word} {k : Stream → Chan → Instr} {i : Instr}
    (h : microStream w k = .op i) :
    ∃ st c, i = k st c ∧ header (opField w) (streamField st) (chanField c) 0 = w := by
  unfold microStream at h
  split at h
  · rename_i hz
    cases h
    exact ⟨_, _, rfl, header_of rfl (streamField_streamOf hz.1).symm (chanField_chanOf _).symm hz.2⟩
  · cases h

theorem microChan_op {w : Word} {k : Chan → Instr} {i : Instr} (h : microChan w k = .op i) :
    ∃ c, i = k c ∧ header (opField w) 0 (chanField c) 0 = w := by
  unfold microChan at h
  split at h
  · rename_i hz
    cases h
    exact ⟨_, rfl, header_of rfl hz.1 (chanField_chanOf _).symm hz.2⟩
  · cases h

theorem microPlain_op {w : Word} {j i : Instr} (h : microPlain w j = .op i) :
    i = j ∧ header (opField w) 0 0 0 = w := by
  unfold microPlain at h
  split at h
  · rename_i hz
    cases h
    exact ⟨rfl, header_of rfl hz.1 hz.2.1 hz.2.2⟩
  · cases h

theorem microBand_op {w : Word} {k : Band → Instr} {i : Instr} (h : microBand w k = .op i) :
    ∃ b, i = k b ∧ header (opField w) (bandField b) 0 0 = w := by
  unfold microBand at h
  split at h
  · rename_i hz
    split at h
    · rename_i b hb
      cases h
      exact ⟨_, rfl, header_of rfl (bandField_of hb).symm hz.1 hz.2⟩
    · cases h
  · cases h

theorem microBandChan_op {w : Word} {k : Band → Chan → Instr} {i : Instr}
    (h : microBandChan w k = .op i) :
    ∃ b c, i = k b c ∧ header (opField w) (bandField b) (chanField c) 0 = w := by
  unfold microBandChan at h
  split at h
  · rename_i hz
    split at h
    · rename_i b hb
      cases h
      exact ⟨_, _, rfl, header_of rfl (bandField_of hb).symm (chanField_chanOf _).symm hz⟩
    · cases h
  · cases h

theorem setp_encode {sel : BitVec 4} {v : Word} {i : Instr} (h : setpOf sel v = some i) :
    encode i = [header 3 sel 0 0, v] := by
  unfold setpOf at h
  repeat' split at h
  all_goals (cases h <;> subst_vars <;> rfl)

theorem ofNat_header {x : Nat} {op : BitVec 8} {sel aux : BitVec 4} {imm : BitVec 16}
    (h : x = op.toNat * 2 ^ 24 + sel.toNat * 2 ^ 20 + aux.toNat * 2 ^ 16 + imm.toNat) :
    BitVec.ofNat 32 x = header op sel aux imm := by
  apply BitVec.eq_of_toNat_eq
  have := (header op sel aux imm).isLt
  rw [header_toNat] at *
  rw [BitVec.toNat_ofNat, ← h]
  omega

end Sys2Proof
end

