-- ==== Sys2Proof/Laws/PerInstr.lean ====
section
/-! SUPPORT. A family of statements made for every instruction: the first word of its encoding matches
its row of spec/opcode_table.json, under the row's mask. -/

namespace Sys2Proof.Laws.EncodesItsTableRow

/-- The `(mask, match)` pair of an instruction's row of spec/opcode_table.json. -/
def row : Instr → Word × Word
  | .nop => (0xFFFFFFFF, 0x00000000)
  | .prepare _ _ => (0xFFFF0000, 0x01000000)
  | .release => (0xFFFFFFFF, 0x02000000)
  | .setpCut1 _ => (0xFFFFFFFF, 0x03000000)
  | .setpCut2 _ => (0xFFFFFFFF, 0x03100000)
  | .setpBlen _ => (0xFFFFFFFF, 0x03200000)
  | .setpXmode _ => (0xFFFFFFFF, 0x03300000)
  | .setpMix1 _ => (0xFFFFFFFF, 0x03400000)
  | .setpMix2 _ => (0xFFFFFFFF, 0x03500000)
  | .process _ _ _ => (0xFF0E0000, 0x04000000)
  | .accWrite _ _ => (0xFFE0FFFF, 0x80000000)
  | .accReady => (0xFFFFFFFF, 0x81000000)
  | .accFrame _ _ => (0xFFE0FFFF, 0x82000000)
  | .accConsume => (0xFFFFFFFF, 0x83000000)
  | .snap => (0xFFFFFFFF, 0x88000000)
  | .anWindow _ _ => (0xFFE0FFFF, 0x90000000)
  | .anRfft _ _ => (0xFFE0FFFF, 0x91000000)
  | .anPolar _ _ => (0xFFE0FFFF, 0x92000000)
  | .analyze _ _ => (0xFFE0FFFF, 0x93000000)
  | .bxBin _ => (0xFF0FFFFF, 0xA0000000)
  | .bxHalfw _ => (0xFF0FFFFF, 0xA1000000)
  | .bxInterval _ => (0xFF0FFFFF, 0xA2000000)
  | .bxMixp _ _ => (0xFF00FFFF, 0xA3000000)
  | .bxMixf _ => (0xFFF0FFFF, 0xA4000000)
  | .exchange _ => (0xFFF0FFFF, 0xA5000000)
  | .syRect _ => (0xFFF0FFFF, 0xB0000000)
  | .sySymm _ => (0xFFF0FFFF, 0xB1000000)
  | .syIrfft _ => (0xFFF0FFFF, 0xB2000000)
  | .syNormwin _ => (0xFFF0FFFF, 0xB3000000)
  | .syOla _ => (0xFFF0FFFF, 0xB4000000)
  | .synthesize _ => (0xFFF0FFFF, 0xB5000000)
  | .syAdv => (0xFFFFFFFF, 0xB6000000)
  | .drvEmit => (0xFFFFFFFF, 0xC0000000)
  | .drvBypass => (0xFFFFFFFF, 0xC1000000)
  | .drvCycle => (0xFFFFFFFF, 0xC2000000)
  | .drvBeat => (0xFFFFFFFF, 0xC3000000)

/-- The first word of the encoding, under the mask, is the match of the row. -/
def Statement (i : Instr) : Prop := ∃ w ws, encode i = w :: ws ∧ w &&& (row i).1 = (row i).2

theorem masked_header (op mop : BitVec 8) (sel aux msel maux : BitVec 4) (imm mimm : BitVec 16) :
    header op sel aux imm &&& header mop msel maux mimm
      = header (op &&& mop) (sel &&& msel) (aux &&& maux) (imm &&& mimm) := by
  unfold header
  change (op ++ sel ++ aux ++ imm) &&& (mop ++ msel ++ maux ++ mimm) = _
  rw [BitVec.and_append, BitVec.and_append, BitVec.and_append]

theorem nop : Statement (.nop) := ⟨_, _, rfl, by decide⟩

theorem prepare (sr : Word) (maxBlk : BitVec 16) : Statement (.prepare sr maxBlk) := by
  refine ⟨_, _, rfl, (masked_header 0x01 0xFF 0 0 0xF 0xF maxBlk 0).trans ?_⟩
  rw [show maxBlk &&& 0 = 0 from BitVec.and_zero]
  rfl

theorem release : Statement (.release) := ⟨_, _, rfl, by decide⟩

theorem setpCut1 (v : Word) : Statement (.setpCut1 v) :=
  ⟨_, _, rfl, masked_header 0x03 0xFF 0 0 0xF 0xF 0 0xFFFF⟩

theorem setpCut2 (v : Word) : Statement (.setpCut2 v) :=
  ⟨_, _, rfl, masked_header 0x03 0xFF 1 0 0xF 0xF 0 0xFFFF⟩

theorem setpBlen (v : Word) : Statement (.setpBlen v) :=
  ⟨_, _, rfl, masked_header 0x03 0xFF 2 0 0xF 0xF 0 0xFFFF⟩

theorem setpXmode (v : Word) : Statement (.setpXmode v) :=
  ⟨_, _, rfl, masked_header 0x03 0xFF 3 0 0xF 0xF 0 0xFFFF⟩

theorem setpMix1 (v : Word) : Statement (.setpMix1 v) :=
  ⟨_, _, rfl, masked_header 0x03 0xFF 4 0 0xF 0xF 0 0xFFFF⟩

theorem setpMix2 (v : Word) : Statement (.setpMix2 v) :=
  ⟨_, _, rfl, masked_header 0x03 0xFF 5 0 0xF 0xF 0 0xFFFF⟩

theorem process (nsamp : BitVec 16) (scActive : Bool) (scNch : BitVec 4) :
    Statement (.process nsamp scActive scNch) := by
  refine ⟨_, _, rfl, (masked_header 0x04 0xFF scNch (activeField scActive) 0 0xE nsamp 0).trans ?_⟩
  rw [show scNch &&& 0 = 0 from BitVec.and_zero, show nsamp &&& 0 = 0 from BitVec.and_zero]
  cases scActive <;> rfl

theorem accWrite (st : Stream) (c : Chan) : Statement (.accWrite st c) := by
  refine ⟨_, _, rfl, ?_⟩
  cases st <;> (revert c; decide)

theorem accReady : Statement (.accReady) := ⟨_, _, rfl, by decide⟩

theorem accFrame (st : Stream) (c : Chan) : Statement (.accFrame st c) := by
  refine ⟨_, _, rfl, ?_⟩
  cases st <;> (revert c; decide)

theorem accConsume : Statement (.accConsume) := ⟨_, _, rfl, by decide⟩

theorem snap : Statement (.snap) := ⟨_, _, rfl, by decide⟩

theorem anWindow (st : Stream) (c : Chan) : Statement (.anWindow st c) := by
  refine ⟨_, _, rfl, ?_⟩
  cases st <;> (revert c; decide)

theorem anRfft (st : Stream) (c : Chan) : Statement (.anRfft st c) := by
  refine ⟨_, _, rfl, ?_⟩
  cases st <;> (revert c; decide)

theorem anPolar (st : Stream) (c : Chan) : Statement (.anPolar st c) := by
  refine ⟨_, _, rfl, ?_⟩
  cases st <;> (revert c; decide)

theorem analyze (st : Stream) (c : Chan) : Statement (.analyze st c) := by
  refine ⟨_, _, rfl, ?_⟩
  cases st <;> (revert c; decide)

theorem bxBin (b : Band) : Statement (.bxBin b) := by
  refine ⟨_, _, rfl, ?_⟩
  cases b <;> decide

theorem bxHalfw (b : Band) : Statement (.bxHalfw b) := by
  refine ⟨_, _, rfl, ?_⟩
  cases b <;> decide

theorem bxInterval (b : Band) : Statement (.bxInterval b) := by
  refine ⟨_, _, rfl, ?_⟩
  cases b <;> decide

theorem bxMixp (b : Band) (c : Chan) : Statement (.bxMixp b c) := by
  refine ⟨_, _, rfl, ?_⟩
  cases b <;> (revert c; decide)

theorem bxMixf (c : Chan) : Statement (.bxMixf c) := by
  refine ⟨_, _, rfl, ?_⟩
  revert c
  decide

theorem exchange (c : Chan) : Statement (.exchange c) := by
  refine ⟨_, _, rfl, ?_⟩
  revert c
  decide

theorem syRect (c : Chan) : Statement (.syRect c) := by
  refine ⟨_, _, rfl, ?_⟩
  revert c
  decide

theorem sySymm (c : Chan) : Statement (.sySymm c) := by
  refine ⟨_, _, rfl, ?_⟩
  revert c
  decide

theorem syIrfft (c : Chan) : Statement (.syIrfft c) := by
  refine ⟨_, _, rfl, ?_⟩
  revert c
  decide

theorem syNormwin (c : Chan) : Statement (.syNormwin c) := by
  refine ⟨_, _, rfl, ?_⟩
  revert c
  decide

theorem syOla (c : Chan) : Statement (.syOla c) := by
  refine ⟨_, _, rfl, ?_⟩
  revert c
  decide

theorem synthesize (c : Chan) : Statement (.synthesize c) := by
  refine ⟨_, _, rfl, ?_⟩
  revert c
  decide

theorem syAdv : Statement (.syAdv) := ⟨_, _, rfl, by decide⟩

theorem drvEmit : Statement (.drvEmit) := ⟨_, _, rfl, by decide⟩

theorem drvBypass : Statement (.drvBypass) := ⟨_, _, rfl, by decide⟩

theorem drvCycle : Statement (.drvCycle) := ⟨_, _, rfl, by decide⟩

theorem drvBeat : Statement (.drvBeat) := ⟨_, _, rfl, by decide⟩

end Sys2Proof.Laws.EncodesItsTableRow
end

