-- ==== Sys2Proof/Laws/Step.lean ====
section
/-! SUPPORT. What a step is, by what the turns, the queue, the block context and the command port hold;
and what a beat does to the rings, the cursors and the ports. -/

namespace Sys2Proof.Machine

/-! ### Which operation a step runs -/

@[simp] theorem turnTaken_of_nil {s : State} (h : s.turns = []) : s.turnTaken = s := by
  unfold State.turnTaken
  rw [h, List.tail_nil]
  cases s
  simp_all

theorem step_driver {s : State} (h : s.driverNext) : step s = driverTurn s.turnTaken := by
  unfold step takeTurn
  rcases h with h | h
  · rw [turnTaken_of_nil h, h]
  · cases ht : s.turns with
    | nil =>
      rw [ht] at h
      cases h
    | cons t ts =>
      rw [ht] at h
      simp only [List.head?_cons, Option.some.injEq] at h
      subst h
      simp [State.turnTaken, ht]

theorem step_micro {s : State} (h : s.driverNext) {w : Word} {ws : List Word}
    (hi : s.issue = w :: ws) : step s = runMicro w { s.turnTaken with issue := ws } := by
  rw [step_driver h, driverTurn]
  simp [State.turnTaken, hi]

theorem step_command {s : State} (h : s.driverNext) (hi : s.issue = []) (hb : s.blkRem = 0) :
    step s = runCommand s.turnTaken := by
  rw [step_driver h, driverTurn]
  simp [State.turnTaken, hi, hb]

theorem step_beat {s : State} (h : s.driverNext) (hi : s.issue = []) (hb : s.blkRem ≠ 0) :
    step s = runBeat s.turnTaken := by
  have hi' : s.turnTaken.issue = [] := hi
  have hb' : s.turnTaken.blkRem ≠ 0 := hb
  rw [step_driver h, driverTurn, hi']
  exact if_neg hb'

/-- A beat whose samples wait, and the count of beats left after it. -/
theorem runBeat_ready {s : State} (h : s.beatReady = true) :
    runBeat s = .next { beat s with blkRem := s.blkRem - 1 } := by
  simp [runBeat, exec, execDrvBeat, h, countBeat]

theorem runBeat_next {s t : State} (h : runBeat s = .next t) :
    s.beatReady = true ∧ t = { beat s with blkRem := s.blkRem - 1 } := by
  by_cases hr : s.beatReady = true
  · rw [runBeat_ready hr] at h
    exact ⟨hr, by cases h; rfl⟩
  · simp [runBeat, exec, execDrvBeat, hr, countBeat] at h

/-! ### An active beat -/

theorem framesReady_iff (s : State) :
    s.framesReady = true ↔
      ∀ (st : Stream) (c : Chan), c.val < s.cfg.nch → (s.ring st c).cnt = s.cfg.n := by
  simp only [State.framesReady, List.all_eq_true, Bool.and_eq_true, decide_eq_true_eq, mem_channels]
  constructor
  · intro h st c hc
    cases st
    · exact (h c hc).1
    · exact (h c hc).2
  · intro h c hc
    exact ⟨h .main c hc, h .side c hc⟩

/-- The state of an active beat before the test for a cycle. -/
theorem beatInput_ring (s : State) (st : Stream) (c : Chan) :
    (accReady (leaveIdle (takeBeat (emit s)))).ring st c =
      if c.val < s.cfg.nch then (s.ring st c).afterWrite s.cfg.n else s.ring st c := by
  have : (accReady (leaveIdle (takeBeat (emit s)))).ring st c = (takeBeat (emit s)).ring st c := rfl
  rw [this, takeBeat_ring, emit_ring, emit_cfg]

theorem beatInput_wf {s : State} (h : s.mem.wf) :
    (accReady (leaveIdle (takeBeat (emit s)))).mem.wf := takeBeat_wf (emit_wf h)

theorem activeBeat_wf {s : State} (h : s.mem.wf) : (activeBeat s).mem.wf := by
  unfold activeBeat cycleIfReady
  split
  · exact cycle_wf (beatInput_wf h)
  · exact beatInput_wf h

theorem beat_wf {s : State} (h : s.mem.wf) : (beat s).mem.wf := by
  unfold beat
  split
  · exact activeBeat_wf h
  · rwa [bypass_mem]

/-- Whether a beat's input completes every frame. -/
def State.completesFrames (s : State) : Prop :=
  ∀ (st : Stream) (c : Chan), c.val < s.cfg.nch →
    ((s.ring st c).afterWrite s.cfg.n).cnt = s.cfg.n

theorem beatInput_ready (s : State) :
    (accReady (leaveIdle (takeBeat (emit s)))).scratch.ready = true ↔ s.completesFrames := by
  have h1 : (accReady (leaveIdle (takeBeat (emit s)))).scratch.ready
      = (leaveIdle (takeBeat (emit s))).framesReady := rfl
  have hc : (leaveIdle (takeBeat (emit s))).cfg = s.cfg := by simp
  have hr : ∀ st (c : Chan), (leaveIdle (takeBeat (emit s))).ring st c
      = if c.val < s.cfg.nch then (s.ring st c).afterWrite s.cfg.n else s.ring st c :=
    fun st c => beatInput_ring s st c
  rw [h1, framesReady_iff, hc]
  unfold State.completesFrames
  constructor
  · intro h st c hlt
    have := h st c hlt
    rwa [hr, if_pos hlt] at this
  · intro h st c hlt
    rw [hr, if_pos hlt]
    exact h st c hlt

theorem activeBeat_ring (s : State) (st : Stream) (c : Chan) [Decidable s.completesFrames] :
    (activeBeat s).ring st c =
      if c.val < s.cfg.nch then
        if s.completesFrames then ((s.ring st c).afterWrite s.cfg.n).afterConsume s.cfg
        else (s.ring st c).afterWrite s.cfg.n
      else s.ring st c := by
  unfold activeBeat cycleIfReady
  by_cases h : s.completesFrames
  · rw [if_pos ((beatInput_ready s).mpr h), cycle_ring, beatInput_ring]
    by_cases hc : c.val < s.cfg.nch <;> simp [hc, h]
  · rw [if_neg (fun e => h ((beatInput_ready s).mp e)), beatInput_ring]
    by_cases hc : c.val < s.cfg.nch <;> simp [hc, h]

@[simp] theorem activeBeat_olaRd (s : State) :
    (activeBeat s).olaRd = (s.olaRd + 1) % s.cfg.len := by
  unfold activeBeat cycleIfReady
  split <;> simp

theorem activeBeat_olaWr (s : State) [Decidable s.completesFrames] :
    (activeBeat s).olaWr =
      if s.completesFrames then (s.olaWr + s.cfg.hop) % s.cfg.len else s.olaWr := by
  unfold activeBeat cycleIfReady
  by_cases h : s.completesFrames
  · rw [if_pos ((beatInput_ready s).mpr h), if_pos h]
    simp
  · rw [if_neg (fun e => h ((beatInput_ready s).mp e)), if_neg h]
    simp

theorem activeBeat_drv (s : State) (h : s.drv ≠ .cycle) : (activeBeat s).drv = .accumulating := by
  unfold activeBeat cycleIfReady
  split
  · simp
  · have : (accReady (leaveIdle (takeBeat (emit s)))).drv
        = if (takeBeat (emit s)).drv = .idle then .accumulating else (takeBeat (emit s)).drv := by
      simp [leaveIdle]
    rw [this, takeBeat_drv, emit_drv]
    cases hd : s.drv <;> simp_all

theorem activeBeat_waiting (s : State) (st : Stream) (c : Chan) :
    (activeBeat s).waiting st c =
      if c.val < s.cfg.nch then (s.waiting st c).tail else s.waiting st c := by
  have h : (activeBeat s).samplesIn = (takeBeat (emit s)).samplesIn := by
    unfold activeBeat cycleIfReady
    split <;> simp
  have h' : (activeBeat s).waiting st c = (takeBeat (emit s)).waiting st c := by
    unfold State.waiting
    rw [h]
  rw [h', takeBeat_waiting, emit_waiting, emit_cfg]

theorem activeBeat_out {s : State} (h : s.mem.wf) (c : Chan) :
    (activeBeat s).samplesOut[c] =
      if c.val < s.cfg.nch then s.samplesOut[c] ++ [s.element (.ola c) s.olaRd]
      else s.samplesOut[c] := by
  have h' : (activeBeat s).samplesOut = (emit s).samplesOut := by
    unfold activeBeat cycleIfReady
    split <;> simp
  rw [h', emit_out h]

theorem beatInput_ola {s : State} (h : s.mem.wf) (c : Chan) (i : Nat) :
    (accReady (leaveIdle (takeBeat (emit s)))).element (.ola c) i =
      if c.val < s.cfg.nch ∧ i = s.olaRd then Numerics.zero else s.element (.ola c) i := by
  have : (accReady (leaveIdle (takeBeat (emit s)))).element (.ola c) i
      = (takeBeat (emit s)).element (.ola c) i := rfl
  rw [this, takeBeat_ola (emit_wf h), emit_element h]
  simp

/-- An active beat clears the element it emits, and a cycle in it adds only to the `N` elements from the
write cursor. -/
theorem activeBeat_ola {s : State} (h : s.mem.wf) (c : Chan) (i : Nat)
    (hne : s.completesFrames → ∀ k, k < s.cfg.n → i ≠ (s.olaWr + k) % s.cfg.len) :
    (activeBeat s).element (.ola c) i =
      if c.val < s.cfg.nch ∧ i = s.olaRd then Numerics.zero else s.element (.ola c) i := by
  unfold activeBeat cycleIfReady
  split
  · next hr =>
    rw [cycle_element_other (beatInput_wf h), beatInput_ola h]
    refine .inr ⟨c, rfl, ?_⟩
    simpa using hne ((beatInput_ready s).mp hr)
  · rw [beatInput_ola h]

end Sys2Proof.Machine
end

