-- ==== Sys2Proof/Tests/Slice0.lean ====
section
/-! SUPPORT. The model's own tests. Expected values are the spec's (95_test_vectors.md, named in each
docstring, or a worked example of a rule), and for every obligation with hypotheses a theorem shows a
state and operands that meet them. -/

namespace Sys2Proof.Tests

open Sys2Proof.Machine

/-! ### Small machines -/

/-- `N = 4`, one channel, no overlap, the reference transform. -/
def cfg4 : Cfg :=
  { logn := 2, hopHalf := false, nch := 1, wpol := .ratio, sidepol := .same
    window := .hann, num := .binary32, transform := .reference }

/-- The same at 50 % overlap. -/
def cfg4Half : Cfg := { cfg4 with hopHalf := true }

/-- The same with two channels. -/
def cfg4Two : Cfg := { cfg4 with nch := 2 }

/-- The same with a named transform instead of the reference one. -/
def cfg4Free : Cfg := { cfg4 with transform := .implementation }

/-- The same with another numerics record. -/
def cfg4Num : Cfg := { cfg4 with num := .other }

/-- The same with `WPOL = ABS_HZ` and `SIDEPOL = OTHER`. -/
def cfg4Other : Cfg := { cfg4 with wpol := .absHz, sidepol := .other }

/-- `N = 16`, one channel. -/
def cfg16 : Cfg := { cfg4 with logn := 4 }

/-- A core right after `PREPARE` with sample rate `sr`. -/
def core (g : Cfg) (sr : Word) : State :=
  { State.resetOf g with sr := sr, prepared := true, mem := Memory.zeroed }

/-- The state with every main port and every sidechain port holding the given samples. -/
def feed (m x : List Word) (s : State) : State :=
  { s with samplesIn := { main := Vector.replicate 16 m, side := Vector.replicate 16 x } }

/-- The state with every ring at the given cursor and count. -/
def ringsAt (wr cnt : Nat) (s : State) : State :=
  { s with
    rings :=
      { main := Vector.replicate 16 { wr := wr, cnt := cnt }
        side := Vector.replicate 16 { wr := wr, cnt := cnt } } }

/-- The state with the two band intervals. -/
def bandsAt (s1 e1 s2 e2 : Word) (s : State) : State :=
  { s with
    band1 := { bin := s1, hw := 1, start := s1, stop := e1 }
    band2 := { bin := s2, hw := 1, start := s2, stop := e2 } }

/-- What a state after an outcome shows, `none` when there is none. -/
def shown {α : Type} (view : State → α) : Host.Outcome State Fault Refusal → Option α
  | .next t => some (view t)
  | .fault _ => none
  | .refused _ => none

/-- The active machine of `cfg4` in the middle of a block. -/
def running (k : BitVec 16) : State :=
  { feed (List.replicate 8 0x3F800000) (List.replicate 8 0) (core cfg4 0x42A00000) with
    blkActive := true, blkRem := k }

/-- The same machine in the middle of a bypassed block. -/
def bypassing (k : BitVec 16) : State := { running k with blkActive := false }

/-! ### Well-formedness -/

/-- The one check: a channel operand at `NCH` or above is refused (30_encoding.md R64). -/
theorem test_wellFormed_refuses_channel :
    (Instr.syOla 2).wellFormed 2 = false ∧ (Instr.syOla 1).wellFormed 2 = true ∧
      (Instr.accWrite .side 15).wellFormed 15 = false ∧ Instr.drvBeat.wellFormed 1 = true := by decide

/-! ### Decoding, from words written out by hand -/

/-- T-ENC-1 to T-ENC-13, T-ENC-21, T-ENC-22: the ten host commands. -/
theorem test_decode_host :
    decodeCommand [0x00000000] = .taken .nop [] ∧
    decodeCommand [0x01000200, 0x472C4400] = .taken (.prepare 0x472C4400 512) [] ∧
    decodeCommand [0x01000000, 0x473B8000, 7] = .taken (.prepare 0x473B8000 0) [7] ∧
    decodeCommand [0x02000000] = .taken .release [] ∧
    decodeCommand [0x03000000, 0x447A0000] = .taken (.setpCut1 0x447A0000) [] ∧
    decodeCommand [0x03100000, 0x44FA0000] = .taken (.setpCut2 0x44FA0000) [] ∧
    decodeCommand [0x03200000, 0x3E4CCCCD] = .taken (.setpBlen 0x3E4CCCCD) [] ∧
    decodeCommand [0x03300000, 0x3F800000] = .taken (.setpXmode 0x3F800000) [] ∧
    decodeCommand [0x03400000, 0x3F800000] = .taken (.setpMix1 0x3F800000) [] ∧
    decodeCommand [0x03500000, 0x3C23D70A] = .taken (.setpMix2 0x3C23D70A) [] ∧
    decodeCommand [0x04210004] = .taken (.process 4 true 2) [] ∧
    decodeCommand [0x04000100] = .taken (.process 256 false 0) [] ∧
    decodeCommand [0x04F1FFFF] = .taken (.process 65535 true 15) [] ∧
    decodeCommand [0x03000000, 0x80000000] = .taken (.setpCut1 0x80000000) [] ∧
    decodeCommand [0x03400000, 0x7FC00000] = .taken (.setpMix1 0x7FC00000) [] := by decide

/-- T-ENC-14 to T-ENC-20, and the reserved param ids: illegal headers, one word consumed. -/
theorem test_decode_illegal :
    decodeCommand [0x04220004, 9] = .illegal .nonzeroField [9] ∧
    decodeCommand [0x00000001] = .illegal .nonzeroField [] ∧
    decodeCommand [0x03600000, 9] = .illegal .parameterId [9] ∧
    decodeCommand [0x03F00000] = .illegal .parameterId [] ∧
    decodeCommand [0x03010000] = .illegal .nonzeroField [] ∧
    decodeCommand [0x01100000] = .illegal .nonzeroField [] ∧
    decodeCommand [0x05000000] = .illegal .reservedOpcode [] ∧
    decodeCommand [0x7F000000] = .illegal .reservedOpcode [] ∧
    decodeCommand [0x80000000] = .illegal .microOperation [] ∧
    decodeCommand [0x93100000] = .illegal .microOperation [] ∧
    decodeCommand [0xC3000000] = .illegal .microOperation [] := by decide

/-- The micro-operation encodings that 95_test_vectors.md writes out, and the accumulator's and the
analyzer's from 30_encoding.md R64. -/
theorem test_decode_accumulator_and_analyzer :
    decodeMicro 0x80110000 = .op (.accWrite .side 1) ∧
    decodeMicro 0x81000000 = .op .accReady ∧
    decodeMicro 0x82000000 = .op (.accFrame .main 0) ∧
    decodeMicro 0x83000000 = .op .accConsume ∧
    decodeMicro 0x88000000 = .op .snap ∧
    decodeMicro 0x90110000 = .op (.anWindow .side 1) ∧
    decodeMicro 0x910E0000 = .op (.anRfft .main 14) ∧
    decodeMicro 0x92130000 = .op (.anPolar .side 3) ∧
    decodeMicro 0x93100000 = .op (.analyze .side 0) := by decide

/-- The exchanger's, the synthesizer's and the driver's. -/
theorem test_decode_exchanger_synthesizer_driver :
    decodeMicro 0xA0200000 = .op (.bxBin .two) ∧
    decodeMicro 0xA1100000 = .op (.bxHalfw .one) ∧
    decodeMicro 0xA2200000 = .op (.bxInterval .two) ∧
    decodeMicro 0xA3210000 = .op (.bxMixp .two 1) ∧
    decodeMicro 0xA4010000 = .op (.bxMixf 1) ∧
    decodeMicro 0xA5000000 = .op (.exchange 0) ∧
    decodeMicro 0xB0010000 = .op (.syRect 1) ∧
    decodeMicro 0xB1020000 = .op (.sySymm 2) ∧
    decodeMicro 0xB2030000 = .op (.syIrfft 3) ∧
    decodeMicro 0xB3040000 = .op (.syNormwin 4) ∧
    decodeMicro 0xB4010000 = .op (.syOla 1) ∧
    decodeMicro 0xB5060000 = .op (.synthesize 6) ∧
    decodeMicro 0xB6000000 = .op .syAdv ∧
    decodeMicro 0xC0000000 = .op .drvEmit ∧
    decodeMicro 0xC1000000 = .op .drvBypass ∧
    decodeMicro 0xC2000000 = .op .drvCycle ∧
    decodeMicro 0xC3000000 = .op .drvBeat := by decide

/-- 30_encoding.md R64: reserved micro-operation codes, non-zero fields and band ids 0 and 3. -/
theorem test_decode_micro_rejects :
    decodeMicro 0x84000000 = .rejected .noSuchMicroOperation ∧
    decodeMicro 0x04210004 = .rejected .noSuchMicroOperation ∧
    decodeMicro 0x80210000 = .rejected .nonzeroField ∧
    decodeMicro 0xB4010001 = .rejected .nonzeroField ∧
    decodeMicro 0xA0000000 = .rejected .bandId ∧
    decodeMicro 0xA3310000 = .rejected .bandId := by decide

/-- 20_memory.md R46: the bytes of `0x3F800000` are `00 00 80 3F`, and the table's word forms. -/
theorem test_bytes_and_table_words :
    bytesOfWord 0x3F800000 = [0x00, 0x00, 0x80, 0x3F] ∧
    decodeTableWord 64 0x472C440001000200 = some (.prepare 0x472C4400 512) ∧
    decodeTableWord 32 0x03500000 = some (.setpMix2 0) ∧
    decodeTableWord 32 0xA3210000 = some (.bxMixp .two 1) ∧
    decodeTableWord 32 0x05000000 = none := by decide

/-! ### Numbers -/

/-- IEEE 754 binary32 by hand: `0.1 + 0.2`, `1 / 3`, `sqrt 2`, a tie to even, a subnormal product, an
overflow, and `NUM.roundsat` (ties away from zero, 00_scope.md R8). -/
theorem test_binary32 :
    F32.add 0x3DCCCCCD 0x3E4CCCCD = 0x3E99999A ∧ F32.div 0x3F800000 0x40400000 = 0x3EAAAAAB ∧
    F32.sqrt 0x40000000 = 0x3FB504F3 ∧ F32.add 0x4B800000 0x3F800000 = 0x4B800000 ∧
    F32.mul 0x00800000 0x3F000000 = 0x00400000 ∧ F32.mul 0x7F7FFFFF 0x40000000 = 0x7F800000 ∧
    F32.roundsat 0x3FC00000 = 2 ∧ F32.roundsat 0xC0200000 = -3 ∧ F32.roundsat 0x501502F9 = 2147483647 := by
  decide +kernel

/-- 00_scope.md R8, R9: the constants, and the window of `N = 4` and `N = 8`. -/
theorem test_constants_and_window :
    F32.ofNat 2048 = 0x45000000 ∧ F32.ofReal (.ratio 20 1) = 0x41A00000 ∧ F32.ofReal (.ratio 2000 1) = 0x44FA0000 ∧
    F32.ofReal (.ratio 20000 1) = 0x469C4000 ∧ F32.ofReal (.ratio 1 100) = 0x3C23D70A ∧
    F32.ofReal (.ratio 1 2) = 0x3F000000 ∧
    (List.range 4).map (windowAt cfg4) = [0x00000000, 0x3F000000, 0x3F800000, 0x3F000000] ∧
    windowAt { cfg4 with logn := 3 } 1 = 0x3E15F61A ∧
    windowAt { cfg4 with logn := 3 } 3 = 0x3F5A827A := by
  decide +kernel

/-- T-CFG-1 to T-CFG-8: the `clamp` function. -/
theorem test_clamp :
    clamp binary32 0x447A0000 0x41A00000 0x469C4000 = 0x447A0000 ∧ clamp binary32 0x40A00000 0x41A00000 0x43200000 = 0x41A00000 ∧
    clamp binary32 0x47C34F80 0x41A00000 0x43200000 = 0x43200000 ∧ clamp binary32 0x7FC00000 0 0x3F800000 = 0 ∧
    clamp binary32 0x7F800000 0 0x3F800000 = 0x3F800000 ∧ clamp binary32 0xFF800000 0 0x40000000 = 0 ∧
    clamp binary32 0x80000000 0 0x3F800000 = 0x80000000 ∧ clampChanges binary32 0x80000000 0 0x3F800000 = false ∧
    clamp binary32 0x44FA0000 0x41A00000 0x41700000 = 0x41700000 ∧ clampChanges binary32 0x7FC00000 0 0x3F800000 = true := by decide +kernel

/-- 44_exchanger.md R135, R129: the phase blends and the corner cases of the spec. -/
theorem test_blend :
    blend binary32 0x3F000000 0x40400000 0xC0400000 = 0 ∧ blend binary32 0x3E800000 0x3F800000 0xBF800000 = 0x3F000000 ∧
    blend binary32 0 0x40E00000 0x41100000 = 0x40E00000 ∧ blend binary32 0x3F800000 0x40E00000 0x41100000 = 0x41100000 ∧
    blend binary32 0x3F800000 0x80000000 0 = 0 := by decide +kernel

/-! ### Commands -/

/-- T-LIFE-1: the registers after hardware reset. -/
theorem test_reset :
    regRead State.reset 0x00 = 0x0000020B ∧ regRead State.reset 0x01 = 0 ∧
    regRead State.reset 0x08 = 0x44FA0000 ∧ regRead State.reset 0x0C = 0x3C23D70A := by decide

/-- T-LIFE-2 and T-LIFE-4: `STATUS` after `PREPARE`, and the read cursor at `LOGN = 11`. -/
theorem test_prepare :
    shown (fun t => (regRead t 0x01, regRead t 0x03, regRead t 0x04, t.olaRd))
        (exec (.prepare 0x472C4400 512) State.reset) = some (9, 0x472C4400, 512, 2048) ∧
    shown (regRead · 0x01) (exec (.prepare 0 4) State.reset) = some 1 ∧
    shown (regRead · 0x01) (exec (.prepare 0xC2A00000 4) State.reset) = some 1 := by decide +kernel

/-- T-LIFE-6: `RELEASE` keeps `SR` and clears the rings. -/
theorem test_release :
    shown (fun t => (regRead t 0x01, t.ring .main 0)) (exec .release (ringsAt 1 2 (core cfg4 0x42A00000)))
      = some (8, { wr := 0, cnt := 0 }) := by decide +kernel

/-- T-LIFE-8, and the six forms of `SETP` (T-ENC-5 to T-ENC-10). -/
theorem test_nop_and_setp :
    shown (fun t => decide (t = State.reset)) (exec .nop State.reset) = some true ∧
    [exec (.setpCut1 1) State.reset, exec (.setpCut2 2) State.reset, exec (.setpBlen 3) State.reset,
      exec (.setpXmode 4) State.reset, exec (.setpMix1 5) State.reset, exec (.setpMix2 6) State.reset].map
        (shown fun t => [t.params.cut1, t.params.cut2, t.params.blen, t.params.xmode, t.params.mix1,
          t.params.mix2])
      = [some [1, 0x44FA0000, 0x3F800000, 0, 0x3C23D70A, 0x3C23D70A],
         some [0x44FA0000, 2, 0x3F800000, 0, 0x3C23D70A, 0x3C23D70A],
         some [0x44FA0000, 0x44FA0000, 3, 0, 0x3C23D70A, 0x3C23D70A],
         some [0x44FA0000, 0x44FA0000, 0x3F800000, 4, 0x3C23D70A, 0x3C23D70A],
         some [0x44FA0000, 0x44FA0000, 0x3F800000, 0, 5, 0x3C23D70A],
         some [0x44FA0000, 0x44FA0000, 0x3F800000, 0, 0x3C23D70A, 6]] := by decide +kernel

/-- T-CFG-17: a write of `0x05` to `EVENTS = 0x07` leaves `0x02`; a write to `SNAP_CUT1` is ignored; and
20_memory.md R49: above `0x1F`, here `0x28`, writes are ignored and reads give 0. -/
theorem test_register_writes :
    regRead (regWrite 0x02 5 { State.reset with events := 7 }) 0x02 = 2 ∧
    regWrite 0x10 5 State.reset = State.reset ∧ regRead (regWrite 0x0D 5 State.reset) 0x0D = 5 ∧
    regWrite 0x28 5 State.reset = State.reset ∧ regRead State.reset 0x28 = 0 := by
  decide +kernel

/-- Program P8: the four branches of `PROCESS`. -/
theorem test_process :
    shown (fun t => (t.events, t.blkActive, t.blkRem)) (exec (.process 2 true 2) (State.resetOf cfg4Two))
      = some (0x02, false, 2) ∧
    shown (fun t => (t.events, t.blkActive)) (exec (.process 2 true 1) (core cfg4Two 0x42A00000))
      = some (0x08, false) ∧
    shown (fun t => (t.events, t.blkActive)) (exec (.process 2 false 0) (core cfg4Two 0x42A00000))
      = some (0, false) ∧
    shown (fun t => (t.events, t.blkActive)) (exec (.process 0 true 2) (core cfg4Two 0x42A00000))
      = some (0, true) := by decide +kernel

/-! ### The data path -/

/-- T-ACC-1 and T-ACC-2: the cursor wraps, and a full ring keeps its count. -/
theorem test_accWrite :
    shown (fun t => (t.elements (.ring .main 0) 4, t.ring .main 0, t.waiting .main 0))
        (exec (.accWrite .main 0) (feed [9] [] ((ringsAt 3 3 (core cfg4 0)).setElements (.ring .main 0)
          [1, 2, 3, 0]))) = some ([1, 2, 3, 9], { wr := 0, cnt := 4 }, []) ∧
    shown (fun t => (t.elements (.ring .side 0) 4, t.ring .side 0))
        (exec (.accWrite .side 0) (feed [] [9] ((ringsAt 1 4 (core cfg4 0)).setElements (.ring .side 0)
          [5, 2, 3, 4]))) = some ([5, 9, 3, 4], { wr := 2, cnt := 4 }) := by decide +kernel

/-- T-ACC-3, T-ACC-4, T-ACC-5: the frame in temporal order, the test, the consume at both hops. -/
theorem test_frame_ready_consume :
    shown (fun t => t.scratch.fr) (exec (.accFrame .main 0) ((ringsAt 2 4 (core cfg4 0)).setElements
      (.ring .main 0) [5, 6, 3, 4])) = some [3, 4, 5, 6] ∧
    shown (fun t => t.scratch.ready) (exec .accReady (ringsAt 0 4 (core cfg4Two 0))) = some true ∧
    shown (fun t => t.scratch.ready) (exec .accReady
      ((ringsAt 0 4 (core cfg4Two 0)).setRing .side 1 { wr := 0, cnt := 3 })) = some false ∧
    shown (fun t => t.ring .side 0) (exec .accConsume (ringsAt 1 4 (core cfg4 0)))
      = some { wr := 1, cnt := 0 } ∧
    shown (fun t => t.ring .side 0) (exec .accConsume (ringsAt 1 4 (core cfg4Half 0)))
      = some { wr := 1, cnt := 2 } := by decide +kernel

/-- T-AN-1, step by step: the window, the transform, the magnitudes and the phases; `AN.POLAR` reads its
bins and no other scratch value. -/
theorem test_analyzer_steps :
    shown (fun t => t.scratch.xw) (exec (.anWindow .main 0)
      { core cfg4 0 with scratch := { Scratch.zero cfg4 with fr := [0x40A00000, 0x40000000, 0xC0800000, 0x40000000] } })
      = some [0x00000000, 0x3F800000, 0xC0800000, 0x3F800000] ∧
    shown (fun t => (t.scratch.re, t.scratch.im.map F32.isZero)) (exec (.anRfft .main 0)
      { core cfg4 0 with scratch := { Scratch.zero cfg4 with xw := [0x00000000, 0x3F800000, 0xC0800000, 0x3F800000] } })
      = some ([0xC0000000, 0x40800000, 0xC0C00000], [true, true, true]) ∧
    shown (fun t => (t.elements (.specMag .main 0) 3, t.elements (.specPh .main 0) 3))
      (exec (.anPolar .main 0)
        { core cfg4 0 with
           scratch := { Scratch.zero cfg4 with
             fr := [0x7FC00000, 0, 0, 0], re := [0xC0000000, 0x40800000, 0xC0C00000], im := [0, 0, 0] } })
      = some ([0x40000000, 0x40800000, 0x40C00000], [0x40490FDB, 0, 0x40490FDB]) := by decide +kernel

/-- T-AN-4 and T-AN-1: `ANALYZE` of a whole frame; the frame starts at the cursor. -/
theorem test_analyze :
    shown (fun t => (t.elements (.specMag .side 0) 3, t.elements (.specPh .side 0) 3))
      (exec (.analyze .side 0) ((ringsAt 0 4 (core cfg4 0)).setElements (.ring .side 0) [0x00000000, 0x00000000, 0x3F800000, 0x00000000]))
      = some ([0x3F800000, 0x3F800000, 0x3F800000], [0, 0x40490FDB, 0]) ∧
    shown (fun t => (t.elements (.specMag .main 0) 3, t.elements (.specPh .main 0) 3))
      (exec (.analyze .main 0) ((ringsAt 1 4 (core cfg4 0)).setElements (.ring .main 0) [0x40000000, 0x40A00000, 0x40000000, 0xC0800000]))
      = some ([0x40000000, 0x40800000, 0x40C00000], [0x40490FDB, 0, 0x40490FDB]) := by decide +kernel

/-- T-BX-1, T-BX-2 and T-CFG-10's sample rate, by `SNAP`: both bands, no event (41_config.md R93). -/
theorem test_snap :
    shown (fun t => ([t.band1.bin, t.band1.hw, t.band1.start, t.band1.stop],
        [t.band2.bin, t.band2.hw, t.band2.start, t.band2.stop], t.events))
      (exec .snap { core { cfg4 with logn := 11 } 0x472C4400 with
        params := { Params.atReset binary32 with cut1 := 0x447A0000, blen := 0x3E4CCCCD, mix1 := 0x3F800000 } })
      = some ([46, 5, 41, 51], [93, 9, 84, 102], 0) := by decide +kernel

/-- T-CFG-9: out-of-range parameters are clamped, the raw ones stay, both events. -/
theorem test_snap_clamps :
    shown (fun t => ([t.snap.cut1, t.snap.cut2, t.snap.blen, t.snap.mix1, t.snap.mix2], t.snap.xmode,
        [t.band1.start, t.band1.stop, t.band2.start, t.band2.stop], t.events, t.params.cut1))
      (exec .snap { core cfg16 0x43A00000 with
        params := { cut1 := 0x40A00000, cut2 := 0x47C34F80, blen := 0x40E00000, xmode := 0x3F000000
                    mix1 := 0xBF800000, mix2 := 0x7FC00000 } })
      = some ([0x41A00000, 0x43200000, 0x40000000, 0x00000000, 0x00000000], 1, [0, 2, 0, 8], 5, 0x40A00000) := by decide +kernel

/-- T-CFG-16, T-BX-3c and T-BX-3d: the steps of the index derivation, a tie, and the edges. -/
theorem test_index_steps :
    shown (fun t => t.band1.bin) (exec (.bxBin .one) { core cfg16 0x43A00000 with
      snap := { Snapshot.zero with cut1 := 0x41F00000 } }) = some 2 ∧
    shown (fun t => (t.band2.hw, t.events)) (exec (.bxHalfw .two) { core cfg16 0x43A00000 with
      snap := { Snapshot.zero with cut2 := 0x42F00000, blen := 0x40000000 } }) = some (6, 0) ∧
    shown (fun t => (t.band2.hw, t.events)) (exec (.bxHalfw .two) (core cfg16 0x43A00000)) = some (1, 4) ∧
    shown (fun t => (t.band1.start, t.band1.stop, t.events)) (exec (.bxInterval .one)
      { core cfg16 0x43A00000 with band1 := { BandRegs.zero with bin := 6, hw := 6 } }) = some (0, 8, 4) ∧
    shown (fun t => (t.band1.start, t.band1.stop, t.events)) (exec (.bxInterval .one)
      { core cfg16 0x43A00000 with band1 := { BandRegs.zero with bin := 2, hw := 2 } }) = some (0, 4, 0) := by
  decide +kernel

/-- The common input of T-BX-5 to T-BX-14, with the bands and the ratios given. -/
def mixing (g : Cfg) (s1 e1 s2 e2 : Word) (x : BitVec 1) (m1 m2 : Word) : State :=
  let s := bandsAt s1 e1 s2 e2 { core g 0x43A00000 with
    snap := { Snapshot.zero with xmode := x, mix1 := m1, mix2 := m2 } }
  (s.setElements (.specMag .main 0) [0x41200000, 0x41300000, 0x41400000, 0x41500000, 0x41600000, 0x41700000, 0x41800000, 0x41880000, 0x41900000]).setElements
    (.specMag .side 0) [0x41A00000, 0x41A80000, 0x41B00000, 0x41B80000, 0x41C00000, 0x41C80000, 0x41D00000, 0x41D80000, 0x41E00000]

/-- T-BX-5 and T-BX-11: the full exchange, with intervals of one length and of two. -/
theorem test_exchange_full :
    shown (·.elements (.mixMag 0) 9) (exec (.exchange 0) (mixing cfg16 1 3 5 7 1 0x3F800000 0x3F800000))
      = some [0x41200000, 0x41C80000, 0x41D00000, 0x41D80000, 0x41600000, 0x41700000, 0x41800000, 0x41880000, 0x41900000] ∧
    shown (·.elements (.mixMag 0) 9) (exec (.exchange 0) (mixing cfg16 0 2 7 8 1 0x3F800000 0x3F800000))
      = some [0x41D80000, 0x41E00000, 0x41400000, 0x41500000, 0x41600000, 0x41700000, 0x41800000, 0x41880000, 0x41900000] := by decide +kernel

/-- T-BX-9 and T-BX-10: the proportional mix of overlapping bands, with both values of `SIDEPOL`. -/
theorem test_exchange_proportional :
    shown (·.elements (.mixMag 0) 9) (exec (.exchange 0) (mixing cfg16 1 3 2 4 0 0x3F800000 0x3F000000))
      = some [0x41200000, 0x41A80000, 0x41880000, 0x41900000, 0x41980000, 0x41700000, 0x41800000, 0x41880000, 0x41900000] ∧
    shown (·.elements (.mixMag 0) 9)
        (exec (.exchange 0) (mixing { cfg16 with sidepol := .other } 1 3 2 4 0 0x3F800000 0x3F000000))
      = some [0x41200000, 0x41A80000, 0x419C0000, 0x41A40000, 0x41980000, 0x41700000, 0x41800000, 0x41880000, 0x41900000] := by decide +kernel

/-- The working copies of the same input, already loaded. -/
def copies (s : State) : State := loadCopies 0 s

/-- The example of 44_exchanger.md R130, and T-BX-6: each mix step on the working copies. -/
theorem test_mix_steps :
    shown (fun t => (t.scratch.wmMag, t.scratch.wsMag))
        (exec (.bxMixp .one 0) (copies (mixing cfg16 1 3 5 7 0 0x3F000000 0)))
      = some ([0x41200000, 0x41800000, 0x41880000, 0x41900000, 0x41600000, 0x41700000, 0x41800000, 0x41880000, 0x41900000], [0x41A00000, 0x41800000, 0x41880000, 0x41900000, 0x41C00000, 0x41C80000, 0x41D00000, 0x41D80000, 0x41E00000]) ∧
    shown (fun t => (t.scratch.wmMag, t.scratch.wsMag))
        (exec (.bxMixf 0) (copies (mixing cfg16 1 3 5 7 1 0x3F000000 0x3E800000)))
      = some ([0x41200000, 0x41900000, 0x41980000, 0x41A00000, 0x41600000, 0x41700000, 0x41800000, 0x41880000, 0x41900000], [0x41A00000, 0x41A80000, 0x41B00000, 0x41B80000, 0x41C00000, 0x41AC0000, 0x41B40000, 0x41BC0000, 0x41E00000]) := by
  decide +kernel

/-- The examples of 45_synthesizer.md R141, R143, R144, and `SY.RECT` at phase 0 (R140). -/
theorem test_synthesizer_steps :
    shown (fun t => (t.scratch.re, t.scratch.im)) (exec (.syRect 0)
        ((core cfg4 0).setElements (.mixMag 0) [0x40000000, 0x40800000, 0x40C00000]))
      = some ([0x40000000, 0x40800000, 0x40C00000], [0, 0, 0]) ∧
    shown (fun t => (t.scratch.re, t.scratch.im)) (exec (.sySymm 0)
        { core cfg4 0 with scratch := { Scratch.zero cfg4 with re := [0xC0000000, 0x40800000, 0xC0C00000], im := [0x3F000000, 0x3F800000, 0x3E800000] } })
      = some ([0xC0000000, 0x40800000, 0xC0C00000, 0x40800000], [0x00000000, 0x3F800000, 0x00000000, 0xBF800000]) ∧
    shown (fun t => t.scratch.y) (exec (.syIrfft 0)
        { core cfg4 0 with scratch := { Scratch.zero cfg4 with re := [0xC0000000, 0x40800000, 0xC0C00000, 0x40800000], im := [0, 0, 0, 0] } })
      = some [0x00000000, 0x40800000, 0xC1800000, 0x40800000] ∧
    shown (fun t => t.scratch.y) (exec (.syNormwin 0)
        { core cfg4 0 with scratch := { Scratch.zero cfg4 with y := [0x00000000, 0x40800000, 0xC1800000, 0x40800000] } })
      = some [0x00000000, 0x3F000000, 0xC0800000, 0x3F000000] := by decide +kernel

/-- T-SY-11: the additions wrap, and the cursor advances by the hop. -/
theorem test_overlap_add :
    shown (·.elements (.ola 0) 8) (exec (.syOla 0)
        ((({ core cfg4Half 0 with
            olaWr := 6, scratch := { Scratch.zero cfg4 with y := [0x00000000, 0x3E800000, 0x3F800000, 0x3E800000] } } : State)).setElements
          (.ola 0) [0x00000000, 0x00000000, 0x00000000, 0x00000000, 0x00000000, 0x00000000, 0x3F800000, 0x3E800000]))
      = some [0x3F800000, 0x3E800000, 0x00000000, 0x00000000, 0x00000000, 0x00000000, 0x3F800000, 0x3F000000] ∧
    shown (·.olaWr) (exec .syAdv { core cfg4Half 0 with olaWr := 6 }) = some 0 := by decide +kernel

/-- A spectrum with phases 0 through `SYNTHESIZE`, by hand from R140 to R146: magnitude 4 at DC gives the
window itself. -/
theorem test_synthesize :
    shown (·.elements (.ola 0) 8) (exec (.synthesize 0) ((core cfg4 0).setElements (.mixMag 0) [0x40800000, 0x00000000, 0x00000000]))
      = some [0x00000000, 0x3F000000, 0x3F800000, 0x3F000000, 0x00000000, 0x00000000, 0x00000000, 0x00000000] := by decide +kernel

/-- T-DRV-4 and the example of 46_driver.md R159. -/
theorem test_emit_and_bypass :
    shown (fun t => (t.samplesOut[0], t.elements (.ola 0) 8, t.olaRd)) (exec .drvEmit
        (({ core cfg4 0 with olaRd := 1 } : State).setElements (.ola 0) [0x00000000, 0x3F000000, 0xC0800000, 0x3F000000, 0x00000000, 0x00000000, 0x00000000, 0x00000000]))
      = some ([0x3F000000], [0x00000000, 0x00000000, 0xC0800000, 0x3F000000, 0x00000000, 0x00000000, 0x00000000, 0x00000000], 2) ∧
    shown (fun t => (t.samplesOut[0], t.waiting .main 0, t.waiting .side 0)) (exec .drvBypass
        (feed [0x7FC12345, 1] [2] (core cfg4 0))) = some ([0x7FC12345], [1], [2]) := by decide +kernel

/-- Program P2, the end of beat 4's cycle: the bands, the cursors and the events. -/
theorem test_cycle :
    shown (fun t => ([t.band1.bin, t.band1.start, t.band2.stop], t.olaWr, t.ring .side 0, t.events))
      (exec .drvCycle (((ringsAt 0 4 (core cfg4 0x42A00000))).setElements (.ring .main 0) [0x40A00000, 0x40000000, 0xC0800000, 0x40000000]))
      = some ([2, 1, 2], 4, { wr := 0, cnt := 0 }, 5) := by decide +kernel

/-- The first rows of program P2's trace: a beat that only accumulates, by a whole step. -/
theorem test_beat :
    shown (fun t => (t.samplesOut[0], t.ring .main 0, t.olaRd, t.drv, t.blkRem)) (step (running 8))
      = some ([0], { wr := 1, cnt := 1 }, 5, .accumulating, 7) ∧
    shown (fun t => (t.samplesOut[0], t.ring .main 0, t.drv)) (exec .drvBeat (bypassing 8))
      = some ([0x3F800000], { wr := 0, cnt := 0 }, .idle) := by decide +kernel

/-- A step at the port, the placing of a word, and the stops of logs 14, 18 and 20. -/
theorem test_steps_and_stops :
    shown (fun t => (t.cmdIn, t.events)) (step { State.reset with cmdIn := [0x04220004, 5] })
      = some ([5], 0x10) ∧
    shown (fun t => t.params.mix2) (step (State.reset.withFetchWord 64 0x3F80000003500000))
      = some 0x3F800000 ∧
    shown (fun t => t.olaWr) (step (State.reset.withFetchWord 32 0xB6000000)) = some 2048 ∧
    shown (fun _ => ()) (exec .drvBeat (core cfg4 0x42A00000)) = none ∧
    shown (fun _ => ()) (exec (.syOla 1) (core cfg4 0x42A00000)) = none ∧
    shown (fun _ => ()) (step { State.reset with issue := [0x84000000] }) = none := by decide +kernel

/-- 70_reset_and_hazards.md R207: a NaN in a frame leaves its spectrum unspecified and marked, and an
emitted overlap-add element is clean again. -/
theorem test_unspecified_marks :
    shown (fun t => (t.specMark .main 0, t.specMark .side 0, t.events))
      (exec (.analyze .main 0) ((ringsAt 0 4 (core cfg4 0)).setElements (.ring .main 0) [0, 0x7FC00000, 0, 0]))
      = some (true, false, 0) ∧
    shown (fun t => (t.olaMark 0 0, t.olaMark 0 1)) (exec .drvEmit (State.markOla 0 1 (State.markOla 0 0
      { core cfg4 0 with olaRd := 0 }))) = some (false, true) := by decide +kernel

/-- 43_analyzer.md R110, R116: under a window of infinities `AN.WINDOW` notes a silent frame, and not another,
and of the other leaves the products. -/
theorem test_silent_note :
    let s := core { cfg4 with window := .table [0x7F800000, 0x7F800000, 0x7F800000, 0x7F800000] } 0
    shown (fun t => t.scratch.xwSilent) (exec (.anWindow .main 0) { s with
      scratch := { s.scratch with fr := [0, 0x80000000, 0, 0] } }) = some true ∧
    shown (fun t => (t.scratch.xwSilent, t.scratch.xw)) (exec (.anWindow .main 0) { s with
      scratch := { s.scratch with fr := [0x3F800000, 0xBF800000, 1, 2] } })
      = some (false, [0x7F800000, 0xFF800000, 0x7F800000, 0x7F800000]) := by decide +kernel

/-- 45_synthesizer.md R148: `SY.RECT` and `SY.IRFFT` note that the frame comes from a finite mixed
spectrum, and that it does not when a magnitude is an infinity; `AN.RFFT` removes the note. -/
theorem test_finite_notes :
    shown (fun t => t.scratch.yFromFinite) (execAll [.syRect 0, .sySymm 0, .syIrfft 0]
      ((core cfg4 0).setElements (.mixMag 0) [0x7F7FFFFF, 0, 0x80000000])) = some true ∧
    shown (fun t => t.scratch.yFromFinite) (execAll [.syRect 0, .syIrfft 0]
      ((core cfg4 0).setElements (.mixMag 0) [0, 0x7F800000, 0])) = some false ∧
    shown (fun t => t.scratch.binsFromFinite) (execAll [.syRect 0, .anRfft .main 0] (core cfg4 0))
      = some false := by decide +kernel

/-- A record of quarters: `roundsat` of 1.5, -1.5, 0.5, -0.25 and 0 (92_eei_decisions.md D12). Its
`NUM.ofReal` and `0 - x` give an infinity, which R8 admits, beside `1 - 0 = 1`, `NUM.ofReal(0) = 0` and an angle
at the lower end of the range and one below it. -/
theorem test_another_record :
    let r := { (default : RawNum) with
      place := fun w => some w.toInt, perOne := 4, lowest := 100, ofNat := fun n => BitVec.ofNat 32 (4 * n)
      ofReal := fun _ => 0x7FFFFFFF, sub := fun _ _ => 0x7FFFFFFF
      atan2 := fun im _ => if im = 4 then 0x80000001 else 0x80000000 }
    (r.record.roundsat 6, r.record.roundsat (-6), r.record.roundsat 2, r.record.roundsat (-1),
      r.record.roundsat 0) = (2, -2, 1, 0, 0) ∧
    r.record.isFinite (r.record.ofReal (.ratio 20000 1)) = false ∧
    r.record.isFinite (r.record.sub 0 4) = false ∧ r.record.sub 4 0 = 4 ∧
    r.record.ofReal (.ratio 0 7) = 0 ∧ r.record.ofReal .pi = 0x7FFFFFFF ∧
    r.record.atan2 4 4 = 0x80000001 ∧ r.record.atan2 8 4 = 0 := by decide

/-! ### Witnesses: every hypothesis of every obligation can be met

Each theorem is named after the obligation whose hypotheses it meets, all together, at the state and
operands it names; where an obligation has several clauses there is a part for each, at a boundary. -/

/-- The standard witness: a prepared core with a valid sample rate. -/
def ready : State := core cfg4 0x42A00000

theorem witness_DecodedWordsAreTheirEncoding :
    decodeCommand [0x0100FFFF, 0x472C4400, 5] = .taken (.prepare 0x472C4400 0xFFFF) [5] ∧
      decodeMicro 0x801F0000 = .op (.accWrite .side 15) := by decide

/-- Illegal headers at the boundary of each reason, and legal ones beside them. -/
theorem witness_IllegalHeaderIsConsumedAndFlagged :
    (let s := { State.reset with cmdIn := [0x05000000, 7] }
     s.driverNext ∧ s.issue = [] ∧ s.blkRem = 0 ∧ s.cmdIn = 0x05000000 :: [7]) ∧
    4 < (0x05000000 : Word).toNat / 2 ^ 24 ∧
    ((0x00000001 : Word).toNat / 2 ^ 24 = 0 ∧ (0x00000001 : Word).toNat % 2 ^ 16 ≠ 0) ∧
    ((0x01010000 : Word).toNat / 2 ^ 24 = 1 ∧ (0x01010000 : Word).toNat / 2 ^ 16 % 16 ≠ 0) ∧
    ((0x03600000 : Word).toNat / 2 ^ 24 = 3 ∧ 5 < (0x03600000 : Word).toNat / 2 ^ 20 % 16) ∧
    ((0x04020000 : Word).toNat / 2 ^ 24 = 4 ∧ 2 ≤ (0x04020000 : Word).toNat / 2 ^ 16 % 16) ∧
    (¬ 4 < (0x04F1FFFF : Word).toNat / 2 ^ 24 ∧ ¬ 2 ≤ (0x04F1FFFF : Word).toNat / 2 ^ 16 % 16) :=
  ⟨⟨.inl rfl, rfl, rfl, rfl⟩, by decide⟩

/-- The idle port, and a header alone at the two ends of the range of param ids. -/
theorem witness_CoreWaitsForAWholeCommand :
    (State.reset.driverNext ∧ State.reset.issue = [] ∧ State.reset.blkRem = 0 ∧
      State.reset.cmdIn = []) ∧
    (let s := { State.reset with cmdIn := [header 0x01 0 0 0xFFFF], turns := [.driver] }
     s.driverNext ∧ s.issue = [] ∧ s.blkRem = 0 ∧ s.cmdIn = [header 0x01 0 0 0xFFFF]) ∧
    (let s := { State.reset with cmdIn := [header 0x03 5 0 0] }
     s.driverNext ∧ s.issue = [] ∧ s.blkRem = 0 ∧ (5 : BitVec 4) ≤ 5 ∧
      s.cmdIn = [header 0x03 5 0 0]) :=
  ⟨⟨.inl rfl, rfl, rfl, rfl⟩, ⟨.inr rfl, rfl, rfl, rfl⟩, ⟨.inl rfl, rfl, rfl, by decide, rfl⟩⟩

theorem witness_StepRunsTheDecodedCommand :
    let s := { State.reset with cmdIn := [0x03500000, 9, 0], turns := [.driver, .regRead 2] }
    s.driverNext ∧ s.issue = [] ∧ s.blkRem = 0 ∧ decodeCommand s.cmdIn = .taken (.setpMix2 9) [0] :=
  ⟨.inr rfl, rfl, rfl, by decide⟩

/-- A queued micro-operation, and a queued word that is none. -/
theorem witness_StepRunsAQueuedMicroOperation :
    (let s := { State.reset with issue := [0xB6000000, 0xC0000000] }
     s.driverNext ∧ s.issue = 0xB6000000 :: [0xC0000000] ∧ decodeMicro 0xB6000000 = .op .syAdv) ∧
    (let s := { State.reset with issue := [0xC4000000] }
     s.driverNext ∧ s.issue = 0xC4000000 :: [] ∧
      decodeMicro 0xC4000000 = .rejected .noSuchMicroOperation) :=
  ⟨⟨.inl rfl, rfl, by decide⟩, ⟨.inl rfl, rfl, by decide⟩⟩

theorem witness_StepRunsOneBeatOfTheBlock :
    (running 1).driverNext ∧ (running 1).issue = [] ∧ (running 1).blkRem ≠ 0 ∧
      (running 1).beatReady = true :=
  ⟨.inl rfl, rfl, by decide, by decide +kernel⟩

/-- The standard construction and the largest one are legal. -/
theorem witness_RegisterMap :
    State.reset.cfg.legal = true ∧
      { Cfg.standard with logn := 12, nch := 15, hopHalf := true, wpol := .absHz }.legal = true := by
  decide

theorem witness_NopChangesNothing :
    (0x00FFFFFF : Word).toNat / 2 ^ 24 = 0 ∧ (0x00FFFFFF : Word) ≠ 0 := by decide

/-- The two ends of the range of illegal param ids. -/
theorem witness_SetpStoresTheRawValue : (5 < 6 ∧ 6 < 16) ∧ 5 < 15 ∧ 15 < 16 := by decide

/-- The operands that the laws speak of, at boundaries: a NaN, both zeros, the largest finite value, and the
smallest and the largest transform. -/
theorem witness_NumericsMeetTheLaws :
    let N := cfg4.numerics
    N.isNaN 0x7F800001 = true ∧ N.isZero 0x80000000 = true ∧ N.isFinite 0x7F7FFFFF = true ∧
      N.isFinite 0x7F800000 = false ∧ N.lt Numerics.zero 0x00000001 = true ∧
      N.lt 0x80000001 Numerics.zero = true ∧
      N.isZero 0x7F7FFFFF = false ∧ N.le Numerics.zero 0x7F7FFFFF = true ∧
      N.le 0x7F7FFFFF 0x7F800000 = true ∧ (2 ≤ 2 ∧ 2 ≤ 12 ∧ 12 ≤ 12) ∧
      [0, 0x80000000, 0, (0 : Word)].length = 2 ^ 2 ∧
      [0, 0x80000000, 0, (0 : Word)].all N.isZero = true := by decide

/-- Each clause, in a binary32 construction: `v` at the lower bound, below it, a NaN, above the upper
bound, and bounds inverted. -/
theorem witness_ClampLaws :
    let N := cfg4.numerics
    let lo : Word := 0x41A00000
    let hi : Word := 0x42A00000
    (N.isNaN lo = false ∧ N.isNaN hi = false) ∧
    (N.le lo lo = true ∧ N.le lo hi = true) ∧ (N.le lo hi = true ∧ N.lt 0x419FFFFF lo = true) ∧
    N.isNaN 0x7F800001 = true ∧ N.lt hi 0x42A00001 = true ∧
    (N.isNaN 0x41700000 = false ∧ N.lt 0x41700000 lo = true) ∧
    N.isFinite lo = true ∧ N.isFinite hi = true := by decide

theorem witness_SnapTakesOneConsistentSnapshot : ready.cfg.legal = true := by decide

/-- Both width policies, and a sample rate at which the upper bound of the centre is the lower bound. -/
theorem witness_SnapshotLiesInItsBounds :
    let N := cfg4.numerics
    (ready.cfg.wpol = .ratio ∧ ready.cfg.numerics.le Numerics.zero ready.cfg.numerics.two = true) ∧
    ((core cfg4Other 0x42A00000).cfg.wpol = .absHz ∧
      cfg4Other.numerics.le (cfg4Other.numerics.ofReal (.ratio 20 1))
        (cfg4Other.numerics.ofReal (.ratio 2000 1)) = true) ∧
    N.le (N.ofReal (.ratio 20 1)) (core cfg4 0x42200000).centreMax = true ∧
    ready.cfg.num = .binary32 := by decide +kernel

/-- A write at the last place of a ring, and a write into a full ring. -/
theorem witness_AccWriteStoresTheSample :
    (let s := feed [9, 8] [] (ringsAt 3 3 ready)
     s.mem.wf ∧ (0 : Chan).val < s.cfg.nch ∧ s.waiting .main 0 = 9 :: [8] ∧
      (s.ring .main 0).cnt < s.cfg.n) ∧
    (let s := feed [] [7] (ringsAt 0 4 ready)
     s.mem.wf ∧ (0 : Chan).val < s.cfg.nch ∧ s.waiting .side 0 = 7 :: [] ∧
      ¬ (s.ring .side 0).cnt < s.cfg.n) := by decide

theorem witness_FrameAndReadyWriteScratchOnly :
    (1 : Chan).val < (ringsAt 3 4 (core cfg4Two 0)).cfg.nch ∧ 3 < (ringsAt 3 4 (core cfg4Two 0)).cfg.n ∧
      (ringsAt 3 4 (core cfg4Two 0)).framesReady = true := by decide

theorem witness_FrameIsTheLastSamplesInOrder :
    let s := feed [1, 2, 3, 4, 5, 6] [] (ringsAt 3 0 ready)
    s.mem.wf ∧ s.cfg.legal = true ∧ (0 : Chan).val < s.cfg.nch ∧ (s.ring .main 0).wr < s.cfg.n ∧
      s.waiting .main 0 = [1, 2, 3, 4, 5] ++ [6] ∧ s.cfg.n ≤ [1, 2, 3, 4, (5 : Word)].length := by decide

/-- Counts exactly at the hop, at both hops. -/
theorem witness_AccConsumeFreesOneHop :
    (∀ st (c : Chan), c.val < (ringsAt 0 4 ready).cfg.nch →
      (ringsAt 0 4 ready).cfg.hop ≤ ((ringsAt 0 4 ready).ring st c).cnt) ∧
    (∀ st (c : Chan), c.val < (ringsAt 0 2 (core cfg4Half 0)).cfg.nch →
      (ringsAt 0 2 (core cfg4Half 0)).cfg.hop ≤ ((ringsAt 0 2 (core cfg4Half 0)).ring st c).cnt) := by
  constructor <;> intro st <;> cases st <;> decide

/-- A silent frame, and a silent one with a NaN in its windowed frame. -/
theorem witness_WindowAndTransformWriteScratchOnly :
    let N := ready.cfg.numerics
    let s := { ready with
      scratch := { ready.scratch with xw := [0, 0, 0, 0x7FC00000], xwSilent := true } }
    (ready.cfg.legal = true ∧ (0 : Chan).val < ready.cfg.nch ∧ 3 < ready.cfg.n ∧
      ready.scratch.xw.length = ready.cfg.n ∧ 2 < ready.cfg.nb) ∧
    (∀ i, i < ready.cfg.n → N.isZero (at0 ready.scratch.fr i) = true) ∧
    (s.cfg.legal = true ∧ (0 : Chan).val < s.cfg.nch ∧ s.scratch.xw.length = s.cfg.n ∧
      s.scratch.xwSilent = true ∧
      ¬ (∀ n, n < s.cfg.n → s.cfg.numerics.isFinite (at0 s.scratch.xw n) = true)) := by decide +kernel

/-- Bins of a finite frame, and bins of one with a NaN or an infinity. -/
theorem witness_PolarStoresMagnitudeAndPhase :
    let s := { ready with scratch := { ready.scratch with binsBroken := true } }
    (ready.mem.wf ∧ (0 : Chan).val < ready.cfg.nch ∧ 2 < ready.cfg.nb ∧
      ready.scratch.binsBroken = false) ∧
    s.mem.wf ∧ (0 : Chan).val < s.cfg.nch ∧ 2 < s.cfg.nb ∧ s.scratch.binsBroken = true := by decide

/-- Two machines whose rings hold the same frame in different places. -/
theorem witness_AnalyzeIsItsStepsAndPure :
    let s := (ringsAt 0 4 ready).setElements (.ring .main 0) [1, 2, 3, 4]
    let s' := (ringsAt 2 4 ready).setElements (.ring .side 0) [3, 4, 1, 2]
    s.mem.wf ∧ (0 : Chan).val < s.cfg.nch ∧ s'.mem.wf ∧ s'.cfg = s.cfg ∧
      ∀ i, i < s.cfg.n → wrappedRead s' .side 0 i = wrappedRead s .main 0 i := by decide +kernel

/-- A silent frame that holds a negative zero too, with the record's own transform and the reference
datapath, and under a window of infinities. -/
theorem witness_SilentFrameHasZeroSpectrum :
    let at0s := fun g => (ringsAt 0 4 (core g 0)).setElements (.ring .main 0) [0, 0x80000000, 0, 0]
    let fits := fun (s : State) => s.mem.wf ∧ s.cfg.legal = true ∧ (0 : Chan).val < s.cfg.nch ∧
      (∀ i, i < s.cfg.n → s.cfg.numerics.isZero (wrappedRead s .main 0 i) = true) ∧
      s.cfg.num = .binary32
    let windowed := fun (s : State) =>
      ∀ n, n < s.cfg.n → s.cfg.numerics.isFinite (windowAt s.cfg n) = true
    (fits (at0s cfg4Free) ∧ windowed (at0s cfg4Free)) ∧ (fits (at0s cfg4) ∧ windowed (at0s cfg4)) ∧
      fits (at0s { cfg4 with window := .table [0x7F800000, 0x7F800000, 0x7F800000, 0x7F800000] }) := by
  decide +kernel

/-- A band whose half-width is 0 already meets the third part's hypothesis. -/
theorem witness_IndexDerivationSteps :
    (ready.cfg.legal = true ∧ Band.two ≠ Band.one ∧ 0 ≤ (ready.band .one).hw.toInt) ∧
      let N := ready.cfg.numerics
      N.isFinite ready.sr = true ∧ N.lt Numerics.zero ready.sr = true ∧ N.isZero 0x80000000 = true ∧
        ready.cfg.num = .binary32 ∧ ready.cfg.wpol = .ratio ∧ N.isZero ready.snap.blen = true ∧
        N.isFinite (ready.snapCut .one) = true := by decide

/-- The centre bin at both ends of the spectrum. -/
theorem witness_IntervalHoldsItsCentreBin :
    let s := bandsAt 0 0 2 2 ready
    s.cfg.legal = true ∧
      (0 ≤ (s.band .one).bin.toInt ∧ (s.band .one).bin.toInt ≤ ((s.cfg.n / 2 : Nat) : Int) ∧
        1 ≤ (s.band .one).hw.toInt) ∧
      (0 ≤ (s.band .two).bin.toInt ∧ (s.band .two).bin.toInt ≤ ((s.cfg.n / 2 : Nat) : Int) ∧
        1 ≤ (s.band .two).hw.toInt) := by decide

/-- Intervals that reach both ends of the spectrum and share one pair, bin 0 with bin 2. -/
def wide : State := bandsAt 0 2 2 2 ready

theorem wide_inBounds : ∀ b, (wide.band b).inBounds wide.cfg := by
  intro b
  cases b <;> (unfold BandRegs.inBounds; decide)

theorem witness_MixStepsWriteTheWorkingCopies :
    (0 : Chan).val < wide.cfg.nch ∧ (∀ b, (wide.band b).inBounds wide.cfg) ∧
      ((0 : Nat) : Int) < wide.pairs ∧ (1 < wide.cfg.nb ∧ ¬ ((1 : Int) < 0 + wide.pairs)) :=
  ⟨by decide, wide_inBounds, by decide, by decide⟩

/-- Bin 1 lies in neither band; with a marked main spectrum bin 2 is blended. -/
theorem witness_ExchangeKeepsBinsOutsideBothBands :
    let s := State.markSpec .main 0 true (bandsAt 0 0 2 2 ready)
    s.mem.wf ∧ (0 : Chan).val < s.cfg.nch ∧ 1 < s.cfg.nb ∧ s.band1.holds 1 = false ∧
      s.band2.holds 1 = false ∧ (s.specMark .main 0 || s.specMark .side 0) = true ∧
      2 < s.cfg.nb ∧ s.mixes 2 = true := by decide

theorem witness_ProportionalExchange :
    wide.mem.wf ∧ (0 : Chan).val < wide.cfg.nch ∧ wide.snap.xmode = 0 ∧
      wide.specMark .main 0 = false ∧ wide.specMark .side 0 = false := by decide

theorem witness_FullExchange :
    let s := { wide with snap := { Snapshot.zero with xmode := 1 } }
    s.mem.wf ∧ (0 : Chan).val < s.cfg.nch ∧ s.snap.xmode = 1 ∧ s.specMark .main 0 = false ∧
      s.specMark .side 0 = false ∧ (∀ b, (s.band b).inBounds s.cfg) :=
  ⟨by decide, by decide, rfl, by decide, by decide, wide_inBounds⟩

/-! An accuracy that binary32 has: the one its magnitudes alone give. -/

/-- The real number a finite datum stands for. -/
noncomputable def valueOf (w : Word) : ℝ := (F32.signedUnits w : ℝ) / 2 ^ 149

/-- A bound on every value. -/
noncomputable def valueBound : ℝ := 2 ^ 280

theorem valueOf_bound (w : Word) : |valueOf w| ≤ valueBound := by
  have hm : F32.magnitude w < 2 ^ 31 := Nat.mod_lt _ (by decide)
  have hu : F32.units w ≤ 2 ^ 24 * 2 ^ 256 := by
    unfold F32.units
    split
    · exact le_trans (by omega : _ ≤ 2 ^ 24) (Nat.le_mul_of_pos_right _ (by positivity))
    · exact Nat.mul_le_mul (by omega) (Nat.pow_le_pow_right (by decide) (by omega))
  have hs : |(F32.signedUnits w : ℝ)| = F32.units w := by
    unfold F32.signedUnits
    split <;> simp
  rw [valueOf, abs_div, hs, abs_of_pos (by positivity : (0 : ℝ) < 2 ^ 149)]
  calc (F32.units w : ℝ) / 2 ^ 149 ≤ F32.units w := div_le_self (by positivity) (one_le_pow₀ (by norm_num))
    _ ≤ ((2 ^ 24 * 2 ^ 256 : ℕ) : ℝ) := by exact_mod_cast hu
    _ = valueBound := by rw [valueBound, Nat.cast_mul, Nat.cast_pow, Nat.cast_pow, Nat.cast_ofNat, ← pow_add]

/-- A crude accuracy: what the magnitudes alone give. -/
noncomputable def crudeEps : Operation → List Word → ℝ
  | .ofReal (.ratio p _), _ => valueBound + |(p : ℝ)|
  | .ofReal _, _ => valueBound + 4
  | .mul, _ => valueBound + valueBound * valueBound
  | .div, [a, b] => valueBound + |valueOf a / valueOf b|
  | .sqrt, [a] => valueBound + |Real.sqrt (valueOf a)|
  | .rfft, xs => valueBound + xs.length * valueBound
  | .irfft, xs => valueBound + xs.length * valueBound
  | _, _ => valueBound + valueBound + valueBound + 4

theorem bound_sub {x : Word} {y b : ℝ} (h : |y| ≤ b) : |valueOf x - y| ≤ valueBound + b :=
  (abs_sub _ _).trans (add_le_add (valueOf_bound x) h)

theorem cfg4_accurate : cfg4.numerics.Accurate valueOf crudeEps := by
  have one_le : (1 : ℝ) ≤ valueBound := one_le_pow₀ (by norm_num)
  have nonneg : (0 : ℝ) ≤ valueBound := by linarith
  have widen : ∀ {x : Word} {y b e : ℝ}, |y| ≤ b → valueBound + b ≤ e → |valueOf x - y| ≤ e :=
    fun h he => (bound_sub h).trans he
  have v := valueOf_bound
  have turn : ∀ a b x : ℝ, |a| ≤ b → |a * Real.cos x| ≤ b ∧ |a * Real.sin x| ≤ b := by
    intro a b x h
    rw [abs_mul, abs_mul]
    exact ⟨(mul_le_of_le_one_right (abs_nonneg _) (Real.abs_cos_le_one x)).trans h,
      (mul_le_of_le_one_right (abs_nonneg _) (Real.abs_sin_le_one x)).trans h⟩
  have sums : ∀ (f : ℕ → ℝ) (n : ℕ) (b : ℝ), (∀ k, |f k| ≤ b) →
      |∑ k ∈ Finset.range n, f k| ≤ n * b := by
    intro f n b h
    refine (Finset.abs_sum_le_sum_abs _ _).trans ((Finset.sum_le_card_nsmul _ _ b fun k _ => h k).trans ?_)
    simp
  exact
    { zero := by simp [valueOf, show F32.signedUnits Numerics.zero = 0 by decide]
      one := by
        rw [valueOf, show F32.signedUnits cfg4.numerics.one = 2 ^ 149 by decide]
        norm_num
      two := by
        rw [valueOf, show F32.signedUnits cfg4.numerics.two = 2 * 2 ^ 149 by decide]
        norm_num
      ofNat := by
        intro n h
        rw [valueOf, show cfg4.numerics.ofNat n = F32.ofNat n from rfl, F32.ofNat_exact (by omega)]
        rw [Int.cast_mul, Int.cast_natCast, Int.cast_pow, Int.cast_ofNat, mul_div_assoc,
          div_self (by positivity), mul_one]
      ofReal := by
        intro x r hx _
        cases x with
        | ratio p q =>
          refine widen (b := |(p : ℝ)|) ?_ (le_refl _)
          obtain ⟨hq, e⟩ := hx
          rw [← e, abs_mul]
          refine le_mul_of_one_le_right (abs_nonneg _) ?_
          rw [Nat.abs_cast]
          exact_mod_cast Nat.one_le_iff_ne_zero.2 hq
        | pi =>
          refine widen (b := 4) ?_ (le_refl _)
          rw [hx, abs_of_pos Real.pi_pos]
          exact Real.pi_le_four
        | hann i n =>
          refine widen (b := 4) ?_ (le_refl _)
          have := Real.abs_cos_le_one (2 * Real.pi * i / n)
          rw [hx.2, abs_le]
          rw [abs_le] at this
          constructor <;> linarith
        | cosTurn k n =>
          refine widen (b := 4) ?_ (le_refl _)
          rw [hx.2]
          exact (Real.abs_cos_le_one _).trans (by norm_num)
        | sinTurn k n =>
          refine widen (b := 4) ?_ (le_refl _)
          rw [hx.2]
          exact (Real.abs_sin_le_one _).trans (by norm_num)
      add := fun a b _ _ _ => widen ((abs_add_le _ _).trans (add_le_add (v a) (v b)))
        (by simp only [crudeEps]; linarith)
      sub := fun a b _ _ _ => widen ((abs_sub _ _).trans (add_le_add (v a) (v b)))
        (by simp only [crudeEps]; linarith)
      mul := fun a b _ _ _ => widen
        (by rw [abs_mul]; exact mul_le_mul (v a) (v b) (abs_nonneg _) nonneg) (le_refl _)
      div := fun a b _ _ _ _ => widen (le_refl _) (le_refl _)
      sqrt := fun a _ _ _ => widen (le_refl _) (le_refl _)
      cos := fun a _ _ => widen (Real.abs_cos_le_one _) (by simp only [crudeEps]; linarith)
      sin := fun a _ _ => widen (Real.abs_sin_le_one _) (by simp only [crudeEps]; linarith)
      atan2 := fun a b _ _ _ => widen ((Complex.abs_arg_le_pi _).trans Real.pi_le_four)
        (by simp only [crudeEps]; linarith)
      rfft := by
        intro logn xw k hl _ _ bin angle x _ _
        have e : valueBound + ((2 ^ logn : ℕ) : ℝ) * valueBound = crudeEps .rfft xw := by
          rw [← hl]
          rfl
        constructor
        · exact widen (sums _ _ _ fun n => (turn _ _ _ (v _)).1) (le_of_eq e)
        · rw [← sub_neg_eq_add]
          refine widen ?_ (le_of_eq e)
          rw [abs_neg]
          exact sums _ _ _ fun n => (turn _ _ _ (v _)).2
      irfft := by
        intro logn bins n hl _ _ sample angle re im _
        refine widen (sums _ _ (2 * valueBound) fun k => ?_) (le_of_eq ?_)
        · refine (abs_sub _ _).trans ?_
          have := (turn _ _ (angle k) (v (bins.getD k (0, 0)).1)).1
          have := (turn _ _ (angle k) (v (bins.getD k (0, 0)).2)).2
          linarith
        · have hf : (bins.flatMap fun b => [b.1, b.2]).length = 2 * bins.length := by
            clear * -
            induction bins with
            | nil => rfl
            | cons b bs ih => simp [ih]; ring
          simp only [crudeEps, hf, hl]
          push_cast
          ring }

/-- The largest finite datum, the smallest subnormal and a weight of `-0`; and a weight of one half between
`3` and `-3` under an accuracy that holds. -/
theorem witness_BlendAtTheBoundaryWeights :
    let N := cfg4.numerics
    let w : Word := 0x3F000000
    let a : Word := 0x40400000
    let b : Word := 0xC0400000
    (N.isFinite 0x7F7FFFFF = true ∧ N.isFinite 0x80000001 = true ∧ cfg4.num = .binary32 ∧
      N.isZero 0x80000000 = true) ∧
    N.isFinite a = true ∧ N.isFinite b = true ∧ N.Accurate valueOf crudeEps ∧ N.isFinite w = true ∧
    N.isFinite N.one = true ∧ N.isFinite (N.sub N.one w) = true ∧
    N.isFinite (N.mul (N.sub N.one w) a) = true ∧ N.isFinite (N.mul w b) = true ∧
    N.isFinite (blend N w a b) = true :=
  ⟨by decide +kernel, by decide +kernel, by decide +kernel, cfg4_accurate, by decide +kernel,
    by decide +kernel, by decide +kernel, by decide +kernel, by decide +kernel, by decide +kernel⟩

theorem wide_finite (st : Stream) (i : Nat) :
    wide.cfg.numerics.isFinite (wide.element (.specMag st 0) i) = true ∧
      wide.cfg.numerics.isFinite (wide.element (.specPh st 0) i) = true := ⟨rfl, rfl⟩

theorem witness_ZeroRatiosKeepTheMainSpectrum :
    wide.mem.wf ∧ (0 : Chan).val < wide.cfg.nch ∧ (∀ b, (wide.band b).inBounds wide.cfg) ∧
      wide.specMark .main 0 = false ∧ wide.specMark .side 0 = false ∧
      (∀ b, wide.snapMix b = Numerics.zero ∨
        (wide.cfg.num = .binary32 ∧ wide.cfg.numerics.isZero (wide.snapMix b) = true)) ∧
      (∀ st i, i < wide.cfg.nb →
        wide.cfg.numerics.isFinite (wide.element (.specMag st 0) i) = true ∧
        wide.cfg.numerics.isFinite (wide.element (.specPh st 0) i) = true) :=
  ⟨by decide, by decide, wide_inBounds, by decide, by decide, (by intro b; cases b <;> exact .inl rfl),
    fun st i _ => wide_finite st i⟩

theorem witness_SynthesizerStagesWriteScratchOnly :
    let N := ready.cfg.numerics
    (ready.cfg.legal = true ∧ (0 : Chan).val < ready.cfg.nch ∧ 1 < ready.cfg.n / 2) ∧
    (N.isZero (ready.element (.mixMag 0) 0) = true ∧ N.isFinite (ready.element (.mixPh 0) 0) = true) ∧
    (N.cos (ready.element (.mixPh 0) 0) = N.one ∧ N.isZero (N.sin (ready.element (.mixPh 0) 0)) = true ∧
      N.isNaN 0x3F800000 = false ∧ ready.cfg.num = .binary32) ∧
    (∀ k, k < ready.cfg.nb → N.isZero (ready.element (.mixMag 0) k) = true ∧
      N.isFinite (ready.element (.mixPh 0) k) = true) ∧
    (∀ k, k < ready.cfg.n → N.isZero (at0 ready.scratch.y k) = true) ∧
    ¬ (N.isZero 0x3F800000 = true) ∧ ready.mixMark 0 = false ∧ (State.markMix 0 true ready).mixMark 0 = true ∧
    (N.isZero (windowAt ready.cfg 0) = true ∧ N.isFinite (at0 ready.scratch.y 0) = true) := by
  decide +kernel

/-- A frame that wraps, of a clean and of a marked mixed spectrum, and one whose last element lands on a
marked element. -/
theorem witness_OverlapAddAndAdvance :
    let s := { core cfg4Half 0 with olaWr := 6 }
    let fits := fun (s : State) =>
      s.mem.wf ∧ s.cfg.legal = true ∧ (0 : Chan).val < s.cfg.nch ∧ 3 < s.cfg.n
    (fits s ∧ (s.mixMark 0 || s.olaMark 0 7) = false) ∧
    (fits (State.markMix 0 true s) ∧ (State.markMix 0 true s).mixMark 0 = true) ∧
    (fits (State.markOla 0 1 s) ∧ (State.markOla 0 1 s).mixMark 0 = false ∧
      (State.markOla 0 1 s).olaMark 0 ((6 + 3) % s.cfg.len) = true ∧ (1 : Chan) ≠ 0) := by decide

theorem witness_SynthesizeIsItsSteps :
    ready.mem.wf ∧ ready.cfg.legal = true ∧ (0 : Chan).val < ready.cfg.nch := by decide

/-- A silent spectrum; a finite first sample; a finite spectrum with the largest magnitude, with the
record's own transform and with the reference datapath. -/
theorem witness_SilentSpectrumAddsSilence :
    let s := core cfg4Free 0x42A00000
    let N := s.cfg.numerics
    (s.mem.wf ∧ s.cfg.legal = true ∧ (0 : Chan).val < s.cfg.nch ∧ s.mixMark 0 = false) ∧
    ((∀ k, k < s.cfg.nb → N.isZero (s.element (.mixMag 0) k) = true ∧
        N.isFinite (s.element (.mixPh 0) k) = true) ∧
      s.olaMark 0 7 = false ∧ N.isFinite (s.element (.ola 0) 7) = true) ∧
    (s.cfg.window = .hann ∧ N.isFinite (at0 s.scratch.y 0) = true) ∧
    (let fits := fun (t : State) =>
      (t.mem.wf ∧ t.cfg.legal = true ∧ (0 : Chan).val < t.cfg.nch ∧ t.mixMark 0 = false) ∧
        t.cfg.window = .hann ∧ ∀ k, k < t.cfg.nb →
          t.cfg.numerics.isFinite (t.element (.mixMag 0) k) = true ∧
          t.cfg.numerics.isFinite (t.element (.mixPh 0) k) = true
     fits (s.setElements (.mixMag 0) [0x7F7FFFFF, 0, 0x80000000]) ∧
     fits (ready.setElements (.mixMag 0) [0x7F7FFFFF, 0x7F7FFFFF, 0x7F7FFFFF])) := by
  decide +kernel

/-- The four branches of `PROCESS`, the sample rate at `+0` and at the smallest subnormal. -/
theorem witness_ProcessChoosesThePath :
    (core cfg4 0).usable = false ∧ (core cfg4 0x00000001).usable = true ∧ ready.usable = true ∧
      (1 : BitVec 4).toNat = ready.cfg.nch ∧ (2 : BitVec 4).toNat ≠ ready.cfg.nch := by decide

theorem witness_EmitOutputsAndClears :
    ready.mem.wf ∧ (0 : Chan).val < ready.cfg.nch ∧ ready.cfg.nch ≤ (1 : Chan).val := by decide

theorem witness_BypassCopiesMainToOutput : (feed [1] [] ready).mainReady = true := by decide

/-- A bypassed beat needs no sidechain sample; an active one needs both. -/
theorem witness_BeatIsItsSequence :
    (feed [1] [] ready).beatReady = true ∧ (feed [1] [] ready).blkActive = false ∧
      (running 1).beatReady = true ∧ (running 1).blkActive = true := by decide

theorem witness_CycleFrame :
    let s := ringsAt 2 4 ready
    s.mem.wf ∧ s.cfg.legal = true ∧ (∀ st (c : Chan), c.val < s.cfg.nch → (s.ring st c).cnt = s.cfg.n) := by
  refine ⟨by decide, by decide, ?_⟩
  intro st
  cases st <;> decide

theorem running_supplied : (running 8).supplied 8 := by
  unfold State.supplied
  decide

theorem witness_BlockRunsItsBeats :
    (running 8).undisturbed ∧ (running 8).issue = [] ∧ (running 8).supplied (running 8).blkRem.toNat :=
  ⟨rfl, rfl, running_supplied⟩

theorem witness_BypassedBlockCopiesTheMainStream :
    (bypassing 8).undisturbed ∧ (bypassing 8).issue = [] ∧ (bypassing 8).blkActive = false ∧
      (bypassing 8).supplied (bypassing 8).blkRem.toNat :=
  ⟨rfl, rfl, rfl, by unfold State.supplied; decide⟩

/-- The block of exactly `N` beats, in which the first cycle runs. -/
theorem witness_FirstFrameOfBeatsIsSilent :
    let s := feed [1, 1, 1, 1] [2, 2, 2, 2] { ready with maxBlk := 4 }
    exec (.prepare 0x42A00000 4) s = .next s ∧ s.cfg.legal = true ∧ s.undisturbed ∧ s.issue = [] ∧
      (4 : BitVec 16).toNat ≤ s.cfg.n ∧
      ({ s with blkActive := true, blkRem := 4 } : State).supplied (4 : BitVec 16).toNat :=
  ⟨rfl, by decide, rfl, rfl, by decide, by unfold State.supplied; decide⟩

/-- The active machine right after `PREPARE`. -/
def afresh : State := { running 5 with olaRd := 4 }

theorem afresh_sound : afresh.Sound where
  legal := by decide
  memory := by decide
  rings := by
    intro st
    unfold RingCtl.inBounds
    cases st <;> decide
  olaWrite := ⟨by decide, by decide⟩
  olaRead := by decide
  bands := by
    intro b
    unfold BandRegs.inBounds
    cases b <;> decide
  notInCycle := by decide
  active := fun _ => by decide
  cleared := fun _ => rfl

theorem afresh_inStep : afresh.InStep where
  noQueue := rfl
  same := by
    intro st
    cases st <;> decide
  notFull := by decide
  readCursor := by decide
  writeCursor := by decide

/-- An active beat short of the frame, and a step that is none: a register read between two beats. -/
theorem witness_SilenceUntilTheFirstCycle :
    (afresh.Sound ∧ afresh.InStep ∧ afresh.prepared = true ∧ afresh.Quiet ∧ afresh.activeBeatNext ∧
      (afresh.ring .main 0).cnt + 1 < afresh.cfg.n ∧ ∃ t, step afresh = .next t) ∧
    (let s := { afresh with turns := [.regRead 0x01] }
     s.Sound ∧ s.InStep ∧ s.prepared = true ∧ s.Quiet ∧ ¬ s.activeBeatNext ∧ ∃ t, step s = .next t) := by
  refine ⟨⟨afresh_sound, afresh_inStep, rfl, fun _ _ _ => rfl, ⟨.inl rfl, rfl, by decide, rfl⟩,
    by decide, _, (step_beat (.inl rfl) rfl (by decide)).trans (runBeat_ready (by decide))⟩,
    ⟨{ afresh_sound with }, { afresh_inStep with }, rfl, fun _ _ _ => rfl, ?_, _, rfl⟩⟩
  rintro ⟨h | h, -⟩ <;> cases h

theorem witness_BlockBoundariesDoNotMatter :
    (running 0).undisturbed ∧ (running 0).issue = [] ∧ (running 0).blkRem = 0 ∧
      (3 : BitVec 16).toNat + (5 : BitVec 16).toNat < 2 ^ 16 ∧
      ({ running 0 with blkActive := true } : State).supplied
        ((3 : BitVec 16).toNat + (5 : BitVec 16).toNat) :=
  ⟨rfl, rfl, rfl, by decide, by unfold State.supplied; decide⟩

/-- The active machine one beat before its cycle. -/
def aboutToCycle : State := { ringsAt 3 3 (running 5) with olaRd := 7 }

theorem aboutToCycle_sound : aboutToCycle.Sound where
  legal := by decide
  memory := by decide
  rings := by
    intro st
    unfold RingCtl.inBounds
    cases st <;> decide
  olaWrite := ⟨by decide, by decide⟩
  olaRead := by decide
  bands := by
    intro b
    unfold BandRegs.inBounds
    cases b <;> decide
  notInCycle := by decide
  active := fun _ => by decide
  cleared := fun _ => rfl

theorem aboutToCycle_inStep : aboutToCycle.InStep where
  noQueue := rfl
  same := by
    intro st
    cases st <;> decide
  notFull := by decide
  readCursor := by decide
  writeCursor := by decide

theorem aboutToCycle_steps : ∃ t, step aboutToCycle = .next t :=
  ⟨_, (step_beat (.inl rfl) rfl (by decide)).trans (runBeat_ready (by decide))⟩

theorem witness_SoundnessIsKept : aboutToCycle.Sound ∧ ∃ t, step aboutToCycle = .next t :=
  ⟨aboutToCycle_sound, aboutToCycle_steps⟩

theorem witness_RingsAndCursorsStayInStep :
    aboutToCycle.Sound ∧ aboutToCycle.InStep ∧ ∃ t, step aboutToCycle = .next t :=
  ⟨aboutToCycle_sound, aboutToCycle_inStep, aboutToCycle_steps⟩

theorem witness_TailStaysClear :
    aboutToCycle.Sound ∧ aboutToCycle.InStep ∧ aboutToCycle.TailClear ∧
      ∃ t, step aboutToCycle = .next t :=
  ⟨aboutToCycle_sound, aboutToCycle_inStep, fun _ _ _ _ _ _ => rfl, aboutToCycle_steps⟩

theorem witness_ResetMeetsTheInvariants :
    Cfg.standard.legal = true ∧ cfg4Half.legal = true ∧ cfg4Other.legal = true := by decide

theorem witness_ResetValues :
    Cfg.standard.num = .binary32 ∧ (0x10 : BitVec 32) ≤ 0x17 ∧ (0x10 : BitVec 32) ≤ 0xFFFFFFFF := by
  decide

theorem witness_EventsInfluenceNothing :
    aboutToCycle.turns.head? ≠ some (.regRead 0x02) ∧
      ({ ready with turns := [.regRead 0x03] } : State).turns.head? ≠ some (.regRead 0x02) := by decide

theorem witness_EventsAreSticky :
    (∀ v, aboutToCycle.turns.head? ≠ some (.regWrite 0x02 v)) ∧ ∃ t, step aboutToCycle = .next t :=
  ⟨(by intro v h; cases h), aboutToCycle_steps⟩

/-- A parameter changed by the register port and one changed by a command. -/
theorem witness_ParametersChangeOnlyByTheirWrites :
    (∃ t, step { ready with turns := [.regWrite 0x0D 1] } = .next t ∧ t.params ≠ ready.params) ∧
    (∃ t, step { ready with cmdIn := [0x03000000, 1] } = .next t ∧ t.params ≠ ready.params) :=
  ⟨⟨_, rfl, by decide⟩, ⟨_, rfl, by decide⟩⟩

/-- A sample rate changed by `PREPARE`, and `DRV_STATE` changed by a beat and by `RELEASE`. -/
theorem witness_WhatChangesTheSequencingRegisters :
    (∃ t, step { ready with cmdIn := [0x01000007, 1] } = .next t ∧ t.sr ≠ ready.sr) ∧
    ((running 5).drv ≠ .cycle ∧ (running 5).issue = [] ∧
      shown (fun t => decide (t.drv ≠ (running 5).drv)) (step (running 5)) = some true) ∧
    (∃ t, step { ready with drv := .accumulating, cmdIn := [0x02000000] } = .next t ∧
      t.drv ≠ .accumulating) :=
  ⟨⟨_, rfl, by decide⟩, ⟨by decide, rfl, by decide +kernel⟩, ⟨_, rfl, by decide⟩⟩

theorem witness_ParametersReachTheDataPathOnlyThroughSnap :
    (∀ v, Instr.exchange 0 ≠ .setpCut1 v ∧ Instr.exchange 0 ≠ .setpCut2 v ∧
      Instr.exchange 0 ≠ .setpBlen v ∧ Instr.exchange 0 ≠ .setpXmode v ∧
      Instr.exchange 0 ≠ .setpMix1 v ∧ Instr.exchange 0 ≠ .setpMix2 v) ∧
    Instr.exchange 0 ≠ .snap ∧ Instr.exchange 0 ≠ .drvCycle ∧ Instr.exchange 0 ≠ .drvBeat := by
  simp

/-- Each part: a channel at `NCH`, an instruction that completes, and the three empty ports. -/
theorem witness_OnlyMissingSamplesAndChannelsStop :
    (Instr.syOla 1).wellFormed ready.cfg.nch = false ∧
    ((Instr.accWrite .side 0).wellFormed ready.cfg.nch = true ∧
      (feed [] [1] ready).hasSample .side 0 = true) ∧
    ((0 : Chan).val < ready.cfg.nch ∧ ready.hasSample .side 0 = false) ∧
    ready.mainReady = false ∧ ready.beatReady = false ∧ (running 1).beatReady = true := by decide

end Sys2Proof.Tests
end

section
/-! What an instruction leaves when it completes, which instructions come from the command port and which
from the sequencer, and what a step that completes did. -/

-- A proof is elaborated where it stands, not on a thread of its own: the check holds the stacks of all
-- threads of its one compile under the memory limit. No proof uses a section variable it does not name.
set_option deprecated.oldSectionVars true

namespace Sys2Proof

open Machine

/-! ### Host commands and micro-operations -/

/-- Whether an instruction is a host command of 30_encoding.md R63, and not a micro-operation of R64. -/
def Instr.isCommand : Instr → Bool
  | .nop | .prepare _ _ | .release | .setpCut1 _ | .setpCut2 _ | .setpBlen _ | .setpXmode _
  | .setpMix1 _ | .setpMix2 _ | .process _ _ _ => true
  | _ => false

theorem setpOf_isCommand {p : BitVec 4} {v : Word} {i : Instr} (h : setpOf p v = some i) :
    i.isCommand = true := by
  unfold setpOf at h
  split_ifs at h <;> cases h <;> rfl

/-- The command port takes host commands only (30_encoding.md R65). -/
theorem decodeCommand_isCommand {ws rest : List Word} {i : Instr}
    (h : decodeCommand ws = .taken i rest) : i.isCommand = true := by
  unfold decodeCommand at h
  repeat' split at h
  all_goals cases h
  case h_1.refl hs => exact setpOf_isCommand hs
  all_goals rfl

/-- Whether a decoded word of the sequencer holds no host command. -/
def MicroOp.noCommand : MicroOp → Bool
  | .op i => !i.isCommand
  | .rejected _ => true

section

variable (w : Word)

theorem microPlain_noCommand {i : Instr} (h : i.isCommand = false) :
    (microPlain w i).noCommand = true := by
  unfold microPlain
  split <;> simp [MicroOp.noCommand, h]

theorem microChan_noCommand {k : Chan → Instr} (h : ∀ c, (k c).isCommand = false) :
    (microChan w k).noCommand = true := by
  unfold microChan
  split <;> simp [MicroOp.noCommand, h]

theorem microStream_noCommand {k : Stream → Chan → Instr} (h : ∀ st c, (k st c).isCommand = false) :
    (microStream w k).noCommand = true := by
  unfold microStream
  split <;> simp [MicroOp.noCommand, h]

theorem microBand_noCommand {k : Band → Instr} (h : ∀ b, (k b).isCommand = false) :
    (microBand w k).noCommand = true := by
  unfold microBand
  repeat' split
  all_goals simp [MicroOp.noCommand, h]

theorem microBandChan_noCommand {k : Band → Chan → Instr} (h : ∀ b c, (k b c).isCommand = false) :
    (microBandChan w k).noCommand = true := by
  unfold microBandChan
  repeat' split
  all_goals simp [MicroOp.noCommand, h]

theorem ite_noCommand {p : Prop} [Decidable p] {a b : MicroOp} (ha : a.noCommand = true)
    (hb : b.noCommand = true) : (if p then a else b).noCommand = true := by
  split <;> assumption

/-- The sequencer issues no host command (30_encoding.md R64), row by row of its table. -/
theorem decodeMicro_noCommand : (decodeMicro w).noCommand = true :=
  ite_noCommand (microStream_noCommand w fun _ _ => rfl) <|  -- ACC.WRITE
  ite_noCommand (microPlain_noCommand w rfl) <|
  ite_noCommand (microStream_noCommand w fun _ _ => rfl) <|
  ite_noCommand (microPlain_noCommand w rfl) <|
  ite_noCommand (microPlain_noCommand w rfl) <|  -- SNAP
  ite_noCommand (microStream_noCommand w fun _ _ => rfl) <|  -- AN.WINDOW
  ite_noCommand (microStream_noCommand w fun _ _ => rfl) <|
  ite_noCommand (microStream_noCommand w fun _ _ => rfl) <|
  ite_noCommand (microStream_noCommand w fun _ _ => rfl) <|
  ite_noCommand (microBand_noCommand w fun _ => rfl) <|  -- BX.BIN
  ite_noCommand (microBand_noCommand w fun _ => rfl) <|
  ite_noCommand (microBand_noCommand w fun _ => rfl) <|
  ite_noCommand (microBandChan_noCommand w fun _ _ => rfl) <|
  ite_noCommand (microChan_noCommand w fun _ => rfl) <|
  ite_noCommand (microChan_noCommand w fun _ => rfl) <|
  ite_noCommand (microChan_noCommand w fun _ => rfl) <|  -- SY.RECT
  ite_noCommand (microChan_noCommand w fun _ => rfl) <|
  ite_noCommand (microChan_noCommand w fun _ => rfl) <|
  ite_noCommand (microChan_noCommand w fun _ => rfl) <|
  ite_noCommand (microChan_noCommand w fun _ => rfl) <|
  ite_noCommand (microChan_noCommand w fun _ => rfl) <|
  ite_noCommand (microPlain_noCommand w rfl) <|
  ite_noCommand (microPlain_noCommand w rfl) <|  -- DRV.EMIT
  ite_noCommand (microPlain_noCommand w rfl) <|
  ite_noCommand (microPlain_noCommand w rfl) <|
  ite_noCommand (microPlain_noCommand w rfl) rfl

theorem decodeMicro_isCommand {w : Word} {i : Instr} (h : decodeMicro w = .op i) :
    i.isCommand = false := by
  have := decodeMicro_noCommand w
  rw [h] at this
  simpa [MicroOp.noCommand] using this

end

end Sys2Proof

namespace Sys2Proof.Machine

/-! ### What an instruction leaves -/

/-- The state an instruction leaves when it completes. -/
def after (i : Instr) (s : State) : State :=
  match i with
  | .nop => s
  | .prepare sr mb => { clearBuffers s with sr := sr, maxBlk := mb, prepared := true }
  | .release => { clearBuffers s with prepared := false }
  | .setpCut1 v => { s with params := { s.params with cut1 := v } }
  | .setpCut2 v => { s with params := { s.params with cut2 := v } }
  | .setpBlen v => { s with params := { s.params with blen := v } }
  | .setpXmode v => { s with params := { s.params with xmode := v } }
  | .setpMix1 v => { s with params := { s.params with mix1 := v } }
  | .setpMix2 v => { s with params := { s.params with mix2 := v } }
  | .process nsamp sc nch =>
    { State.raiseIf (s.blockMismatch sc nch) .mismatch (State.raiseIf (!s.usable) .degen s) with
      blkActive := s.blockActive sc nch
      blkRem := nsamp }
  | .accWrite st c => accWrite st c s
  | .accReady => accReady s
  | .accFrame st c => accFrame st c s
  | .accConsume => accConsume s
  | .snap => snapAll s
  | .anWindow _ _ => anWindow s
  | .anRfft _ _ => anRfft s
  | .anPolar st c => anPolar st c s
  | .analyze st c => analyze st c s
  | .bxBin b => bxBin b s
  | .bxHalfw b => bxHalfw b s
  | .bxInterval b => bxInterval b s
  | .bxMixp b _ => bxMixp b s
  | .bxMixf _ => bxMixf s
  | .exchange c => exchange c s
  | .syRect c => syRect c s
  | .sySymm _ => sySymm s
  | .syIrfft _ => syIrfft s
  | .syNormwin c => syNormwin c s
  | .syOla c => syOla c s
  | .synthesize c => synthesize c s
  | .syAdv => syAdv s
  | .drvEmit => emit s
  | .drvBypass => bypass s
  | .drvCycle => cycle s
  | .drvBeat => beat s

theorem onChannel_next {c : Chan} {s u t : State} (h : onChannel c s u = .next t) : t = u := by
  unfold onChannel at h
  split at h <;> cases h
  rfl

/-- An instruction that completes leaves one state; the others stop. -/
theorem exec_next {i : Instr} {s t : State} (h : exec i s = .next t) : t = after i s := by
  cases i with
  | accWrite st c =>
    change execAccWrite st c s = _ at h
    unfold execAccWrite at h
    split_ifs at h
    cases h
    rfl
  | drvBypass =>
    change execDrvBypass s = _ at h
    unfold execDrvBypass at h
    split_ifs at h
    cases h
    rfl
  | drvBeat =>
    change execDrvBeat s = _ at h
    unfold execDrvBeat at h
    split_ifs at h
    cases h
    rfl
  | accFrame | anWindow | anRfft | anPolar | analyze | bxMixp | bxMixf | exchange | syRect | sySymm
  | syIrfft | syNormwin | syOla | synthesize => exact onChannel_next h
  | _ => exact (Host.Outcome.next.inj h).symm

@[simp] theorem after_cfg (i : Instr) (s : State) : (after i s).cfg = s.cfg := by
  cases i <;> simp [after]

theorem after_sr_maxBlk {i : Instr} (h : ∀ sr mb, i ≠ .prepare sr mb) (s : State) :
    (after i s).sr = s.sr ∧ (after i s).maxBlk = s.maxBlk := by
  cases i with
  | prepare sr mb => exact absurd rfl (h sr mb)
  | _ => simp [after]

/-- Of the host commands, `PREPARE` and `RELEASE` make the driver idle and no other moves it. -/
theorem after_drv {i : Instr} (hc : i.isCommand = true) (s : State) :
    (after i s).drv = s.drv ∨
      (after i s).drv = .idle ∧ (i = .release ∨ ∃ sr mb, i = .prepare sr mb) := by
  cases i with
  | prepare sr mb => exact .inr ⟨rfl, .inr ⟨sr, mb, rfl⟩⟩
  | release => exact .inr ⟨rfl, .inl rfl⟩
  | nop | setpCut1 | setpCut2 | setpBlen | setpXmode | setpMix1 | setpMix2 | process => exact .inl rfl
  | _ => cases hc

/-! ### What a step leaves -/

theorem runMicro_next {w : Word} {s t : State} (h : runMicro w s = .next t) :
    ∃ i, decodeMicro w = .op i ∧ t = after i s := by
  unfold runMicro at h
  split at h
  · next i hi => exact ⟨i, hi, exec_next h⟩
  · cases h

/-- What holds of the state that every kind of step leaves holds of the state a step leaves: a register
access, or one operation of the driver, by where it came from. -/
theorem step_elim {s t : State} {P : State → Prop} (h : step s = .next t)
    (answered : ∀ addr ts, s.turns = .regRead addr :: ts → P (answerRead addr { s with turns := ts }))
    (wrote : ∀ addr v ts, s.turns = .regWrite addr v :: ts →
      P (regWrite addr v { s with turns := ts }))
    (issued : ∀ w ws i, s.driverNext → s.issue = w :: ws → decodeMicro w = .op i →
      P (after i { s.turnTaken with issue := ws }))
    (beaten : s.driverNext → s.issue = [] → s.blkRem ≠ 0 → s.turnTaken.beatReady = true →
      P { beat s.turnTaken with blkRem := s.blkRem - 1 })
    (waited : s.driverNext → s.issue = [] → s.blkRem = 0 → decodeCommand s.cmdIn = .awaiting →
      P s.turnTaken)
    (rejected : ∀ why rest, s.driverNext → s.issue = [] → s.blkRem = 0 →
      decodeCommand s.cmdIn = .illegal why rest →
      P (State.raiseIf true .illCmd { s.turnTaken with cmdIn := rest }))
    (commanded : ∀ i rest, s.driverNext → s.issue = [] → s.blkRem = 0 →
      decodeCommand s.cmdIn = .taken i rest → P (after i { s.turnTaken with cmdIn := rest })) :
    P t := by
  have driver : s.driverNext → P t := by
    intro hd
    cases hi : s.issue with
    | cons w ws =>
      rw [step_micro hd hi] at h
      obtain ⟨i, hw, rfl⟩ := runMicro_next h
      exact issued w ws i hd hi hw
    | nil =>
      by_cases hb : s.blkRem = 0
      · rw [step_command hd hi hb, runCommand] at h
        split at h
        · next hw => cases h; exact waited hd hi hb hw
        · next why rest hw => cases h; exact rejected why rest hd hi hb hw
        · next i rest hw => cases exec_next h; exact commanded i rest hd hi hb hw
      · rw [step_beat hd hi hb] at h
        obtain ⟨hr, rfl⟩ := runBeat_next h
        exact beaten hd hi hb hr
  match ht : s.turns with
  | [] => exact driver (.inl ht)
  | .driver :: ts => exact driver (.inr (by rw [ht]; rfl))
  | .regRead addr :: ts =>
    simp only [step, takeTurn, ht, Host.Outcome.next.injEq] at h
    exact h ▸ answered addr ts ht
  | .regWrite addr v :: ts =>
    simp only [step, takeTurn, ht, Host.Outcome.next.injEq] at h
    exact h ▸ wrote addr v ts ht

/-! ### What changes the sequencing registers -/

/-- 00_scope.md R5. -/
theorem step_cfg {s t : State} (h : step s = .next t) : t.cfg = s.cfg := by
  apply step_elim h
  case issued => exact fun _ _ _ _ _ _ => after_cfg _ _
  case commanded => exact fun _ _ _ _ _ _ => after_cfg _ _
  case beaten => exact fun _ _ _ _ => beat_cfg _
  all_goals intros; rfl

/-- A step that is no `PREPARE` command keeps `SR` and `MAXBLK` (70_reset_and_hazards.md R198). -/
theorem step_sr_maxBlk {s t : State} (h : step s = .next t) :
    (t.sr = s.sr ∧ t.maxBlk = s.maxBlk) ∨
      ∃ rest, s.driverNext ∧ decodeCommand s.cmdIn = .taken (.prepare t.sr t.maxBlk) rest := by
  apply step_elim h
  case issued =>
    refine fun w ws i _ _ decoded => .inl (after_sr_maxBlk ?_ _)
    rintro sr mb rfl
    cases decodeMicro_isCommand decoded
  case commanded =>
    intro i rest driver _ _ decoded
    by_cases hi : ∃ sr mb, i = .prepare sr mb
    · obtain ⟨sr, mb, rfl⟩ := hi
      exact .inr ⟨rest, driver, decoded⟩
    · exact .inl (after_sr_maxBlk (fun sr mb e => hi ⟨sr, mb, e⟩) _)
  case beaten => exact fun _ _ _ _ => .inl ⟨beat_sr _, beat_maxBlk _⟩
  all_goals intros; exact .inl ⟨rfl, rfl⟩

/-- A beat moves `DRV_STATE` from `Idle` to `Accumulating` on an active block, and otherwise leaves it
(46_driver.md R162). -/
theorem beat_drv {s : State} (hc : s.drv ≠ .cycle) :
    (beat s).drv = if s.blkActive then .accumulating else s.drv := by
  unfold beat
  split
  · exact activeBeat_drv s hc
  · exact bypass_drv s

/-- With no micro-operation queued, `DRV_STATE` moves by a lifecycle command or by an active beat. -/
theorem step_drv {s t : State} (h : step s = .next t) (hc : s.drv ≠ .cycle) (hq : s.issue = []) :
    t.drv = s.drv ∨
      (t.drv = .idle ∧ s.driverNext ∧ s.blkRem = 0 ∧ ∃ i rest, decodeCommand s.cmdIn = .taken i rest ∧
        (i = .release ∨ ∃ sr mb, i = .prepare sr mb)) ∨
      (t.drv = .accumulating ∧ s.driverNext ∧ s.blkRem ≠ 0 ∧ s.blkActive = true) := by
  apply step_elim h
  case issued =>
    intro w ws _ _ queue
    rw [hq] at queue
    cases queue
  case beaten =>
    intro driver _ block _
    have moved := beat_drv (s := s.turnTaken) hc
    split at moved
    · next active => exact .inr (.inr ⟨moved, driver, block, active⟩)
    · exact .inl moved
  case commanded =>
    intro i rest driver _ block decoded
    obtain kept | ⟨idle, which⟩ :=
      after_drv (decodeCommand_isCommand decoded) { s.turnTaken with cmdIn := rest }
    · exact .inl kept
    · exact .inr (.inl ⟨idle, driver, block, i, rest, decoded, which⟩)
  all_goals intros; exact .inl rfl

/-- Settles O58: each register from the one lemma that says what a step does to it. -/
theorem whatChangesTheSequencingRegisters : Obligations.WhatChangesTheSequencingRegisters := by
  intro s t h
  refine ⟨step_cfg h, fun changed => ?_, fun hc hq changed => ?_⟩
  · obtain ⟨hsr, hmb⟩ | ⟨rest, driver, decoded⟩ := step_sr_maxBlk h
    · exact absurd changed (by simp [hsr, hmb])
    · exact ⟨t.sr, t.maxBlk, rest, driver, decoded, rfl, rfl⟩
  · obtain kept | idle | ⟨acc, driver, block, active⟩ := step_drv h hc hq
    · exact absurd kept changed
    · exact .inl idle
    · have : s.drv = .idle := by
        cases hd : s.drv with
        | idle => rfl
        | accumulating => exact absurd (acc.trans hd.symm) changed
        | cycle => exact absurd hd hc
      exact .inr ⟨this, acc, driver, block, active⟩

end Sys2Proof.Machine
end

section
/-! The laws of 00_scope.md R8 for a record made of free functions and for the reference datapath. -/

-- No thread of its own for each proof, as in the first section of the proofs.
set_option deprecated.oldSectionVars true

namespace Sys2Proof

open Machine

/-! ### The places of a record's values -/

section

variable {r : RawNum}

theorem RawNum.compare_some {a b : Word} {p q : Int} (ha : r.place a = some p)
    (hb : r.place b = some q) (c : Int → Int → Bool) : r.compare c a b = c p q := by
  simp [compare, ha, hb]

theorem RawNum.compare_none {a b : Word} (h : r.place a = none ∨ r.place b = none)
    (c : Int → Int → Bool) : r.compare c a b = false := by
  unfold compare
  split
  · next ha hb => simp [ha, hb] at h
  · rfl

theorem RawNum.exists_place {w : Word} (h : r.record.isNaN w = false) : ∃ p, r.place w = some p := by
  rw [isNaN_record] at h
  exact Option.isSome_iff_exists.1 (Option.isNone_eq_false_iff.1 h)

theorem RawNum.place_none {w : Word} (h : r.record.isNaN w = true) : r.place w = none := by
  rwa [isNaN_record, Option.isNone_iff_eq_none] at h

theorem RawNum.isNaN_eq_false {w : Word} {p : Int} (h : r.place w = some p) :
    r.record.isNaN w = false := by
  rw [isNaN_record, h]
  rfl

theorem RawNum.isPhase_iff {w : Word} {top : Int} (h : r.place r.piF = some top) :
    r.isPhase w = true ↔ ∃ p, r.place w = some p ∧ |p| ≤ top := by
  unfold isPhase
  rw [h]
  cases r.place w <;> simp

theorem RawNum.isMinusPi_iff {w : Word} {top : Int} (h : r.place r.piF = some top) :
    r.isMinusPi w = true ↔ r.place w = some (-top) := by
  unfold isMinusPi
  rw [h]
  cases r.place w <;> simp

end

/-- The number a value of the record stands for, 0 for a NaN. -/
def RawNum.number (r : RawNum) (w : Word) : Int := (r.place w).getD 0

theorem RawNum.number_eq {r : RawNum} {w : Word} {p : Int} (h : r.place w = some p) :
    r.number w = p := by
  simp [number, h]

section

variable {r : RawNum} (h : r.exact = true)
include h

/-! ### The constants of a record -/

theorem RawNum.place_unit : r.place r.unit = some (r.perOne : Int) := by
  have := place_ofNat h (n := 1) (by decide)
  rwa [Nat.one_mul] at this

theorem RawNum.number_ofNat {n : Nat} (hn : n ≤ 2 ^ 13) : r.number (r.ofNat n) = n * r.perOne := by
  rw [number_eq (place_ofNat h hn), Nat.cast_mul]

theorem RawNum.unit_not_zero : ¬ r.isZero r.unit = true := by
  have := perOne_pos h
  rw [isZero_iff h, place_unit h, Option.some_inj]
  omega

theorem RawNum.ne_unit {w : Word} (hw : r.isZero w = true) : w ≠ r.unit :=
  fun e => unit_not_zero h (e ▸ hw)

theorem RawNum.isZero_zero : r.isZero Numerics.zero = true := (isZero_iff h _).2 (place_zero h)

theorem RawNum.finite_ofNat {n : Nat} (hn : n ≤ 2 ^ 13) : r.finite (r.ofNat n) = true := by
  have : n * r.perOne ≤ 2 ^ 13 * r.perOne := Nat.mul_le_mul_right _ hn
  exact (r.finite_iff _).2 ⟨_, place_ofNat h hn, by omega, by omega⟩

theorem RawNum.finite_zero : r.finite Numerics.zero = true :=
  (r.finite_iff _).2 ⟨0, place_zero h, by omega, by omega⟩

theorem RawNum.less_zero {w : Word} {p : Int} (hp : r.place w = some p) :
    r.less w Numerics.zero = decide (p < 0) := compare_some hp (place_zero h) _

/-! ### The operations of a record on zeros and ones -/

omit h in
theorem RawNum.minus_unit_zero : r.minus r.unit Numerics.zero = r.unit := by
  simp [minus]

theorem RawNum.minus_unit_unit : r.minus r.unit r.unit = Numerics.zero := by
  have : r.unit ≠ Numerics.zero := (ne_unit h (isZero_zero h)).symm
  simp [minus, this]

theorem RawNum.isZero_keepIf (w : Word) : r.isZero (keepIf r.isZero w) = true :=
  keepIf_law (isZero_zero h) w

theorem RawNum.times_zero {z x : Word} (hz : r.isZero z = true) (hx : r.finite x = true) :
    r.isZero (r.times z x) = true ∧ r.isZero (r.times x z) = true := by
  unfold times
  constructor
  · rw [if_neg (ne_unit h hz), if_pos (.inl ⟨hz, hx⟩)]
    exact isZero_keepIf h _
  · split
    · exact hz
    · rw [if_pos (.inr ⟨hx, hz⟩)]
      exact isZero_keepIf h _

omit h in
theorem RawNum.plus_zero {z x : Word} (hz : r.isZero z = true) (hx : r.finite x = true)
    (hnz : r.isZero x = false) : r.plus x z = x ∧ r.plus z x = x := by
  simp [plus, hz, hx, hnz]

theorem RawNum.isZero_root {x : Word} (hx : r.isZero x = true) : r.isZero (r.root x) = true := by
  unfold root
  rw [if_pos hx]
  exact isZero_keepIf h _

theorem RawNum.root_not_negative (x : Word) : r.less (r.root x) Numerics.zero = false := by
  have zero : r.less Numerics.zero Numerics.zero = false := by simp [less_zero h (place_zero h)]
  by_cases hx : r.isZero x = true
  · simp [less_zero h ((isZero_iff h _).1 (isZero_root h hx))]
  · have law := keepIf_law (law := fun w => !r.less w Numerics.zero) (by
      show (!r.less Numerics.zero Numerics.zero) = true
      rw [zero]
      rfl) (r.sqrt x)
    unfold root
    rw [if_neg hx]
    simpa using law

/-! ### The angle of a record -/

theorem RawNum.isZero_angle {im re : Word} (him : r.isZero im = true) (hre : r.isZero re = true) :
    r.isZero (r.angle im re) = true := by
  unfold angle
  rw [if_pos (c := _ ∧ _) ⟨him, hre⟩]
  split
  · exact isZero_zero h
  · exact isZero_keepIf h _

/-- Every angle stands for a number at most that of `pi_F` away from 0 (law N-ATAN). -/
theorem RawNum.angle_range (im re : Word) :
    ∃ p top, r.place (r.angle im re) = some p ∧ r.place r.piF = some top ∧ |p| ≤ top := by
  obtain ⟨top, hq, h0⟩ := place_piF h
  suffices hp : ∃ p, r.place (r.angle im re) = some p ∧ |p| ≤ top from
    hp.imp fun p ⟨hp, hle⟩ => ⟨top, hp, hq, hle⟩
  have zero : ∀ w, r.isZero w = true → ∃ p, r.place w = some p ∧ |p| ≤ top := fun w hw =>
    ⟨0, (isZero_iff h w).1 hw, by simpa⟩
  unfold angle
  split_ifs with _ _ _ hm
  · exact zero _ (isZero_zero h)
  · exact zero _ (isZero_keepIf h _)
  · exact ⟨-top, (isMinusPi_iff hq).1 hm.2, by rw [abs_neg, abs_of_nonneg h0]⟩
  · exact ⟨top, hq, by rw [abs_of_nonneg h0]⟩
  · exact (isPhase_iff hq).1 (keepIf_law ((isPhase_iff hq).2 (zero _ (isZero_zero h))) _)

/-- A zero `im` with `re < 0` gives `pi_F`, or its negative when `im` is not the positive zero. -/
theorem RawNum.angle_of_negative {im re : Word} (him : r.isZero im = true)
    (hre : r.less re Numerics.zero = true) :
    r.angle im re = r.piF ∨ im ≠ Numerics.zero ∧ r.number (r.angle im re) = -r.number r.piF := by
  obtain ⟨p, q, hp, hq, hlt⟩ := (r.less_iff _ _).1 hre
  obtain rfl : 0 = q := Option.some_inj.1 ((place_zero h).symm.trans hq)
  have h1 : ¬ r.atMost Numerics.zero re = true := by
    rw [atMost, compare_some (place_zero h) hp]
    simpa
  have h2 : ¬ r.isZero re = true := by
    rw [isZero_iff h, hp, Option.some_inj]
    omega
  obtain ⟨top, hpi, _⟩ := place_piF h
  unfold angle
  rw [if_neg (fun e => h1 e.2), if_neg (fun e => h2 e.2), if_pos ⟨him, hre⟩]
  split
  · next hm =>
    rw [number_eq ((isMinusPi_iff hpi).1 hm.2), number_eq hpi]
    exact .inr ⟨hm.1, rfl⟩
  · exact .inl rfl

end

/-! ### The tables of a record -/

/-- `cos(-x) = cos(x)`: a turn and its complement fold to one fraction. -/
theorem foldTurn_complement {i n : Nat} (h0 : 1 ≤ i) (h : i < n) :
    foldTurn (n - i) n = foldTurn i n := by
  have h1 : i % n = i := Nat.mod_eq_of_lt h
  have h2 : (n - i) % n = n - i := Nat.mod_eq_of_lt (by omega)
  have h3 : min (n - i) (n - (n - i)) = min i (n - i) := by omega
  simp only [foldTurn, h1, h2, h3]

section

variable {q : Nat} (hq : 0 < q)
include hq

theorem foldTurn_half : foldTurn (2 * q) (4 * q) = (1, 2) := by
  have hm : 2 * q % (4 * q) = 2 * q := Nat.mod_eq_of_lt (by omega)
  have hk : min (2 * q) (4 * q - 2 * q) = 2 * q := by omega
  have hg : (2 * q).gcd (4 * q) = 2 * q := Nat.gcd_eq_left ⟨2, by omega⟩
  simp only [foldTurn, hm, hk, hg, Prod.mk.injEq]
  exact ⟨Nat.div_self (by omega), Nat.div_eq_of_eq_mul_left (by omega) (by omega)⟩

theorem foldTurn_quarter : foldTurn q (4 * q) = (1, 4) := by
  have hm : q % (4 * q) = q := Nat.mod_eq_of_lt (by omega)
  have hk : min q (4 * q - q) = q := by omega
  have hg : q.gcd (4 * q) = q := Nat.gcd_eq_left ⟨4, by omega⟩
  simp only [foldTurn, hm, hk, hg, Prod.mk.injEq]
  exact ⟨Nat.div_self hq, Nat.div_eq_of_eq_mul_left hq rfl⟩

theorem foldTurn_three_quarters : foldTurn (3 * q) (4 * q) = (1, 4) := by
  have h := foldTurn_complement (i := q) (n := 4 * q) hq (by omega)
  rwa [show 4 * q - q = 3 * q by omega, foldTurn_quarter hq] at h

omit hq in
theorem canonical_hann_zero : (ExactReal.hann 0 (4 * q)).canonical = .ratio 0 1 := by
  simp [ExactReal.canonical, foldTurn]

theorem canonical_hann_half : (ExactReal.hann (2 * q) (4 * q)).canonical = .ratio 1 1 := by
  simp [ExactReal.canonical, foldTurn_half hq]

omit hq in
theorem canonical_cosTurn_zero : (ExactReal.cosTurn 0 (4 * q)).canonical = .ratio 1 1 := by
  simp [ExactReal.canonical, canonicalCosine, foldTurn]

theorem canonical_cosTurn_quarter : (ExactReal.cosTurn q (4 * q)).canonical = .ratio 0 1 := by
  simp [ExactReal.canonical, canonicalCosine, foldTurn_quarter hq]

theorem canonical_sinTurn_zero : (ExactReal.sinTurn 0 (4 * q)).canonical = .ratio 0 1 := by
  have : foldTurn (3 * (4 * q)) (4 * (4 * q)) = (1, 4) := foldTurn_three_quarters (by omega)
  simp [ExactReal.canonical, canonicalCosine, this]

omit hq in
theorem canonical_sinTurn_quarter : (ExactReal.sinTurn q (4 * q)).canonical = .ratio 1 1 := by
  have : 4 * q + 3 * (4 * q) = 4 * (4 * q) := by omega
  simp [ExactReal.canonical, canonicalCosine, foldTurn, this]

end

/-- A transform size is four quarters. -/
theorem two_pow_quarters {logn : Nat} (h : 2 ≤ logn) : ∃ q, 0 < q ∧ 2 ^ logn = 4 * q :=
  ⟨2 ^ (logn - 2), by positivity, (pow_mul_pow_sub 2 h).symm⟩

theorem RawNum.fromReal_zero {r : RawNum} {x : ExactReal} (h : x.canonical = .ratio 0 1) :
    r.fromReal x = Numerics.zero := by
  simp only [fromReal, h]

theorem RawNum.fromReal_one {r : RawNum} {x : ExactReal} (h : x.canonical = .ratio 1 1) :
    r.fromReal x = r.unit := by
  simp only [fromReal, h]

/-! ### Transforms of zeros -/

theorem lawfulBins_zero {isZero : Word → Bool} (h0 : isZero 0 = true)
    {bin : List Word → Nat → Word × Word} {logn : Nat} {xw : List Word}
    (h : ∀ x ∈ xw, isZero x = true) :
    ∀ b ∈ lawfulBins isZero bin logn xw, isZero b.1 = true ∧ isZero b.2 = true := by
  intro b hb
  obtain ⟨k, -, rfl⟩ := List.mem_map.1 hb
  rw [List.all_eq_true.2 h]
  exact ⟨keepZero_promised h0 _, keepZero_promised h0 _⟩

theorem allZero_of_forall {isZero : Word → Bool} {bins : List (Word × Word)}
    (h : ∀ b ∈ bins, isZero b.1 = true ∧ isZero b.2 = true) : allZero isZero bins = true :=
  List.all_eq_true.2 fun b hb => Bool.and_eq_true_iff.2 (h b hb)

theorem lawfulSamples_zero {isZero : Word → Bool} (h0 : isZero 0 = true)
    {sample : List (Word × Word) → Nat → Word} {logn : Nat} {bins : List (Word × Word)}
    (h : ∀ b ∈ bins, isZero b.1 = true ∧ isZero b.2 = true) :
    ∀ y ∈ lawfulSamples isZero sample logn bins, isZero y = true := by
  intro y hy
  obtain ⟨n, -, rfl⟩ := List.mem_map.1 hy
  rw [allZero_of_forall h]
  exact keepZero_promised h0 _

/-! ### The records -/

/-- The values of a record made of free functions stand for the numbers of their places. -/
theorem RawNum.record_values {r : RawNum} (h : r.exact = true) :
    r.record.Values r.perOne r.number where
  pos := perOne_pos h
  constants := ⟨number_eq (place_zero h), number_eq (place_unit h),
    number_ofNat h (n := 2) (by decide)⟩
  ofNat n hn := ⟨finite_ofNat h hn, number_ofNat h hn⟩
  order a b ha hb := by
    obtain ⟨p, hp⟩ := exists_place ha
    obtain ⟨q, hq⟩ := exists_place hb
    rw [number_eq hp, number_eq hq]
    exact compare_some hp hq _
  roundsat x hx := by
    obtain ⟨p, hp, -⟩ := (r.finite_iff x).1 hx
    rw [number_eq hp]
    show r.toRegister x = _
    simp only [toRegister, hp, show r.finite x = true from hx, if_true]
  atanRange im re := by
    obtain ⟨p, top, hp, hq, hle⟩ := angle_range h im re
    refine ⟨isNaN_eq_false hp, ?_⟩
    show |r.number (r.angle im re)| ≤ r.number r.piF
    rwa [number_eq hp, number_eq hq]
  atanPi _ _ him hre := angle_of_negative h him hre

/-- A record made of free functions meets the laws. -/
theorem RawNum.record_lawful {r : RawNum} (h : r.exact = true) : r.record.Lawful where
  nanCompares a b hab := by
    have : r.place a = none ∨ r.place b = none := hab.imp place_none place_none
    exact ⟨compare_none this _, compare_none this _, compare_none this _⟩
  order a b ha hb := by
    obtain ⟨p, hp⟩ := exists_place ha
    obtain ⟨q, hq⟩ := exists_place hb
    simp only [record, less, same, atMost, compare_some hp hq, compare_some hq hp]
    refine ⟨?_, ?_, ?_⟩
    · rw [← decide_not, decide_eq_decide, not_le]
    · rw [← Bool.decide_and, decide_eq_decide, le_antisymm_iff]
    · simpa using le_total p q
  transitive a b c hab hbc := by
    obtain ⟨p, q, hp, hq, hpq⟩ := (r.atMost_iff a b).1 hab
    obtain ⟨q', s, hq', hs, hqs⟩ := (r.atMost_iff b c).1 hbc
    obtain rfl : q = q' := Option.some_inj.1 (hq.symm.trans hq')
    exact (r.atMost_iff a c).2 ⟨p, s, hp, hs, hpq.trans hqs⟩
  constants := ⟨isNaN_eq_false (place_zero h),
    (r.less_iff _ _).2 ⟨0, _, place_zero h, place_unit h, by exact_mod_cast perOne_pos h⟩,
    finite_zero h, finite_ofNat h (by decide), finite_ofNat h (by decide)⟩
  finite a ha := by
    obtain ⟨p, hp, -⟩ := (r.finite_iff a).1 ha
    exact isNaN_eq_false hp
  finiteBetween a b x ha hb hax hxb := by
    obtain ⟨p, hp, hlo, -⟩ := (r.finite_iff a).1 ha
    obtain ⟨q, hq, -, hhi⟩ := (r.finite_iff b).1 hb
    obtain ⟨p', y, hp', hy, hpy⟩ := (r.atMost_iff a x).1 hax
    obtain ⟨y', q', hy', hq', hyq⟩ := (r.atMost_iff x b).1 hxb
    obtain rfl : p = p' := Option.some_inj.1 (hp.symm.trans hp')
    obtain rfl : q = q' := Option.some_inj.1 (hq.symm.trans hq')
    obtain rfl : y = y' := Option.some_inj.1 (hy.symm.trans hy')
    exact (r.finite_iff x).2 ⟨y, hy, hlo.trans hpy, hyq.trans hhi⟩
  mulOne x := .inl (if_pos rfl)
  subOneZero := minus_unit_zero
  subOneOne := minus_unit_unit h
  divOne x := .inl (if_pos rfl)
  mulZero z x hz hx := times_zero h hz hx
  addZero z x hz hx hnz := plus_zero hz hx hnz
  addZeros y z hy hz := by
    show r.isZero (r.plus y z) = true
    rw [plus, if_pos ⟨hy, hz⟩]
    exact isZero_keepIf h _
  sqrt x := ⟨root_not_negative h x, isZero_root h⟩
  atanZero re hre := if_pos ⟨rfl, hre⟩
  atanOrigin im re him hre := isZero_angle h him hre
  numbers := ⟨_, _, record_values h⟩
  roundsat x hx := by
    show r.toRegister x = _
    have hx : r.finite x = false := hx
    rw [isNaN_record]
    cases hp : r.place x with
    | none => simp [toRegister, hp]
    | some p => simp [toRegister, hp, hx, record, less_zero h hp]
  exactEntries logn h2 _ := by
    obtain ⟨q, hq, hn⟩ := two_pow_quarters h2
    rw [hn, show 4 * q / 2 = 2 * q by omega, show 4 * q / 4 = q by omega]
    exact ⟨fromReal_zero canonical_hann_zero, fromReal_one (canonical_hann_half hq),
      fromReal_one canonical_cosTurn_zero, fromReal_zero (canonical_sinTurn_zero hq),
      fromReal_zero (canonical_cosTurn_quarter hq), fromReal_one canonical_sinTurn_quarter⟩
  windowSymmetric logn n _ _ h1 hlt := by
    show r.fromReal _ = r.fromReal _
    rw [fromReal, fromReal, ExactReal.canonical, ExactReal.canonical, foldTurn_complement h1 hlt]
  rfftZero _ _ _ _ _ hxw := lawfulBins_zero (isZero_zero h) hxw
  irfftZero _ _ _ _ _ hbins := lawfulSamples_zero (isZero_zero h) hbins

/-- With the reference datapath for its transforms a record still meets the laws (43_analyzer.md R113, by
the choice of log 7). -/
theorem Numerics.withReference_lawful {N : Numerics} (h : N.Lawful) : N.withReference.Lawful := by
  have h0 : N.isZero 0 = true := by
    have hz := h.constants.1
    unfold isNaN at hz
    rwa [Bool.not_eq_false'] at hz
  obtain ⟨per, value, hv⟩ := h.numbers
  exact
    { h with
      numbers := ⟨per, value, { hv with }⟩
      rfftZero := fun logn xw _ _ _ hxw b hb => by
        obtain ⟨c, -, rfl⟩ := List.mem_map.1 hb
        have silent : xw.all N.isZero = true := List.all_eq_true.2 hxw
        rw [silent]
        exact ⟨keepZero_promised h0 _, keepZero_promised h0 _⟩
      irfftZero := fun logn bins _ _ _ hbins y hy => by
        obtain ⟨x, -, rfl⟩ := List.mem_map.1 hy
        have silent : allZero N.isZero bins = true := allZero_of_forall hbins
        rw [silent]
        exact keepZero_promised h0 _ }

end Sys2Proof
end

section
/-! The laws of 00_scope.md R8 for the default numerics record, IEEE 754 binary32. -/

-- No thread of its own for each proof, as in the first section of the proofs.
set_option deprecated.oldSectionVars true

namespace Sys2Proof.Machine.F32

/-! ### Kinds of a datum -/

theorem isNaN_or_isInf_or_isFinite (w : Word) :
    isNaN w = true ∨ (isNaN w = false ∧ isInf w = true) ∨ isFinite w = true := by
  simp only [isNaN, isInf, isFinite, decide_eq_true_eq, decide_eq_false_iff_not]
  omega

theorem eq_same (w : Word) : eq w w = !isNaN w := by simp [eq]

theorem place_eq_zero {w : Word} : place w = 0 ↔ isZero w = true := by
  rw [isZero_iff, place]
  split <;> omega

theorem eq_zero (w : Word) : eq w 0 = isZero w := by
  have h0 : isNaN 0 = false ∧ place 0 = 0 := by decide
  rw [eq, h0.1, h0.2, Bool.eq_iff_iff]
  simp only [Bool.and_eq_true, Bool.not_eq_true', decide_eq_true_eq, place_eq_zero]
  exact ⟨fun h => h.2, fun h =>
    ⟨⟨(not_isNaN_isInf_of_isFinite (isFinite_of_isZero h)).1, trivial⟩, h⟩⟩

theorem eq_ofParts {w : Word} {m : Nat} (h : magnitude w = m) : ofParts (sign w) m = w :=
  h ▸ ofParts_sign_magnitude w

theorem le_iff {a b : Word} :
    le a b = true ↔ isNaN a = false ∧ isNaN b = false ∧ place a ≤ place b := by
  simp [le, and_assoc]

theorem lt_iff {a b : Word} :
    lt a b = true ↔ isNaN a = false ∧ isNaN b = false ∧ place a < place b := by
  simp [lt, and_assoc]

theorem isFinite_iff_place {w : Word} :
    isFinite w = true ↔ -(infMagnitude : Int) < place w ∧ place w < infMagnitude := by
  rw [isFinite_iff, place]
  split <;> omega

theorem not_lt_zero_of_sign {w : Word} (h : sign w = false) : lt w 0 = false := by
  have : place 0 = 0 := by decide
  rw [Bool.eq_false_iff, ne_eq, lt_iff, this, place, h, if_neg (by simp)]
  omega

/-! ### Arithmetic on finite data -/

theorem signedUnits_of_isZero {w : Word} (h : isZero w = true) : signedUnits w = 0 := by
  simp [signedUnits, units_of_isZero h]

theorem units_pos {w : Word} (h : isZero w = false) : 0 < units w := by
  have : 0 < magnitude w := by simp [isZero] at h; omega
  have := units_lt_units (a := 0) (b := w) (by rwa [show magnitude 0 = 0 by decide])
  omega

theorem mul_finite {a b : Word} (ha : isFinite a = true) (hb : isFinite b = true) :
    mul a b = roundPack (sign a ^^ sign b) (units a * units b) 149 := by
  obtain ⟨na, ia⟩ := not_isNaN_isInf_of_isFinite ha
  obtain ⟨nb, ib⟩ := not_isNaN_isInf_of_isFinite hb
  simp [mul, na, ia, nb, ib]

theorem add_finite {a b : Word} (ha : isFinite a = true) (hb : isFinite b = true) :
    add a b = addFinite a b := by
  obtain ⟨na, ia⟩ := not_isNaN_isInf_of_isFinite ha
  obtain ⟨nb, ib⟩ := not_isNaN_isInf_of_isFinite hb
  simp [add, addOrdered, na, ia, nb, ib]

/-- A sum whose exact value is that of a finite datum other than a zero is that datum. -/
theorem addFinite_eq {a b x : Word} (h : signedUnits a + signedUnits b = signedUnits x)
    (hx : isFinite x = true) (hnz : isZero x = false) : addFinite a b = x := by
  have hu := units_pos hnz
  have hsign : decide (signedUnits x < 0) = sign x := by
    unfold signedUnits
    cases sign x
    · simp
    · simpa
  have habs : (signedUnits x).natAbs = units x * 2 ^ 0 := by
    unfold signedUnits
    split <;> simp
  have hne : signedUnits x ≠ 0 := by omega
  rw [addFinite, h, if_neg hne, hsign, habs, roundPack_units hx, ofParts_sign_magnitude]

theorem add_zero_right {z x : Word} (hz : isZero z = true) (hx : isFinite x = true)
    (hnz : isZero x = false) : add x z = x ∧ add z x = x := by
  have hzf := isFinite_of_isZero hz
  have hz0 := signedUnits_of_isZero hz
  rw [add_finite hx hzf, add_finite hzf hx]
  exact ⟨addFinite_eq (by omega) hx hnz, addFinite_eq (by omega) hx hnz⟩

theorem isZero_add {y z : Word} (hy : isZero y = true) (hz : isZero z = true) :
    isZero (add y z) = true := by
  rw [add_finite (isFinite_of_isZero hy) (isFinite_of_isZero hz), addFinite,
    signedUnits_of_isZero hy, signedUnits_of_isZero hz, if_pos (by rfl)]
  exact isZero_ofParts _

theorem isZero_mul {z x : Word} (hz : isZero z = true) (hx : isFinite x = true) :
    isZero (mul z x) = true ∧ isZero (mul x z) = true := by
  have hzf := isFinite_of_isZero hz
  rw [mul_finite hzf hx, mul_finite hx hzf, units_of_isZero hz, Nat.zero_mul, Nat.mul_zero,
    roundPack_zero, roundPack_zero]
  exact ⟨isZero_ofParts _, isZero_ofParts _⟩

theorem one_parts : isNaN one = false ∧ isInf one = false ∧ isZero one = false ∧
    sign one = false ∧ isFinite one = true ∧ units one = 2 ^ 149 := by decide

/-- N-ONE of a product. -/
theorem mul_one_agrees (x : Word) : mul one x = x ∨ isNaN (mul one x) = true ∧ isNaN x = true := by
  obtain ⟨n1, i1, z1, s1, f1, u1⟩ := one_parts
  obtain hn | ⟨hn, hi⟩ | hf := isNaN_or_isInf_or_isFinite x
  · exact .inr ⟨by simp [mul, hn, nanResult_isNaN], hn⟩
  · have hm : magnitude x = infMagnitude := by simpa [isInf] using hi
    have hz : isZero x = false := by simp [isZero, hm, infMagnitude]
    have : mul one x = ofParts (sign x) infMagnitude := by simp [mul, n1, z1, s1, hn, hi, hz]
    exact .inl (this.trans (eq_ofParts hm))
  · rw [mul_finite f1 hf, s1, u1, Bool.false_xor, Nat.mul_comm, roundPack_units hf]
    exact .inl (ofParts_sign_magnitude x)

/-- The quotient by one keeps the units, three bits up. -/
theorem quotient_one (x : Nat) : quotient x (2 ^ 149) = x * 2 ^ 3 := by
  have h : x * 2 ^ 151 = x * 4 * 2 ^ 149 := by ring
  rw [quotient, h, Nat.mul_mod_left, Nat.mul_div_cancel _ (by positivity), if_pos rfl]
  ring

/-- N-ONE of a quotient. -/
theorem div_one_agrees (x : Word) : div x one = x ∨ isNaN (div x one) = true ∧ isNaN x = true := by
  obtain ⟨n1, i1, z1, s1, -, u1⟩ := one_parts
  obtain hn | ⟨hn, hi⟩ | hf := isNaN_or_isInf_or_isFinite x
  · exact .inr ⟨by simp [div, hn, nanResult_isNaN], hn⟩
  · have hm : magnitude x = infMagnitude := by simpa [isInf] using hi
    have : div x one = ofParts (sign x) infMagnitude := by simp [div, n1, i1, s1, hn, hi]
    exact .inl (this.trans (eq_ofParts hm))
  · obtain ⟨hn, hi⟩ := not_isNaN_isInf_of_isFinite hf
    have : div x one = roundPack (sign x) (quotient (units x) (2 ^ 149)) 3 := by
      simp [div, n1, i1, z1, s1, u1, hn, hi]
    rw [this, quotient_one, roundPack_units hf]
    exact .inl (ofParts_sign_magnitude x)

theorem sign_roundPack (s : Bool) (p sh : Nat) : sign (roundPack s p sh) = s :=
  sign_ofParts s (lt_of_le_of_lt (min_le_right _ _) (by decide))

/-- N-SQRT: no root is below zero. -/
theorem sqrt_not_negative (x : Word) : lt (sqrt x) 0 = false := by
  have nan : ∀ a b, lt (nanResult .sqrt a b) 0 = false := fun a b => by
    simp [lt, nanResult_isNaN]
  unfold sqrt
  split_ifs with _ hz hs
  · exact nan _ _
  · rw [Bool.eq_false_iff, ne_eq, lt_iff, place_eq_zero.2 hz]
    exact fun h => absurd h.2.2 (by decide)
  · exact nan _ _
  · exact not_lt_zero_of_sign (by simpa using hs)
  · exact not_lt_zero_of_sign (sign_roundPack _ _ _)

theorem isZero_sqrt {x : Word} (h : isZero x = true) : isZero (sqrt x) = true := by
  have hn := (not_isNaN_isInf_of_isFinite (isFinite_of_isZero h)).1
  simp [sqrt, hn, h]

/-! ### The angle -/

theorem isPhase_of_isZero {w : Word} (h : isZero w = true) : isPhase w = true := by
  have hn := (not_isNaN_isInf_of_isFinite (isFinite_of_isZero h)).1
  have bounds : isNaN (negate piF) = false ∧ isNaN piF = false ∧ place (negate piF) ≤ 0 ∧
      0 ≤ place piF := by decide
  obtain ⟨n1, n2, lo, hi⟩ := bounds
  rw [isPhase, Bool.and_eq_true, le_iff, le_iff, place_eq_zero.2 h]
  exact ⟨⟨n1, hn, lo⟩, hn, n2, hi⟩

theorem isPhase_piF : isPhase piF = true ∧ isPhase (negate piF) = true := by decide

/-- Every angle lies in `[-pi_F, pi_F]` (law N-ATAN). -/
theorem isPhase_atan2 (im re : Word) : isPhase (atan2 im re) = true := by
  unfold atan2
  split_ifs
  · exact isPhase_piF.2
  · exact isPhase_piF.1
  · exact isPhase_of_isZero (by decide)
  · exact isPhase_of_isZero (keepIf_law (by decide) _)
  · exact keepIf_law (by decide) _

theorem signedUnits_negate_piF : signedUnits (negate piF) = -signedUnits piF := by decide

theorem abs_signedUnits_of_isPhase {w : Word} (h : isPhase w = true) :
    isNaN w = false ∧ |signedUnits w| ≤ signedUnits piF := by
  rw [isPhase, Bool.and_eq_true, le_iff, le_iff] at h
  obtain ⟨⟨-, hn, lo⟩, -, -, hi⟩ := h
  rw [← not_lt, place_lt_iff, signedUnits_negate_piF] at lo
  rw [← not_lt, place_lt_iff] at hi
  exact ⟨hn, abs_le.2 ⟨not_lt.1 lo, not_lt.1 hi⟩⟩

theorem atan2_zero {re : Word} (h : le 0 re = true) : atan2 0 re = 0 := by
  have hl : lt re 0 = false := by
    obtain ⟨-, -, hp⟩ := le_iff.1 h
    rw [Bool.eq_false_iff, ne_eq, lt_iff]
    omega
  unfold atan2
  rw [if_neg (fun e => absurd e.2 (Bool.eq_false_iff.1 hl)), if_pos ⟨rfl, h⟩]

theorem isZero_atan2 {im re : Word} (him : isZero im = true) (hre : isZero re = true) :
    isZero (atan2 im re) = true := by
  have hl : lt re 0 = false := by
    rw [Bool.eq_false_iff, ne_eq, lt_iff, place_eq_zero.2 hre]
    exact fun h => absurd h.2.2 (by decide)
  unfold atan2
  rw [if_neg (fun e => absurd e.2 (Bool.eq_false_iff.1 hl))]
  split
  · decide
  · rw [if_pos ⟨him, hre⟩]
    exact keepIf_law (by decide) _

theorem atan2_of_negative {im re : Word} (him : isZero im = true) (hre : lt re 0 = true) :
    atan2 im re = piF ∨ im ≠ 0 ∧ signedUnits (atan2 im re) = -signedUnits piF := by
  unfold atan2
  rw [if_pos ⟨him, hre⟩]
  split
  · next hs =>
    refine .inr ⟨?_, signedUnits_negate_piF⟩
    rintro rfl
    exact absurd hs (by decide)
  · exact .inl rfl

/-! ### Conversions -/

theorem isFinite_ofNat {n : Nat} (h : n < 2 ^ 127) : isFinite (ofNat n) = true := by
  refine roundPack_isFinite ?_
  rw [show 0 + 276 = 127 + 149 from rfl, pow_add]
  exact Nat.mul_lt_mul_of_pos_right h (Nat.two_pow_pos 149)

/-- `roundsat` saturates an infinity, and a NaN gives 0 (92_eei_decisions.md D12). -/
theorem roundsat_of_not_finite {x : Word} (h : isFinite x = false) :
    roundsat x = if isNaN x then 0 else if lt x 0 then -2 ^ 31 else 2 ^ 31 - 1 := by
  obtain hn | ⟨hn, hi⟩ | hf := isNaN_or_isInf_or_isFinite x
  · simp [roundsat, hn]
  · have hm : magnitude x = infMagnitude := by simpa [isInf] using hi
    have hs : lt x 0 = sign x := by
      have h0 : isNaN 0 = false ∧ place 0 = 0 := by decide
      rw [lt, hn, h0.1, h0.2, place, hm]
      cases sign x <;> decide
    rw [roundsat, hn, hi, hs]
    rfl
  · rw [h] at hf
    cases hf

end Sys2Proof.Machine.F32

namespace Sys2Proof.Machine

/-! ### The tables in fixed point -/

section

variable {q : Nat}

/-- The sine by quadrant: backwards in the odd ones, negative in the last two. -/
theorem circleSine_quadrant (j : Nat) {r : Nat} (hr : r < q) :
    circleSine (4 * q) (j * q + r) =
      (-1) ^ (j % 4 / 2) * quarterSine (4 * q) (if j % 2 = 0 then r else q - r) := by
  have hn : 4 * q / 4 = q := by omega
  have hmod : (j * q + r) % q = r := by
    rw [Nat.add_comm, Nat.add_mul_mod_self_right, Nat.mod_eq_of_lt hr]
  have hdiv : (j * q + r) / q = j := by
    rw [Nat.add_comm, Nat.add_mul_div_right _ _ (by omega), Nat.div_eq_of_lt hr, Nat.zero_add]
  simp only [circleSine, hn, hmod, hdiv]
  have hj : j % 4 = 0 ∨ j % 4 = 1 ∨ j % 4 = 2 ∨ j % 4 = 3 := by omega
  rcases hj with h | h | h | h
  · simp [h, show j % 2 = 0 by omega]
  · simp [h, show j % 2 = 1 by omega]
  · simp [h, show j % 2 = 0 by omega]
  · simp [h, show j % 2 = 1 by omega]

theorem circleCosine_quadrant (j : Nat) {r : Nat} (hr : r < q) :
    circleCosine (4 * q) (j * q + r) =
      (-1) ^ ((j + 1) % 4 / 2) * quarterSine (4 * q) (if (j + 1) % 2 = 0 then r else q - r) := by
  have : j * q + r + 4 * q / 4 = (j + 1) * q + r := by
    rw [Nat.mul_div_cancel_left _ (by decide)]
    ring
  rw [circleCosine, this, circleSine_quadrant _ hr]

theorem quarterSine_zero (n : Nat) : quarterSine n 0 = 0 := rfl

theorem quarterSine_quarter (hq : 0 < q) : quarterSine (4 * q) q = 2 ^ 192 := by
  rw [quarterSine, if_neg (by omega), if_pos rfl]

theorem circleSine_quarters (hq : 0 < q) (j : Nat) :
    circleSine (4 * q) (j * q) = (-1) ^ (j % 4 / 2) * if j % 2 = 0 then 0 else 2 ^ 192 := by
  have := circleSine_quadrant j hq
  rw [Nat.add_zero] at this
  rw [this]
  split <;> simp [quarterSine_zero, quarterSine_quarter hq]

theorem circleCosine_quarters (hq : 0 < q) (j : Nat) :
    circleCosine (4 * q) (j * q) =
      (-1) ^ ((j + 1) % 4 / 2) * if (j + 1) % 2 = 0 then 0 else 2 ^ 192 := by
  have := circleSine_quarters hq (j + 1)
  rwa [show (j + 1) * q = j * q + 4 * q / 4 by rw [Nat.mul_div_cancel_left _ (by decide)]; ring]
    at this

/-- `cos(-x) = cos(x)` in fixed point, quadrant by quadrant. -/
theorem circleCosine_complement {i : Nat} (hi : i < 4 * q) :
    circleCosine (4 * q) (4 * q - i) = circleCosine (4 * q) i := by
  have hq : 0 < q := by omega
  obtain ⟨a, r, hr, rfl⟩ : ∃ a r, r < q ∧ i = a * q + r :=
    ⟨i / q, i % q, Nat.mod_lt _ hq, (Nat.div_add_mod' i q).symm⟩
  have ha : a < 4 := by
    by_contra h
    have := Nat.mul_le_mul_right q (not_lt.1 h)
    omega
  obtain rfl | h0 := Nat.eq_zero_or_pos r
  · have hk : 4 * q - (a * q + 0) = (4 - a) * q := by rw [Nat.sub_mul, Nat.add_zero]
    rw [hk, Nat.add_zero, circleCosine_quarters hq, circleCosine_quarters hq]
    interval_cases a <;> rfl
  · have hk : 4 * q - (a * q + r) = (3 - a) * q + (q - r) := by
      rw [Nat.sub_mul]
      have := Nat.mul_le_mul_right q (Nat.le_of_lt_succ ha)
      omega
    have hrr : q - (q - r) = r := by omega
    rw [hk, circleCosine_quadrant _ hr, circleCosine_quadrant _ (by omega), hrr]
    interval_cases a <;> rfl

/-- The entries of the tables that are exact (00_scope.md R9, 43_analyzer.md R113). -/
theorem ofReal_exact (hq : 0 < q) :
    F32.ofReal (.hann 0 (4 * q)) = 0 ∧ F32.ofReal (.hann (2 * q) (4 * q)) = F32.one ∧
    F32.ofReal (.cosTurn 0 (4 * q)) = F32.one ∧ F32.ofReal (.sinTurn 0 (4 * q)) = 0 ∧
    F32.ofReal (.cosTurn q (4 * q)) = 0 ∧ F32.ofReal (.sinTurn q (4 * q)) = F32.one := by
  have c0 := circleCosine_quarters hq 0
  have c1 := circleCosine_quarters hq 1
  have c2 := circleCosine_quarters hq 2
  have s0 := circleSine_quarters hq 0
  have s1 := circleSine_quarters hq 1
  simp only [Nat.zero_mul, Nat.one_mul] at c0 c1 s0 s1
  simp only [F32.ofReal, c0, c1, c2, s0, s1]
  decide

end

end Sys2Proof.Machine

namespace Sys2Proof

open Machine F32

/-! ### The record -/

theorem binary32_isNaN (w : Word) : binary32.isNaN w = F32.isNaN w := by
  show (!F32.eq w w) = _
  rw [eq_same, Bool.not_not]

theorem binary32_isZero (w : Word) : binary32.isZero w = F32.isZero w := eq_zero w

/-- The values of binary32 stand for the numbers of their units, `2^-149` each. -/
theorem binary32_values : binary32.Values (2 ^ 149) signedUnits where
  pos := by positivity
  constants := by decide
  ofNat n hn := ⟨isFinite_ofNat (by omega), by exact_mod_cast ofNat_exact (by omega)⟩
  order a b ha hb := by
    rw [binary32_isNaN] at ha hb
    show F32.lt a b = _
    simp [F32.lt, ha, hb, place_lt_iff]
  roundsat x hx := by
    obtain ⟨hn, hi⟩ := not_isNaN_isInf_of_isFinite hx
    show F32.roundsat x = _
    simp [F32.roundsat, hn, hi]
  atanRange im re := by
    rw [binary32_isNaN]
    exact abs_signedUnits_of_isPhase (isPhase_atan2 im re)
  atanPi im re him hre := atan2_of_negative (binary32_isZero im ▸ him) hre

/-- The default record meets the laws. -/
theorem binary32_lawful : binary32.Lawful where
  nanCompares a b hab := by
    rw [binary32_isNaN, binary32_isNaN] at hab
    show F32.lt a b = false ∧ F32.le a b = false ∧ F32.eq a b = false
    rcases hab with h | h <;> simp [F32.lt, F32.le, F32.eq, h]
  order a b ha hb := by
    rw [binary32_isNaN] at ha hb
    show F32.lt a b = !F32.le b a ∧ F32.eq a b = (F32.le a b && F32.le b a) ∧
      (F32.le a b = true ∨ F32.le b a = true)
    simp only [F32.lt, F32.le, F32.eq, ha, hb, Bool.not_false, Bool.true_and, decide_eq_true_eq]
    refine ⟨?_, ?_, le_total _ _⟩
    · rw [← decide_not, decide_eq_decide, not_le]
    · rw [← Bool.decide_and, decide_eq_decide, le_antisymm_iff]
  transitive a b c hab hbc := by
    obtain ⟨ha, -, hab⟩ := le_iff.1 hab
    obtain ⟨-, hc, hbc⟩ := le_iff.1 hbc
    exact le_iff.2 ⟨ha, hc, hab.trans hbc⟩
  constants := by decide
  finite a ha := by
    rw [binary32_isNaN]
    exact (not_isNaN_isInf_of_isFinite ha).1
  finiteBetween a b x ha hb hax hxb := by
    obtain ⟨-, -, hax⟩ := le_iff.1 hax
    obtain ⟨-, -, hxb⟩ := le_iff.1 hxb
    exact isFinite_iff_place.2
      ⟨(isFinite_iff_place.1 ha).1.trans_le hax, hxb.trans_lt (isFinite_iff_place.1 hb).2⟩
  mulOne x := by
    rw [Numerics.agrees, binary32_isNaN, binary32_isNaN]
    exact mul_one_agrees x
  subOneZero := by decide
  subOneOne := by decide
  divOne x := by
    rw [Numerics.agrees, binary32_isNaN, binary32_isNaN]
    exact div_one_agrees x
  mulZero z x hz hx := by
    rw [binary32_isZero] at hz ⊢
    rw [binary32_isZero]
    exact isZero_mul hz hx
  addZero z x hz hx hnz := by
    rw [binary32_isZero] at hz hnz
    exact add_zero_right hz hx hnz
  addZeros y z hy hz := by
    rw [binary32_isZero] at hy hz ⊢
    exact isZero_add hy hz
  sqrt x := by
    rw [binary32_isZero, binary32_isZero]
    exact ⟨sqrt_not_negative x, isZero_sqrt⟩
  atanZero re hre := atan2_zero hre
  atanOrigin im re him hre := by
    rw [binary32_isZero] at him hre ⊢
    exact isZero_atan2 him hre
  numbers := ⟨_, _, binary32_values⟩
  roundsat x hx := by
    rw [binary32_isNaN]
    exact roundsat_of_not_finite hx
  exactEntries logn h2 _ := by
    obtain ⟨q, hq, hn⟩ := two_pow_quarters h2
    rw [hn, show 4 * q / 2 = 2 * q by omega, show 4 * q / 4 = q by omega]
    exact ofReal_exact hq
  windowSymmetric logn n h2 _ _ hlt := by
    obtain ⟨q, hq, hn⟩ := two_pow_quarters h2
    rw [hn] at hlt ⊢
    show F32.ofReal (.hann n (4 * q)) = F32.ofReal (.hann (4 * q - n) (4 * q))
    rw [F32.ofReal, F32.ofReal, circleCosine_complement hlt]
  rfftZero _ xw _ _ _ hxw b hb := by
    simp only [binary32_isZero] at hxw ⊢
    exact lawfulBins_zero (by decide) hxw b hb
  irfftZero _ bins _ _ _ hbins y hy := by
    simp only [binary32_isZero] at hbins ⊢
    exact lawfulSamples_zero (by decide) hbins y hy

theorem baseNumerics_lawful (g : Cfg) : (baseNumerics g).Lawful := by
  unfold baseNumerics
  cases g.num with
  | binary32 => exact binary32_lawful
  | other => exact RawNum.record_lawful (RawNum.sound_exact _)

/-- Settles O14: each of the two records meets the laws, and keeps them with the reference
datapath. -/
theorem numericsMeetTheLaws : Obligations.NumericsMeetTheLaws := by
  intro g
  unfold Cfg.numerics
  cases g.transform with
  | implementation => exact baseNumerics_lawful g
  | reference => exact Numerics.withReference_lawful (baseNumerics_lawful g)

end Sys2Proof
end

section
/-! Soundness over every step (10_state.md R13, R14, R18, R20): what each instruction does to the
memory, the block context, the rings, the overlap-add cursors and the bands. -/

-- No thread of its own for each proof, as in the first section of the proofs.
set_option deprecated.oldSectionVars true

namespace Sys2Proof.Machine

/-! ### What clears the buffers -/

/-- Whether an instruction is one of the two lifecycle commands that clear the buffers
(40_lifecycle.md R81, R82). -/
def clearsBuffers : Instr → Bool
  | .prepare _ _ | .release => true
  | _ => false

/-- The registers that a clearing and hardware reset set alike. -/
def State.cursors (s : State) :
    PerStream (Vector RingCtl 16) × Nat × Nat × BandRegs × BandRegs × DrvState × Bool :=
  (s.rings, s.olaWr, s.olaRd, s.band1, s.band2, s.drv, s.blkActive)

/-- The rings, cursors, bands and block context are at their initial values (10_state.md R24), and the
memories of a prepared core hold zeros. -/
def State.Fresh (s : State) : Prop :=
  s.cursors = (State.resetOf s.cfg).cursors ∧ s.mem.wf ∧ (s.prepared = true → s.mem = Memory.zeroed)

theorem resetOf_fresh (g : Cfg) : (State.resetOf g).Fresh :=
  ⟨rfl, by simp [State.resetOf, Memory.wf], nofun⟩

/-- `PREPARE` and `RELEASE` leave initial buffers. -/
theorem after_fresh {i : Instr} (h : clearsBuffers i = true) (s : State) : (after i s).Fresh := by
  cases i with
  | prepare => exact ⟨rfl, zeroed_wf, fun _ => rfl⟩
  | release => exact ⟨rfl, zeroed_wf, nofun⟩
  | _ => cases h

theorem ring_of_cleared {s : State} (h : s.rings = ringsCleared) (st : Stream) (c : Chan) :
    s.ring st c = { wr := 0, cnt := 0 } := by
  unfold State.ring
  rw [h]
  cases st <;> simp [PerStream.get, ringsCleared]

/-! ### Memory: canonical form, and cleared memories -/

theorem after_wf (i : Instr) {s : State} (h : s.mem.wf) : (after i s).mem.wf := by
  cases i with
  | prepare => exact zeroed_wf
  | release => exact zeroed_wf
  | accWrite st c => exact accWrite_wf h st c
  | anPolar st c => exact anPolar_wf h st c
  | analyze st c => exact analyze_wf h st c
  | exchange c => exact exchange_wf h c
  | syOla c => exact syOla_wf h c
  | synthesize c => exact synthesize_wf h c
  | drvEmit => exact emit_wf h
  | drvCycle => exact cycle_wf h
  | drvBeat => exact beat_wf h
  | _ => simpa [after] using h

@[simp] theorem accWrite_cleared (st : Stream) (c : Chan) (s : State) :
    (accWrite st c s).mem.cleared = s.mem.cleared := rfl

@[simp] theorem anPolar_cleared (st : Stream) (c : Chan) (s : State) :
    (anPolar st c s).mem.cleared = s.mem.cleared := by simp [anPolar]

@[simp] theorem analyze_cleared (st : Stream) (c : Chan) (s : State) :
    (analyze st c s).mem.cleared = s.mem.cleared := by simp [analyze]

@[simp] theorem exchange_cleared (c : Chan) (s : State) :
    (exchange c s).mem.cleared = s.mem.cleared := by simp [exchange, storeMix]

@[simp] theorem syOla_cleared (c : Chan) (s : State) :
    (syOla c s).mem.cleared = s.mem.cleared :=
  syOla_keeps (π := fun t => t.mem.cleared) (fun c s k => by simp [olaAddAt_mem]) c s

@[simp] theorem synthesize_cleared (c : Chan) (s : State) :
    (synthesize c s).mem.cleared = s.mem.cleared := by simp [synthesize]

@[simp] theorem emit_cleared (s : State) : (emit s).mem.cleared = s.mem.cleared :=
  forChannels_keeps (fun t => t.mem.cleared) (f := emitChannel) (fun _ _ => rfl) s

@[simp] theorem cycle_cleared (s : State) : (cycle s).mem.cleared = s.mem.cleared := by
  have keeps : ∀ c t, (cycleChannel c t).mem.cleared = t.mem.cleared := by simp [cycleChannel]
  simp [cycle, forChannels_keeps (fun t => t.mem.cleared) keeps]

@[simp] theorem takeBeat_cleared (s : State) : (takeBeat s).mem.cleared = s.mem.cleared := by
  have keeps (st : Stream) := forChannels_keeps (fun t => t.mem.cleared) (accWrite_cleared st)
  simp only [takeBeat, keeps]

@[simp] theorem beat_cleared (s : State) : (beat s).mem.cleared = s.mem.cleared := by
  unfold beat activeBeat cycleIfReady
  split_ifs <;> simp

theorem after_cleared {i : Instr} (h : clearsBuffers i = false) (s : State) :
    (after i s).mem.cleared = s.mem.cleared := by
  cases i with
  | prepare | release => cases h
  | _ => simp [after]

/-! ### The block context -/

theorem after_prepared {i : Instr} (h : clearsBuffers i = false) (s : State) :
    (after i s).prepared = s.prepared := by
  cases i with
  | prepare | release => cases h
  | _ => simp [after]

theorem after_usable {i : Instr} (h : clearsBuffers i = false) (s : State) :
    (after i s).usable = s.usable := by
  have not_prepare : ∀ sr mb, i ≠ .prepare sr mb := by
    rintro sr mb rfl
    cases h
  unfold State.usable State.srValid
  rw [after_prepared h, after_cfg, (after_sr_maxBlk not_prepare s).1]

/-- Only `PROCESS` makes a block active, on a usable core (46_driver.md R156). -/
theorem after_blkActive {i : Instr} (h : clearsBuffers i = false) {s : State}
    (active : (after i s).blkActive = true) : s.blkActive = true ∨ s.usable = true := by
  cases i with
  | prepare | release => cases h
  | process nsamp sc nch =>
    have block : s.blockActive sc nch = true := active
    simp only [State.blockActive, Bool.and_eq_true] at block
    exact .inr block.1.1
  | _ => exact .inl (by simpa [after] using active)

/-- No instruction leaves the driver in `Cycle` (10_state.md R14). -/
theorem after_notInCycle (i : Instr) {s : State} (h : s.drv ≠ .cycle) : (after i s).drv ≠ .cycle := by
  cases i with
  | prepare | release => nofun
  | drvCycle => nofun
  | drvBeat =>
    show (beat s).drv ≠ .cycle
    rw [beat_drv h]
    split
    · nofun
    · exact h
  | _ => simpa [after] using h

/-! ### Rings in range (10_state.md R18) -/

/-- Every ring's cursor and count are in range. -/
def State.RingsInBounds (s : State) : Prop := ∀ st c, (s.ring st c).inBounds s.cfg

theorem afterWrite_inBounds {g : Cfg} (hn : 0 < g.n) {r : RingCtl} (h : r.inBounds g) :
    (r.afterWrite g.n).inBounds g := by
  obtain ⟨-, hcnt⟩ := h
  refine ⟨Nat.mod_lt _ hn, ?_⟩
  simp only [RingCtl.afterWrite]
  split <;> omega

theorem afterConsume_inBounds {g : Cfg} {r : RingCtl} (h : r.inBounds g) :
    (r.afterConsume g).inBounds g := by
  obtain ⟨hwr, hcnt⟩ := h
  refine ⟨hwr, ?_⟩
  simp only [RingCtl.afterConsume]
  split
  · omega
  · exact Nat.lt_succ_iff.1 (Nat.mod_lt _ (Nat.succ_pos _))

theorem beat_ringsInBounds {s : State} (hn : 0 < s.cfg.n) (h : s.RingsInBounds) :
    (beat s).RingsInBounds := by
  classical
  unfold beat
  split
  · intro st c
    have written := afterWrite_inBounds hn (h st c)
    rw [activeBeat_ring, activeBeat_cfg]
    split_ifs
    · exact afterConsume_inBounds written
    · exact written
    · exact h st c
  · simpa [State.RingsInBounds, State.ring] using h

theorem after_ringsInBounds {i : Instr} (hi : clearsBuffers i = false) {s : State} (hn : 0 < s.cfg.n)
    (h : s.RingsInBounds) : (after i s).RingsInBounds := by
  cases i with
  | prepare | release => cases hi
  | accWrite st c =>
    intro st' c'
    simp only [after, accWrite_ring, accWrite_cfg]
    split
    · exact afterWrite_inBounds hn (h st c)
    · exact h st' c'
  | accConsume =>
    intro st c
    simp only [after, accConsume_ring, accConsume_cfg]
    split
    · exact afterConsume_inBounds (h st c)
    · exact h st c
  | drvCycle =>
    intro st c
    simp only [after, cycle_ring, cycle_cfg]
    split
    · exact afterConsume_inBounds (h st c)
    · exact h st c
  | drvBeat => exact beat_ringsInBounds hn h
  | _ => simpa [State.RingsInBounds, State.ring, after] using h

/-! ### Overlap-add cursors in range (10_state.md R20) -/

theorem hop_dvd_len {g : Cfg} (h : g.legal = true) : g.hop ∣ g.len := by
  have even := legal_even h
  obtain hop | hop := hop_cases g
  · exact ⟨2, by rw [hop, Cfg.len]; omega⟩
  · exact ⟨4, by rw [hop, Cfg.len]; omega⟩

theorem len_pos {g : Cfg} (h : g.legal = true) : 0 < g.len := by
  have := legal_bounds h
  unfold Cfg.len
  omega

/-- An instruction leaves the write cursor or moves it by the hop. -/
theorem after_olaWr {i : Instr} (hi : clearsBuffers i = false) (s : State) :
    (after i s).olaWr = s.olaWr ∨ (after i s).olaWr = (s.olaWr + s.cfg.hop) % s.cfg.len := by
  cases i with
  | prepare | release => cases hi
  | syAdv => exact .inr rfl
  | drvCycle => exact .inr (cycle_olaWr s)
  | drvBeat =>
    classical
    simp only [after, beat]
    split
    · rw [activeBeat_olaWr]
      split <;> simp
    · simp
  | _ => exact .inl (by simp [after])

/-- An instruction leaves the read cursor or moves it by one. -/
theorem after_olaRd {i : Instr} (hi : clearsBuffers i = false) (s : State) :
    (after i s).olaRd = s.olaRd ∨ (after i s).olaRd = (s.olaRd + 1) % s.cfg.len := by
  cases i with
  | prepare | release => cases hi
  | drvEmit => exact .inr (emit_olaRd s)
  | drvBeat =>
    simp only [after, beat]
    split <;> simp
  | _ => exact .inl (by simp [after])

theorem after_olaWr_inBounds {i : Instr} (hi : clearsBuffers i = false) {s : State}
    (legal : s.cfg.legal = true) (h : s.olaWr < s.cfg.len ∧ s.cfg.hop ∣ s.olaWr) :
    (after i s).olaWr < s.cfg.len ∧ s.cfg.hop ∣ (after i s).olaWr := by
  obtain e | e := after_olaWr hi s
  · rwa [e]
  · rw [e]
    exact ⟨Nat.mod_lt _ (len_pos legal),
      (Nat.dvd_mod_iff (hop_dvd_len legal)).2 (Nat.dvd_add h.2 (dvd_refl _))⟩

theorem after_olaRd_inBounds {i : Instr} (hi : clearsBuffers i = false) {s : State}
    (legal : s.cfg.legal = true) (h : s.olaRd < s.cfg.len) : (after i s).olaRd < s.cfg.len := by
  obtain e | e := after_olaRd hi s
  · rwa [e]
  · rw [e]
    exact Nat.mod_lt _ (len_pos legal)

/-! ### Bands in range (10_state.md R13) -/

/-- Both bands' half-widths and intervals are in range. -/
def State.BandsInBounds (s : State) : Prop := ∀ b, (s.band b).inBounds s.cfg

theorem bandsInBounds_congr {s t : State} (h : s.BandsInBounds) (cfg : t.cfg = s.cfg)
    (band1 : t.band1 = s.band1) (band2 : t.band2 = s.band2) : t.BandsInBounds := by
  have band (b : Band) : t.band b = s.band b := by cases b <;> assumption
  intro b
  rw [cfg, band]
  exact h b

theorem bxBin_bandsInBounds (b : Band) {s : State} (h : s.BandsInBounds) :
    (bxBin b s).BandsInBounds := by
  intro b'
  by_cases e : b' = b
  · subst e
    rw [bxBin_band, bxBin_cfg]
    exact h b'
  · rw [bxBin_band_other e, bxBin_cfg]
    exact h b'

theorem bxHalfw_bandsInBounds (b : Band) {s : State} (h : s.BandsInBounds) :
    (bxHalfw b s).BandsInBounds := by
  intro b'
  by_cases e : b' = b
  · subst e
    obtain ⟨-, interval⟩ := h b'
    rw [bxHalfw_band, bxHalfw_cfg]
    refine ⟨?_, interval⟩
    rw [hw_toInt]
    omega
  · rw [bxHalfw_band_other e, bxHalfw_cfg]
    exact h b'

theorem bxInterval_bandsInBounds (b : Band) {s : State} (legal : s.cfg.legal = true)
    (h : s.BandsInBounds) : (bxInterval b s).BandsInBounds := by
  intro b'
  by_cases e : b' = b
  · subst e
    obtain ⟨hw, -⟩ := h b'
    rw [bxInterval_band, bxInterval_cfg]
    refine ⟨hw, ?_, ?_⟩
    · rw [start_toInt hw]
      omega
    · rw [stop_toInt hw legal]
      omega
  · rw [bxInterval_band_other e, bxInterval_cfg]
    exact h b'

theorem snapAll_bandsInBounds {s : State} (legal : s.cfg.legal = true) (h : s.BandsInBounds) :
    (snapAll s).BandsInBounds := by
  have derive (b : Band) {t : State} (legal : t.cfg.legal = true) (h : t.BandsInBounds) :
      (deriveBand b t).BandsInBounds :=
    bxInterval_bandsInBounds b (by simpa using legal)
      (bxHalfw_bandsInBounds b (bxBin_bandsInBounds b h))
  have snapped : (takeSnapshot s).BandsInBounds := bandsInBounds_congr h (by simp) (by simp) (by simp)
  exact derive .two (by simpa using legal) (derive .one (by simpa using legal) snapped)

theorem cycle_bandsInBounds {s : State} (legal : s.cfg.legal = true) (h : s.BandsInBounds) :
    (cycle s).BandsInBounds := by
  have snapped : (snapAll { s with drv := .cycle }).BandsInBounds := snapAll_bandsInBounds legal h
  refine bandsInBounds_congr snapped (by simp) ?_ ?_
  · simp [cycle, forChannels_keeps State.band1 cycleChannel_band1]
  · simp [cycle, forChannels_keeps State.band2 cycleChannel_band2]

theorem beat_bandsInBounds {s : State} (legal : s.cfg.legal = true) (h : s.BandsInBounds) :
    (beat s).BandsInBounds := by
  unfold beat activeBeat cycleIfReady
  split_ifs
  · exact cycle_bandsInBounds (by simpa using legal)
      (bandsInBounds_congr h (by simp) (by simp) (by simp))
  all_goals exact bandsInBounds_congr h (by simp) (by simp) (by simp)

theorem after_bandsInBounds {i : Instr} (hi : clearsBuffers i = false) {s : State}
    (legal : s.cfg.legal = true) (h : s.BandsInBounds) : (after i s).BandsInBounds := by
  cases i with
  | prepare | release => cases hi
  | snap => exact snapAll_bandsInBounds legal h
  | bxBin b => exact bxBin_bandsInBounds b h
  | bxHalfw b => exact bxHalfw_bandsInBounds b h
  | bxInterval b => exact bxInterval_bandsInBounds b legal h
  | drvCycle => exact cycle_bandsInBounds legal h
  | drvBeat => exact beat_bandsInBounds legal h
  | _ => exact bandsInBounds_congr h (by simp [after]) (by simp [after]) (by simp [after])

/-! ### Soundness -/

/-- The memories, rings and cursors, and what tells whether they are in use. -/
def State.buffers (s : State) : Cfg × Bool × PerStream (Vector RingCtl 16) × Memory × Nat × Nat :=
  (s.cfg, s.prepared, s.rings, s.mem, s.olaWr, s.olaRd)

/-- The registers that soundness speaks of beside the buffers. -/
def State.control (s : State) : BandRegs × BandRegs × DrvState × Bool × Word :=
  (s.band1, s.band2, s.drv, s.blkActive, s.sr)

theorem State.Sound.congr {s t : State} (h : s.Sound) (buffers : t.buffers = s.buffers)
    (control : t.control = s.control) : t.Sound := by
  cases s
  cases t
  simp only [State.buffers, State.control, Prod.mk.injEq] at buffers control
  obtain ⟨rfl, rfl, rfl, rfl, rfl, rfl⟩ := buffers
  obtain ⟨rfl, rfl, rfl, rfl, rfl⟩ := control
  exact ⟨h.legal, h.memory, h.rings, h.olaWrite, h.olaRead, h.bands, h.notInCycle, h.active, h.cleared⟩

theorem State.Fresh.sound {s : State} (h : s.Fresh) (legal : s.cfg.legal = true) : s.Sound := by
  obtain ⟨cursors, memory, zeroed⟩ := h
  simp only [State.cursors, State.resetOf, Prod.mk.injEq] at cursors
  obtain ⟨rings, olaWr, olaRd, band1, band2, drv, blkActive⟩ := cursors
  have len := len_pos legal
  constructor
  case legal => exact legal
  case memory => exact memory
  case rings =>
    intro st c
    rw [ring_of_cleared rings]
    exact ⟨Nat.two_pow_pos _, Nat.zero_le _⟩
  case olaWrite => exact olaWr ▸ ⟨len, dvd_zero _⟩
  case olaRead =>
    rw [olaRd]
    exact Nat.sub_lt len (Nat.two_pow_pos _)
  case bands =>
    have band (b : Band) : s.band b = BandRegs.zero := by cases b <;> assumption
    intro b
    rw [band]
    exact ⟨le_refl _, le_refl _, Int.natCast_nonneg _⟩
  case notInCycle => simp [drv]
  case active => simp [blkActive]
  case cleared =>
    intro prepared
    rw [zeroed prepared]
    rfl

/-- Every instruction that completes leaves a sound state, micro-operations included. -/
theorem State.Sound.after {s : State} (h : s.Sound) (i : Instr) : (after i s).Sound := by
  cases hi : clearsBuffers i with
  | true => exact (after_fresh hi s).sound (by simpa using h.legal)
  | false =>
    constructor
    case legal => simpa using h.legal
    case memory => exact after_wf i h.memory
    case rings => exact after_ringsInBounds hi (Nat.two_pow_pos _) h.rings
    case olaWrite => simpa using after_olaWr_inBounds hi h.legal h.olaWrite
    case olaRead => simpa using after_olaRd_inBounds hi h.legal h.olaRead
    case bands => exact after_bandsInBounds hi h.legal h.bands
    case notInCycle => exact after_notInCycle i h.notInCycle
    case active =>
      intro active
      rw [after_usable hi]
      exact (after_blkActive hi active).elim h.active id
    case cleared =>
      rw [after_prepared hi, after_cleared hi]
      exact h.cleared

/-- Settles O50: the operation a step runs leaves a sound state, and the rest of a step changes nothing
that soundness speaks of. -/
theorem soundnessIsKept : Obligations.SoundnessIsKept := by
  intro s t hs h
  apply step_elim h
  case issued | commanded =>
    intros
    apply State.Sound.after
    exact hs.congr rfl rfl
  case beaten =>
    intros
    have taken : s.turnTaken.Sound := hs.congr rfl rfl
    exact (taken.after .drvBeat).congr rfl rfl
  all_goals intros; exact hs.congr rfl rfl

end Sys2Proof.Machine
end

section
/-! The driver's invariant and the emitted part of the overlap-add memory (10_state.md R18, R21,
46_driver.md R163) over every step of a machine whose data path the driver alone feeds. -/

-- No thread of its own for each proof, as in the first section of the proofs.
set_option deprecated.oldSectionVars true

namespace Sys2Proof.Machine

/-! ### What the two invariants speak of -/

/-- A host command clears the buffers or leaves them. -/
theorem after_buffers {i : Instr} (command : i.isCommand = true) (hi : clearsBuffers i = false) (s : State) :
    (after i s).buffers = s.buffers := by
  cases i with
  | prepare | release => cases hi
  | nop | setpCut1 | setpCut2 | setpBlen | setpXmode | setpMix1 | setpMix2 | process => rfl
  | _ => cases command

theorem bypass_buffers (s : State) : (bypass s).buffers = s.buffers := by simp [State.buffers]

theorem State.InStep.congr {s t : State} (h : s.InStep) (buffers : t.buffers = s.buffers)
    (noQueue : t.issue = []) : t.InStep := by
  cases s
  cases t
  simp only [State.buffers, Prod.mk.injEq] at buffers
  obtain ⟨rfl, rfl, rfl, rfl, rfl, rfl⟩ := buffers
  exact ⟨noQueue, h.same, h.notFull, h.readCursor, h.writeCursor⟩

theorem State.TailClear.congr {s t : State} (h : s.TailClear) (buffers : t.buffers = s.buffers) :
    t.TailClear := by
  cases s
  cases t
  simp only [State.buffers, Prod.mk.injEq] at buffers
  obtain ⟨rfl, rfl, rfl, rfl, rfl, rfl⟩ := buffers
  exact h

/-! ### Initial buffers -/

theorem State.Fresh.inStep {s : State} (h : s.Fresh) (noQueue : s.issue = []) : s.InStep := by
  obtain ⟨cursors, -, -⟩ := h
  simp only [State.cursors, State.resetOf, Prod.mk.injEq] at cursors
  obtain ⟨rings, olaWr, olaRd, -⟩ := cursors
  have start : s.olaRd = s.cfg.n := by
    rw [olaRd, Cfg.len]
    omega
  have pos : 0 < s.cfg.n := Nat.two_pow_pos _
  constructor
  case noQueue => exact noQueue
  case same => simp [ring_of_cleared rings]
  case notFull => rwa [ring_of_cleared rings]
  case readCursor =>
    rw [start, olaWr, ring_of_cleared rings]
    exact (Nat.mod_eq_of_lt (by rw [Cfg.len]; omega)).symm
  case writeCursor => rw [start, ring_of_cleared rings, Nat.mod_self]

theorem State.Fresh.tailClear {s : State} (h : s.Fresh) : s.TailClear := by
  obtain ⟨-, -, zeroed⟩ := h
  intro prepared c _ j _ _
  rw [State.element, zeroed prepared, zeroed_read]

/-! ### An active beat -/

theorem State.InStep.completesFrames_iff {s : State} (h : s.InStep) (nch : 0 < s.cfg.nch) :
    s.completesFrames ↔ (s.ring .main 0).cnt + 1 = s.cfg.n := by
  have notFull := h.notFull
  have count : ((s.ring .main 0).afterWrite s.cfg.n).cnt = (s.ring .main 0).cnt + 1 := if_pos notFull
  rw [← count]
  constructor
  · exact fun full => full .main 0 nch
  · intro full st c hc
    rw [h.same st c hc]
    exact full

/-- The ring an active beat leaves: one more sample, or a frame consumed. -/
theorem State.InStep.activeBeat_ring {s : State} (h : s.InStep) (nch : 0 < s.cfg.nch) (st : Stream)
    (c : Chan) (hc : c.val < s.cfg.nch) :
    (activeBeat s).ring st c =
      { wr := ((s.ring .main 0).wr + 1) % s.cfg.n
        cnt :=
          if (s.ring .main 0).cnt + 1 = s.cfg.n then s.cfg.n - s.cfg.hop
          else (s.ring .main 0).cnt + 1 } := by
  classical
  have notFull := h.notFull
  have hop : s.cfg.hop ≤ s.cfg.n := by
    have := hop_cases s.cfg
    omega
  rw [Machine.activeBeat_ring, if_pos hc, h.same st c hc]
  simp only [h.completesFrames_iff nch, RingCtl.afterWrite, RingCtl.afterConsume, if_pos notFull]
  split
  · next full => rw [full, if_pos hop]
  · rfl

theorem State.InStep.activeBeat_olaWr {s : State} (h : s.InStep) (nch : 0 < s.cfg.nch) :
    (activeBeat s).olaWr =
      if (s.ring .main 0).cnt + 1 = s.cfg.n then (s.olaWr + s.cfg.hop) % s.cfg.len else s.olaWr := by
  classical
  rw [Machine.activeBeat_olaWr]
  simp only [h.completesFrames_iff nch]

theorem State.InStep.activeBeat {s : State} (h : s.InStep) (legal : s.cfg.legal = true) :
    (activeBeat s).InStep := by
  obtain ⟨size, -, nch, -⟩ := legal_bounds legal
  have ring := h.activeBeat_ring nch
  have hop := hop_cases s.cfg
  constructor
  case noQueue => simpa using h.noQueue
  case same =>
    intro st c hc
    rw [activeBeat_cfg] at hc
    rw [ring st c hc, ring .main 0 nch]
  case notFull =>
    have notFull := h.notFull
    rw [ring .main 0 nch, activeBeat_cfg]
    dsimp only
    split <;> omega
  case readCursor =>
    rw [ring .main 0 nch, activeBeat_cfg, activeBeat_olaRd, h.activeBeat_olaWr nch, h.readCursor,
      Nat.mod_add_mod]
    dsimp only
    split
    · next full =>
      calc (s.cfg.n + s.olaWr + (s.ring .main 0).cnt + 1) % s.cfg.len
          = (s.olaWr + s.cfg.hop + (s.cfg.n + (s.cfg.n - s.cfg.hop))) % s.cfg.len := by
            congr 1
            omega
        _ = ((s.olaWr + s.cfg.hop) % s.cfg.len + (s.cfg.n + (s.cfg.n - s.cfg.hop))) % s.cfg.len :=
            (Nat.mod_add_mod _ _ _).symm
        _ = _ := by
            congr 1
            omega
    · rfl
  case writeCursor =>
    have dvd : s.cfg.n ∣ s.cfg.len := ⟨2, Nat.mul_comm _ _⟩
    rw [ring .main 0 nch, activeBeat_cfg, activeBeat_olaRd, Nat.mod_mod_of_dvd _ dvd, h.writeCursor,
      Nat.mod_add_mod]

/-- Where an active beat's cycle adds nothing, what was 0 stays 0 and the emitted element becomes 0. -/
theorem activeBeat_ola_zero {s : State} (h : s.mem.wf) {c : Chan} (hc : c.val < s.cfg.nch) {i : Nat}
    (away : s.completesFrames → ∀ k, k < s.cfg.n → i ≠ (s.olaWr + k) % s.cfg.len)
    (zero : i ≠ s.olaRd → s.element (.ola c) i = 0) : (activeBeat s).element (.ola c) i = 0 := by
  rw [activeBeat_ola h c i away]
  split
  · rfl
  · next other => exact zero fun e => other ⟨hc, e⟩

/-- Two places of the overlap-add ring less than its length apart are two elements. -/
theorem add_mod_ne {L a j k : Nat} (hkj : k < j) (hj : j < L + k) : (a + j) % L ≠ (a + k) % L := by
  intro e
  have dvd : L ∣ (a + j) - (a + k) := (Nat.modEq_iff_dvd' (by omega)).1 e.symm
  have := Nat.le_of_dvd (by omega) dvd
  omega

theorem State.TailClear.activeBeat {s : State} (h : s.TailClear) (sound : s.Sound)
    (inStep : s.InStep) : (activeBeat s).TailClear := by
  obtain ⟨size, -, nch, -⟩ := legal_bounds sound.legal
  have hop := hop_cases s.cfg
  have len : s.cfg.len = 2 * s.cfg.n := rfl
  intro prepared c hc j hlo hhi
  rw [activeBeat_cfg] at hc hlo hhi ⊢
  rw [inStep.activeBeat_ring nch .main 0 nch] at hhi
  dsimp only at hhi
  rw [inStep.activeBeat_olaWr nch]
  rw [activeBeat_prepared] at prepared
  have tail : ∀ k, s.cfg.n - s.cfg.hop ≤ k → k ≤ s.cfg.n + (s.ring .main 0).cnt →
      (s.olaWr + k) % s.cfg.len ≠ s.olaRd → s.element (.ola c) ((s.olaWr + k) % s.cfg.len) = 0 := by
    intro k hk hk' ne
    refine h prepared c hc k hk (Nat.lt_of_le_of_ne hk' ?_)
    rintro rfl
    apply ne
    rw [inStep.readCursor]
    congr 1
    omega
  by_cases full : (s.ring .main 0).cnt + 1 = s.cfg.n
  · simp only [if_pos full] at hhi ⊢
    rw [Nat.mod_add_mod, Nat.add_assoc]
    refine activeBeat_ola_zero sound.memory hc (fun _ k hk => ?_) (tail _ (by omega) (by omega))
    exact add_mod_ne (by omega) (by omega)
  · simp only [if_neg full] at hhi ⊢
    refine activeBeat_ola_zero sound.memory hc (fun complete => ?_) (tail _ hlo (by omega))
    exact absurd ((inStep.completesFrames_iff nch).1 complete) full

/-! ### Every step -/

theorem State.InStep.beat {s : State} (h : s.InStep) (legal : s.cfg.legal = true) :
    (beat s).InStep := by
  unfold Machine.beat
  split
  · exact h.activeBeat legal
  · exact h.congr (bypass_buffers s) (by simpa using h.noQueue)

theorem State.TailClear.beat {s : State} (h : s.TailClear) (sound : s.Sound) (inStep : s.InStep) :
    (beat s).TailClear := by
  unfold Machine.beat
  split
  · exact h.activeBeat sound inStep
  · exact h.congr (bypass_buffers s)

theorem after_issue (i : Instr) (s : State) : (after i s).issue = s.issue := by
  cases i <;> simp [after]

/-- Settles O51: with nothing queued a step runs a beat or a host command, or leaves the buffers. -/
theorem ringsAndCursorsStayInStep : Obligations.RingsAndCursorsStayInStep := by
  intro s t sound hs h
  have noQueue := hs.noQueue
  apply step_elim h
  case issued =>
    intro w ws i _ queue _
    rw [noQueue] at queue
    cases queue
  case beaten =>
    intros
    have taken : s.turnTaken.InStep := hs.congr rfl noQueue
    have beaten := taken.beat sound.legal
    exact beaten.congr rfl beaten.noQueue
  case commanded =>
    intro i rest _ _ _ decoded
    have queue (u : State) (hu : u.issue = []) : (after i u).issue = [] := (after_issue i u).trans hu
    cases hi : clearsBuffers i with
    | true => exact (after_fresh hi _).inStep (queue _ noQueue)
    | false => exact hs.congr (after_buffers (decodeCommand_isCommand decoded) hi _) (queue _ noQueue)
  all_goals intros; exact hs.congr rfl noQueue

/-- Settles O52: as O51, with the tail of the overlap-add memory in the place of the cursors. -/
theorem tailStaysClear : Obligations.TailStaysClear := by
  intro s t sound inStep hs h
  apply step_elim h
  case issued =>
    intro w ws i _ queue _
    rw [inStep.noQueue] at queue
    cases queue
  case beaten =>
    intros
    have taken : s.turnTaken.TailClear := hs.congr rfl
    have beaten := taken.beat (sound.congr rfl rfl) (inStep.congr rfl inStep.noQueue)
    exact beaten.congr rfl
  case commanded =>
    intro i rest _ _ _ decoded
    cases hi : clearsBuffers i with
    | true => exact (after_fresh hi _).tailClear
    | false => exact hs.congr (after_buffers (decodeCommand_isCommand decoded) hi _)
  all_goals intros; exact hs.congr rfl

end Sys2Proof.Machine
end

section
/-! The sticky events, the parameters, and hardware reset (10_state.md R12, R16, R24). -/

-- No thread of its own for each proof, as in the first section of the proofs.
set_option deprecated.oldSectionVars true

namespace Sys2Proof.Machine

/-! ### Events are sticky (10_state.md R16) -/

/-- Every event of a set has been raised. -/
def State.HasEvents (e : BitVec 5) (s : State) : Prop := s.events ||| e = s.events

section

variable {e : BitVec 5} {s : State}

theorem hasEvents_congr {t : State} (h : s.HasEvents e) (events : t.events = s.events) :
    t.HasEvents e := by
  unfold State.HasEvents
  rw [events]
  exact h

theorem raiseIf_hasEvents (cause : Bool) (ev : Event) (h : s.HasEvents e) :
    (State.raiseIf cause ev s).HasEvents e := by
  unfold State.HasEvents at *
  rw [raiseIf_events]
  split
  · rw [BitVec.or_assoc, BitVec.or_comm ev.mask, ← BitVec.or_assoc, h]
  · exact h

theorem bxHalfw_hasEvents (b : Band) (h : s.HasEvents e) : (bxHalfw b s).HasEvents e :=
  raiseIf_hasEvents _ _ (hasEvents_congr h (by simp))

theorem bxInterval_hasEvents (b : Band) (h : s.HasEvents e) : (bxInterval b s).HasEvents e :=
  raiseIf_hasEvents _ _ (hasEvents_congr h (by simp))

theorem snapAll_hasEvents (h : s.HasEvents e) : (snapAll s).HasEvents e := by
  have derive (b : Band) {t : State} (h : t.HasEvents e) : (deriveBand b t).HasEvents e :=
    bxInterval_hasEvents b (bxHalfw_hasEvents b (hasEvents_congr h (bxBin_events b t)))
  have snapped : (takeSnapshot s).HasEvents e := raiseIf_hasEvents _ _ h
  exact derive .two (derive .one snapped)

theorem cycle_hasEvents (h : s.HasEvents e) : (cycle s).HasEvents e := by
  have snapped : (snapAll { s with drv := .cycle }).HasEvents e := snapAll_hasEvents h
  refine hasEvents_congr snapped ?_
  simp [cycle, forChannels_keeps State.events cycleChannel_events]

theorem beat_hasEvents (h : s.HasEvents e) : (beat s).HasEvents e := by
  unfold beat activeBeat cycleIfReady
  split_ifs
  · exact cycle_hasEvents (hasEvents_congr h (by simp))
  all_goals exact hasEvents_congr h (by simp)

/-- No instruction clears an event. -/
theorem after_hasEvents (i : Instr) (h : s.HasEvents e) : (after i s).HasEvents e := by
  cases i with
  | process => exact raiseIf_hasEvents _ _ (raiseIf_hasEvents _ _ h)
  | snap => exact snapAll_hasEvents h
  | bxHalfw b => exact bxHalfw_hasEvents b h
  | bxInterval b => exact bxInterval_hasEvents b h
  | drvCycle => exact cycle_hasEvents h
  | drvBeat => exact beat_hasEvents h
  | _ => exact hasEvents_congr h (by simp [after])

end

/-- Settles O56: a step raises events or leaves them, but for a register write to `EVENTS`. -/
theorem eventsAreSticky : Obligations.EventsAreSticky := by
  intro s t noWrite h
  have own : s.HasEvents s.events := BitVec.or_self
  show t.HasEvents s.events
  apply step_elim h
  case wrote =>
    intro addr v ts turns
    have other : addr ≠ 0x02 := by
      rintro rfl
      exact noWrite v (by rw [turns]; rfl)
    exact hasEvents_congr own (if_neg other)
  case issued | commanded =>
    intros
    apply after_hasEvents
    exact own
  case beaten =>
    intros
    exact beat_hasEvents (s := s.turnTaken) own
  case rejected =>
    intros
    apply raiseIf_hasEvents
    exact own
  all_goals intros; exact own

/-! ### What changes the parameters (41_config.md R90, R91) -/

/-- The value of a `SETP` command. -/
def setpValue : Instr → Option Word
  | .setpCut1 v | .setpCut2 v | .setpBlen v | .setpXmode v | .setpMix1 v | .setpMix2 v => some v
  | _ => none

theorem setpValue_of_not_isCommand {i : Instr} (h : i.isCommand = false) : setpValue i = none := by
  cases i with
  | setpCut1 | setpCut2 | setpBlen | setpXmode | setpMix1 | setpMix2 => cases h
  | _ => rfl

theorem after_params {i : Instr} (h : setpValue i = none) (s : State) :
    (after i s).params = s.params := by
  cases i with
  | setpCut1 | setpCut2 | setpBlen | setpXmode | setpMix1 | setpMix2 => cases h
  | _ => simp [after]

theorem eq_setp {i : Instr} {v : Word} (h : setpValue i = some v) :
    i = .setpCut1 v ∨ i = .setpCut2 v ∨ i = .setpBlen v ∨ i = .setpXmode v ∨ i = .setpMix1 v ∨
      i = .setpMix2 v := by
  cases i with
  | setpCut1 | setpCut2 | setpBlen | setpXmode | setpMix1 | setpMix2 => cases h; simp
  | _ => cases h

theorem paramsAfterWrite_other {p : Params} {addr : BitVec 32} (v : Word)
    (h : ¬ (0x08 ≤ addr ∧ addr ≤ 0x0D)) : paramsAfterWrite p addr v = p := by
  unfold paramsAfterWrite
  iterate 6 rw [if_neg (by rintro rfl; exact h (by decide))]

theorem step_params {s t : State} (h : step s = .next t) :
    t.params = s.params ∨
      (∃ addr v, s.turns.head? = some (.regWrite addr v) ∧ 0x08 ≤ addr ∧ addr ≤ 0x0D) ∨
      (∃ i v rest, s.driverNext ∧ decodeCommand s.cmdIn = .taken i rest ∧ setpValue i = some v) := by
  apply step_elim h
  case wrote =>
    intro addr v ts turns
    by_cases writable : 0x08 ≤ addr ∧ addr ≤ 0x0D
    · exact .inr (.inl ⟨addr, v, by rw [turns]; rfl, writable⟩)
    · exact .inl (paramsAfterWrite_other v writable)
  case issued =>
    intro w ws i _ _ decoded
    exact .inl (after_params (setpValue_of_not_isCommand (decodeMicro_isCommand decoded)) _)
  case beaten => exact fun _ _ _ _ => .inl (beat_params _)
  case commanded =>
    intro i rest driver _ _ decoded
    cases value : setpValue i with
    | none => exact .inl (after_params value _)
    | some v => exact .inr (.inr ⟨i, v, rest, driver, decoded, value⟩)
  all_goals intros; exact .inl rfl

/-- Settles O57: what a step does to the parameters, with the `SETP` command named. -/
theorem parametersChangeOnlyByTheirWrites : Obligations.ParametersChangeOnlyByTheirWrites := by
  intro s t h changed
  obtain kept | written | ⟨i, v, rest, driver, decoded, value⟩ := step_params h
  · exact absurd kept changed
  · exact .inl written
  · refine .inr ⟨v, rest, driver, ?_⟩
    obtain rfl | rfl | rfl | rfl | rfl | rfl := eq_setp value <;> simp [decoded]

/-! ### Hardware reset (10_state.md R24) -/

/-- Settles O53: hardware reset leaves initial buffers and an empty queue. -/
theorem resetMeetsTheInvariants : Obligations.ResetMeetsTheInvariants := fun g legal =>
  ⟨(resetOf_fresh g).sound legal, (resetOf_fresh g).inStep rfl, (resetOf_fresh g).tailClear⟩

/-- No record has its zero below itself. -/
theorem not_zero_lt_zero (g : Cfg) : g.numerics.lt Numerics.zero Numerics.zero = false := by
  have base : g.numerics.lt = (baseNumerics g).lt := by rw [numerics_eq]
  rw [base, baseNumerics]
  cases g.num with
  | binary32 => rfl
  | other =>
    show RawNum.less _ _ _ = false
    unfold RawNum.less RawNum.compare
    cases (RawNum.sound Config.otherNum).place Numerics.zero <;> simp

theorem resetOf_statusWord (g : Cfg) : (State.resetOf g).statusWord = 0 := by
  have invalid : (State.resetOf g).srValid = false := by
    show (_ && g.numerics.lt Numerics.zero Numerics.zero) = false
    rw [not_zero_lt_zero, Bool.and_false]
  unfold State.statusWord
  rw [invalid]
  show (0 : BitVec 28) ++ flagBit false ++ DrvState.idle.bits ++ flagBit false = 0
  decide

/-- The snapshot and band registers read 0 after hardware reset, and so does what is no register. -/
theorem resetOf_regRead_high (g : Cfg) {addr : BitVec 32} (h : 0x10 ≤ addr) :
    regRead (State.resetOf g) addr = 0 := by
  have low : ∀ a : BitVec 32, a < 0x10 → addr ≠ a := by
    rintro a ha rfl
    exact absurd h (BitVec.not_le.2 ha)
  have either {p : Prop} [Decidable p] {x y : Word} (hx : x = 0) (hy : y = 0) :
      (if p then x else y) = 0 := by
    split <;> assumption
  unfold regRead
  iterate 11 rw [if_neg (low _ (by decide))]
  iterate 14 refine either rfl ?_
  rfl

theorem resetOf_params_binary32 {g : Cfg} (h : g.num = .binary32) :
    (State.resetOf g).params =
      { cut1 := 0x44FA0000, cut2 := 0x44FA0000, blen := 0x3F800000, xmode := 0x00000000
        mix1 := 0x3C23D70A, mix2 := 0x3C23D70A } := by
  have hz : F32.ofReal (.ratio 2000 1) = 0x44FA0000 := rfl
  have mix : F32.ofReal (.ratio 1 100) = 0x3C23D70A := rfl
  show Params.atReset g.numerics = _
  rw [numerics_eq, baseNumerics_binary32 h]
  simp only [Params.atReset, binary32, hz, mix]
  rfl

/-- Settles O54: the fields of the state at hardware reset, the status word and the unwritten registers
by their lemmas. -/
theorem resetValues : Obligations.ResetValues := by
  intro g
  refine ⟨rfl, fun h => ?_, fun addr => resetOf_regRead_high g, resetOf_statusWord g, rfl, rfl, rfl,
    rfl, rfl, rfl, rfl, ?_, rfl, rfl, rfl, rfl, rfl, rfl, ?_, ?_, rfl⟩
  · rw [resetOf_params_binary32 h]
  · exact ring_of_cleared rfl
  · intro st c
    cases st <;> simp [State.waiting, State.resetOf, PerStream.get]
  · simp [State.resetOf]

end Sys2Proof.Machine
end

section
/-! The register map, the register accesses as steps, and what the core does at the command port
(20_memory.md R42 to R49). -/

-- No thread of its own for each proof, as in the first section of the proofs.
set_option deprecated.oldSectionVars true

namespace Sys2Proof.Machine

/-! ### The command port -/

/-- With no whole command at the port a driver's turn does nothing (20_memory.md R47). -/
theorem step_awaiting {s : State} (driver : s.driverNext) (queue : s.issue = []) (block : s.blkRem = 0)
    (port : decodeCommand s.cmdIn = .awaiting) : step s = .next s.turnTaken := by
  have port' : decodeCommand s.turnTaken.cmdIn = .awaiting := port
  rw [step_command driver queue block, runCommand, port']

/-- A whole command at the port is run where its words have been taken (20_memory.md R43). -/
theorem step_taken {s : State} {i : Instr} {rest : List Word} (driver : s.driverNext)
    (queue : s.issue = []) (block : s.blkRem = 0) (port : decodeCommand s.cmdIn = .taken i rest) :
    step s = exec i { s.turnTaken with cmdIn := rest } := by
  have port' : decodeCommand s.turnTaken.cmdIn = .taken i rest := port
  rw [step_command driver queue block, runCommand, port']

/-- A `PREPARE` header alone is no command (30_encoding.md R68). -/
theorem decodeCommand_prepare_header (mb : BitVec 16) :
    decodeCommand [header 0x01 0 0 mb] = .awaiting := by
  simp [decodeCommand]

/-- A `SETP` header with a legal param id alone is no command (30_encoding.md R68). -/
theorem decodeCommand_setp_header {p : BitVec 4} (h : p ≤ 5) :
    decodeCommand [header 0x03 p 0 0] = .awaiting := by
  simpa [decodeCommand] using h

/-- Settles O5: the decoder awaits more words at each of the three ports. -/
theorem coreWaitsForAWholeCommand : Obligations.CoreWaitsForAWholeCommand := by
  intro s mb p driver queue block legal port
  apply step_awaiting driver queue block
  obtain port | port | port := port <;> rw [port]
  · rfl
  · exact decodeCommand_prepare_header mb
  · exact decodeCommand_setp_header legal

/-- Settles O6: the same rule as the lemma for a taken command. -/
theorem stepRunsTheDecodedCommand : Obligations.StepRunsTheDecodedCommand :=
  fun _ _ _ => step_taken

/-! ### What the register words hold (10_state.md R15) -/

/-- The value of a word put together from two parts. -/
theorem toNat_append_add {m n : Nat} (x : BitVec m) (y : BitVec n) :
    (x ++ y).toNat = x.toNat * 2 ^ n + y.toNat := by
  rw [BitVec.toNat_append, ← Nat.shiftLeft_add_eq_or_of_lt y.isLt, Nat.shiftLeft_eq]

theorem flagBit_toNat (b : Bool) : (flagBit b).toNat = b.toNat := BitVec.toNat_ofBool b

theorem widthPolicyBit_toNat (p : WidthPolicy) :
    (widthPolicyBit p).toNat = if p = .absHz then 1 else 0 := by cases p <;> rfl

theorem sidePolicyBit_toNat (p : SidePolicy) :
    (sidePolicyBit p).toNat = if p = .other then 1 else 0 := by cases p <;> rfl

theorem statusWord_toNat (s : State) :
    s.statusWord.toNat = s.prepared.toNat + 2 * s.drv.bits.toNat + 8 * s.srValid.toNat := by
  unfold State.statusWord
  simp only [toNat_append_add, flagBit_toNat, BitVec.ofNat_eq_ofNat, BitVec.toNat_zero]
  omega

theorem legal_logn_le {g : Cfg} (h : g.legal = true) : g.logn ≤ 12 := by
  simp only [Cfg.legal, Bool.and_eq_true, decide_eq_true_eq] at h
  omega

/-- `LOGN` and `NCH` of a legal construction fit in their fields. -/
theorem cfgWord_toNat {s : State} (legal : s.cfg.legal = true) :
    s.cfgWord.toNat =
      s.cfg.logn + 16 * s.cfg.hopHalf.toNat + (if s.cfg.wpol = .absHz then 32 else 0)
        + (if s.cfg.sidepol = .other then 64 else 0) + 256 * s.cfg.nch := by
  obtain ⟨-, -, -, nch⟩ := legal_bounds legal
  have logn : s.cfg.logn % 2 ^ 4 = s.cfg.logn := by
    have := legal_logn_le legal
    omega
  have nch' : s.cfg.nch % 2 ^ 4 = s.cfg.nch := by omega
  unfold State.cfgWord
  simp only [toNat_append_add, flagBit_toNat, widthPolicyBit_toNat, sidePolicyBit_toNat,
    BitVec.ofNat_eq_ofNat, BitVec.toNat_ofNat, logn, nch']
  split_ifs <;> omega

/-! ### Register accesses as steps (20_memory.md R44, R49) -/

theorem regRead_above {s : State} {addr : BitVec 32} (h : 0x1F < addr) : regRead s addr = 0 := by
  have other : ∀ a : BitVec 32, a ≤ 0x1F → addr ≠ a := by
    rintro a ha rfl
    exact absurd h (BitVec.not_lt.2 ha)
  unfold regRead
  iterate 25 rw [if_neg (other _ (by decide))]

/-- A write to an address that is no parameter's and not that of `EVENTS` is ignored. -/
theorem regWrite_ignored {s : State} {addr : BitVec 32} (v : Word) (events : addr ≠ 0x02)
    (params : ¬ (0x08 ≤ addr ∧ addr ≤ 0x0D)) : regWrite addr v s = s := by
  rw [regWrite, paramsAfterWrite_other v params, eventsAfterWrite, if_neg events]

/-- The six parameter addresses are all those from `0x08` to `0x0D`. -/
theorem param_address {addr : BitVec 32} (h : 0x08 ≤ addr ∧ addr ≤ 0x0D) :
    addr = 0x08 ∨ addr = 0x09 ∨ addr = 0x0A ∨ addr = 0x0B ∨ addr = 0x0C ∨ addr = 0x0D := by
  bv_omega

/-- Register writes by address: `EVENTS` is write-one-to-clear, a parameter is written as its `SETP`
writes it (41_config.md R91), and every other address ignores the write. -/
theorem regWrite_next (addr : BitVec 32) (v : Word) (s : State) :
    Host.Outcome.next (regWrite addr v s) =
      if addr = 0x02 then .next { s with events := s.events &&& ~~~(v.setWidth 5) }
      else if addr = 0x08 then exec (.setpCut1 v) s
      else if addr = 0x09 then exec (.setpCut2 v) s
      else if addr = 0x0A then exec (.setpBlen v) s
      else if addr = 0x0B then exec (.setpXmode v) s
      else if addr = 0x0C then exec (.setpMix1 v) s
      else if addr = 0x0D then exec (.setpMix2 v) s
      else .next s := by
  by_cases events : addr = 0x02
  · subst events
    rfl
  by_cases params : 0x08 ≤ addr ∧ addr ≤ 0x0D
  · obtain rfl | rfl | rfl | rfl | rfl | rfl := param_address params <;> rfl
  · have other : ∀ a : BitVec 32, 0x08 ≤ a ∧ a ≤ 0x0D → addr ≠ a := by
      rintro a ha rfl
      exact params ha
    rw [regWrite_ignored v events params, if_neg events]
    iterate 6 rw [if_neg (other _ (by decide))]

/-- Settles O9: the two packed words and the addresses above the map by their lemmas; every other
address reads its register by evaluation. -/
theorem registerMap : Obligations.RegisterMap := by
  intro s ts
  refine ⟨fun addr => rfl, cfgWord_toNat, statusWord_toNat s, ?events, rfl, ?maxBlk, rfl, rfl, ?xmode,
    rfl, rfl, rfl, fun addr => regRead_above, fun addr v => regWrite_next addr v _⟩
  case events => exact BitVec.toNat_setWidth_of_le (by decide : 5 ≤ 32)
  case maxBlk => exact BitVec.toNat_setWidth_of_le (by decide : 16 ≤ 32)
  case xmode => exact BitVec.toNat_setWidth_of_le (by decide : 1 ≤ 32)

end Sys2Proof.Machine
end

section
/-! The encoder against both decoders: what each decoder finds in the words of an instruction, that it
finds nothing else, the patterns as numbers, and which headers are illegal (30_encoding.md R60 to R71). -/

-- No thread of its own for each proof, as in the first section of the proofs.
set_option deprecated.oldSectionVars true

namespace Sys2Proof

open Machine

/-! ### The decoders on the words of an instruction -/

section

-- The fields that are 0 stand in simp's own spelling, so that these fire as simp lemmas.

variable (op : BitVec 8) (st : Stream) (b : Band) (c : Chan)

@[simp] theorem microStream_header (k : Stream → Chan → Instr) :
    microStream (header op (streamField st) (chanField c) 0#16) k = .op (k st c) := by
  simp [microStream]

@[simp] theorem microBand_header (k : Band → Instr) :
    microBand (header op (bandField b) 0#4 0#16) k = .op (k b) := by
  simp [microBand]

@[simp] theorem microBandChan_header (k : Band → Chan → Instr) :
    microBandChan (header op (bandField b) (chanField c) 0#16) k = .op (k b c) := by
  simp [microBandChan]

@[simp] theorem microChan_header (k : Chan → Instr) :
    microChan (header op 0#4 (chanField c) 0#16) k = .op (k c) := by
  simp [microChan]

@[simp] theorem microPlain_header (i : Instr) : microPlain (header op 0#4 0#4 0#16) i = .op i := by
  simp [microPlain]

end

/-- A micro-operation is one word, a micro-operation code, and the data path reads it back
(30_encoding.md R64). -/
theorem decodeMicro_encode {i : Instr} (micro : i.isCommand = false) :
    ∃ w, encode i = [w] ∧ isMicroWord w = true ∧ decodeMicro w = .op i := by
  cases i with
  | nop | prepare | release | setpCut1 | setpCut2 | setpBlen | setpXmode | setpMix1 | setpMix2
  | process => cases micro
  | _ => exact ⟨_, rfl, isMicroWord_header .., by simp [decodeMicro]⟩

theorem decodeMicro_of_encode {i : Instr} {w : Word} (micro : i.isCommand = false)
    (word : encode i = [w]) : decodeMicro w = .op i := by
  obtain ⟨w', word', -, decoded⟩ := decodeMicro_encode micro
  obtain rfl : w' = w := by simpa [word] using word'.symm
  exact decoded

/-- A host command's header is no micro-operation code (30_encoding.md R61). -/
theorem encode_header_of_isCommand {i : Instr} (command : i.isCommand = true) :
    ∃ w ws, encode i = w :: ws ∧ isMicroWord w = false := by
  cases i with
  | nop | prepare | release | setpCut1 | setpCut2 | setpBlen | setpXmode | setpMix1 | setpMix2
  | process => exact ⟨_, _, rfl, isMicroWord_header ..⟩
  | _ => cases command

/-- The command port takes a host command's words and leaves those after them (30_encoding.md R71). -/
theorem decodeCommand_encode (i : Instr) (command : i.isCommand = true) (rest : List Word) :
    decodeCommand (encode i ++ rest) = .taken i rest := by
  cases i with
  | nop | prepare | release | setpCut1 | setpCut2 | setpBlen | setpXmode | setpMix1 | setpMix2
  | process => simp [encode, encodePlain, decodeCommand, setpOf]
  | _ => cases command

/-- Settles O1: a host command at the command port, a micro-operation in the data path. -/
theorem decodingInvertsEncoding : Obligations.DecodingInvertsEncoding := by
  intro i rest
  cases path : i.isCommand with
  | true =>
    obtain ⟨w, ws, words, hw⟩ := encode_header_of_isCommand path
    exact ⟨w, ws, words, by simpa [hw] using decodeCommand_encode i path rest⟩
  | false =>
    obtain ⟨w, words, hw, decoded⟩ := decodeMicro_encode path
    exact ⟨w, [], words, by simp [hw, decoded]⟩

/-! ### Every word that decodes is an encoding -/

/-- The headers that the command port accepts, by their fields (30_encoding.md R63, R65). -/
def CommandHeader (w : Word) : Prop :=
  ((opField w = 0x00 ∨ opField w = 0x02) ∧ selField w = 0 ∧ auxField w = 0 ∧ immField w = 0) ∨
    (opField w = 0x01 ∧ selField w = 0 ∧ auxField w = 0) ∨
    (opField w = 0x03 ∧ selField w ≤ 5 ∧ auxField w = 0 ∧ immField w = 0) ∨
    (opField w = 0x04 ∧ (auxField w).extractLsb' 1 3 = 0)

theorem setpOf_legal {p : BitVec 4} (legal : p ≤ 5) (v : Word) : ∃ i, setpOf p v = some i := by
  have : p = 0 ∨ p = 1 ∨ p = 2 ∨ p = 3 ∨ p = 4 ∨ p = 5 := by bv_omega
  obtain rfl | rfl | rfl | rfl | rfl | rfl := this <;> exact ⟨_, rfl⟩

/-- At an accepted header the port waits for the payload, or takes the words of one instruction. -/
theorem decodeCommand_of_commandHeader {w : Word} (accepted : CommandHeader w) (ws : List Word) :
    decodeCommand (w :: ws) = .awaiting ∨
      ∃ i rest, w :: ws = encode i ++ rest ∧ decodeCommand (w :: ws) = .taken i rest := by
  obtain ⟨op | op, sel, aux, imm⟩ | ⟨op, sel, aux⟩ | ⟨op, legal, aux, imm⟩ | ⟨op, high⟩ := accepted
  · rw [← header_of op sel aux imm]
    exact .inr ⟨.nop, ws, rfl, decodeCommand_encode .nop rfl ws⟩
  · rw [← header_of op sel aux imm]
    exact .inr ⟨.release, ws, rfl, decodeCommand_encode .release rfl ws⟩
  · rw [← header_of op sel aux rfl]
    cases ws with
    | nil => exact .inl (decodeCommand_prepare_header _)
    | cons sr rest => exact .inr ⟨_, rest, rfl, decodeCommand_encode (.prepare sr _) rfl rest⟩
  · rw [← header_of op rfl aux imm]
    cases ws with
    | nil => exact .inl (decodeCommand_setp_header legal)
    | cons v rest =>
      obtain ⟨i, hi⟩ := setpOf_legal legal v
      have words : header 0x03 (selField w) 0 0 :: v :: rest = encode i ++ rest := by
        simp [setp_encode hi]
      exact .inr ⟨i, rest, words, words ▸ decodeCommand_encode i (setpOf_isCommand hi) rest⟩
  · rw [← header_of op rfl (activeField_of high).symm rfl]
    exact .inr ⟨_, ws, rfl, decodeCommand_encode (.process _ _ _) rfl ws⟩

/-- Any other header is illegal and is consumed alone (30_encoding.md R65). -/
theorem decodeCommand_of_not_commandHeader {w : Word} (other : ¬ CommandHeader w) (ws : List Word) :
    ∃ why, decodeCommand (w :: ws) = .illegal why ws := by
  unfold decodeCommand
  dsimp only
  split_ifs with op0 zero op1 zero op2 zero op3 above zero op4 zero
  · exact absurd (.inl ⟨.inl op0, zero⟩) other
  · exact ⟨_, rfl⟩
  · exact absurd (.inr (.inl ⟨op1, zero⟩)) other
  · exact ⟨_, rfl⟩
  · exact absurd (.inl ⟨.inr op2, zero⟩) other
  · exact ⟨_, rfl⟩
  · exact ⟨_, rfl⟩
  · exact absurd (.inr (.inr (.inl ⟨op3, BitVec.not_lt.1 above, zero⟩))) other
  · exact ⟨_, rfl⟩
  · exact absurd (.inr (.inr (.inr ⟨op4, zero⟩))) other
  all_goals exact ⟨_, rfl⟩

theorem encode_of_decodeCommand {ws rest : List Word} {i : Instr}
    (taken : decodeCommand ws = .taken i rest) : ws = encode i ++ rest := by
  cases ws with
  | nil => cases taken
  | cons w ws =>
    by_cases accepted : CommandHeader w
    · obtain waits | ⟨j, rest', words, taken'⟩ := decodeCommand_of_commandHeader accepted ws
      · cases taken.symm.trans waits
      · cases taken.symm.trans taken'
        exact words
    · obtain ⟨why, illegal⟩ := decodeCommand_of_not_commandHeader accepted ws
      cases taken.symm.trans illegal

/-- A micro-operation found in a word has that word for its encoding. -/
def MicroOp.EncodedBy (w : Word) (m : MicroOp) : Prop := ∀ i, m = .op i → encode i = [w]

section

variable {w : Word} {op : BitVec 8}

theorem microStream_encodedBy {k : Stream → Chan → Instr}
    (row : ∀ st c, encode (k st c) = encodeStream op st c) (code : opField w = op) :
    (microStream w k).EncodedBy w := by
  rintro i h
  obtain ⟨st, c, rfl, word⟩ := microStream_op h
  rw [row, encodeStream, ← code, word]

theorem microBand_encodedBy {k : Band → Instr} (row : ∀ b, encode (k b) = encodeBand op b)
    (code : opField w = op) : (microBand w k).EncodedBy w := by
  rintro i h
  obtain ⟨b, rfl, word⟩ := microBand_op h
  rw [row, encodeBand, ← code, word]

theorem microBandChan_encodedBy {k : Band → Chan → Instr}
    (row : ∀ b c, encode (k b c) = [header op (bandField b) (chanField c) 0])
    (code : opField w = op) : (microBandChan w k).EncodedBy w := by
  rintro i h
  obtain ⟨b, c, rfl, word⟩ := microBandChan_op h
  rw [row, ← code, word]

theorem microChan_encodedBy {k : Chan → Instr} (row : ∀ c, encode (k c) = encodeChan op c)
    (code : opField w = op) : (microChan w k).EncodedBy w := by
  rintro i h
  obtain ⟨c, rfl, word⟩ := microChan_op h
  rw [row, encodeChan, ← code, word]

theorem microPlain_encodedBy {j : Instr} (row : encode j = encodePlain op) (code : opField w = op) :
    (microPlain w j).EncodedBy w := by
  rintro i h
  obtain ⟨rfl, word⟩ := microPlain_op h
  rw [row, encodePlain, ← code, word]

theorem ite_encodedBy {p : Prop} [Decidable p] {m n : MicroOp} (hm : p → m.EncodedBy w)
    (hn : n.EncodedBy w) : (if p then m else n).EncodedBy w := by
  split
  · next h => exact hm h
  · exact hn

end

/-- The data path accepts encodings only, row by row of its table (30_encoding.md R64). -/
theorem decodeMicro_encodedBy (w : Word) : (decodeMicro w).EncodedBy w :=
  ite_encodedBy (microStream_encodedBy fun _ _ => rfl) <|  -- ACC.WRITE
  ite_encodedBy (microPlain_encodedBy rfl) <|
  ite_encodedBy (microStream_encodedBy fun _ _ => rfl) <|
  ite_encodedBy (microPlain_encodedBy rfl) <|
  ite_encodedBy (microPlain_encodedBy rfl) <|  -- SNAP
  ite_encodedBy (microStream_encodedBy fun _ _ => rfl) <|  -- AN.WINDOW
  ite_encodedBy (microStream_encodedBy fun _ _ => rfl) <|
  ite_encodedBy (microStream_encodedBy fun _ _ => rfl) <|
  ite_encodedBy (microStream_encodedBy fun _ _ => rfl) <|
  ite_encodedBy (microBand_encodedBy fun _ => rfl) <|  -- BX.BIN
  ite_encodedBy (microBand_encodedBy fun _ => rfl) <|
  ite_encodedBy (microBand_encodedBy fun _ => rfl) <|
  ite_encodedBy (microBandChan_encodedBy fun _ _ => rfl) <|
  ite_encodedBy (microChan_encodedBy fun _ => rfl) <|
  ite_encodedBy (microChan_encodedBy fun _ => rfl) <|
  ite_encodedBy (microChan_encodedBy fun _ => rfl) <|  -- SY.RECT
  ite_encodedBy (microChan_encodedBy fun _ => rfl) <|
  ite_encodedBy (microChan_encodedBy fun _ => rfl) <|
  ite_encodedBy (microChan_encodedBy fun _ => rfl) <|
  ite_encodedBy (microChan_encodedBy fun _ => rfl) <|
  ite_encodedBy (microChan_encodedBy fun _ => rfl) <|
  ite_encodedBy (microPlain_encodedBy rfl) <|
  ite_encodedBy (microPlain_encodedBy rfl) <|  -- DRV.EMIT
  ite_encodedBy (microPlain_encodedBy rfl) <|
  ite_encodedBy (microPlain_encodedBy rfl) <|
  ite_encodedBy (microPlain_encodedBy rfl) fun _ h => by cases h

/-- Settles O2: the two decoders, each by its lemma. -/
theorem decodedWordsAreTheirEncoding : Obligations.DecodedWordsAreTheirEncoding :=
  ⟨fun _ _ _ => encode_of_decodeCommand, decodeMicro_encodedBy⟩

/-! ### The patterns as numbers -/

theorem streamField_toNat (st : Stream) : (streamField st).toNat = streamNumber st := by
  cases st <;> rfl

theorem bandField_toNat (b : Band) : (bandField b).toNat = if b = .one then 1 else 2 := by
  cases b <;> rfl

theorem activeField_toNat (sc : Bool) : (activeField sc).toNat = sc.toNat := by
  cases sc <;> rfl

section

variable (op : BitVec 8) (st : Stream) (b : Band) (c : Chan)

theorem encodeStream_ofNat :
    encodeStream op st c =
      [BitVec.ofNat 32 (op.toNat * 2 ^ 24 + (streamNumber st * 2 ^ 20 + c.val * 2 ^ 16))] := by
  rw [encodeStream, ofNat_header]
  simp [chanField, streamField_toNat, Nat.add_assoc]

theorem header_band_chan_ofNat :
    [header op (bandField b) (chanField c) 0] =
      [BitVec.ofNat 32
        (op.toNat * 2 ^ 24 + (if b = .one then 1 else 2) * 2 ^ 20 + c.val * 2 ^ 16)] := by
  rw [ofNat_header]
  simp [chanField, bandField_toNat]

theorem encodeBand_ofNat :
    encodeBand op b =
      [BitVec.ofNat 32 (op.toNat * 2 ^ 24 + (if b = .one then 1 else 2) * 2 ^ 20)] := by
  rw [encodeBand, ofNat_header]
  simp [bandField_toNat]

theorem encodeChan_ofNat :
    encodeChan op c = [BitVec.ofNat 32 (op.toNat * 2 ^ 24 + c.val * 2 ^ 16)] := by
  rw [encodeChan, ofNat_header]
  simp [chanField]

theorem encodePlain_ofNat : encodePlain op = [BitVec.ofNat 32 (op.toNat * 2 ^ 24)] := by
  rw [encodePlain, ofNat_header]
  simp

end

/-- Settles O3: each pattern is the encoding of its instruction, which the decoder reads back. -/
theorem instructionPatterns : Obligations.InstructionPatterns := by
  refine ⟨fun v imm sc k rest => ?_, fun st b c => ?_⟩
  · refine ⟨decodeCommand_encode .nop rfl rest, ?prepare, decodeCommand_encode .release rfl rest,
      decodeCommand_encode (.setpCut1 v) rfl rest, decodeCommand_encode (.setpCut2 v) rfl rest,
      decodeCommand_encode (.setpBlen v) rfl rest, decodeCommand_encode (.setpXmode v) rfl rest,
      decodeCommand_encode (.setpMix1 v) rfl rest, decodeCommand_encode (.setpMix2 v) rfl rest,
      ?process⟩
    case prepare =>
      rw [ofNat_header (op := 0x01) (sel := 0) (aux := 0) (imm := imm) (by simp)]
      exact decodeCommand_encode (.prepare v imm) rfl rest
    case process =>
      rw [ofNat_header (op := 0x04) (sel := k) (aux := activeField sc) (imm := imm)
        (by simp [activeField_toNat])]
      exact decodeCommand_encode (.process imm sc k) rfl rest
  · intro stc bc word
    exact ⟨
      decodeMicro_of_encode rfl (encodeStream_ofNat 0x80 st c),
      decodeMicro_of_encode rfl (encodePlain_ofNat 0x81),
      decodeMicro_of_encode rfl (encodeStream_ofNat 0x82 st c),
      decodeMicro_of_encode rfl (encodePlain_ofNat 0x83),
      decodeMicro_of_encode rfl (encodePlain_ofNat 0x88),
      decodeMicro_of_encode rfl (encodeStream_ofNat 0x90 st c),
      decodeMicro_of_encode rfl (encodeStream_ofNat 0x91 st c),
      decodeMicro_of_encode rfl (encodeStream_ofNat 0x92 st c),
      decodeMicro_of_encode rfl (encodeStream_ofNat 0x93 st c),
      decodeMicro_of_encode rfl (encodeBand_ofNat 0xA0 b),
      decodeMicro_of_encode rfl (encodeBand_ofNat 0xA1 b),
      decodeMicro_of_encode rfl (encodeBand_ofNat 0xA2 b),
      decodeMicro_of_encode rfl (header_band_chan_ofNat 0xA3 b c),
      decodeMicro_of_encode rfl (encodeChan_ofNat 0xA4 c),
      decodeMicro_of_encode rfl (encodeChan_ofNat 0xA5 c),
      decodeMicro_of_encode rfl (encodeChan_ofNat 0xB0 c),
      decodeMicro_of_encode rfl (encodeChan_ofNat 0xB1 c),
      decodeMicro_of_encode rfl (encodeChan_ofNat 0xB2 c),
      decodeMicro_of_encode rfl (encodeChan_ofNat 0xB3 c),
      decodeMicro_of_encode rfl (encodeChan_ofNat 0xB4 c),
      decodeMicro_of_encode rfl (encodeChan_ofNat 0xB5 c),
      decodeMicro_of_encode rfl (encodePlain_ofNat 0xB6),
      decodeMicro_of_encode rfl (encodePlain_ofNat 0xC0),
      decodeMicro_of_encode rfl (encodePlain_ofNat 0xC1),
      decodeMicro_of_encode rfl (encodePlain_ofNat 0xC2),
      decodeMicro_of_encode rfl (encodePlain_ofNat 0xC3)⟩

/-! ### Illegal headers -/

theorem highBits_eq_zero_iff (aux : BitVec 4) : aux.extractLsb' 1 3 = 0 ↔ aux.toNat < 2 := by
  revert aux
  decide

/-- The illegal headers of 30_encoding.md R65, by the numbers in their fields. -/
theorem not_commandHeader_iff {w : Word} :
    let op := w.toNat / 2 ^ 24
    let sel := w.toNat / 2 ^ 20 % 16
    let aux := w.toNat / 2 ^ 16 % 16
    let imm := w.toNat % 2 ^ 16
    ¬ CommandHeader w ↔
      4 < op ∨ ((op = 0 ∨ op = 2) ∧ (sel ≠ 0 ∨ aux ≠ 0 ∨ imm ≠ 0)) ∨
        (op = 1 ∧ (sel ≠ 0 ∨ aux ≠ 0)) ∨ (op = 3 ∧ (5 < sel ∨ aux ≠ 0 ∨ imm ≠ 0)) ∨
        (op = 4 ∧ 2 ≤ aux) := by
  intro op sel aux imm
  have accepted : CommandHeader w ↔
      ((op = 0 ∨ op = 2) ∧ sel = 0 ∧ aux = 0 ∧ imm = 0) ∨ (op = 1 ∧ sel = 0 ∧ aux = 0) ∨
        (op = 3 ∧ sel ≤ 5 ∧ aux = 0 ∧ imm = 0) ∨ (op = 4 ∧ aux < 2) := by
    rw [CommandHeader, highBits_eq_zero_iff]
    simp only [← BitVec.toNat_inj, BitVec.le_def, opField_toNat, selField_toNat, auxField_toNat,
      immField_toNat]
    exact Iff.rfl
  rw [accepted]
  clear_value op sel aux imm
  omega

end Sys2Proof

namespace Sys2Proof.Machine

/-- An illegal header is consumed as one word and raises `EV_ILLCMD` (30_encoding.md R65). -/
theorem step_illegal {s : State} {why : Reject} {rest : List Word} (driver : s.driverNext)
    (queue : s.issue = []) (block : s.blkRem = 0) (port : decodeCommand s.cmdIn = .illegal why rest) :
    step s = .next { s.turnTaken with cmdIn := rest, events := s.events ||| Event.illCmd.mask } := by
  have port' : decodeCommand s.turnTaken.cmdIn = .illegal why rest := port
  rw [step_command driver queue block, runCommand, port']
  rfl

/-- Settles O4: the decoder answers illegal at every header it does not accept, and at no other. -/
theorem illegalHeaderIsConsumedAndFlagged : Obligations.IllegalHeaderIsConsumedAndFlagged := by
  intro s w ws driver queue block port op sel aux imm illegal
  refine ⟨fun bad => ?_, fun good why rest h => ?_⟩
  · obtain ⟨why, h⟩ := decodeCommand_of_not_commandHeader (not_commandHeader_iff.2 bad) ws
    exact step_illegal driver queue block (port ▸ h)
  · have accepted : CommandHeader w := not_not.1 (mt not_commandHeader_iff.1 good)
    obtain waits | ⟨i, rest', -, taken⟩ := decodeCommand_of_commandHeader accepted ws
    · cases h.symm.trans waits
    · cases h.symm.trans taken

/-- Settles O7: the two answers of the data path's decoder. -/
theorem stepRunsAQueuedMicroOperation : Obligations.StepRunsAQueuedMicroOperation := by
  intro s w ws driver queue
  rw [step_micro driver queue, runMicro]
  exact ⟨fun i h => by rw [h], fun why h => by rw [h]⟩

end Sys2Proof.Machine
end

section
/-! The lifecycle commands (40_lifecycle.md R80 to R83): what decodes to each, what each leaves, and what
two of them in a row leave. -/

-- No thread of its own for each proof, as in the first section of the proofs.
set_option deprecated.oldSectionVars true

namespace Sys2Proof.Machine

/-! ### `NOP` (40_lifecycle.md R80) -/

/-- `NOP` is the one legal header with operation code 0: its fields determine the word. -/
theorem decodeCommand_op_zero {w : Word} (op : opField w = 0x00) (nonzero : w ≠ 0) (ws : List Word) :
    decodeCommand (w :: ws) = .illegal .nonzeroField ws := by
  have field : ¬ (selField w = 0 ∧ auxField w = 0 ∧ immField w = 0) :=
    fun ⟨sel, aux, imm⟩ => nonzero (header_of op sel aux imm).symm
  simp only [decodeCommand, if_pos op, if_neg field]

/-- Settles O10: the meaning of `NOP`, its encoding, and the other headers with its operation code. -/
theorem nopChangesNothing : Obligations.NopChangesNothing := by
  refine ⟨fun s => rfl, decodeCommand_encode .nop rfl, fun w ws op nonzero => ?_⟩
  exact decodeCommand_op_zero (BitVec.eq_of_toNat_eq ((opField_toNat w).trans op)) nonzero ws

/-! ### What `PREPARE` and `RELEASE` leave (40_lifecycle.md R81, R82) -/

/-- Each of the two completes in every state. -/
theorem exec_of_clearsBuffers {i : Instr} (h : clearsBuffers i = true) (s : State) :
    exec i s = .next (after i s) := by
  cases i with
  | prepare | release => rfl
  | _ => cases h

theorem clearBuffers_element (s : State) (sp : Space) (k : Nat) : (clearBuffers s).element sp k = 0 :=
  zeroed_read _

theorem clearBuffers_ring (s : State) (st : Stream) (c : Chan) :
    (clearBuffers s).ring st c = { wr := 0, cnt := 0 } := ring_of_cleared rfl st c

theorem clearBuffers_band (s : State) (b : Band) :
    (clearBuffers s).band b = { bin := 0, hw := 0, start := 0, stop := 0 } := by
  cases b <;> rfl

theorem decodeCommand_prepare (sr : Word) (mb : BitVec 16) (rest : List Word) :
    decodeCommand (BitVec.ofNat 32 (0x01000000 + mb.toNat) :: sr :: rest) =
      .taken (.prepare sr mb) rest := by
  obtain ⟨-, prepare, -⟩ := instructionPatterns.1 sr mb false 0 rest
  exact prepare

/-- Settles O11: the encoding of `PREPARE`, then what it leaves; the registers it sets to constants or
to its operands, and the frame, are read off that state. -/
theorem prepareInitialisesEveryBuffer : Obligations.PrepareInitialisesEveryBuffer := by
  intro s sr mb
  have completes := exec_of_clearsBuffers (i := .prepare sr mb) rfl s
  exact ⟨decodeCommand_prepare sr mb, after (.prepare sr mb) s, completes, rfl, rfl, rfl, rfl,
    clearBuffers_element s, clearBuffers_ring s, rfl, rfl, rfl, clearBuffers_band s, rfl, rfl,
    zeroed_wf, rfl, rfl⟩

/-- Settles O12: `RELEASE` clears by the same lemmas, and its frame holds the sample rate and the
maximum block size. -/
theorem releaseClearsAndKeepsTheSampleRate : Obligations.ReleaseClearsAndKeepsTheSampleRate := by
  intro s
  have completes := exec_of_clearsBuffers (i := .release) rfl s
  exact ⟨decodeCommand_encode .release rfl, after .release s, completes, rfl, rfl,
    clearBuffers_element s, clearBuffers_ring s, rfl, rfl, rfl, clearBuffers_band s, rfl, rfl,
    zeroed_wf, rfl, rfl⟩

/-! ### Two lifecycle commands in a row (40_lifecycle.md R83) -/

theorem execAll_cons {i : Instr} {s t : State} (h : exec i s = .next t) (is : List Instr) :
    execAll (i :: is) s = execAll is t := by rw [execAll, h]

@[simp] theorem execAll_singleton (i : Instr) (s : State) : execAll [i] s = exec i s := by
  rw [execAll]
  cases exec i s <;> rfl

/-- `PREPARE` reads nothing that a lifecycle command writes: what came before it is lost. -/
theorem after_prepare_of_clearsBuffers {i : Instr} (h : clearsBuffers i = true) (sr : Word)
    (mb : BitVec 16) (s : State) : after (.prepare sr mb) (after i s) = after (.prepare sr mb) s := by
  cases i with
  | prepare | release => rfl
  | _ => cases h

theorem after_release_release (s : State) : after .release (after .release s) = after .release s := rfl

theorem execAll_prepare_of_clearsBuffers {i : Instr} (h : clearsBuffers i = true) (sr : Word)
    (mb : BitVec 16) (s : State) :
    execAll [i, .prepare sr mb] s = exec (.prepare sr mb) s := by
  have prepare := exec_of_clearsBuffers (i := .prepare sr mb) rfl
  rw [execAll_cons (exec_of_clearsBuffers h s), execAll_singleton, prepare, prepare,
    after_prepare_of_clearsBuffers h]

/-- Settles O13: `PREPARE` after either command, and `RELEASE` after itself. -/
theorem lifecycleCommandsAreIdempotent : Obligations.LifecycleCommandsAreIdempotent := by
  intro s sr sr' mb mb'
  refine ⟨⟨after (.prepare sr mb) s, rfl, ?prepare⟩, ⟨after .release s, rfl, ?release⟩, ?either, ?once⟩
  case prepare =>
    rw [exec_of_clearsBuffers rfl, after_prepare_of_clearsBuffers rfl]
  case release => rw [exec_of_clearsBuffers rfl, after_release_release]
  case either =>
    rw [execAll_prepare_of_clearsBuffers rfl, execAll_prepare_of_clearsBuffers rfl]
  case once => exact execAll_prepare_of_clearsBuffers rfl sr mb s

end Sys2Proof.Machine
end

section
/-! Configuration (41_config.md R90 to R93): what each `SETP` stores, the laws of `clamp`, the bounds of
the snapshot, the whole effect of `SNAP`, and that nothing else reads the parameters. -/

-- No thread of its own for each proof, as in the first section of the proofs.
set_option deprecated.oldSectionVars true

namespace Sys2Proof.Machine

/-! ### `SETP` (41_config.md R90) -/

theorem setp_header {p : Nat} (h : p < 16) :
    BitVec.ofNat 32 (0x03000000 + p * 2 ^ 20) = header 0x03 (BitVec.ofNat 4 p) 0 0 := by
  have field : (BitVec.ofNat 4 p).toNat = p := Nat.mod_eq_of_lt h
  apply ofNat_header
  simp [field]

theorem decodeCommand_setp_illegal {p : BitVec 4} (h : 5 < p) (ws : List Word) :
    decodeCommand (header 0x03 p 0 0 :: ws) = .illegal .parameterId ws := by
  have illegal : ¬ p ≤ 5#4 := BitVec.not_le.2 h
  simp [decodeCommand, illegal]

/-- Settles O15: the six legal param ids by their rows, and one above 5 is rejected before the other fields
are read. -/
theorem setpStoresTheRawValue : Obligations.SetpStoresTheRawValue := by
  intro s v
  refine ⟨fun rest => ?legal, fun p rest above small => ?illegal, rfl, rfl, rfl, rfl, rfl, rfl⟩
  case legal =>
    have headers (p : Nat) (h : p ∈ List.range 6) :
        decodeCommand (BitVec.ofNat 32 (0x03000000 + p * 2 ^ 20) :: v :: rest) =
          decodeCommand (header 0x03 (BitVec.ofNat 4 p) 0 0 :: v :: rest) := by
      rw [setp_header ((List.mem_range.1 h).trans (by decide))]
    rw [List.map_congr_left headers]
    simp [decodeCommand, setpOf, List.range_succ]
  case illegal =>
    have field : (BitVec.ofNat 4 p).toNat = p := Nat.mod_eq_of_lt small
    rw [setp_header small]
    exact decodeCommand_setp_illegal (BitVec.lt_def.2 (field.symm ▸ above)) _

end Sys2Proof.Machine

namespace Sys2Proof

open Machine

/-! ### The order of a lawful record (00_scope.md R8) -/

section

variable {N : Numerics} {a b c : Word}

/-- Values that compare in any way are no NaN. -/
theorem Numerics.Lawful.not_nan (law : N.Lawful)
    (h : N.lt a b = true ∨ N.le a b = true ∨ N.eq a b = true) :
    N.isNaN a = false ∧ N.isNaN b = false := by
  by_contra nan
  rw [not_and_or, Bool.not_eq_false, Bool.not_eq_false] at nan
  obtain ⟨lt, le, eq⟩ := law.nanCompares a b nan
  simp [lt, le, eq] at h

theorem Numerics.Lawful.lt_eq_not_le (law : N.Lawful) (ha : N.isNaN a = false)
    (hb : N.isNaN b = false) : N.lt a b = !N.le b a := (law.order a b ha hb).1

theorem Numerics.Lawful.not_lt_of_le (law : N.Lawful) (h : N.le a b = true) : N.lt b a = false := by
  obtain ⟨ha, hb⟩ := law.not_nan (.inr (.inl h))
  rw [law.lt_eq_not_le hb ha, h, Bool.not_true]

theorem Numerics.Lawful.not_le_of_lt (law : N.Lawful) (h : N.lt a b = true) : N.le b a = false := by
  obtain ⟨ha, hb⟩ := law.not_nan (.inl h)
  rw [← Bool.not_eq_true', ← law.lt_eq_not_le ha hb, h]

theorem Numerics.Lawful.le_of_lt (law : N.Lawful) (h : N.lt a b = true) : N.le a b = true := by
  obtain ⟨ha, hb⟩ := law.not_nan (.inl h)
  obtain ⟨-, -, total⟩ := law.order a b ha hb
  exact total.resolve_right (by simp [law.not_le_of_lt h])

theorem Numerics.Lawful.le_refl (law : N.Lawful) (ha : N.isNaN a = false) : N.le a a = true := by
  obtain ⟨-, -, total⟩ := law.order a a ha ha
  exact total.elim id id

theorem Numerics.Lawful.le_of_not_lt (law : N.Lawful) (ha : N.isNaN a = false)
    (hb : N.isNaN b = false) (h : ¬ N.lt b a = true) : N.le a b = true := by
  simpa [law.lt_eq_not_le hb ha] using h

theorem Numerics.Lawful.lt_of_lt_of_le (law : N.Lawful) (hab : N.lt a b = true)
    (hbc : N.le b c = true) : N.lt a c = true := by
  obtain ⟨ha, -⟩ := law.not_nan (.inl hab)
  obtain ⟨-, hc⟩ := law.not_nan (.inr (.inl hbc))
  have not_le : N.le c a = false := by
    by_contra hca
    have hba := law.transitive b c a hbc (by simpa using hca)
    simp [law.not_le_of_lt hab] at hba
  rw [law.lt_eq_not_le ha hc, not_le, Bool.not_false]

theorem Numerics.Lawful.le_of_eq (law : N.Lawful) (h : N.eq a b = true) :
    N.le a b = true ∧ N.le b a = true := by
  obtain ⟨ha, hb⟩ := law.not_nan (.inr (.inr h))
  obtain ⟨-, eq, -⟩ := law.order a b ha hb
  simpa [eq] using h

end

end Sys2Proof

namespace Sys2Proof.Machine

/-! ### The clamp function (41_config.md R92) -/

section

variable {N : Numerics} {v lo hi : Word}

/-- The second test does not act on a raised value, with the bounds in order. -/
theorem clamp_eq_lo (law : N.Lawful) (bounds : N.le lo hi = true) (h : N.le lo v = false) :
    clamp N v lo hi = lo := by
  have raised : raiseTo N v lo = lo := if_neg (by simp [h])
  rw [clamp, raised, law.not_lt_of_le bounds]
  exact if_neg Bool.false_ne_true

theorem clamp_eq_self (law : N.Lawful) (low : N.le lo v = true) (high : N.le v hi = true) :
    clamp N v lo hi = v := by
  have kept : raiseTo N v lo = v := if_pos low
  rw [clamp, kept, law.not_lt_of_le high]
  exact if_neg Bool.false_ne_true

theorem clamp_eq_hi_of_lt_raised (h : N.lt hi (raiseTo N v lo) = true) : clamp N v lo hi = hi := if_pos h

theorem clamp_eq_hi_of_lt (law : N.Lawful) (bounds : N.le lo hi = true) (h : N.lt hi v = true) :
    clamp N v lo hi = hi := by
  have kept : raiseTo N v lo = v := if_pos (law.transitive lo hi v bounds (law.le_of_lt h))
  exact clamp_eq_hi_of_lt_raised (kept.symm ▸ h)

/-- With the bounds inverted the raised value is the lower bound or above it, and so above the upper. -/
theorem clamp_eq_hi_of_inverted (law : N.Lawful) (inverted : N.lt hi lo = true) :
    clamp N v lo hi = hi := by
  apply clamp_eq_hi_of_lt_raised
  unfold raiseTo
  split
  · next low => exact law.lt_of_lt_of_le inverted low
  · exact inverted

/-- Whatever the value is, a NaN too, the result lies between bounds that are in order. -/
theorem clamp_between (law : N.Lawful) (bounds : N.le lo hi = true) (v : Word) :
    N.le lo (clamp N v lo hi) = true ∧ N.le (clamp N v lo hi) hi = true := by
  obtain ⟨hlo, hhi⟩ := law.not_nan (.inr (.inl bounds))
  cases low : N.le lo v with
  | false =>
    rw [clamp_eq_lo law bounds low]
    exact ⟨law.le_refl hlo, bounds⟩
  | true =>
    cases high : N.lt hi v with
    | true =>
      rw [clamp_eq_hi_of_lt law bounds high]
      exact ⟨bounds, law.le_refl hhi⟩
    | false =>
      obtain ⟨-, hv⟩ := law.not_nan (.inr (.inl low))
      have high : N.le v hi = true := law.le_of_not_lt hv hhi (by simp [high])
      rw [clamp_eq_self law low high]
      exact ⟨low, high⟩

theorem clamp_isFinite (law : N.Lawful) (hlo : N.isFinite lo = true) (hhi : N.isFinite hi = true)
    (v : Word) : N.isFinite (clamp N v lo hi) = true := by
  cases inverted : N.lt hi lo with
  | true => rwa [clamp_eq_hi_of_inverted law inverted]
  | false =>
    have bounds : N.le lo hi = true :=
      law.le_of_not_lt (law.finite lo hlo) (law.finite hi hhi) (by simp [inverted])
    obtain ⟨low, high⟩ := clamp_between law bounds v
    exact law.finiteBetween lo hi _ hlo hhi low high

/-- `clamp` changes a value that its result does not compare with both ways. -/
theorem clampChanges_of_not_le (law : N.Lawful)
    (h : N.le (clamp N v lo hi) v = false ∨ N.le v (clamp N v lo hi) = false) :
    clampChanges N v lo hi = true := by
  rw [clampChanges, Bool.not_eq_true']
  by_contra eq
  obtain ⟨le, ge⟩ := law.le_of_eq (by simpa using eq)
  simp [le, ge] at h

end

/-- Settles O16: each clause by its lemma about `clamp`, over the lawful record of the construction. -/
theorem clampLaws : Obligations.ClampLaws := by
  intro g v lo hi N
  have law : N.Lawful := numericsMeetTheLaws g
  have raised (bounds : N.le lo hi = true) (h : N.le lo v = false) :
      clamp N v lo hi = lo ∧ clampChanges N v lo hi = true := by
    have eq := clamp_eq_lo law bounds h
    exact ⟨eq, clampChanges_of_not_le law (.inl (eq.symm ▸ h))⟩
  refine ⟨rfl, rfl, fun _ _ => ⟨?inside, ?below, ?nan, ?above, ?inverted, ?finite⟩⟩
  case inside =>
    intro low high
    have eq := clamp_eq_self law low high
    obtain ⟨-, hv⟩ := law.not_nan (.inr (.inl low))
    exact ⟨eq, by rw [clampChanges, eq]; exact hv⟩
  case below => exact fun bounds below => raised bounds (law.not_le_of_lt below)
  case nan =>
    intro bounds nan
    obtain ⟨-, le, -⟩ := law.nanCompares lo v (.inr nan)
    exact raised bounds le
  case above =>
    intro bounds above
    have eq := clamp_eq_hi_of_lt law bounds above
    exact ⟨eq, clampChanges_of_not_le law (.inr (eq.symm ▸ law.not_le_of_lt above))⟩
  case inverted => exact clamp_eq_hi_of_inverted law
  case finite => exact fun hlo hhi => clamp_isFinite law hlo hhi v

/-! ### The bounds of the snapshot (41_config.md R93) -/

@[simp] theorem snapAll_snap (s : State) : (snapAll s).snap = snapshotOf s := by
  simp [snapAll, takeSnapshot]

theorem snapAll_snapMix_between (s : State) (b : Band) :
    s.cfg.numerics.le Numerics.zero ((snapAll s).snapMix b) = true ∧
      s.cfg.numerics.le ((snapAll s).snapMix b) s.cfg.numerics.one = true := by
  have law : s.cfg.numerics.Lawful := numericsMeetTheLaws s.cfg
  obtain ⟨-, positive, -⟩ := law.constants
  cases b <;> exact clamp_between law (law.le_of_lt positive) _

theorem snapAll_snapCut_between {s : State} (bounds : s.cfg.numerics.le s.twenty s.centreMax = true)
    (b : Band) :
    s.cfg.numerics.le s.twenty ((snapAll s).snapCut b) = true ∧
      s.cfg.numerics.le ((snapAll s).snapCut b) s.centreMax = true := by
  cases b <;> exact clamp_between (numericsMeetTheLaws s.cfg) bounds _

theorem snapAll_blen_between {s : State} {low high : Word} (hlow : blenLow s.cfg = low)
    (hhigh : blenHigh s.cfg = high) (bounds : s.cfg.numerics.le low high = true) :
    s.cfg.numerics.le low (snapAll s).snap.blen = true ∧
      s.cfg.numerics.le (snapAll s).snap.blen high = true := by
  subst hlow hhigh
  rw [snapAll_snap]
  exact clamp_between (numericsMeetTheLaws s.cfg) bounds _

theorem binary32_blen_bounds {g : Cfg} (h : g.num = .binary32) :
    g.numerics.le Numerics.zero g.numerics.two = true ∧
      g.numerics.le (g.numerics.ofReal (.ratio 20 1)) (g.numerics.ofReal (.ratio 2000 1)) = true := by
  have record := numerics_eq g
  rw [baseNumerics_binary32 h] at record
  have le : g.numerics.le = F32.le := congrArg Numerics.le record
  have two : g.numerics.two = F32.two := congrArg Numerics.two record
  have ofReal : g.numerics.ofReal = F32.ofReal := congrArg Numerics.ofReal record
  rw [le, two, ofReal]
  decide

/-- Settles O18: each of the five clamps has its result between its bounds. -/
theorem snapshotLiesInItsBounds : Obligations.SnapshotLiesInItsBounds := by
  intro s
  refine ⟨snapAll s, rfl, snapAll_snapMix_between s, fun wpol => ?_, fun wpol => ?_,
    snapAll_snapCut_between, binary32_blen_bounds⟩
  · exact snapAll_blen_between (by rw [blenLow, wpol]) (by rw [blenHigh, wpol])
  · exact snapAll_blen_between (by rw [blenLow, wpol]) (by rw [blenHigh, wpol])

/-! ### The derivation of a band (44_exchanger.md R126 to R128) -/

theorem rawHalfWidth_eq (s : State) (b : Band) :
    rawHalfWidth s b =
      if s.cfg.wpol = .ratio ∧ (s.cfg.numerics.isZero s.snap.blen && s.srValid) = true then 0
      else binIndex s (s.cfg.numerics.div
        (if s.cfg.wpol = .ratio then s.cfg.numerics.mul s.snap.blen (s.snapCut b) else s.snap.blen)
        s.cfg.numerics.two) := by
  unfold rawHalfWidth State.ratioZero bandWidth
  cases s.cfg.wpol <;> simp

/-- Whether a derivation that left these bands raised the half-width or clamped the interval of one: the
cause of `EV_EDGE` (44_exchanger.md R127, R128). -/
def State.edge (s : State) (b : Band) : Bool :=
  decide (rawHalfWidth s b < 1) || decide ((s.band b).low < 0) ||
    decide ((s.cfg.n / 2 : Nat) < (s.band b).high)

theorem State.edge_iff (s : State) (b : Band) :
    s.edge b = true ↔
      rawHalfWidth s b < 1 ∨ (s.band b).low < 0 ∨ ((s.cfg.n / 2 : Nat) : Int) < (s.band b).high := by
  simp only [State.edge, Bool.or_eq_true, decide_eq_true_eq, or_assoc]

/-- What the derivation of a band reads. -/
def State.bandInputs (s : State) : Cfg × Word × Snapshot := (s.cfg, s.sr, s.snap)

section

variable {s t : State}

theorem bandInputs_eq_iff :
    t.bandInputs = s.bandInputs ↔ t.cfg = s.cfg ∧ t.sr = s.sr ∧ t.snap = s.snap := by
  simp only [State.bandInputs, Prod.mk.injEq]

theorem binIndex_congr (cfg : t.cfg = s.cfg) (sr : t.sr = s.sr) (f : Word) :
    binIndex t f = binIndex s f := by
  cases s
  cases t
  subst cfg sr
  rfl

theorem snapCut_congr (h : t.bandInputs = s.bandInputs) (b : Band) : t.snapCut b = s.snapCut b := by
  obtain ⟨-, -, snap⟩ := bandInputs_eq_iff.1 h
  cases b <;> simp only [State.snapCut, snap]

theorem rawHalfWidth_congr (h : t.bandInputs = s.bandInputs) (b : Band) :
    rawHalfWidth t b = rawHalfWidth s b := by
  obtain ⟨cfg, sr, snap⟩ := bandInputs_eq_iff.1 h
  cases s
  cases t
  subst cfg sr snap
  cases b <;> rfl

theorem edge_congr (h : t.bandInputs = s.bandInputs) {b : Band} (band : t.band b = s.band b) :
    t.edge b = s.edge b := by
  obtain ⟨cfg, -⟩ := bandInputs_eq_iff.1 h
  rw [State.edge, State.edge, rawHalfWidth_congr h, band, cfg]

end

@[simp] theorem bxBin_bandInputs (b : Band) (s : State) : (bxBin b s).bandInputs = s.bandInputs := by
  simp [State.bandInputs]

@[simp] theorem deriveBand_bandInputs (b : Band) (s : State) :
    (deriveBand b s).bandInputs = s.bandInputs := by simp [State.bandInputs]

/-- A band with its index and half-width derived, before its interval is. -/
def bandCentre (s : State) (b : Band) : BandRegs :=
  { s.band b with
    bin := register (binIndex s (s.snapCut b))
    hw := register (max 1 (rawHalfWidth s b)) }

theorem deriveBand_band (b : Band) (s : State) :
    (deriveBand b s).band b =
      { bandCentre s b with
        start := register (max (bandCentre s b).low 0)
        stop := register (min (bandCentre s b).high (s.cfg.n / 2 : Nat)) } := by
  have centre : (bxHalfw b (bxBin b s)).band b = bandCentre s b := by
    rw [bxHalfw_band, bxBin_band, rawHalfWidth_congr (bxBin_bandInputs b s), bandCentre]
  rw [deriveBand, bxInterval_band, centre, bxHalfw_cfg, bxBin_cfg]

theorem deriveBand_band_other {b b' : Band} (h : b' ≠ b) (s : State) :
    (deriveBand b s).band b' = s.band b' := by
  rw [deriveBand, bxInterval_band_other h, bxHalfw_band_other h, bxBin_band_other h]

/-- The registers hold the integers of the derivation, none of which leaves the signed range. -/
theorem deriveBand_toInt (b : Band) {s : State} (legal : s.cfg.legal = true) :
    let r := (deriveBand b s).band b
    r.bin.toInt = binIndex s (s.snapCut b) ∧ r.hw.toInt = max 1 (rawHalfWidth s b) ∧
      r.start.toInt = max r.low 0 ∧ r.stop.toInt = min r.high (s.cfg.n / 2 : Nat) := by
  have hw : (bandCentre s b).hw.toInt = max 1 (rawHalfWidth s b) := hw_toInt s b
  have nonneg : 0 ≤ (bandCentre s b).hw.toInt := hw ▸ zero_le_one.trans (le_max_left 1 _)
  rw [deriveBand_band]
  exact ⟨bin_toInt s _, hw, start_toInt nonneg, stop_toInt nonneg legal⟩

theorem raiseIf_events_or (cause : Bool) (e : Event) (s : State) :
    (State.raiseIf cause e s).events = s.events ||| if cause then e.mask else 0 := by
  cases cause
  · exact BitVec.or_zero.symm
  · rfl

/-- An event is raised for either of two causes. -/
theorem or_mask_or_mask (p q : Bool) (e m : BitVec 5) :
    e ||| (if p then m else 0) ||| (if q then m else 0) = e ||| if p || q then m else 0 := by
  cases p <;> cases q <;> simp [BitVec.or_assoc]

theorem deriveBand_events (b : Band) (s : State) :
    (deriveBand b s).events =
      s.events ||| if (deriveBand b s).edge b then Event.edge.mask else 0 := by
  have half : rawHalfWidth (deriveBand b s) b = rawHalfWidth (bxBin b s) b :=
    rawHalfWidth_congr (by simp) b
  have low : ((deriveBand b s).band b).low = ((bxHalfw b (bxBin b s)).band b).low := by
    rw [deriveBand, bxInterval_band]
    rfl
  have high : ((deriveBand b s).band b).high = ((bxHalfw b (bxBin b s)).band b).high := by
    rw [deriveBand, bxInterval_band]
    rfl
  rw [State.edge, half, low, high, deriveBand_cfg, Bool.or_assoc, ← or_mask_or_mask]
  rw [deriveBand, bxInterval, raiseIf_events_or, setBand_events, bxHalfw_cfg, bxBin_cfg, bxHalfw,
    raiseIf_events_or, setBand_events, bxBin_events]

/-! ### The whole effect of `SNAP` (41_config.md R93) -/

/-- Each band is derived from the snapshot alone, whatever was derived before it. -/
theorem snapAll_band (s : State) (b : Band) :
    ∃ u : State, (snapAll s).bandInputs = u.bandInputs ∧
      (snapAll s).band b = (deriveBand b u).band b := by
  cases b with
  | one => exact ⟨takeSnapshot s, by simp [snapAll], deriveBand_band_other (by decide) _⟩
  | two => exact ⟨deriveBand .one (takeSnapshot s), by simp [snapAll], rfl⟩

/-- The registers of both bands hold what the derivation from the snapshot gives. -/
theorem snapAll_toInt {s : State} (legal : s.cfg.legal = true) (b : Band) :
    let r := (snapAll s).band b
    r.bin.toInt = binIndex (snapAll s) ((snapAll s).snapCut b) ∧
      r.hw.toInt = max 1 (rawHalfWidth (snapAll s) b) ∧ r.start.toInt = max r.low 0 ∧
      r.stop.toInt = min r.high (s.cfg.n / 2 : Nat) := by
  obtain ⟨u, inputs, band⟩ := snapAll_band s b
  obtain ⟨cfg, sr, -⟩ := bandInputs_eq_iff.1 inputs
  rw [band, binIndex_congr cfg sr, snapCut_congr inputs, rawHalfWidth_congr inputs, ← snapAll_cfg s,
    cfg]
  exact deriveBand_toInt b (by rwa [← cfg, snapAll_cfg])

theorem snapAll_events (s : State) :
    (snapAll s).events =
      s.events ||| (if snapshotClamps s then Event.clamp.mask else 0)
        ||| (if (snapAll s).edge .one || (snapAll s).edge .two then Event.edge.mask else 0) := by
  have first : (snapAll s).edge .one = (deriveBand .one (takeSnapshot s)).edge .one :=
    edge_congr (deriveBand_bandInputs .two _) (deriveBand_band_other (by decide) _)
  have second : (snapAll s).events =
      (deriveBand .one (takeSnapshot s)).events
        ||| if (snapAll s).edge .two then Event.edge.mask else 0 := deriveBand_events .two _
  rw [second, deriveBand_events, ← first, or_mask_or_mask, takeSnapshot, raiseIf_events_or]

/-- Every other field is kept, each by its own field law. -/
theorem snapAll_frame (s : State) :
    snapAll s = { s with
      snap := (snapAll s).snap, band1 := (snapAll s).band1, band2 := (snapAll s).band2,
      events := (snapAll s).events } := by
  calc snapAll s = { snapAll s with cfg := (snapAll s).cfg } := rfl
    _ = _ := by simp

theorem blenLow_eq (g : Cfg) :
    blenLow g = if g.wpol = .ratio then Numerics.zero else g.numerics.ofReal (.ratio 20 1) := by
  unfold blenLow
  cases g.wpol <;> rfl

theorem blenHigh_eq (g : Cfg) :
    blenHigh g = if g.wpol = .ratio then g.numerics.two else g.numerics.ofReal (.ratio 2000 1) := by
  unfold blenHigh
  cases g.wpol <;> rfl

theorem flagBit_eq_one (b : Bool) : flagBit b = 1 ↔ b = true := by
  cases b <;> decide

theorem snapshotClamps_iff (s : State) :
    snapshotClamps s = true ↔
      clampChanges s.cfg.numerics s.params.cut1 s.twenty s.centreMax = true ∨
      clampChanges s.cfg.numerics s.params.cut2 s.twenty s.centreMax = true ∨
      clampChanges s.cfg.numerics s.params.blen (blenLow s.cfg) (blenHigh s.cfg) = true ∨
      clampChanges s.cfg.numerics s.params.mix1 Numerics.zero s.cfg.numerics.one = true ∨
      clampChanges s.cfg.numerics s.params.mix2 Numerics.zero s.cfg.numerics.one = true := by
  simp only [snapshotClamps, Bool.or_eq_true, or_assoc]

/-- Settles O17: the snapshot by definition, the bands by their derivation, and the two events by their
causes. -/
theorem snapTakesOneConsistentSnapshot : Obligations.SnapTakesOneConsistentSnapshot := by
  intro s legal
  refine ⟨snapAll s, rfl, ?_⟩
  intro N real fmax low high valid index width h0 top edge
  have snap := snapAll_snap s
  have low_eq : blenLow s.cfg = low := blenLow_eq s.cfg
  have high_eq : blenHigh s.cfg = high := blenHigh_eq s.cfg
  have index_eq (f : Word) : binIndex (snapAll s) f = index f :=
    binIndex_congr (snapAll_cfg s) (snapAll_sr s) f
  have h0_eq (b : Band) : rawHalfWidth (snapAll s) b = h0 b := by
    rw [rawHalfWidth_eq, index_eq, State.srValid, snapAll_cfg, snapAll_sr]
  have edge_iff (b : Band) : (snapAll s).edge b = true ↔ edge b := by
    rw [State.edge_iff, h0_eq, snapAll_cfg]
    rfl
  refine ⟨?cut1, ?cut2, ?blen, ?xmode, ?mix1, ?mix2, fun b => ?band, ?events, snapAll_frame s⟩
  case cut1 => exact congrArg Snapshot.cut1 snap
  case cut2 => exact congrArg Snapshot.cut2 snap
  case blen =>
    rw [← low_eq, ← high_eq]
    exact congrArg Snapshot.blen snap
  case xmode => rw [snap]; exact flagBit_eq_one _
  case band =>
    obtain ⟨bin, hw, interval⟩ := snapAll_toInt legal b
    rw [index_eq] at bin
    rw [h0_eq] at hw
    exact ⟨bin, hw, interval⟩
  case events =>
    have edges : ((snapAll s).edge .one || (snapAll s).edge .two) = true ↔ edge .one ∨ edge .two := by
      rw [Bool.or_eq_true, edge_iff, edge_iff]
    rw [snapAll_events, ← low_eq, ← high_eq]
    exact congrArg₂ (· ||| ·) (congrArg _ (if_congr (snapshotClamps_iff s) rfl rfl))
      (if_congr edges rfl rfl)
  case mix1 => exact congrArg Snapshot.mix1 snap
  case mix2 => exact congrArg Snapshot.mix2 snap

/-! ### What reads the parameters (41_config.md R93, 20_memory.md R52) -/

/-- The state with other raw parameters. -/
def State.withParams (p : Params) (s : State) : State := { s with params := p }

/-- The outcome with other raw parameters in the state it leaves. -/
def outcomeWithParams (p : Params) : Host.Outcome State Fault Refusal → Host.Outcome State Fault Refusal
  | .next t => .next (t.withParams p)
  | .fault r => .fault r
  | .refused r => .refused r

section

variable {p : Params} {s : State}

theorem forChannels_withParams {f : Chan → State → State}
    (h : ∀ c t, f c (t.withParams p) = (f c t).withParams p) :
    forChannels f (s.withParams p) = (forChannels f s).withParams p := by
  have cfg : (s.withParams p).cfg = s.cfg := rfl
  rw [forChannels, forChannels, cfg]
  exact List.foldl_hom (State.withParams p) fun t c => h c t

theorem accConsume_withParams : accConsume (s.withParams p) = (accConsume s).withParams p := by
  unfold accConsume
  rw [forChannels_withParams (f := consumeRing .main) (fun _ _ => rfl),
    forChannels_withParams (f := consumeRing .side) (fun _ _ => rfl)]

theorem emit_withParams : emit (s.withParams p) = (emit s).withParams p := by
  unfold emit
  rw [forChannels_withParams (f := emitChannel) (fun _ _ => rfl)]
  rfl

theorem bypass_withParams : bypass (s.withParams p) = (bypass s).withParams p :=
  forChannels_withParams fun _ _ => rfl

theorem bxMixp_withParams (b : Band) : bxMixp b (s.withParams p) = (bxMixp b s).withParams p := by
  cases b <;> rfl

theorem mixSelected_withParams : mixSelected (s.withParams p) = (mixSelected s).withParams p := by
  unfold mixSelected
  rw [bxMixp_withParams, bxMixp_withParams, apply_ite (State.withParams p)]
  rfl

theorem exchange_withParams (c : Chan) :
    exchange c (s.withParams p) = (exchange c s).withParams p := by
  have loaded : loadCopies c (joinMarks c (s.withParams p)) =
      (loadCopies c (joinMarks c s)).withParams p := rfl
  rw [exchange, loaded, mixSelected_withParams]
  rfl

theorem markOla_withParams (c : Chan) (i : Nat) :
    State.markOla c i (s.withParams p) = (State.markOla c i s).withParams p := by
  unfold State.markOla
  rw [apply_ite (State.withParams p)]
  rfl

theorem olaAddAt_withParams (c : Chan) (k : Nat) :
    olaAddAt c (s.withParams p) k = (olaAddAt c s k).withParams p := by
  simp only [olaAddAt]
  rw [apply_ite (State.withParams p), ← markOla_withParams]
  rfl

theorem syOla_withParams (c : Chan) : syOla c (s.withParams p) = (syOla c s).withParams p := by
  have cfg : (s.withParams p).cfg = s.cfg := rfl
  rw [syOla, syOla, cfg]
  exact List.foldl_hom (State.withParams p) fun _ => olaAddAt_withParams c

theorem synthesize_withParams (c : Chan) :
    synthesize c (s.withParams p) = (synthesize c s).withParams p :=
  syOla_withParams (s := syNormwin c (syIrfft (sySymm (syRect c s)))) c

/-- A micro-operation on a channel that does not read the parameters, as an outcome. -/
theorem onChannel_withParams {c : Chan} {t u : State} (h : u = t.withParams p) :
    onChannel c (s.withParams p) u = outcomeWithParams p (onChannel c s t) := by
  subst h
  unfold onChannel
  rw [apply_ite (outcomeWithParams p)]
  rfl

/-- An instruction that neither stores a parameter nor takes a snapshot does the same whatever the
parameters hold. -/
theorem exec_withParams {i : Instr} (setp : setpValue i = none) (snap : i ≠ .snap)
    (cycle : i ≠ .drvCycle) (beat : i ≠ .drvBeat) :
    exec i (s.withParams p) = outcomeWithParams p (exec i s) := by
  cases i with
  | setpCut1 | setpCut2 | setpBlen | setpXmode | setpMix1 | setpMix2 => cases setp
  | snap => exact absurd rfl snap
  | drvCycle => exact absurd rfl cycle
  | drvBeat => exact absurd rfl beat
  | accWrite st c =>
    change execAccWrite st c _ = outcomeWithParams p (execAccWrite st c s)
    unfold execAccWrite
    rw [apply_ite (outcomeWithParams p), apply_ite (outcomeWithParams p)]
    rfl
  | accConsume => exact congrArg Host.Outcome.next accConsume_withParams
  | bxBin b | bxHalfw b | bxInterval b => cases b <;> rfl
  | bxMixp b c => exact onChannel_withParams (bxMixp_withParams b)
  | exchange c => exact onChannel_withParams (exchange_withParams c)
  | syOla c => exact onChannel_withParams (syOla_withParams c)
  | synthesize c => exact onChannel_withParams (synthesize_withParams c)
  | accFrame | anWindow | anRfft | anPolar | analyze | bxMixf | syRect | sySymm | syIrfft | syNormwin =>
    exact onChannel_withParams rfl
  | drvEmit => exact congrArg Host.Outcome.next emit_withParams
  | drvBypass =>
    change execDrvBypass _ = outcomeWithParams p (execDrvBypass s)
    unfold execDrvBypass
    rw [bypass_withParams, apply_ite (outcomeWithParams p)]
    rfl
  | nop | prepare | release | process | accReady | syAdv => rfl

end

/-- Settles O59: such an instruction commutes with a change of the parameters, and leaves them. -/
theorem parametersReachTheDataPathOnlyThroughSnap :
    Obligations.ParametersReachTheDataPathOnlyThroughSnap := by
  intro i s p noSetp snap cycle beat
  have setp : setpValue i = none := by
    by_contra present
    obtain ⟨v, value⟩ := Option.ne_none_iff_exists'.1 present
    obtain ⟨cut1, cut2, blen, xmode, mix1, mix2⟩ := noSetp v
    obtain h | h | h | h | h | h := eq_setp value <;> contradiction
  have same : exec i (s.withParams p) = outcomeWithParams p (exec i s) :=
    exec_withParams setp snap cycle beat
  cases h : exec i s with
  | next t =>
    rw [h] at same
    exact ⟨by rw [exec_next h, after_params setp], same⟩
  | fault r | refused r =>
    rw [h] at same
    exact same

end Sys2Proof.Machine
end

section
/-! The Frame Accumulator (42_accumulator.md R100 to R103): what a write stores and what it leaves alone,
the frame as a window that each write slides by one sample, the test for full frames, and the consume. -/

-- No thread of its own for each proof, as in the first section of the proofs.
set_option deprecated.oldSectionVars true

namespace Sys2Proof.Machine

/-! ### When the operations complete -/

theorem exec_accWrite {s : State} {st : Stream} {c : Chan} {v : Word} {vs : List Word}
    (channel : c.val < s.cfg.nch) (waiting : s.waiting st c = v :: vs) :
    exec (.accWrite st c) s = .next (accWrite st c s) := by
  have sample : s.hasSample st c = true := by rw [State.hasSample, waiting]; rfl
  calc exec (.accWrite st c) s = execAccWrite st c s := rfl
    _ = .next (accWrite st c s) := by
      rw [execAccWrite, if_neg (Nat.not_le.2 channel), if_pos sample]

theorem exec_accFrame {s : State} {c : Chan} (channel : c.val < s.cfg.nch) (st : Stream) :
    exec (.accFrame st c) s = .next (accFrame st c s) := if_pos channel

theorem nextSample_of_waiting {s : State} {st : Stream} {c : Chan} {v : Word} {vs : List Word}
    (waiting : s.waiting st c = v :: vs) : s.nextSample st c = v := by
  rw [State.nextSample, waiting]; rfl

/-! ### What a write stores and leaves alone (42_accumulator.md R100) -/

theorem accWrite_ring_self (st : Stream) (c : Chan) (s : State) :
    (accWrite st c s).ring st c = (s.ring st c).afterWrite s.cfg.n := by
  rw [accWrite_ring, if_pos ⟨rfl, rfl⟩]

theorem accWrite_waiting_self (st : Stream) (c : Chan) (s : State) :
    (accWrite st c s).waiting st c = (s.waiting st c).tail := by
  rw [accWrite_waiting, if_pos ⟨rfl, rfl⟩]

theorem accWrite_sameOutside {s : State} (memory : s.mem.wf) (st : Stream) (c : Chan) :
    sameOutside (· = elementAddr (.ring st c) (s.ring st c).wr) s (accWrite st c s) := by
  intro a outside
  rw [accWrite_mem, read_write memory, if_neg outside]

/-- Settles O19: the ring and the port by the laws of a write, the memory by the law of its element. -/
theorem accWriteStoresTheSample : Obligations.AccWriteStoresTheSample := by
  intro s st c v vs memory channel waiting
  have ring := accWrite_ring_self st c s
  refine ⟨accWrite st c s, exec_accWrite channel waiting, congrArg RingCtl.wr ring,
    congrArg RingCtl.cnt ring, ?port, fun st' c' other => ⟨?ring, ?queue⟩, ?stored,
    accWrite_sameOutside memory st c, rfl⟩
  case port => rw [accWrite_waiting_self, waiting, List.tail_cons]
  case ring => rw [accWrite_ring, if_neg other]
  case queue => rw [accWrite_waiting, if_neg other]
  case stored =>
    rw [accWrite_element memory, if_pos ⟨rfl, rfl⟩, nextSample_of_waiting waiting]

/-! ### The frame and the test (42_accumulator.md R101, R102) -/

/-- What `ACC.FRAME` puts in the scratch frame. -/
def State.ringFrame (s : State) (st : Stream) (c : Chan) : List Word :=
  (List.range s.cfg.n).map (wrappedRead s st c)

theorem accFrame_fr (st : Stream) (c : Chan) (s : State) :
    (accFrame st c s).scratch.fr = s.ringFrame st c := rfl

@[simp] theorem ringFrame_length (s : State) (st : Stream) (c : Chan) :
    (s.ringFrame st c).length = s.cfg.n := by simp [State.ringFrame]

theorem at0_ringFrame {s : State} {i : Nat} (h : i < s.cfg.n) (st : Stream) (c : Chan) :
    at0 (s.ringFrame st c) i = s.element (.ring st c) (((s.ring st c).wr + i) % s.cfg.n) := by
  rw [State.ringFrame, at0_range_map, if_pos h, wrappedRead]

/-- Settles O20: the frame element by element, and the test by what it says of every ring. -/
theorem frameAndReadyWriteScratchOnly : Obligations.FrameAndReadyWriteScratchOnly := by
  intro s st c channel
  exact ⟨⟨accFrame st c s, exec_accFrame channel st, ringFrame_length s st c,
      fun _ inFrame => at0_ringFrame inFrame st c, rfl⟩,
    ⟨accReady s, rfl, framesReady_iff s, rfl⟩⟩

/-! ### The frame after many writes (42_accumulator.md R102) -/

/-- Of the elements a frame reads from the cursor after `w`, the last one is `w` itself. -/
theorem wrap_eq_cursor_iff {n w i : Nat} (cursor : w < n) (inRing : i < n) :
    ((w + 1) % n + i) % n = w ↔ i + 1 = n := by
  rw [Nat.mod_add_mod]
  by_cases wraps : w + 1 + i < n
  · rw [Nat.mod_eq_of_lt wraps]
    omega
  · rw [Nat.mod_eq_sub_mod (by omega), Nat.mod_eq_of_lt (by omega)]
    omega

/-- After a write a frame ends with the new sample, and before it reads one place further on. -/
theorem accWrite_wrappedRead {s : State} (memory : s.mem.wf) {st : Stream} {c : Chan}
    (cursor : (s.ring st c).wr < s.cfg.n) {i : Nat} (inRing : i < s.cfg.n) :
    wrappedRead (accWrite st c s) st c i =
      if i + 1 = s.cfg.n then s.nextSample st c else wrappedRead s st c (i + 1) := by
  simp only [wrappedRead, accWrite_element memory, accWrite_ring_self, accWrite_cfg, RingCtl.afterWrite,
    wrap_eq_cursor_iff cursor inRing, true_and]
  rw [Nat.mod_add_mod, Nat.add_assoc, Nat.add_comm 1 i]

/-- A write slides the frame by one sample: the oldest leaves it, and the new one is its last. -/
theorem accWrite_ringFrame {s : State} (memory : s.mem.wf) {st : Stream} {c : Chan}
    (cursor : (s.ring st c).wr < s.cfg.n) :
    (accWrite st c s).ringFrame st c = (s.ringFrame st c ++ [s.nextSample st c]).drop 1 := by
  refine List.ext_getElem (by simp) fun i inFrame _ => ?_
  have inRing : i < s.cfg.n := by simpa using inFrame
  have read : ((accWrite st c s).ringFrame st c)[i] = wrappedRead (accWrite st c s) st c i := by
    simp [State.ringFrame]
  rw [read, accWrite_wrappedRead memory cursor inRing]
  split
  case isTrue last => simp [last]
  case isFalse inner =>
    have older : i + 1 < s.cfg.n := by omega
    simp [State.ringFrame, older]

/-- A run of writes slides the frame by as many samples, which its port gives in their order. -/
theorem execAll_accWrites {st : Stream} {c : Chan} (rest : List Word) (is : List Instr)
    {vs : List Word} {s : State} (memory : s.mem.wf) (channel : c.val < s.cfg.nch)
    (cursor : (s.ring st c).wr < s.cfg.n) (waiting : s.waiting st c = vs ++ rest) :
    ∃ t, execAll (List.replicate vs.length (Instr.accWrite st c) ++ is) s = execAll is t ∧
      t.cfg = s.cfg ∧ t.ringFrame st c = (s.ringFrame st c ++ vs).drop vs.length := by
  induction vs generalizing s with
  | nil => exact ⟨s, rfl, rfl, by simp⟩
  | cons v vs ih =>
    have cursor' : ((accWrite st c s).ring st c).wr < (accWrite st c s).cfg.n := by
      rw [accWrite_ring_self]
      exact Nat.mod_lt _ (Nat.two_pow_pos _)
    have waiting' : (accWrite st c s).waiting st c = vs ++ rest := by
      rw [accWrite_waiting_self, waiting, List.cons_append, List.tail_cons]
    obtain ⟨t, run, cfg, frame⟩ := ih (accWrite_wf memory st c) channel cursor' waiting'
    refine ⟨t, ?_, cfg, ?_⟩
    · rw [← run]
      exact execAll_cons (exec_accWrite channel waiting) _
    · have slide := accWrite_ringFrame memory cursor
      rw [nextSample_of_waiting waiting] at slide
      calc t.ringFrame st c
          = ((s.ringFrame st c ++ [v]).drop 1 ++ vs).drop vs.length := by rw [frame, slide]
        _ = ((s.ringFrame st c ++ [v] ++ vs).drop 1).drop vs.length := by
          rw [List.drop_append_of_le_length (l₁ := s.ringFrame st c ++ [v]) (by simp)]
        _ = (s.ringFrame st c ++ v :: vs).drop (v :: vs).length := by
          rw [List.drop_drop, List.append_assoc, List.length_cons, Nat.add_comm 1,
            List.singleton_append]

/-- Settles O21: `N` writes or more push every sample out of the frame that was in it before them. -/
theorem frameIsTheLastSamplesInOrder : Obligations.FrameIsTheLastSamplesInOrder := by
  intro s st c vs rest memory _ channel cursor waiting enough
  obtain ⟨t, run, cfg, frame⟩ := execAll_accWrites rest [.accFrame st c] memory channel cursor waiting
  have channel' : c.val < t.cfg.nch := by rwa [cfg]
  refine ⟨accFrame st c t, ?_, ?_⟩
  · rw [run, execAll_singleton, exec_accFrame channel']
  · have old : (s.ringFrame st c).length ≤ vs.length := by rwa [ringFrame_length]
    rw [accFrame_fr, frame, List.drop_append, List.drop_eq_nil_of_le old, List.nil_append,
      ringFrame_length]

/-! ### The consume (42_accumulator.md R103) -/

theorem afterConsume_of_hop_le {g : Cfg} {r : RingCtl} (full : g.hop ≤ r.cnt) :
    r.afterConsume g = { r with cnt := r.cnt - g.hop } := by
  rw [RingCtl.afterConsume, if_pos full]

/-- Every other field is kept, each by its own field law. -/
theorem accConsume_frame (s : State) : accConsume s = { s with rings := (accConsume s).rings } := by
  calc accConsume s = { accConsume s with cfg := (accConsume s).cfg } := rfl
    _ = _ := by simp

/-- Settles O22: each ring by the law of the consume, which takes `HOP` where the count reaches it. -/
theorem accConsumeFreesOneHop : Obligations.AccConsumeFreesOneHop := by
  intro s full
  refine ⟨accConsume s, rfl, fun st c channel => ?consumed, fun st c absent => ?kept,
    accConsume_frame s⟩
  case consumed =>
    rw [accConsume_ring, if_pos channel, afterConsume_of_hop_le (full st c channel)]
    exact ⟨rfl, rfl⟩
  case kept => rw [accConsume_ring, if_neg (Nat.not_lt.2 absent)]

end Sys2Proof.Machine
end

section
/-! The Spectral Analyzer (43_analyzer.md R110 to R116): the sizes of its transform, what each of its
steps leaves, what the stored spectrum depends on, and the spectrum of a silent frame. -/

-- No thread of its own for each proof, as in the first section of the proofs.
set_option deprecated.oldSectionVars true

namespace Sys2Proof

/-! ### The zeros of a lawful record (00_scope.md R8) -/

section

variable {N : Numerics} (law : N.Lawful)
include law

theorem Numerics.Lawful.isZero_zero : N.isZero Numerics.zero = true := by
  obtain ⟨number, -⟩ := law.constants
  rwa [Numerics.isNaN, Bool.not_eq_false'] at number

theorem Numerics.Lawful.isFinite_of_isZero {w : Word} (zero : N.isZero w = true) :
    N.isFinite w = true := by
  obtain ⟨-, -, finite, -⟩ := law.constants
  obtain ⟨below, above⟩ := law.le_of_eq zero
  exact law.finiteBetween _ _ w finite finite above below

theorem Numerics.Lawful.isZero_binMagnitude {re im : Word} (hre : N.isZero re = true)
    (him : N.isZero im = true) : N.isZero (Machine.binMagnitude N re im) = true := by
  have square {w : Word} (zero : N.isZero w = true) : N.isZero (N.mul w w) = true :=
    (law.mulZero w w zero (law.isFinite_of_isZero zero)).1
  obtain ⟨-, root⟩ := law.sqrt (N.add (N.mul re re) (N.mul im im))
  exact root (law.addZeros _ _ (square hre) (square him))

end

end Sys2Proof

namespace Sys2Proof.Machine

/-- In binary32 a zero times an infinity or a NaN is a NaN. -/
theorem F32.mul_not_finite {z x : Word} (zero : F32.isZero z = true)
    (notFinite : F32.isFinite x = false) : F32.isFinite (F32.mul z x) = false := by
  have nan : F32.isNaN (F32.mul z x) = true := by
    obtain ⟨number, finite⟩ := F32.not_isNaN_isInf_of_isFinite (F32.isFinite_of_isZero zero)
    obtain hx | ⟨hx, infinite⟩ | hx := F32.isNaN_or_isInf_or_isFinite x
    · simp [F32.mul, hx, F32.nanResult_isNaN]
    · simp [F32.mul, number, hx, infinite, zero, F32.nanResult_isNaN]
    · simp [hx] at notFinite
  by_contra finite
  obtain ⟨number, -⟩ := F32.not_isNaN_isInf_of_isFinite (by simpa using finite)
  simp [nan] at number

/-! ### The transform of a windowed frame (43_analyzer.md R112) -/

theorem fftCore_length (N : Numerics) (logn : Nat) (dir : Direction) (a : List (Word × Word)) :
    (fftCore N logn dir a).length = 2 ^ logn := by
  have stages (ss : List Nat) {b : List (Word × Word)} (length : b.length = 2 ^ logn) :
      (ss.foldl (fun a s => stage N (2 ^ logn) (2 ^ (s + 1)) dir a) b).length = 2 ^ logn := by
    induction ss generalizing b with
    | nil => exact length
    | cons s ss ih => exact ih (by simp [stage])
  exact stages _ (by simp [permute])

theorem numerics_rfft_length {g : Cfg} (legal : g.legal = true) (xw : List Word) :
    (g.numerics.rfft g.logn xw).length = g.nb := by
  have own : ((baseNumerics g).rfft g.logn xw).length = g.nb := by
    unfold baseNumerics
    cases g.num <;> simp [binary32, lawfulNum, RawNum.record, lawfulBins, Cfg.nb, Cfg.n]
  unfold Cfg.numerics
  cases g.transform with
  | implementation => exact own
  | reference =>
    obtain ⟨size, -⟩ := legal_bounds legal
    simp only [Numerics.withReference, referenceRfft, List.length_map, List.length_take, fftCore_length]
    unfold Cfg.nb Cfg.n at *
    omega

theorem rfft_length {g : Cfg} (legal : g.legal = true) (silent : Bool) (xw : List Word) :
    (rfft g silent xw).length = g.nb := by
  unfold rfft
  split
  · exact numerics_rfft_length legal xw
  · simp

/-- The bins that R112 leaves unspecified are zeros when the frame was silent (log 9). -/
theorem rfft_isZero_of_not_finite {g : Cfg} {xw : List Word}
    (broken : ¬ ∀ x ∈ xw, g.numerics.isFinite x = true) :
    ∀ b ∈ rfft g true xw, g.numerics.isZero b.1 = true ∧ g.numerics.isZero b.2 = true := by
  rw [rfft, if_neg (by rwa [List.all_eq_true])]
  intro b bin
  obtain ⟨k, -, rfl⟩ := List.mem_map.1 bin
  have h0 := (numericsMeetTheLaws g).isZero_zero
  exact ⟨keepZero_promised h0 _, keepZero_promised h0 _⟩

/-- The bins of a silent frame: by N-FFT0 where the windowed frame is finite, by the reading of log 9
where it is not. -/
theorem rfft_isZero {g : Cfg} (legal : g.legal = true) {xw : List Word} (length : xw.length = g.n)
    (zeros : (∀ x ∈ xw, g.numerics.isFinite x = true) → ∀ x ∈ xw, g.numerics.isZero x = true) :
    ∀ b ∈ rfft g true xw, g.numerics.isZero b.1 = true ∧ g.numerics.isZero b.2 = true := by
  by_cases finite : ∀ x ∈ xw, g.numerics.isFinite x = true
  · rw [rfft, if_pos (List.all_eq_true.2 finite)]
    have logn : 2 ≤ g.logn ∧ g.logn ≤ 12 := by
      simp only [Cfg.legal, Bool.and_eq_true, decide_eq_true_eq] at legal
      omega
    exact (numericsMeetTheLaws g).rfftZero g.logn xw logn.1 logn.2 length (zeros finite)
  · exact rfft_isZero_of_not_finite finite

/-! ### What the steps leave (43_analyzer.md R110 to R114) -/

/-- A micro-operation of a channel of the machine completes, but for the one that waits for a sample. -/
theorem exec_of_channel {i : Instr} {c : Chan} (names : i.channel? = some c)
    (noSample : ∀ st c, i ≠ .accWrite st c) {s : State} (channel : c.val < s.cfg.nch) :
    exec i s = .next (after i s) := by
  cases i with
  | accWrite st c => exact absurd rfl (noSample st c)
  | accFrame | anWindow | anRfft | anPolar | analyze | bxMixp | bxMixf | exchange | syRect | sySymm
  | syIrfft | syNormwin | syOla | synthesize =>
    obtain rfl := Option.some.inj names
    exact if_pos channel
  | _ => cases names

theorem range_map_at0 {xs : List Word} {n : Nat} (length : xs.length = n) :
    (List.range n).map (at0 xs) = xs := by
  refine List.ext_getElem (by simp [length]) fun i _ inside => ?_
  simp [at0, inside]

/-- `P` of every element of an array is `P` of its element at each place. -/
theorem forall_mem_iff_at0 {P : Word → Prop} {xs : List Word} {n : Nat} (length : xs.length = n) :
    (∀ x ∈ xs, P x) ↔ ∀ i, i < n → P (at0 xs i) := by
  conv_lhs => rw [← range_map_at0 length]
  simp only [List.forall_mem_map, List.mem_range]

theorem at0_map {β : Type} (f : β → Word) {bs : List β} {k : Nat} (inside : k < bs.length) :
    at0 (bs.map f) k = f bs[k] := by
  simp [at0, inside]

theorem frame_all_iff (s : State) (p : Word → Bool) :
    s.frame.all p = true ↔ ∀ i, i < s.cfg.n → p (at0 s.scratch.fr i) = true := by
  simp [State.frame]

theorem frameBroken_iff (s : State) :
    s.frameBroken = true ↔
      ¬ ∀ i, i < s.cfg.n → s.cfg.numerics.isFinite (at0 s.scratch.fr i) = true := by
  rw [← frame_all_iff, State.frameBroken, Bool.not_eq_true, Bool.not_eq_true']

@[simp] theorem anWindow_xw_length (s : State) : (anWindow s).scratch.xw.length = s.cfg.n := by
  simp [anWindow]

theorem at0_anWindow_xw {s : State} {n : Nat} (inFrame : n < s.cfg.n) :
    at0 (anWindow s).scratch.xw n = s.cfg.numerics.mul (at0 s.scratch.fr n) (windowAt s.cfg n) := by
  rw [anWindow, at0_range_map, if_pos inFrame]

/-- The bins that `AN.RFFT` leaves, where `xw` has the length of a frame. -/
theorem anRfft_bins {s : State} (length : s.scratch.xw.length = s.cfg.n) :
    (anRfft s).scratch.re = (rfft s.cfg s.scratch.xwSilent s.scratch.xw).map Prod.fst ∧
      (anRfft s).scratch.im = (rfft s.cfg s.scratch.xwSilent s.scratch.xw).map Prod.snd := by
  have windowed : s.windowed = s.scratch.xw := range_map_at0 length
  rw [anRfft, windowed]
  exact ⟨rfl, rfl⟩

theorem rfft_getD_eq_at0 {s : State} (legal : s.cfg.legal = true)
    (length : s.scratch.xw.length = s.cfg.n) {k : Nat} (inBins : k < s.cfg.nb) :
    (rfft s.cfg s.scratch.xwSilent s.scratch.xw).getD k (0, 0)
      = (at0 (anRfft s).scratch.re k, at0 (anRfft s).scratch.im k) := by
  have inside : k < (rfft s.cfg s.scratch.xwSilent s.scratch.xw).length := by rwa [rfft_length legal]
  obtain ⟨re, im⟩ := anRfft_bins length
  rw [re, im, at0_map _ inside, at0_map _ inside, List.getD_eq_getElem _ _ inside]

/-- Bins that are all zeros leave zeros at every place. -/
theorem anRfft_isZero {s : State} (legal : s.cfg.legal = true)
    (length : s.scratch.xw.length = s.cfg.n)
    (zeros : ∀ b ∈ rfft s.cfg s.scratch.xwSilent s.scratch.xw,
      s.cfg.numerics.isZero b.1 = true ∧ s.cfg.numerics.isZero b.2 = true)
    {k : Nat} (inBins : k < s.cfg.nb) :
    s.cfg.numerics.isZero (at0 (anRfft s).scratch.re k) = true ∧
      s.cfg.numerics.isZero (at0 (anRfft s).scratch.im k) = true := by
  have inside : k < (rfft s.cfg s.scratch.xwSilent s.scratch.xw).length := by rwa [rfft_length legal]
  have bin := rfft_getD_eq_at0 legal length inBins
  rw [List.getD_eq_getElem _ _ inside] at bin
  have zero := zeros _ (List.getElem_mem inside)
  rwa [bin] at zero

/-- Settles O23: the windowed frame element by element, and the bins by what the transform gives. -/
theorem windowAndTransformWriteScratchOnly : Obligations.WindowAndTransformWriteScratchOnly := by
  intro s st c legal channel
  refine ⟨⟨anWindow s, exec_of_channel (i := .anWindow st c) rfl (by simp) channel,
      anWindow_xw_length s, fun n inFrame => at0_anWindow_xw inFrame, frameBroken_iff s,
      frame_all_iff s _, rfl⟩, fun length => ?transform⟩
  obtain ⟨re, im⟩ := anRfft_bins length
  refine ⟨anRfft s, exec_of_channel (i := .anRfft st c) rfl (by simp) channel, ?reLength, ?imLength,
    fun k inBins => rfft_getD_eq_at0 legal length inBins, fun silent broken k inBins => ?zeros, rfl⟩
  case reLength => rw [re, List.length_map, rfft_length legal]
  case imLength => rw [im, List.length_map, rfft_length legal]
  case zeros =>
    refine anRfft_isZero legal length ?_ inBins
    rw [silent]
    exact rfft_isZero_of_not_finite (by rwa [forall_mem_iff_at0 length])

theorem setElements_sameOutside {s : State} (memory : s.mem.wf) (sp : Space) (vs : List Word) :
    sameOutside (firstElements sp vs.length) s (State.setElements sp vs s) := by
  intro a outside
  rw [setElements_mem, read_writeFrom_addr memory]
  intro j _ inside address
  exact outside ⟨j, by omega, address⟩

theorem anPolar_sameOutside {s : State} (memory : s.mem.wf) (st : Stream) (c : Chan) :
    sameOutside (fun a => firstElements (.specMag st c) s.cfg.nb a ∨
      firstElements (.specPh st c) s.cfg.nb a) s (anPolar st c s) := by
  intro a outside
  obtain ⟨notMag, notPh⟩ := not_or.1 outside
  rw [anPolar, markSpec_mem, setElements_sameOutside (setElements_wf memory _ _) _ _ a (by simpa),
    setElements_sameOutside memory _ _ a (by simpa)]

@[simp] theorem anPolar_specMark (st st' : Stream) (c c' : Chan) (s : State) :
    (anPolar st c s).specMark st' c' =
      if st' = st ∧ c' = c then s.scratch.binsBroken else s.specMark st' c' := by
  rw [anPolar, markSpec_specMark]
  rfl

section

variable {s : State} (memory : s.mem.wf) {st : Stream} {c : Chan} {k : Nat} (inBins : k < s.cfg.nb)
include memory inBins

theorem anPolar_specMag : (anPolar st c s).element (.specMag st c) k = s.polarMagnitude k := by
  rw [anPolar_element memory, if_pos ⟨rfl, inBins⟩]

theorem anPolar_specPh : (anPolar st c s).element (.specPh st c) k = s.polarPhase k := by
  rw [anPolar_element memory, if_neg (by simp), if_pos ⟨rfl, inBins⟩]

end

theorem polar_of_finite {s : State} (finite : s.scratch.binsBroken = false) (k : Nat) :
    s.polarMagnitude k = binMagnitude s.cfg.numerics (at0 s.scratch.re k) (at0 s.scratch.im k) ∧
      s.polarPhase k = s.cfg.numerics.atan2 (at0 s.scratch.im k) (at0 s.scratch.re k) := by
  simp [State.polarMagnitude, State.polarPhase, finite]

theorem polar_of_broken {s : State} (broken : s.scratch.binsBroken = true) (k : Nat) :
    s.polarMagnitude k = Config.unspecified .magnitude (s.scratch.re ++ s.scratch.im) k ∧
      s.polarPhase k = Config.unspecified .phase (s.scratch.re ++ s.scratch.im) k := by
  simp [State.polarMagnitude, State.polarPhase, broken]

/-- Settles O24: each stored bin by the law of the polar step, once for bins of a finite frame and once
for the others. -/
theorem polarStoresMagnitudeAndPhase : Obligations.PolarStoresMagnitudeAndPhase := by
  intro s st c memory channel
  refine ⟨anPolar st c s, exec_of_channel (i := .anPolar st c) rfl (by simp) channel,
    fun finite k inBins => ?finite, fun broken k inBins => ?broken, ?mark, fun st' c' other => ?others,
    anPolar_sameOutside memory st c, rfl⟩
  case finite =>
    rw [anPolar_specMag memory inBins, anPolar_specPh memory inBins]
    exact polar_of_finite finite k
  case broken =>
    rw [anPolar_specMag memory inBins, anPolar_specPh memory inBins]
    exact polar_of_broken broken k
  case mark => rw [anPolar_specMark, if_pos ⟨rfl, rfl⟩]
  case others => rw [anPolar_specMark, if_neg other]

/-! ### The whole analysis (43_analyzer.md R115, R116) -/

/-- The state of `ANALYZE` before its last step. -/
def analyzedBins (st : Stream) (c : Chan) (s : State) : State :=
  anRfft (anWindow (accFrame st c s))

theorem analyze_eq_anPolar (st : Stream) (c : Chan) (s : State) :
    analyze st c s = anPolar st c (analyzedBins st c s) := rfl

@[simp] theorem analyzedBins_mem (st : Stream) (c : Chan) (s : State) :
    (analyzedBins st c s).mem = s.mem := by simp [analyzedBins]

@[simp] theorem analyzedBins_cfg (st : Stream) (c : Chan) (s : State) :
    (analyzedBins st c s).cfg = s.cfg := by simp [analyzedBins]

theorem exec_analyze {s : State} {c : Chan} (channel : c.val < s.cfg.nch) (st : Stream) :
    exec (.analyze st c) s = .next (analyze st c s) := exec_of_channel rfl (by simp) channel

theorem exec_analyze_eq_steps {s : State} {c : Chan} (channel : c.val < s.cfg.nch) (st : Stream) :
    exec (.analyze st c) s
      = execAll [.accFrame st c, .anWindow st c, .anRfft st c, .anPolar st c] s := by
  have window : exec (.anWindow st c) (accFrame st c s) = .next (anWindow (accFrame st c s)) :=
    exec_of_channel rfl (by simp) channel
  have transform : exec (.anRfft st c) (anWindow (accFrame st c s)) = .next (analyzedBins st c s) :=
    exec_of_channel rfl (by simp) channel
  have polar : exec (.anPolar st c) (analyzedBins st c s) = .next (analyze st c s) :=
    exec_of_channel rfl (by simp) channel
  rw [exec_analyze channel, execAll_cons (exec_accFrame channel st), execAll_cons window,
    execAll_cons transform, execAll_singleton, polar]

theorem analyze_sameOutside {s : State} (memory : s.mem.wf) (st : Stream) (c : Chan) :
    sameOutside (fun a => firstElements (.specMag st c) s.cfg.nb a ∨
      firstElements (.specPh st c) s.cfg.nb a) s (analyze st c s) := by
  have polar := anPolar_sameOutside (s := analyzedBins st c s) (by simpa) st c
  rw [analyzedBins_cfg] at polar
  intro a outside
  rw [analyze_eq_anPolar, polar a outside, analyzedBins_mem]

theorem anPolar_frame (st : Stream) (c : Chan) (s : State) :
    anPolar st c s = { s with
      mem := (anPolar st c s).mem, marks := { s.marks with spec := (anPolar st c s).marks.spec } } := rfl

theorem analyzedBins_frame (st : Stream) (c : Chan) (s : State) :
    analyzedBins st c s = { s with scratch := (analyzedBins st c s).scratch } := rfl

/-- The polar step over the steps before it, which write scratch only. -/
theorem analyze_frame (st : Stream) (c : Chan) (s : State) :
    analyze st c s = { s with
      mem := (analyze st c s).mem, scratch := (analyze st c s).scratch
      marks := { s.marks with spec := (analyze st c s).marks.spec } } := by
  rw [analyze_eq_anPolar, anPolar_frame]
  rfl

/-- What the polar step reads: the construction, the bins, and their note. -/
def State.polarInputs (s : State) : Cfg × List Word × List Word × Bool :=
  (s.cfg, s.scratch.re, s.scratch.im, s.scratch.binsBroken)

theorem polar_congr {s t : State} (same : t.polarInputs = s.polarInputs) (k : Nat) :
    t.polarMagnitude k = s.polarMagnitude k ∧ t.polarPhase k = s.polarPhase k ∧
      t.scratch.binsBroken = s.scratch.binsBroken := by
  simp only [State.polarInputs, Prod.mk.injEq] at same
  obtain ⟨cfg, re, im, broken⟩ := same
  simp only [State.polarMagnitude, State.polarPhase, cfg, re, im, broken, and_self]

/-- The bins of an analysis are a function of the frame in the ring alone. -/
theorem analyzedBins_congr {s t : State} {st st' : Stream} {c c' : Chan} (cfg : t.cfg = s.cfg)
    (frame : t.ringFrame st' c' = s.ringFrame st c) :
    (analyzedBins st' c' t).polarInputs = (analyzedBins st c s).polarInputs := by
  rw [← accFrame_fr, ← accFrame_fr] at frame
  simp only [State.polarInputs, analyzedBins, anRfft, anWindow, State.windowed, State.frameBroken,
    State.frameSilent, State.frame, accFrame_cfg, frame, cfg]

section

variable {s : State} (memory : s.mem.wf) {st : Stream} {c : Chan} {k : Nat} (inBins : k < s.cfg.nb)
include memory inBins

theorem analyze_specMag :
    (analyze st c s).element (.specMag st c) k = (analyzedBins st c s).polarMagnitude k := by
  rw [analyze_eq_anPolar, anPolar_specMag (by simpa) (by simpa)]

theorem analyze_specPh :
    (analyze st c s).element (.specPh st c) k = (analyzedBins st c s).polarPhase k := by
  rw [analyze_eq_anPolar, anPolar_specPh (by simpa) (by simpa)]

end

theorem analyze_specMark (st : Stream) (c : Chan) (s : State) :
    (analyze st c s).specMark st c = (analyzedBins st c s).scratch.binsBroken := by
  rw [analyze_eq_anPolar, anPolar_specMark, if_pos ⟨rfl, rfl⟩]

/-- Settles O25: the four steps in a row, the frame of the last one, and the bins as a function of the
frame in the ring. -/
theorem analyzeIsItsStepsAndPure : Obligations.AnalyzeIsItsStepsAndPure := by
  intro s st c memory channel
  refine ⟨exec_analyze_eq_steps channel st, analyze st c s, exec_analyze channel st,
    analyze_sameOutside memory st c, analyze_frame st c s,
    fun s' st' c' memory' cfg channel' sameFrame => ?_⟩
  have frame : s'.ringFrame st' c' = s.ringFrame st c := by
    rw [State.ringFrame, State.ringFrame, cfg]
    exact List.map_congr_left fun i inFrame => sameFrame i (List.mem_range.1 inFrame)
  refine ⟨analyze st' c' s', exec_analyze (by rwa [cfg]) st', fun k inBins => ?_⟩
  have inBins' : k < s'.cfg.nb := by rwa [cfg]
  obtain ⟨magnitude, phase, mark⟩ := polar_congr (analyzedBins_congr cfg frame) k
  rw [analyze_specMag memory inBins, analyze_specPh memory inBins, analyze_specMark,
    analyze_specMag memory' inBins', analyze_specPh memory' inBins', analyze_specMark]
  exact ⟨magnitude, phase, mark⟩

/-! ### The spectrum of a silent frame (43_analyzer.md R116 (d)) -/

/-- A window entry of a construction does not spoil silence: it is finite, or a silent sample times the
entry is not finite, so that the bins are zeros by the reading of log 9. -/
def windowKeepsSilence (g : Cfg) (x : Word) (n : Nat) : Prop :=
  g.numerics.isFinite (windowAt g n) = true ∨
    g.numerics.isFinite (g.numerics.mul x (windowAt g n)) = false

/-- In binary32 every window keeps silence. -/
theorem windowKeepsSilence_binary32 {g : Cfg} (num : g.num = .binary32) {x : Word}
    (zero : g.numerics.isZero x = true) (n : Nat) : windowKeepsSilence g x n := by
  unfold windowKeepsSilence
  generalize windowAt g n = w
  rw [numerics_eq, baseNumerics_binary32 num] at zero ⊢
  have zero : F32.isZero x = true := binary32_isZero x ▸ zero
  by_cases finite : F32.isFinite w = true
  · exact .inl finite
  · exact .inr (F32.mul_not_finite zero (by simpa using finite))

/-- Of a silent frame the bins carry no note of a NaN or an infinity, and are zeros. -/
theorem anRfft_anWindow_silent {s : State} (legal : s.cfg.legal = true)
    (silent : ∀ n, n < s.cfg.n → s.cfg.numerics.isZero (at0 s.scratch.fr n) = true)
    (window : ∀ n, n < s.cfg.n → windowKeepsSilence s.cfg (at0 s.scratch.fr n) n) :
    (anRfft (anWindow s)).scratch.binsBroken = false ∧ ∀ k, k < s.cfg.nb →
      s.cfg.numerics.isZero (at0 (anRfft (anWindow s)).scratch.re k) = true ∧
        s.cfg.numerics.isZero (at0 (anRfft (anWindow s)).scratch.im k) = true := by
  have law := numericsMeetTheLaws s.cfg
  refine ⟨?unbroken, fun k inBins =>
    anRfft_isZero (s := anWindow s) legal (anWindow_xw_length s) ?zeros inBins⟩
  case unbroken =>
    show s.frameBroken = false
    rw [← Bool.not_eq_true, frameBroken_iff, not_not]
    exact fun n inFrame => law.isFinite_of_isZero (silent n inFrame)
  case zeros =>
    have note : (anWindow s).scratch.xwSilent = true := (frame_all_iff s _).2 silent
    rw [note]
    refine rfft_isZero legal (anWindow_xw_length s) fun finite => ?_
    rw [forall_mem_iff_at0 (anWindow_xw_length s)] at finite ⊢
    intro n inFrame
    have product := at0_anWindow_xw inFrame
    rw [product]
    obtain entry | broken := window n inFrame
    · exact (law.mulZero _ _ (silent n inFrame) entry).1
    · rw [← product, finite n inFrame] at broken
      cases broken

/-- Settles O26: the bins of a silent frame are zeros, and so are the magnitude and the phase of
each. -/
theorem silentFrameHasZeroSpectrum : Obligations.SilentFrameHasZeroSpectrum := by
  intro s st c memory legal channel silent window
  have sample {n : Nat} (inFrame : n < s.cfg.n) :
      at0 (accFrame st c s).scratch.fr n = wrappedRead s st c n := at0_ringFrame inFrame st c
  obtain ⟨unbroken, zeros⟩ := anRfft_anWindow_silent (s := accFrame st c s) legal
    (fun n inFrame => by rw [sample inFrame]; exact silent n inFrame) (fun n inFrame => by
      rw [sample inFrame]
      exact window.elim (fun num => windowKeepsSilence_binary32 num (silent n inFrame) n)
        (fun entries => entries n inFrame))
  refine ⟨analyze st c s, exec_analyze channel st, fun k inBins => ?_⟩
  have unbroken : (analyzedBins st c s).scratch.binsBroken = false := unbroken
  have law := numericsMeetTheLaws s.cfg
  obtain ⟨re, im⟩ := zeros k inBins
  obtain ⟨magnitude, phase⟩ := polar_of_finite unbroken k
  rw [analyze_specMag memory inBins, analyze_specPh memory inBins, magnitude, phase]
  exact ⟨law.isZero_binMagnitude re im, law.atanOrigin _ _ im re⟩

end Sys2Proof.Machine
end

section
/-! The index derivation of the Band Exchanger (44_exchanger.md R126 to R128): what each of its steps
writes, the band of frequency and ratio 0, and the interval around its centre bin. -/

-- No thread of its own for each proof, as in the first section of the proofs.
set_option deprecated.oldSectionVars true

namespace Sys2Proof.Machine

/-! ### Zeros and NaNs in binary32 -/

namespace F32

/-- A zero or a NaN, either of which `roundsat` takes to 0; the products and quotients of such a datum are
of this kind again, whatever the other operand is. -/
def ZeroOrNaN (w : Word) : Prop := isZero w = true ∨ isNaN w = true

theorem zeroOrNaN_mul {z : Word} (h : ZeroOrNaN z) (x : Word) : ZeroOrNaN (mul z x) := by
  obtain zero | nan := h
  · obtain ⟨number, -⟩ := not_isNaN_isInf_of_isFinite (isFinite_of_isZero zero)
    obtain hx | ⟨hx, infinite⟩ | finite := isNaN_or_isInf_or_isFinite x
    · exact .inr (by simp [mul, hx, nanResult_isNaN])
    · exact .inr (by simp [mul, number, hx, infinite, zero, nanResult_isNaN])
    · exact .inl (isZero_mul zero finite).1
  · exact .inr (by simp [mul, nan, nanResult_isNaN])

theorem quotient_zero (y : Nat) : quotient 0 y = 0 := by simp [quotient]

theorem zeroOrNaN_div {z : Word} (h : ZeroOrNaN z) (y : Word) : ZeroOrNaN (div z y) := by
  obtain zero | nan := h
  · obtain ⟨number, notInf⟩ := not_isNaN_isInf_of_isFinite (isFinite_of_isZero zero)
    simp only [div, number, notInf, zero, units_of_isZero zero, quotient_zero, roundPack_zero,
      Bool.false_eq_true, false_or, if_false, if_true]
    split_ifs
    · exact .inr (nanResult_isNaN _ _ _)
    · exact .inl (isZero_ofParts _)
    · exact .inr (nanResult_isNaN _ _ _)
    · exact .inl (isZero_ofParts _)
  · exact .inr (by simp [div, nan, nanResult_isNaN])

theorem roundsat_zeroOrNaN {w : Word} (h : ZeroOrNaN w) : roundsat w = 0 := by
  obtain zero | nan := h
  · obtain ⟨number, notInf⟩ := not_isNaN_isInf_of_isFinite (isFinite_of_isZero zero)
    rw [roundsat, number, notInf, signedUnits_of_isZero zero, if_neg Bool.false_ne_true,
      if_neg Bool.false_ne_true]
    decide
  · simp [roundsat, nan]

end F32

/-- In binary32 the formula of R126 gives 0 for a frequency that is a zero or a NaN. -/
theorem binFormula_zeroOrNaN {g : Cfg} (num : g.num = .binary32) {f : Word} (h : F32.ZeroOrNaN f)
    (n sr : Word) : g.numerics.roundsat (g.numerics.div (g.numerics.mul f n) sr) = 0 := by
  rw [numerics_eq, baseNumerics_binary32 num]
  exact F32.roundsat_zeroOrNaN (F32.zeroOrNaN_div (F32.zeroOrNaN_mul h n) sr)

theorem zeroOrNaN_of_isZero {g : Cfg} (num : g.num = .binary32) {f : Word}
    (h : g.numerics.isZero f = true) : F32.ZeroOrNaN f := by
  rw [numerics_eq, baseNumerics_binary32 num] at h
  exact .inl (binary32_isZero f ▸ h)

/-- In binary32 a ratio of 0 gives a half-width that is a zero or a NaN, also for a centre that is not
finite. -/
theorem zeroOrNaN_halfWidth {g : Cfg} (num : g.num = .binary32) {ratio : Word}
    (h : g.numerics.isZero ratio = true) (centre two : Word) :
    F32.ZeroOrNaN (g.numerics.div (g.numerics.mul ratio centre) two) := by
  have zero := zeroOrNaN_of_isZero num h
  rw [numerics_eq, baseNumerics_binary32 num]
  exact F32.zeroOrNaN_div (F32.zeroOrNaN_mul zero centre) two

/-! ### What the steps change (44_exchanger.md R126 to R128) -/

theorem bxBin_frame (b : Band) (s : State) :
    bxBin b s = { s with band1 := (bxBin b s).band1, band2 := (bxBin b s).band2 } := by
  cases b <;> rfl

theorem bxHalfw_frame (b : Band) (s : State) :
    bxHalfw b s = { s with
      band1 := (bxHalfw b s).band1, band2 := (bxHalfw b s).band2, events := (bxHalfw b s).events } := by
  cases b <;> rfl

theorem bxInterval_frame (b : Band) (s : State) :
    bxInterval b s = { s with
      band1 := (bxInterval b s).band1, band2 := (bxInterval b s).band2
      events := (bxInterval b s).events } := by
  cases b <;> rfl

theorem bxHalfw_events (b : Band) (s : State) :
    (bxHalfw b s).events =
      if rawHalfWidth s b < 1 then s.events ||| Event.edge.mask else s.events := by
  simp only [bxHalfw, raiseIf_events, setBand_events, decide_eq_true_eq]

theorem bxInterval_events (b : Band) (s : State) :
    (bxInterval b s).events =
      if (s.band b).low < 0 ∨ ((s.cfg.n / 2 : Nat) : Int) < (s.band b).high then
        s.events ||| Event.edge.mask
      else s.events := by
  simp only [bxInterval, raiseIf_events, setBand_events, Bool.or_eq_true, decide_eq_true_eq]

theorem bxInterval_toInt (b : Band) {s : State} (legal : s.cfg.legal = true)
    (nonneg : 0 ≤ (s.band b).hw.toInt) :
    ((bxInterval b s).band b).start.toInt = max (s.band b).low 0 ∧
      ((bxInterval b s).band b).stop.toInt = min (s.band b).high (s.cfg.n / 2 : Nat) := by
  rw [bxInterval_band]
  exact ⟨start_toInt nonneg, stop_toInt nonneg legal⟩

/-! ### Frequency 0 and ratio 0 (44_exchanger.md R126, R127, log 34) -/

theorem binIndex_zero {s : State} (valid : s.srValid = true) {z : Word}
    (zero : s.cfg.numerics.isZero z = true) : binIndex s z = 0 := by
  simp only [binIndex, zero, valid, Bool.and_self, if_true]

theorem rawHalfWidth_ratioZero {s : State} (valid : s.srValid = true) (zero : s.ratioZero = true)
    (b : Band) : rawHalfWidth s b = 0 := by
  simp only [rawHalfWidth, zero, valid, Bool.and_self, if_true]

/-- Settles O27: each step by its band, its event and its frame; frequency and ratio 0 by the choice of
log 34, and in binary32 because zeros and NaNs carry through the formula. -/
theorem indexDerivationSteps : Obligations.IndexDerivationSteps := by
  intro s b b' legal other
  extract_lets N formula valid index width ratioZero h0 low high top
  have half : h0 = rawHalfWidth s b := (rawHalfWidth_eq s b).symm
  refine ⟨⟨bxBin b s, rfl, ?bin, ?binBand, bxBin_band_other other s, bxBin_frame b s⟩,
    ⟨bxHalfw b s, rfl, ?halfw, ?halfwBand, bxHalfw_band_other other s, ?halfwEvents, bxHalfw_frame b s⟩,
    fun nonneg => ⟨bxInterval b s, rfl, ?start, ?stop, ?intervalBand, bxInterval_band_other other s,
      bxInterval_events b s, bxInterval_frame b s⟩,
    fun finite positive => ?zero⟩
  case bin =>
    rw [bxBin_band]
    exact bin_toInt s _
  case binBand => rw [bxBin_band]
  case halfw =>
    rw [bxHalfw_band, half]
    exact hw_toInt s b
  case halfwBand => rw [bxHalfw_band]
  case halfwEvents =>
    rw [half]
    exact bxHalfw_events b s
  case start => exact (bxInterval_toInt b legal nonneg).1
  case stop => exact (bxInterval_toInt b legal nonneg).2
  case intervalBand => rw [bxInterval_band]
  case zero =>
    have valid : s.srValid = true := Bool.and_eq_true_iff.2 ⟨finite, positive⟩
    refine ⟨fun z zero => ⟨binIndex_zero valid zero, fun num =>
      binFormula_zeroOrNaN num (zeroOrNaN_of_isZero num zero) _ _⟩, fun ⟨wpol, zero⟩ => ?_⟩
    have product : width = N.mul s.snap.blen (s.snapCut b) := if_pos wpol
    rw [half, product]
    refine ⟨rawHalfWidth_ratioZero valid ?_ b, fun centre =>
      ((numericsMeetTheLaws s.cfg).mulZero _ _ zero centre).1, fun num =>
      binFormula_zeroOrNaN num (zeroOrNaN_halfWidth num zero _ _) _ _⟩
    exact Bool.and_eq_true_iff.2 ⟨decide_eq_true wpol, zero⟩

/-- Settles O28: both clamps leave the centre bin between them. -/
theorem intervalHoldsItsCentreBin : Obligations.IntervalHoldsItsCentreBin := by
  intro s b legal binLow binHigh half
  obtain ⟨start, stop⟩ := bxInterval_toInt b legal (by omega)
  have bin : ((bxInterval b s).band b).bin = (s.band b).bin := by rw [bxInterval_band]
  refine ⟨bxInterval b s, rfl, ?_⟩
  rw [start, stop, bin, BandRegs.low, BandRegs.high]
  omega

end Sys2Proof.Machine
end

section
/-! The blend function (44_exchanger.md R129): its boundary weights in every lawful record, and its
accuracy. -/

-- No thread of its own for each proof, as in the first section of the proofs.
set_option deprecated.oldSectionVars true

namespace Sys2Proof

open Machine

/-! ### Equality up to the sign of a zero (00_scope.md R8) -/

section

variable {N : Numerics} {a b c : Word} (law : N.Lawful)
include law

theorem Numerics.Lawful.eq_of_le_of_le (hab : N.le a b = true)
    (hba : N.le b a = true) : N.eq a b = true := by
  obtain ⟨ha, hb⟩ := law.not_nan (.inr (.inl hab))
  obtain ⟨-, eq, -⟩ := law.order a b ha hb
  rw [eq, hab, hba, Bool.and_self]

theorem Numerics.Lawful.eq_refl (ha : N.isFinite a = true) : N.eq a a = true := by
  have h := law.le_refl (law.finite a ha)
  exact law.eq_of_le_of_le h h

theorem Numerics.Lawful.eq_trans (hab : N.eq a b = true) (hbc : N.eq b c = true) :
    N.eq a c = true := by
  obtain ⟨ab, ba⟩ := law.le_of_eq hab
  obtain ⟨bc, cb⟩ := law.le_of_eq hbc
  exact law.eq_of_le_of_le (law.transitive _ _ _ ab bc) (law.transitive _ _ _ cb ba)

theorem Numerics.Lawful.eq_of_isZero (ha : N.isZero a = true)
    (hb : N.isZero b = true) : N.eq a b = true := by
  obtain ⟨a0, za⟩ := law.le_of_eq ha
  obtain ⟨b0, zb⟩ := law.le_of_eq hb
  exact law.eq_of_le_of_le (law.transitive _ _ _ a0 zb) (law.transitive _ _ _ b0 za)

theorem Numerics.Lawful.isFinite_of_eq (hab : N.eq a b = true)
    (hb : N.isFinite b = true) : N.isFinite a = true := by
  obtain ⟨below, above⟩ := law.le_of_eq hab
  exact law.finiteBetween _ _ a hb hb above below

/-! ### Zero and one as operands -/

theorem Numerics.Lawful.mul_one_eq (ha : N.isFinite a = true) : N.mul N.one a = a := by
  refine (law.mulOne a).resolve_right fun ⟨_, nan⟩ => ?_
  rw [law.finite a ha] at nan
  cases nan

/-- A zero added on either side keeps a finite value, but for the sign of a zero. -/
theorem Numerics.Lawful.eq_add_zero {z : Word} (hz : N.isZero z = true) (ha : N.isFinite a = true) :
    N.eq (N.add a z) a = true ∧ N.eq (N.add z a) a = true := by
  by_cases zero : N.isZero a = true
  · exact ⟨law.eq_of_isZero (law.addZeros _ _ zero hz) zero,
      law.eq_of_isZero (law.addZeros _ _ hz zero) zero⟩
  · obtain ⟨right, left⟩ := law.addZero z a hz ha (by simpa using zero)
    rw [right, left]
    exact ⟨law.eq_refl ha, law.eq_refl ha⟩

/-! ### The boundary weights of `blend` (44_exchanger.md R129) -/

/-- A weight that is a zero and leaves 1 of 1 blends to the first value. -/
theorem Numerics.Lawful.blend_of_rest_one {w : Word} (rest : N.sub N.one w = N.one)
    (hw : N.isZero w = true) (ha : N.isFinite a = true) (hb : N.isFinite b = true) :
    N.eq (blend N w a b) a = true := by
  rw [blend, rest, law.mul_one_eq ha]
  exact (law.eq_add_zero (law.mulZero w b hw hb).1 ha).1

theorem Numerics.Lawful.blend_one (ha : N.isFinite a = true) (hb : N.isFinite b = true) :
    N.eq (blend N N.one a b) b = true := by
  rw [blend, law.subOneOne, law.mul_one_eq hb]
  exact (law.eq_add_zero (law.mulZero _ a law.isZero_zero ha).1 hb).2

end

/-- The weights 0 of a construction: the zero of `NUM.F`, and in binary32 a zero of either sign. -/
def Cfg.zeroWeight (g : Cfg) (w : Word) : Prop :=
  w = Numerics.zero ∨ (g.num = .binary32 ∧ g.numerics.isZero w = true)

/-- In binary32 a zero of either sign leaves 1 of 1. -/
theorem Machine.F32.sub_one_isZero {w : Word} (zero : F32.isZero w = true) :
    F32.sub F32.one w = F32.one := by
  have both : ∀ s, F32.sub F32.one (F32.ofParts s 0) = F32.one := by decide
  rw [← F32.eq_ofParts (F32.isZero_iff.1 zero)]
  exact both _

theorem Cfg.zeroWeight.rest_one {g : Cfg} {w : Word} (h : g.zeroWeight w) :
    g.numerics.sub g.numerics.one w = g.numerics.one ∧ g.numerics.isZero w = true := by
  obtain rfl | ⟨num, zero⟩ := h
  · exact ⟨(numericsMeetTheLaws g).subOneZero, (numericsMeetTheLaws g).isZero_zero⟩
  · refine ⟨?_, zero⟩
    rw [numerics_eq, baseNumerics_binary32 num] at zero ⊢
    exact Machine.F32.sub_one_isZero (binary32_isZero w ▸ zero)

theorem Cfg.zeroWeight.eq_blend {g : Cfg} {w a b : Word} (h : g.zeroWeight w)
    (ha : g.numerics.isFinite a = true) (hb : g.numerics.isFinite b = true) :
    g.numerics.eq (blend g.numerics w a b) a = true := by
  obtain ⟨rest, zero⟩ := h.rest_one
  exact (numericsMeetTheLaws g).blend_of_rest_one rest zero ha hb

/-! ### The accuracy of `blend` (law N-ACC) -/

/-- The errors of the four operations of `blend` add up, that of `1 - w` times the first value. -/
theorem Numerics.Accurate.blend_error {N : Numerics} {value : Word → ℝ}
    {eps : Operation → List Word → ℝ} (acc : N.Accurate value eps) {w a b : Word}
    (ha : N.isFinite a = true) (hb : N.isFinite b = true) (hw : N.isFinite w = true)
    (one : N.isFinite N.one = true) (rest : N.isFinite (N.sub N.one w) = true)
    (left : N.isFinite (N.mul (N.sub N.one w) a) = true) (right : N.isFinite (N.mul w b) = true)
    (sum : N.isFinite (blend N w a b) = true) :
    |value (blend N w a b) - ((1 - value w) * value a + value w * value b)| ≤
      eps .sub [N.one, w] * |value a| + eps .mul [N.sub N.one w, a] + eps .mul [w, b] +
        eps .add [N.mul (N.sub N.one w) a, N.mul w b] := by
  have subError := acc.sub N.one w one hw rest
  have leftError := acc.mul (N.sub N.one w) a rest ha left
  have rightError := acc.mul w b hw hb right
  have addError := acc.add _ _ left right sum
  rw [acc.one] at subError
  have scaled := mul_le_mul_of_nonneg_right subError (abs_nonneg (value a))
  rw [← abs_mul] at scaled
  rw [blend]
  rw [abs_le] at *
  constructor <;> linarith

/-- Settles O33: the boundary weights by the laws N-ONE and N-ZERO, the accuracy by the errors of the
operations. -/
theorem blendAtTheBoundaryWeights : Obligations.BlendAtTheBoundaryWeights := fun g _ _ _ ha hb =>
  ⟨fun weight => Cfg.zeroWeight.eq_blend weight ha hb, (numericsMeetTheLaws g).blend_one ha hb,
    fun _ _ acc hw one rest left right sum => acc.blend_error ha hb hw one rest left right sum⟩

end Sys2Proof
end

section
/-! The mixing of the Band Exchanger (44_exchanger.md R130 to R134): what each mix makes of the working
copies, and what `EXCHANGE` makes of the two spectra of a channel. -/

-- No thread of its own for each proof, as in the first section of the proofs.
set_option deprecated.oldSectionVars true

namespace Sys2Proof.Machine

/-! ### The bins of an interval (44_exchanger.md R136) -/

theorem BandRegs.holds_iff (r : BandRegs) (i : Nat) :
    r.holds i = true ↔ r.start.toInt ≤ (i : Int) ∧ (i : Int) ≤ r.stop.toInt := by
  simp only [BandRegs.holds, Bool.and_eq_true, decide_eq_true_eq]

theorem sideMix_eq (s : State) (b : Band) :
    s.sideMix b = if s.cfg.sidepol = .same then s.snapMix b else s.snapMix (otherBand b) := by
  unfold State.sideMix
  cases s.cfg.sidepol <;> rfl

theorem pairs_le_length (s : State) : s.pairs ≤ s.band1.length ∧ s.pairs ≤ s.band2.length :=
  ⟨min_le_left _ _, min_le_right _ _⟩

/-- The bins that the full exchange pairs lie in the interval. -/
theorem holds_of_paired {r : BandRegs} {pairs : Int} (inside : pairs ≤ r.length) {i : Nat}
    (first : 0 ≤ (i : Int) - r.start.toInt) (last : (i : Int) - r.start.toInt < pairs) :
    r.holds i = true := by
  unfold BandRegs.length at inside
  rw [BandRegs.holds_iff]
  omega

/-- A bin in neither band is blended in neither mode (44_exchanger.md R133). -/
theorem mixes_of_outside {s : State} {i : Nat} (first : s.band1.holds i = false)
    (second : s.band2.holds i = false) : s.mixes i = false := by
  unfold State.mixes
  split
  · rw [first, second, Bool.or_self]
  · by_contra paired
    simp only [Bool.not_eq_false, Bool.and_eq_true, decide_eq_true_eq] at paired
    rw [holds_of_paired (pairs_le_length s).1 paired.1 paired.2] at first
    cases first

/-! ### One array of a mix, element by element (44_exchanger.md R130, R131) -/

section

variable {N : Numerics} {n i : Nat} (inBins : i < n) (w : Word) (xs ys : List Word)
include inBins

theorem at0_mixIn_of_lt (r : BandRegs) :
    at0 (mixIn N n r w xs ys) i =
      if r.holds i then blend N w (at0 xs i) (at0 ys i) else at0 xs i := by
  rw [at0_mixIn, if_pos inBins]

theorem at0_mixIn_interval (r : BandRegs) :
    at0 (mixIn N n r w xs ys) i =
      if r.start.toInt ≤ (i : Int) ∧ (i : Int) ≤ r.stop.toInt then blend N w (at0 xs i) (at0 ys i)
      else at0 xs i := by
  simp only [at0_mixIn_of_lt inBins, BandRegs.holds_iff]

theorem at0_exchangeIn_of_not_paired {pairs : Int} {own : BandRegs} (other : BandRegs)
    (apart : ¬ (0 ≤ (i : Int) - own.start.toInt ∧ (i : Int) - own.start.toInt < pairs)) :
    at0 (exchangeIn N n pairs own other w xs ys) i = at0 xs i := by
  rw [at0_exchangeIn, if_pos inBins, if_neg apart]

end

section

variable {g : Cfg} {pairs : Int} {own other : BandRegs} (ownBounds : own.inBounds g)
  (otherBounds : other.inBounds g) (ownPairs : pairs ≤ own.length)
include ownBounds ownPairs

theorem paired_lt_nb {p : Nat} (paired : (p : Int) < pairs) : own.start.toInt.toNat + p < g.nb := by
  obtain ⟨-, start, stop⟩ := ownBounds
  unfold BandRegs.length at ownPairs
  unfold Cfg.nb
  omega

omit ownPairs in
theorem not_paired {i : Nat} (apart : ¬ (own.start.toInt.toNat ≤ i ∧
      (i : Int) < own.start.toInt.toNat + pairs)) :
    ¬ (0 ≤ (i : Int) - own.start.toInt ∧ (i : Int) - own.start.toInt < pairs) := by
  obtain ⟨-, start, -⟩ := ownBounds
  omega

include otherBounds

/-- Element `p` of one interval is blended with element `p` of the other. -/
theorem at0_exchangeIn_pair (N : Numerics) (w : Word) (xs ys : List Word) {p : Nat}
    (paired : (p : Int) < pairs) :
    at0 (exchangeIn N g.nb pairs own other w xs ys) (own.start.toInt.toNat + p) =
      blend N w (at0 xs (own.start.toInt.toNat + p)) (at0 ys (other.start.toInt.toNat + p)) := by
  have inBins := paired_lt_nb ownBounds ownPairs paired
  obtain ⟨-, start, -⟩ := ownBounds
  obtain ⟨-, start', -⟩ := otherBounds
  have offset : ((own.start.toInt.toNat + p : Nat) : Int) - own.start.toInt = p := by omega
  have place : (other.start.toInt + (p : Int)).toNat = other.start.toInt.toNat + p := by omega
  rw [at0_exchangeIn, if_pos inBins, offset, place, if_pos ⟨Int.natCast_nonneg p, paired⟩]

end

/-- Settles O29: the four arrays of each mix, one law for each. -/
theorem mixStepsWriteTheWorkingCopies : Obligations.MixStepsWriteTheWorkingCopies := by
  intro s b c channel bounds
  refine ⟨⟨bxMixp b s, exec_of_channel (i := .bxMixp b c) rfl (by simp) channel,
      fun i inBins => ?proportional, rfl⟩,
    ⟨bxMixf s, exec_of_channel (i := .bxMixf c) rfl (by simp) channel,
      ⟨fun p paired => ?pair, fun i inBins apart => ?main, fun i inBins apart => ?side⟩, rfl⟩⟩
  case proportional =>
    rw [← sideMix_eq]
    exact ⟨at0_mixIn_interval inBins _ _ _ _, at0_mixIn_interval inBins _ _ _ _,
      at0_mixIn_interval inBins _ _ _ _, at0_mixIn_interval inBins _ _ _ _⟩
  case pair =>
    obtain ⟨first, second⟩ := pairs_le_length s
    have mainPair := at0_exchangeIn_pair (bounds .one) (bounds .two) first s.cfg.numerics s.snap.mix1
    have sidePair := at0_exchangeIn_pair (bounds .two) (bounds .one) second s.cfg.numerics s.snap.mix2
    exact ⟨mainPair _ _ paired, sidePair _ _ paired, mainPair _ _ paired, sidePair _ _ paired⟩
  case main =>
    have apart := not_paired (bounds .one) apart
    exact ⟨at0_exchangeIn_of_not_paired inBins _ _ _ _ apart,
      at0_exchangeIn_of_not_paired inBins _ _ _ _ apart⟩
  case side =>
    have apart := not_paired (bounds .two) apart
    exact ⟨at0_exchangeIn_of_not_paired inBins _ _ _ _ apart,
      at0_exchangeIn_of_not_paired inBins _ _ _ _ apart⟩

/-! ### The selected mix (44_exchanger.md R132) -/

/-- What the mix that `SNAP_XMODE` selects makes of an array of the main copy, given the same array of
the sidechain copy. -/
def State.mixOf (s : State) (main side : List Word) : List Word :=
  let N := s.cfg.numerics
  let n := s.cfg.nb
  if s.snap.xmode = 0 then
    mixIn N n s.band2 s.snap.mix2 (mixIn N n s.band1 s.snap.mix1 main side)
      (mixIn N n s.band1 (s.sideMix .one) side main)
  else exchangeIn N n s.pairs s.band1 s.band2 s.snap.mix1 main side

theorem mixSelected_copies (s : State) :
    (mixSelected s).scratch.wmMag = s.mixOf s.scratch.wmMag s.scratch.wsMag ∧
      (mixSelected s).scratch.wmPh = s.mixOf s.scratch.wmPh s.scratch.wsPh := by
  unfold mixSelected State.mixOf
  split <;> exact ⟨rfl, rfl⟩

/-- Bin `i` of the proportional mix: band 1 on the old values of both copies, then band 2 on what band 1
left of them. -/
def State.mixedBin (s : State) (i : Nat) (m x : Word) : Word :=
  let N := s.cfg.numerics
  let m1 := if s.band1.holds i then blend N s.snap.mix1 m x else m
  let x1 := if s.band1.holds i then blend N (s.sideMix .one) x m else x
  if s.band2.holds i then blend N s.snap.mix2 m1 x1 else m1

section

variable {s : State} {i : Nat} (main side : List Word)

theorem at0_mixOf_proportional (inBins : i < s.cfg.nb) (mode : s.snap.xmode = 0) :
    at0 (s.mixOf main side) i = s.mixedBin i (at0 main i) (at0 side i) := by
  simp only [State.mixOf, State.mixedBin, mode, if_true, at0_mixIn_of_lt inBins]

theorem mixOf_full (mode : s.snap.xmode ≠ 0) :
    s.mixOf main side =
      exchangeIn s.cfg.numerics s.cfg.nb s.pairs s.band1 s.band2 s.snap.mix1 main side := by
  rw [State.mixOf, if_neg mode]

theorem at0_mixOf_pair (mode : s.snap.xmode ≠ 0) (bounds : ∀ b, (s.band b).inBounds s.cfg) {p : Nat}
    (paired : (p : Int) < s.pairs) :
    at0 (s.mixOf main side) (s.band1.start.toInt.toNat + p) =
      blend s.cfg.numerics s.snap.mix1 (at0 main (s.band1.start.toInt.toNat + p))
        (at0 side (s.band2.start.toInt.toNat + p)) := by
  rw [mixOf_full main side mode]
  exact at0_exchangeIn_pair (bounds .one) (bounds .two) (pairs_le_length s).1 _ _ _ _ paired

omit main side in
theorem mixes_of_not_paired (mode : s.snap.xmode ≠ 0) (bounds : ∀ b, (s.band b).inBounds s.cfg)
    (apart : ¬ (s.band1.start.toInt.toNat ≤ i ∧ (i : Int) < s.band1.start.toInt.toNat + s.pairs)) :
    s.mixes i = false := by
  have apart := not_paired (bounds .one) apart
  rw [State.mixes, if_neg mode, ← Bool.decide_and]
  exact decide_eq_false apart

theorem at0_mixOf_of_not_mixes (inBins : i < s.cfg.nb) (outside : s.mixes i = false) :
    at0 (s.mixOf main side) i = at0 main i := by
  unfold State.mixes at outside
  split at outside
  · next mode =>
    rw [Bool.or_eq_false_iff] at outside
    simp [at0_mixOf_proportional main side inBins mode, State.mixedBin, outside]
  · next mode =>
    rw [mixOf_full main side mode, at0_exchangeIn_of_not_paired inBins]
    simpa [Bool.and_eq_false_iff] using outside

end

/-! ### The whole exchange (44_exchanger.md R132, R133) -/

theorem at0_elements_of_lt (s : State) (sp : Space) {n i : Nat} (h : i < n) :
    at0 (s.elements sp n) i = s.element sp i := by rw [at0_elements, if_pos h]

/-- The main working copies that `EXCHANGE` leaves: the selected mix of the two spectra. -/
theorem exchange_copies (c : Chan) (s : State) :
    (exchange c s).scratch.wmMag =
        s.mixOf (s.elements (.specMag .main c) s.cfg.nb) (s.elements (.specMag .side c) s.cfg.nb) ∧
      (exchange c s).scratch.wmPh =
        s.mixOf (s.elements (.specPh .main c) s.cfg.nb) (s.elements (.specPh .side c) s.cfg.nb) := by
  rw [exchange, storeMix_scratch]
  exact mixSelected_copies (loadCopies c (joinMarks c s))

theorem exchange_marks (c : Chan) (s : State) : (exchange c s).marks = (joinMarks c s).marks := by
  simp [exchange]

theorem exchange_mixMark (c c' : Chan) (s : State) :
    (exchange c s).mixMark c' =
      if c' = c then s.specMark .main c || s.specMark .side c else s.mixMark c' := by
  rw [State.mixMark, exchange_marks]
  exact markMix_mixMark c c' _ s

theorem mixes_congr {s t : State} (snap : t.snap = s.snap) (band1 : t.band1 = s.band1)
    (band2 : t.band2 = s.band2) (i : Nat) : t.mixes i = s.mixes i := by
  cases s
  cases t
  subst snap band1 band2
  rfl

theorem exchange_frame (c : Chan) (s : State) :
    exchange c s = { s with
      mem := (exchange c s).mem, scratch := (exchange c s).scratch
      marks := { s.marks with mix := (exchange c s).marks.mix } } := by
  have marks : (exchange c s).marks = { s.marks with mix := (exchange c s).marks.mix } := by
    rw [exchange_marks]
    rfl
  calc exchange c s = { exchange c s with cfg := (exchange c s).cfg } := rfl
    _ = _ := by rw [← marks]; simp

theorem exchange_sameOutside {s : State} (memory : s.mem.wf) (c : Chan) :
    sameOutside (fun a => firstElements (.mixMag c) s.cfg.nb a ∨
      firstElements (.mixPh c) s.cfg.nb a) s (exchange c s) := by
  intro a outside
  obtain ⟨notMag, notPh⟩ := not_or.1 outside
  rw [exchange, storeMix, setElements_sameOutside (setElements_wf (by simpa) _ _) _ _ a (by simpa),
    setElements_sameOutside (by simpa) _ _ a (by simpa)]
  simp

section

variable {s : State} (memory : s.mem.wf) {c : Chan} {i : Nat} (inBins : i < s.cfg.nb)
include memory inBins

/-- A bin of the mixed spectrum is that of the main working copy, but for a blended bin of a marked
spectrum. -/
theorem exchange_bin :
    (exchange c s).element (.mixMag c) i =
        (if (exchange c s).mixMark c && s.mixes i then
          Config.unspecified .mixMagnitude (exchange c s).scratch.wmMag i
        else at0 (exchange c s).scratch.wmMag i) ∧
      (exchange c s).element (.mixPh c) i =
        (if (exchange c s).mixMark c && s.mixes i then
          Config.unspecified .mixPhase (exchange c s).scratch.wmPh i
        else at0 (exchange c s).scratch.wmPh i) := by
  have scratch : (exchange c s).scratch = (mixSelected (loadCopies c (joinMarks c s))).scratch := by
    rw [exchange, storeMix_scratch]
  have mark : (exchange c s).mixMark c = (mixSelected (loadCopies c (joinMarks c s))).mixMark c := by
    simp only [State.mixMark, exchange, storeMix_marks]
  have mixes : (mixSelected (loadCopies c (joinMarks c s))).mixes i = s.mixes i :=
    mixes_congr (by simp) (by simp) (by simp) i
  rw [exchange_element memory, exchange_element memory]
  simp [inBins, at0_mixedArray, scratch, mark, mixes]

/-- A bin that the selected mix leaves alone is the main spectrum's, marked or not. -/
theorem exchange_bin_of_not_mixes (outside : s.mixes i = false) :
    (exchange c s).element (.mixMag c) i = s.element (.specMag .main c) i ∧
      (exchange c s).element (.mixPh c) i = s.element (.specPh .main c) i := by
  obtain ⟨magnitude, phase⟩ := exchange_bin memory (c := c) inBins
  obtain ⟨wmMag, wmPh⟩ := exchange_copies c s
  rw [magnitude, phase, wmMag, wmPh, outside, at0_mixOf_of_not_mixes _ _ inBins outside,
    at0_mixOf_of_not_mixes _ _ inBins outside, at0_elements_of_lt s _ inBins,
    at0_elements_of_lt s _ inBins]
  simp

/-- A bin of spectra of finite frames is the selected mix of them. -/
theorem exchange_bin_of_unmarked (mainMark : s.specMark .main c = false)
    (sideMark : s.specMark .side c = false) :
    (exchange c s).element (.mixMag c) i = at0 (s.mixOf (s.elements (.specMag .main c) s.cfg.nb)
        (s.elements (.specMag .side c) s.cfg.nb)) i ∧
      (exchange c s).element (.mixPh c) i = at0 (s.mixOf (s.elements (.specPh .main c) s.cfg.nb)
        (s.elements (.specPh .side c) s.cfg.nb)) i := by
  obtain ⟨magnitude, phase⟩ := exchange_bin memory (c := c) inBins
  obtain ⟨wmMag, wmPh⟩ := exchange_copies c s
  have unmarked : (exchange c s).mixMark c = false := by
    rw [exchange_mixMark, if_pos rfl, mainMark, sideMark, Bool.or_self]
  rw [magnitude, phase, unmarked, ← wmMag, ← wmPh]
  simp

end

theorem exec_exchange {s : State} {c : Chan} (channel : c.val < s.cfg.nch) :
    exec (.exchange c) s = .next (exchange c s) := exec_of_channel rfl (by simp) channel

/-- Settles O30: no mode blends a bin outside both bands, and the mark of the channel is the join of its
spectra's. -/
theorem exchangeKeepsBinsOutsideBothBands : Obligations.ExchangeKeepsBinsOutsideBothBands := by
  intro s c memory channel
  refine ⟨exchange c s, exec_exchange channel, fun i inBins first second =>
      exchange_bin_of_not_mixes memory inBins (mixes_of_outside first second), ?mark,
    fun c' other => ?others, fun marked i inBins mixed => ?unspecified,
    exchange_sameOutside memory c, exchange_frame c s⟩
  case mark => rw [exchange_mixMark, if_pos rfl]
  case others => rw [exchange_mixMark, if_neg other]
  case unspecified =>
    obtain ⟨magnitude, phase⟩ := exchange_bin memory (c := c) inBins
    rw [magnitude, phase, marked, mixed]
    exact ⟨rfl, rfl⟩

/-- Settles O31: each bin by the law of the proportional mix. -/
theorem proportionalExchange : Obligations.ProportionalExchange := by
  intro s c memory channel mode mainMark sideMark
  refine ⟨exchange c s, exec_exchange channel, fun i inBins => ?_⟩
  obtain ⟨magnitude, phase⟩ := exchange_bin_of_unmarked memory inBins mainMark sideMark
  rw [magnitude, phase, at0_mixOf_proportional _ _ inBins mode, at0_mixOf_proportional _ _ inBins mode]
  simp only [at0_elements_of_lt s _ inBins, State.mixedBin, sideMix_eq]
  exact ⟨rfl, rfl⟩

/-- Settles O32: each paired bin by the law of the full exchange, every other bin by that of the bins it
leaves alone. -/
theorem fullExchange : Obligations.FullExchange := by
  intro s c memory channel mode mainMark sideMark bounds
  have mode : s.snap.xmode ≠ 0 := by
    rw [mode]
    decide
  obtain ⟨first, second⟩ := pairs_le_length s
  refine ⟨exchange c s, exec_exchange channel, fun p paired => ?pair, fun i inBins apart => ?other⟩
  case pair =>
    have inMain : s.band1.start.toInt.toNat + p < s.cfg.nb := paired_lt_nb (bounds .one) first paired
    have inSide : s.band2.start.toInt.toNat + p < s.cfg.nb := paired_lt_nb (bounds .two) second paired
    obtain ⟨magnitude, phase⟩ := exchange_bin_of_unmarked memory inMain mainMark sideMark
    have pair (main side : Space) := at0_mixOf_pair (s.elements main s.cfg.nb)
      (s.elements side s.cfg.nb) mode bounds paired
    simp only [at0_elements_of_lt s _ inMain, at0_elements_of_lt s _ inSide] at pair
    exact ⟨magnitude.trans (pair _ _), phase.trans (pair _ _)⟩
  case other =>
    exact exchange_bin_of_not_mixes memory inBins (mixes_of_not_paired mode bounds apart)

/-! ### Ratios of 0 (44_exchanger.md R134 (c)) -/

section

variable {s : State} (weights : ∀ b, s.cfg.zeroWeight (s.snapMix b))
include weights

theorem sideMix_zeroWeight (b : Band) : s.cfg.zeroWeight (s.sideMix b) := by
  unfold State.sideMix
  split
  · exact weights b
  · exact weights (otherBand b)

theorem mixedBin_of_zeroWeights {i : Nat} {m x : Word} (finiteM : s.cfg.numerics.isFinite m = true)
    (finiteX : s.cfg.numerics.isFinite x = true) :
    s.cfg.numerics.eq (s.mixedBin i m x) m = true := by
  have law := numericsMeetTheLaws s.cfg
  have keeps {held : Bool} {w a b : Word} (weight : s.cfg.zeroWeight w)
      (finiteA : s.cfg.numerics.isFinite a = true) (finiteB : s.cfg.numerics.isFinite b = true) :
      s.cfg.numerics.eq (if held then blend s.cfg.numerics w a b else a) a = true := by
    split
    · exact weight.eq_blend finiteA finiteB
    · exact law.eq_refl finiteA
  have first := keeps (held := s.band1.holds i) (weights .one) finiteM finiteX
  have side := keeps (held := s.band1.holds i) (sideMix_zeroWeight weights .one) finiteX finiteM
  have second := keeps (held := s.band2.holds i) (weights .two) (law.isFinite_of_eq first finiteM)
    (law.isFinite_of_eq side finiteX)
  exact law.eq_trans second first

theorem at0_mixOf_of_zeroWeights (bounds : ∀ b, (s.band b).inBounds s.cfg) {main side : List Word}
    (finiteMain : ∀ i, i < s.cfg.nb → s.cfg.numerics.isFinite (at0 main i) = true)
    (finiteSide : ∀ i, i < s.cfg.nb → s.cfg.numerics.isFinite (at0 side i) = true) {i : Nat}
    (inBins : i < s.cfg.nb) :
    s.cfg.numerics.eq (at0 (s.mixOf main side) i) (at0 main i) = true := by
  have law := numericsMeetTheLaws s.cfg
  by_cases mode : s.snap.xmode = 0
  · rw [at0_mixOf_proportional _ _ inBins mode]
    exact mixedBin_of_zeroWeights weights (finiteMain i inBins) (finiteSide i inBins)
  · by_cases paired : s.band1.start.toInt.toNat ≤ i ∧
        (i : Int) < s.band1.start.toInt.toNat + s.pairs
    · obtain ⟨p, rfl⟩ := Nat.exists_eq_add_of_le paired.1
      have inPairs : (p : Int) < s.pairs := by omega
      have inSide := paired_lt_nb (bounds .two) (pairs_le_length s).2 inPairs
      rw [at0_mixOf_pair _ _ mode bounds inPairs]
      exact (weights .one).eq_blend (finiteMain _ inBins) (finiteSide _ inSide)
    · rw [at0_mixOf_of_not_mixes _ _ inBins (mixes_of_not_paired mode bounds paired)]
      exact law.eq_refl (finiteMain i inBins)

theorem mixOf_elements_of_zeroWeights (bounds : ∀ b, (s.band b).inBounds s.cfg) {main side : Space}
    (finiteMain : ∀ i, i < s.cfg.nb → s.cfg.numerics.isFinite (s.element main i) = true)
    (finiteSide : ∀ i, i < s.cfg.nb → s.cfg.numerics.isFinite (s.element side i) = true) {i : Nat}
    (inBins : i < s.cfg.nb) :
    s.cfg.numerics.eq (at0 (s.mixOf (s.elements main s.cfg.nb) (s.elements side s.cfg.nb)) i)
      (s.element main i) = true := by
  rw [← at0_elements_of_lt s main inBins]
  exact at0_mixOf_of_zeroWeights weights bounds
    (fun j h => at0_elements_of_lt s main h ▸ finiteMain j h)
    (fun j h => at0_elements_of_lt s side h ▸ finiteSide j h) inBins

end

/-- Settles O34: each bin of both arrays by the law of the selected mix under weights 0. -/
theorem zeroRatiosKeepTheMainSpectrum : Obligations.ZeroRatiosKeepTheMainSpectrum := by
  intro s c N memory channel bounds mainMark sideMark weights finite
  refine ⟨exchange c s, exec_exchange channel, fun i inBins => ?_⟩
  obtain ⟨magnitude, phase⟩ := exchange_bin_of_unmarked memory inBins mainMark sideMark
  rw [magnitude, phase]
  exact ⟨mixOf_elements_of_zeroWeights weights bounds (fun j h => (finite .main j h).1)
      (fun j h => (finite .side j h).1) inBins,
    mixOf_elements_of_zeroWeights weights bounds (fun j h => (finite .main j h).2)
      (fun j h => (finite .side j h).2) inBins⟩

end Sys2Proof.Machine
end

section
/-! The Spectral Synthesizer (45_synthesizer.md R140 to R148): what each of its steps leaves, the
sequence of them, and the silence that a silent or a finite mixed spectrum adds. -/

-- No thread of its own for each proof, as in the first section of the proofs.
set_option deprecated.oldSectionVars true

namespace Sys2Proof.Machine

/-! ### When the operations complete -/

theorem exec_syNormwin {s : State} {c : Chan} (channel : c.val < s.cfg.nch) :
    exec (.syNormwin c) s = .next (syNormwin c s) := exec_of_channel rfl (by simp) channel

theorem exec_syOla {s : State} {c : Chan} (channel : c.val < s.cfg.nch) :
    exec (.syOla c) s = .next (syOla c s) := exec_of_channel rfl (by simp) channel

theorem exec_synthesize {s : State} {c : Chan} (channel : c.val < s.cfg.nch) :
    exec (.synthesize c) s = .next (synthesize c s) := exec_of_channel rfl (by simp) channel

/-! ### What the first three steps leave (45_synthesizer.md R140 to R143) -/

/-- In binary32 a number times 1 is itself. -/
theorem F32.mul_one_right {x : Word} (number : F32.isNaN x = false) : F32.mul x F32.one = x := by
  obtain ⟨n1, i1, z1, -, finite1, -⟩ := F32.one_parts
  have comm : F32.mul x F32.one = F32.mul F32.one x := by
    obtain nan | ⟨-, infinite⟩ | finite := F32.isNaN_or_isInf_or_isFinite x
    · simp [number] at nan
    · have nonzero : F32.isZero x = false := by
        simp only [F32.isInf, F32.isZero, decide_eq_true_eq, decide_eq_false_iff_not] at *
        rw [infinite]
        decide
      simp [F32.mul, n1, i1, z1, number, infinite, nonzero, Bool.xor_comm]
    · rw [F32.mul_finite finite finite1, F32.mul_finite finite1 finite, Bool.xor_comm, Nat.mul_comm]
  rw [comm]
  exact (F32.mul_one_agrees x).resolve_right fun ⟨_, nan⟩ => by simp [number] at nan

section

variable {N : Numerics} {mag ph : Word}

theorem rectPart_isZero (law : N.Lawful) (zero : N.isZero mag = true) (finite : N.isFinite ph = true)
    (f : Word → Word) : N.isZero (rectPart N f mag ph) = true := by
  rw [rectPart, zero, finite]
  exact keepZero_promised law.isZero_zero _

/-- A part of a bin is the product where R140 promises no zero, or the product is one. -/
theorem rectPart_eq {f : Word → Word} (h : ¬ (N.isZero mag = true ∧ N.isFinite ph = true) ∨
    N.isZero (N.mul mag (f ph)) = true) : rectPart N f mag ph = N.mul mag (f ph) :=
  keepZero_eq fun silent => h.resolve_left (not_not.2 (Bool.and_eq_true_iff.1 silent))

/-- The condition under which the real part is the magnitude itself (45_synthesizer.md R140). -/
theorem straight_iff : (phaseZero N ph && !N.isNaN mag) = true ↔
    N.isZero ph = true ∧ N.cos ph = N.one ∧ N.isZero (N.sin ph) = true ∧ N.isNaN mag = false := by
  simp [phaseZero, and_assoc]

theorem rectRe_isZero (law : N.Lawful) (zero : N.isZero mag = true) (finite : N.isFinite ph = true) :
    N.isZero (rectRe N mag ph) = true := by
  unfold rectRe
  split
  · exact zero
  · exact rectPart_isZero law zero finite _

theorem rectRe_of_straight (straight : (phaseZero N ph && !N.isNaN mag) = true) :
    rectRe N mag ph = mag := if_pos straight

theorem rectRe_of_not_straight (bent : ¬ (phaseZero N ph && !N.isNaN mag) = true) :
    rectRe N mag ph = rectPart N N.cos mag ph := if_neg bent

end

/-- In binary32 the real part is the product but for magnitude 0 at a finite phase: a number times
`cos(0) = 1` is the number. -/
theorem rectRe_binary32 {g : Cfg} (num : g.num = .binary32) {mag ph : Word}
    (loud : ¬ (g.numerics.isZero mag = true ∧ g.numerics.isFinite ph = true)) :
    rectRe g.numerics mag ph = g.numerics.mul mag (g.numerics.cos ph) := by
  by_cases straight : (phaseZero g.numerics ph && !g.numerics.isNaN mag) = true
  · obtain ⟨-, cos, -, number⟩ := straight_iff.1 straight
    rw [rectRe_of_straight straight, cos]
    rw [numerics_eq, baseNumerics_binary32 num] at number ⊢
    exact (F32.mul_one_right (binary32_isNaN mag ▸ number)).symm
  · rw [rectRe_of_not_straight straight, rectPart_eq (.inl loud)]

theorem mixFinite_iff (s : State) (c : Chan) :
    s.mixFinite c = true ↔ ∀ k, k < s.cfg.nb →
      s.cfg.numerics.isFinite (s.element (.mixMag c) k) = true ∧
        s.cfg.numerics.isFinite (s.element (.mixPh c) k) = true := by
  simp [State.mixFinite]

section

variable {s : State} {k : Nat} (inBins : k < s.cfg.nb) (c : Chan)
include inBins

theorem at0_syRect_re : at0 (syRect c s).scratch.re k =
    rectRe s.cfg.numerics (s.element (.mixMag c) k) (s.element (.mixPh c) k) := by
  rw [syRect, at0_range_map, if_pos inBins]

theorem at0_syRect_im : at0 (syRect c s).scratch.im k =
    rectPart s.cfg.numerics s.cfg.numerics.sin (s.element (.mixMag c) k) (s.element (.mixPh c) k) := by
  rw [syRect, at0_range_map, if_pos inBins]

end

section

variable {s : State} {i : Nat}

theorem at0_sySymm_re (inFrame : i < s.cfg.n) :
    at0 (sySymm s).scratch.re i = mirroredRe s.cfg.n s.scratch.re i := by
  rw [sySymm, at0_range_map, if_pos inFrame]

theorem at0_sySymm_im (inFrame : i < s.cfg.n) :
    at0 (sySymm s).scratch.im i = mirroredIm s.cfg.numerics s.cfg.n s.scratch.im i := by
  rw [sySymm, at0_range_map, if_pos inFrame]

end

section

variable (N : Numerics) {n i : Nat} (xs : List Word)

theorem mirroredRe_low (low : i ≤ n / 2) : mirroredRe n xs i = at0 xs i := if_pos low

theorem mirroredRe_mirror (low : i < n / 2) : mirroredRe n xs (n - i) = at0 xs i := by
  rw [mirroredRe, if_neg (by omega), show n - (n - i) = i by omega]

theorem mirroredIm_ends (ends : i = 0 ∨ i = n / 2) : mirroredIm N n xs i = Numerics.zero := if_pos ends

theorem mirroredIm_low (positive : 1 ≤ i) (low : i < n / 2) : mirroredIm N n xs i = at0 xs i := by
  rw [mirroredIm, if_neg (by omega), if_pos low]

theorem mirroredIm_mirror (positive : 1 ≤ i) (low : i < n / 2) :
    mirroredIm N n xs (n - i) =
      keepZero N.isZero (N.isZero (at0 xs i)) (N.sub Numerics.zero (at0 xs i)) := by
  rw [mirroredIm, if_neg (by omega), if_neg (by omega), show n - (n - i) = i by omega]

end

/-- The samples of an inverse transform: one for each of the `N` points. -/
theorem numerics_irfft_length (g : Cfg) (bins : List (Word × Word)) :
    (g.numerics.irfft g.logn bins).length = g.n := by
  have own : ((baseNumerics g).irfft g.logn bins).length = g.n := by
    unfold baseNumerics
    cases g.num <;> simp [binary32, lawfulNum, RawNum.record, lawfulSamples, Cfg.n]
  unfold Cfg.numerics
  cases g.transform with
  | implementation => exact own
  | reference =>
    simp only [Numerics.withReference, referenceIrfft, List.length_map, fftCore_length]
    rfl

theorem irfft_length (g : Cfg) (bins : List (Word × Word)) : (irfft g bins).length = g.n := by
  unfold irfft
  split
  · exact numerics_irfft_length g bins
  · simp

/-! ### Division and window (45_synthesizer.md R144) -/

@[simp] theorem syNormwin_y_length (c : Chan) (s : State) :
    (syNormwin c s).scratch.y.length = s.cfg.n := by simp [syNormwin]

theorem at0_syNormwin_y {s : State} {n : Nat} (inFrame : n < s.cfg.n) (c : Chan) :
    at0 (syNormwin c s).scratch.y n = s.frameSample c n := by
  rw [syNormwin, at0_range_map, if_pos inFrame]

theorem startsAtZero_iff (s : State) (n : Nat) :
    s.startsAtZero n = true ↔ n = 0 ∧ s.cfg.numerics.isZero (windowAt s.cfg 0) = true ∧
      (s.cfg.numerics.isFinite (at0 s.scratch.y 0) = true ∨ s.scratch.yFromFinite = true) := by
  simp [State.startsAtZero, and_assoc]

/-- A mixed spectrum of zero magnitudes and finite phases (45_synthesizer.md R148). -/
def State.SilentSpectrum (s : State) (c : Chan) : Prop :=
  ∀ k, k < s.cfg.nb → s.cfg.numerics.isZero (s.element (.mixMag c) k) = true ∧
    s.cfg.numerics.isFinite (s.element (.mixPh c) k) = true

theorem mixSilent_iff (s : State) (c : Chan) :
    s.mixSilent c = true ↔ s.SilentSpectrum c ∧
      ∀ n, n < s.cfg.n → s.cfg.numerics.isZero (at0 s.scratch.y n) = true := by
  simp [State.mixSilent, State.SilentSpectrum]

/-- The formula of R144. -/
def State.windowedQuotient (s : State) (n : Nat) : Word :=
  s.cfg.numerics.mul (s.cfg.numerics.div (at0 s.scratch.y n) (s.cfg.numerics.ofNat s.cfg.n))
    (windowAt s.cfg n)

section

variable {s : State} {c : Chan} {n : Nat}

theorem frameSample_marked (marked : s.mixMark c = true) :
    s.frameSample c n = Config.unspecified .frame s.scratch.y n := if_pos marked

theorem frameSample_unmarked (clean : s.mixMark c = false) :
    s.frameSample c n = keepZero s.cfg.numerics.isZero (s.startsAtZero n || s.mixSilent c)
      (s.windowedQuotient n) := if_neg (by simp [clean])

theorem frameSample_isZero (clean : s.mixMark c = false)
    (promised : s.startsAtZero n = true ∨ s.mixSilent c = true) :
    s.cfg.numerics.isZero (s.frameSample c n) = true := by
  rw [frameSample_unmarked clean, Bool.or_eq_true_iff.2 promised]
  exact keepZero_promised (numericsMeetTheLaws s.cfg).isZero_zero _

theorem frameSample_eq (clean : s.mixMark c = false)
    (h : ¬ (s.startsAtZero n = true ∨ s.mixSilent c = true) ∨
      s.cfg.numerics.isZero (s.windowedQuotient n) = true) :
    s.frameSample c n = s.windowedQuotient n := by
  rw [frameSample_unmarked clean]
  exact keepZero_eq fun promised => h.resolve_left (not_not.2 (Bool.or_eq_true_iff.1 promised))

end

/-- Settles O35: each step element by element, by the laws of the part of a bin, the mirrored arrays, the
transform and the sample of a frame. -/
theorem synthesizerStagesWriteScratchOnly : Obligations.SynthesizerStagesWriteScratchOnly := by
  intro s c legal channel N
  obtain ⟨size, -⟩ := legal_bounds legal
  refine ⟨⟨syRect c s, exec_of_channel (i := .syRect c) rfl (by simp) channel, by simp [syRect],
      by simp [syRect], fun k inBins => ?rect, mixFinite_iff s c, rfl⟩,
    ⟨sySymm s, exec_of_channel (i := .sySymm c) rfl (by simp) channel, by simp [sySymm],
      by simp [sySymm], ?dc, ?nyquist, ?reDc, ?reNyquist, fun i positive low => ?mirror, rfl⟩,
    ⟨syIrfft s, exec_of_channel (i := .syIrfft c) rfl (by simp) channel, irfft_length _ _, rfl, rfl⟩,
    ⟨syNormwin c s, exec_syNormwin channel, syNormwin_y_length c s, fun n inFrame => ?sample, rfl⟩⟩
  case rect =>
    have law := numericsMeetTheLaws s.cfg
    rw [at0_syRect_re inBins, at0_syRect_im inBins]
    intro mag ph silent straight
    refine ⟨fun ⟨zero, finite⟩ =>
        ⟨rectRe_isZero law zero finite, rectPart_isZero law zero finite _⟩,
      fun h => rectRe_of_straight (straight_iff.2 h), fun bent formula => ?_,
      fun num loud => rectRe_binary32 num loud, rectPart_eq⟩
    rw [rectRe_of_not_straight fun h => bent (straight_iff.1 h), rectPart_eq formula]
  case dc => rw [at0_sySymm_im (by omega), mirroredIm_ends _ _ (.inl rfl)]; rfl
  case nyquist => rw [at0_sySymm_im (by omega), mirroredIm_ends _ _ (.inr rfl)]; rfl
  case reDc => rw [at0_sySymm_re (by omega), mirroredRe_low _ (by omega)]
  case reNyquist => rw [at0_sySymm_re (by omega), mirroredRe_low _ (by omega)]
  case mirror =>
    have law := numericsMeetTheLaws s.cfg
    rw [at0_sySymm_re (by omega), at0_sySymm_re (by omega), at0_sySymm_im (by omega),
      at0_sySymm_im (by omega), mirroredRe_low _ (by omega), mirroredRe_mirror _ low,
      mirroredIm_low _ _ positive low, mirroredIm_mirror _ _ positive low]
    refine ⟨rfl, rfl, rfl, fun zero => ?_, fun formula => keepZero_eq fun zero => ?_⟩
    · rw [zero]
      exact keepZero_promised law.isZero_zero _
    · exact formula.resolve_left (not_not.2 zero)
  case sample =>
    rw [at0_syNormwin_y inFrame]
    intro v starts silent
    have promised : s.startsAtZero n = true ∨ s.mixSilent c = true ↔ starts ∨ silent :=
      or_congr (startsAtZero_iff s n) (mixSilent_iff s c)
    exact ⟨frameSample_marked, fun clean => ⟨fun h => frameSample_isZero clean (promised.2 h),
      fun h => frameSample_eq clean (h.imp_left fun none => mt promised.1 none)⟩⟩

/-! ### Overlap-add (45_synthesizer.md R145) -/

theorem n_le_len (g : Cfg) : g.n ≤ g.len := Nat.le_mul_of_pos_left _ (by decide)

theorem olaAddAt_sameOutside {s : State} (memory : s.mem.wf) (c : Chan) (k : Nat) :
    sameOutside (· = elementAddr (.ola c) ((s.olaWr + k) % s.cfg.len)) s (olaAddAt c s k) := by
  intro a outside
  rw [olaAddAt_mem, setElement_mem, read_write memory, if_neg outside]

/-- `SY.OLA` writes only the elements that its frame is added into. -/
theorem syOla_sameOutside {s : State} (memory : s.mem.wf) (c : Chan) :
    sameOutside (fun a => ∃ k, k < s.cfg.n ∧ a = elementAddr (.ola c) ((s.olaWr + k) % s.cfg.len))
      s (syOla c s) := by
  intro a outside
  have fold (ks : List Nat) (t : State) (wf : t.mem.wf)
      (apart : ∀ k ∈ ks, a ≠ elementAddr (.ola c) ((t.olaWr + k) % t.cfg.len)) :
      (ks.foldl (olaAddAt c) t).mem.read a = t.mem.read a := by
    induction ks generalizing t with
    | nil => rfl
    | cons k ks ih =>
      obtain ⟨first, others⟩ := List.forall_mem_cons.1 apart
      rw [List.foldl_cons, ih _ (olaAddAt_wf wf c k) (by simpa using others),
        olaAddAt_sameOutside wf c k a first]
  exact fold _ s memory fun k inFrame address => outside ⟨k, List.mem_range.1 inFrame, address⟩

theorem olaAddAt_marks (c : Chan) (s : State) (k : Nat) :
    (olaAddAt c s k).marks.spec = s.marks.spec ∧ (olaAddAt c s k).marks.mix = s.marks.mix := by
  simp only [olaAddAt, State.markOla]
  split_ifs <;> exact ⟨rfl, rfl⟩

theorem syOla_marks (c : Chan) (s : State) :
    (syOla c s).marks = { s.marks with ola := (syOla c s).marks.ola } := by
  have spec := syOla_keeps (π := fun t => t.marks.spec) (fun c s k => (olaAddAt_marks c s k).1) c s
  have mix := syOla_keeps (π := fun t => t.marks.mix) (fun c s k => (olaAddAt_marks c s k).2) c s
  show _ = Marks.mk s.marks.spec s.marks.mix (syOla c s).marks.ola
  rw [← spec, ← mix]

/-- Every other field is kept, each by its own field law. -/
theorem syOla_frame (c : Chan) (s : State) :
    syOla c s =
      { s with mem := (syOla c s).mem, marks := { s.marks with ola := (syOla c s).marks.ola } } := by
  calc syOla c s = { syOla c s with cfg := (syOla c s).cfg } := rfl
    _ = _ := by rw [← syOla_marks]; simp

/-- Settles O36: each element by the law of the additions, which meet no element twice. -/
theorem overlapAddAndAdvance : Obligations.OverlapAddAndAdvance := by
  intro s c memory _ channel
  refine ⟨⟨syOla c s, exec_syOla channel, fun k inFrame => ?sum, fun i => ?mark,
    fun c' other i => ?others, syOla_sameOutside memory c, syOla_frame c s⟩, rfl⟩
  case sum => exact (syOla_element memory (n_le_len s.cfg) c _ _).2 k inFrame rfl rfl
  case mark => simp [syOla_olaMark]
  case others => exact Bool.eq_iff_iff.2 (by simp [syOla_olaMark, other])

/-! ### The whole synthesis (45_synthesizer.md R146) -/

/-- The state of `SYNTHESIZE` before `SY.NORMWIN`. -/
def synthesizedSamples (c : Chan) (s : State) : State := syIrfft (sySymm (syRect c s))

/-- The state of `SYNTHESIZE` before `SY.OLA`. -/
def synthesizedFrame (c : Chan) (s : State) : State := syNormwin c (synthesizedSamples c s)

theorem synthesize_eq_syOla (c : Chan) (s : State) :
    synthesize c s = syOla c (synthesizedFrame c s) := by
  rw [synthesize, synthesizedFrame, synthesizedSamples]

@[simp] theorem synthesizedSamples_cfg (c : Chan) (s : State) :
    (synthesizedSamples c s).cfg = s.cfg := by simp [synthesizedSamples]

@[simp] theorem synthesizedSamples_mem (c : Chan) (s : State) :
    (synthesizedSamples c s).mem = s.mem := by simp [synthesizedSamples]

@[simp] theorem synthesizedSamples_marks (c : Chan) (s : State) :
    (synthesizedSamples c s).marks = s.marks := by simp [synthesizedSamples]

@[simp] theorem synthesizedSamples_mixMark (c c' : Chan) (s : State) :
    (synthesizedSamples c s).mixMark c' = s.mixMark c' := by
  rw [State.mixMark, synthesizedSamples_marks]
  rfl

@[simp] theorem synthesizedSamples_element (c : Chan) (s : State) (sp : Space) (i : Nat) :
    (synthesizedSamples c s).element sp i = s.element sp i := by
  rw [State.element, synthesizedSamples_mem]
  rfl

@[simp] theorem synthesizedFrame_cfg (c : Chan) (s : State) :
    (synthesizedFrame c s).cfg = s.cfg := by simp [synthesizedFrame]

@[simp] theorem synthesizedFrame_mem (c : Chan) (s : State) :
    (synthesizedFrame c s).mem = s.mem := by simp [synthesizedFrame]

@[simp] theorem synthesizedFrame_olaWr (c : Chan) (s : State) :
    (synthesizedFrame c s).olaWr = s.olaWr := by simp [synthesizedFrame, synthesizedSamples]

@[simp] theorem synthesizedFrame_marks (c : Chan) (s : State) :
    (synthesizedFrame c s).marks = s.marks := by simp [synthesizedFrame]

@[simp] theorem synthesizedFrame_mixMark (c c' : Chan) (s : State) :
    (synthesizedFrame c s).mixMark c' = s.mixMark c' := by
  rw [State.mixMark, synthesizedFrame_marks]
  rfl

@[simp] theorem synthesizedFrame_olaMark (c c' : Chan) (s : State) (i : Nat) :
    (synthesizedFrame c s).olaMark c' i = s.olaMark c' i :=
  Bool.eq_iff_iff.2 (by simp [State.olaMark])

@[simp] theorem synthesizedFrame_element (c : Chan) (s : State) (sp : Space) (i : Nat) :
    (synthesizedFrame c s).element sp i = s.element sp i := by
  rw [State.element, synthesizedFrame_mem]
  rfl

theorem exec_synthesize_eq_steps {s : State} {c : Chan} (channel : c.val < s.cfg.nch) :
    exec (.synthesize c) s
      = execAll [.syRect c, .sySymm c, .syIrfft c, .syNormwin c, .syOla c] s := by
  have rect : exec (.syRect c) s = .next (syRect c s) := exec_of_channel rfl (by simp) channel
  have symm : exec (.sySymm c) (syRect c s) = .next (sySymm (syRect c s)) :=
    exec_of_channel rfl (by simp) channel
  have transform : exec (.syIrfft c) (sySymm (syRect c s)) = .next (synthesizedSamples c s) :=
    exec_of_channel rfl (by simp) channel
  have window : exec (.syNormwin c) (synthesizedSamples c s) = .next (synthesizedFrame c s) :=
    exec_syNormwin channel
  have add : exec (.syOla c) (synthesizedFrame c s) = .next (synthesize c s) := exec_syOla channel
  rw [exec_synthesize channel, execAll_cons rect, execAll_cons symm, execAll_cons transform,
    execAll_cons window, execAll_singleton, add]

theorem synthesize_sameOutside {s : State} (memory : s.mem.wf) (c : Chan) :
    sameOutside (fun a => ∃ k, k < s.cfg.n ∧ a = elementAddr (.ola c) ((s.olaWr + k) % s.cfg.len))
      s (synthesize c s) := by
  have added := syOla_sameOutside (s := synthesizedFrame c s) (by simpa) c
  simp only [synthesizedFrame_cfg, synthesizedFrame_olaWr] at added
  intro a outside
  rw [synthesize_eq_syOla, added a outside, synthesizedFrame_mem]

/-- The additions over the steps before them, which write scratch only. -/
theorem synthesize_frame (c : Chan) (s : State) :
    synthesize c s = { s with
      mem := (synthesize c s).mem, scratch := (synthesize c s).scratch
      marks := { s.marks with ola := (synthesize c s).marks.ola } } := by
  have marks : (synthesize c s).marks = { s.marks with ola := (synthesize c s).marks.ola } := by
    rw [synthesize_eq_syOla, syOla_marks, synthesizedFrame_marks]
  calc synthesize c s = { synthesize c s with cfg := (synthesize c s).cfg } := rfl
    _ = _ := by rw [← marks]; simp

/-- Settles O37: the five steps in a row, of which the last one alone writes memory. -/
theorem synthesizeIsItsSteps : Obligations.SynthesizeIsItsSteps := fun s c memory _ channel =>
  ⟨exec_synthesize_eq_steps channel, synthesize c s, exec_synthesize channel,
    synthesize_sameOutside memory c, synthesize_frame c s⟩

/-! ### Silence (45_synthesizer.md R148) -/

theorem legal_logn {g : Cfg} (legal : g.legal = true) : 2 ≤ g.logn ∧ g.logn ≤ 12 := by
  simp only [Cfg.legal, Bool.and_eq_true, decide_eq_true_eq] at legal
  omega

/-- The Hann window starts with 0 (00_scope.md R9). -/
theorem windowAt_zero_of_hann {g : Cfg} (legal : g.legal = true) (hann : g.window = .hann) :
    windowAt g 0 = Numerics.zero := by
  obtain ⟨low, high⟩ := legal_logn legal
  obtain ⟨zero, -⟩ := (numericsMeetTheLaws g).exactEntries g.logn low high
  rwa [windowAt, hann]

theorem startsAtZero_of_hann {s : State} (legal : s.cfg.legal = true) (hann : s.cfg.window = .hann)
    (finite : s.cfg.numerics.isFinite (at0 s.scratch.y 0) = true ∨ s.scratch.yFromFinite = true) :
    s.startsAtZero 0 = true := by
  refine (startsAtZero_iff s 0).2 ⟨rfl, ?_, finite⟩
  rw [windowAt_zero_of_hann legal hann]
  exact (numericsMeetTheLaws s.cfg).isZero_zero

/-- With the Hann window the first sample is a zero of a finite `y[0]` (45_synthesizer.md R144) and of a
finite mixed spectrum (R148). -/
theorem syNormwin_first_isZero {s : State} (legal : s.cfg.legal = true) (hann : s.cfg.window = .hann)
    {c : Chan} (clean : s.mixMark c = false)
    (finite : s.cfg.numerics.isFinite (at0 s.scratch.y 0) = true ∨ s.scratch.yFromFinite = true) :
    s.cfg.numerics.isZero (at0 (syNormwin c s).scratch.y 0) = true := by
  obtain ⟨size, -⟩ := legal_bounds legal
  rw [at0_syNormwin_y (by omega)]
  exact frameSample_isZero clean (.inl (startsAtZero_of_hann legal hann finite))

theorem mirroredRe_isZero (N : Numerics) {n : Nat} {xs : List Word}
    (zeros : ∀ k, k < n / 2 + 1 → N.isZero (at0 xs k) = true) (i : Nat) :
    N.isZero (mirroredRe n xs i) = true := by
  unfold mirroredRe
  split
  · exact zeros i (by omega)
  · exact zeros (n - i) (by omega)

theorem mirroredIm_isZero {N : Numerics} (law : N.Lawful) {n : Nat} {xs : List Word}
    (zeros : ∀ k, k < n / 2 + 1 → N.isZero (at0 xs k) = true) (i : Nat) :
    N.isZero (mirroredIm N n xs i) = true := by
  unfold mirroredIm
  split_ifs
  · exact law.isZero_zero
  · exact zeros i (by omega)
  · rw [zeros (n - i) (by omega)]
    exact keepZero_promised law.isZero_zero _

section

variable {s : State}

theorem syRect_isZero {c : Chan} (silent : s.SilentSpectrum c) {k : Nat} (inBins : k < s.cfg.nb) :
    s.cfg.numerics.isZero (at0 (syRect c s).scratch.re k) = true ∧
      s.cfg.numerics.isZero (at0 (syRect c s).scratch.im k) = true := by
  have law := numericsMeetTheLaws s.cfg
  obtain ⟨zero, finite⟩ := silent k inBins
  rw [at0_syRect_re inBins, at0_syRect_im inBins]
  exact ⟨rectRe_isZero law zero finite, rectPart_isZero law zero finite _⟩

theorem sySymm_isZero (zeros : ∀ k, k < s.cfg.nb →
    s.cfg.numerics.isZero (at0 s.scratch.re k) = true ∧
      s.cfg.numerics.isZero (at0 s.scratch.im k) = true) {i : Nat} (inFrame : i < s.cfg.n) :
    s.cfg.numerics.isZero (at0 (sySymm s).scratch.re i) = true ∧
      s.cfg.numerics.isZero (at0 (sySymm s).scratch.im i) = true := by
  rw [at0_sySymm_re inFrame, at0_sySymm_im inFrame]
  exact ⟨mirroredRe_isZero _ (fun k low => (zeros k low).1) i,
    mirroredIm_isZero (numericsMeetTheLaws s.cfg) (fun k low => (zeros k low).2) i⟩

/-- The samples of an all-zero spectrum, which is a finite one, are zeros by N-FFT0. -/
theorem irfft_isZero {g : Cfg} (legal : g.legal = true) {bins : List (Word × Word)}
    (length : bins.length = g.n)
    (zeros : ∀ b ∈ bins, g.numerics.isZero b.1 = true ∧ g.numerics.isZero b.2 = true) :
    ∀ y ∈ irfft g bins, g.numerics.isZero y = true := by
  have law := numericsMeetTheLaws g
  have finite : bins.all (fun b => g.numerics.isFinite b.1 && g.numerics.isFinite b.2) = true :=
    List.all_eq_true.2 fun b bin => Bool.and_eq_true_iff.2
      ((zeros b bin).imp law.isFinite_of_isZero law.isFinite_of_isZero)
  obtain ⟨low, high⟩ := legal_logn legal
  rw [irfft, if_pos finite]
  exact law.irfftZero g.logn bins low high length zeros

theorem syIrfft_isZero (legal : s.cfg.legal = true)
    (zeros : ∀ k, k < s.cfg.n → s.cfg.numerics.isZero (at0 s.scratch.re k) = true ∧
      s.cfg.numerics.isZero (at0 s.scratch.im k) = true) :
    ∀ n, n < s.cfg.n → s.cfg.numerics.isZero (at0 (syIrfft s).scratch.y n) = true := by
  have length : s.fullBins.length = s.cfg.n := by simp [State.fullBins]
  refine (forall_mem_iff_at0 (P := fun y => s.cfg.numerics.isZero y = true)
    (irfft_length s.cfg s.fullBins)).1 (irfft_isZero legal length ?_)
  simpa only [State.fullBins, List.forall_mem_map, List.mem_range] using zeros

theorem synthesizedSamples_isZero (legal : s.cfg.legal = true) {c : Chan} (silent : s.SilentSpectrum c) :
    ∀ n, n < s.cfg.n → s.cfg.numerics.isZero (at0 (synthesizedSamples c s).scratch.y n) = true :=
  syIrfft_isZero (s := sySymm (syRect c s)) legal fun _ =>
    sySymm_isZero (s := syRect c s) fun _ => syRect_isZero silent

/-- A silent spectrum gives an all-zero frame. -/
theorem synthesizedFrame_isZero (legal : s.cfg.legal = true) {c : Chan} (clean : s.mixMark c = false)
    (silent : s.SilentSpectrum c) {n : Nat} (inFrame : n < s.cfg.n) :
    s.cfg.numerics.isZero (at0 (synthesizedFrame c s).scratch.y n) = true := by
  have silence : (synthesizedSamples c s).mixSilent c = true := by
    rw [mixSilent_iff, State.SilentSpectrum]
    simpa using ⟨silent, synthesizedSamples_isZero legal silent⟩
  rw [synthesizedFrame, at0_syNormwin_y (by simpa)]
  have zero := frameSample_isZero (s := synthesizedSamples c s) (n := n) (by simpa) (.inr silence)
  rwa [synthesizedSamples_cfg] at zero

/-- An all-zero frame of a clean spectrum leaves every finite element as it is, but for the sign of a
zero. -/
theorem syOla_eq_of_zeros (memory : s.mem.wf) {c : Chan} (clean : s.mixMark c = false)
    (zeros : ∀ n, n < s.cfg.n → s.cfg.numerics.isZero (at0 s.scratch.y n) = true) {i : Nat}
    (unmarked : s.olaMark c i = false) (finite : s.cfg.numerics.isFinite (s.element (.ola c) i) = true) :
    s.cfg.numerics.eq ((syOla c s).element (.ola c) i) (s.element (.ola c) i) = true := by
  have law := numericsMeetTheLaws s.cfg
  obtain ⟨apart, added⟩ := syOla_element memory (n_le_len s.cfg) c (.ola c) i
  by_cases touched : ∃ k, k < s.cfg.n ∧ i = (s.olaWr + k) % s.cfg.len
  · obtain ⟨k, inFrame, place⟩ := touched
    rw [added k inFrame rfl place, State.overlapSum, clean, unmarked, if_neg (by simp)]
    exact (law.eq_add_zero (zeros k inFrame) finite).1
  · rw [apart fun k inFrame place => touched ⟨k, inFrame, place.2⟩]
    exact law.eq_refl finite

end

/-- Settles O38: the zeros of a silent spectrum carried through the five steps, and the first sample by
the zero that starts the Hann window. -/
theorem silentSpectrumAddsSilence : Obligations.SilentSpectrumAddsSilence := by
  intro s c N memory legal channel clean
  have frame : (synthesize c s).scratch = (synthesizedFrame c s).scratch := by
    rw [synthesize_eq_syOla, syOla_scratch]
  refine ⟨fun silent => ⟨synthesize c s, exec_synthesize channel, ?zeros, fun i => ?kept⟩,
    fun hann finite => ⟨syNormwin c s, exec_syNormwin channel,
      syNormwin_first_isZero legal hann clean (.inl finite)⟩,
    fun hann finite => ⟨synthesize c s, exec_synthesize channel, ?first⟩⟩
  case zeros =>
    rw [frame]
    exact fun n => synthesizedFrame_isZero legal clean silent
  case kept =>
    have sum := syOla_eq_of_zeros (s := synthesizedFrame c s) (c := c) (i := i) (by simpa)
      (by simpa using clean)
    simp only [synthesizedFrame_cfg, synthesizedFrame_olaMark, synthesizedFrame_element] at sum
    exact sum fun n => synthesizedFrame_isZero legal clean silent
  case first =>
    have note : (synthesizedSamples c s).scratch.yFromFinite = true := (mixFinite_iff s c).2 finite
    have zero := syNormwin_first_isZero (s := synthesizedSamples c s) (c := c) (by simpa) (by simpa)
      (by simpa) (.inr note)
    rw [synthesizedSamples_cfg] at zero
    rwa [frame, synthesizedFrame]

end Sys2Proof.Machine
end

section
/-! The operations of the Stream Driver (46_driver.md R156 to R161): the path that `PROCESS` chooses, what
an emission, a bypassed beat and a cycle leave, and the sequences that a beat and a cycle are. -/

-- No thread of its own for each proof, as in the first section of the proofs.
set_option deprecated.oldSectionVars true

namespace Sys2Proof.Machine

/-! ### The path of a block and its beats (46_driver.md R156) -/

theorem usable_iff (s : State) :
    s.usable = true ↔ s.prepared = true ∧ s.cfg.numerics.isFinite s.sr = true ∧
      s.cfg.numerics.lt Numerics.zero s.sr = true := by
  simp only [State.usable, State.srValid, Bool.and_eq_true]

theorem exec_process (n : BitVec 16) (sc : Bool) (k : BitVec 4) (s : State) :
    exec (.process n sc k) s = .next (after (.process n sc k) s) := rfl

theorem exec_drvBeat {s : State} (ready : s.beatReady = true) : exec .drvBeat s = .next (beat s) :=
  if_pos ready

/-- Settles O39: the causes of the two events and the choice of the path, branch by branch. -/
theorem processChoosesThePath : Obligations.ProcessChoosesThePath := by
  intro s n sc k valid
  have usable : valid ↔ s.usable = true := (usable_iff s).symm
  rw [usable]
  simp only [exec_process, after, State.blockActive, State.blockMismatch]
  refine ⟨fun unusable => ?invalid, fun ok quiet => ?quiet, fun ok active other => ?mismatch,
    fun ok active same => ?active⟩
  case invalid =>
    rw [Bool.not_eq_true] at unusable
    simp [unusable, State.raiseIf, Event.mask]
  case quiet => simp [ok, quiet, State.raiseIf]
  case mismatch => simp [ok, active, other, State.raiseIf, Event.mask]
  case active => simp [ok, active, same, State.raiseIf]

/-- Settles O8: with samples waiting the driver's turn is a beat, which keeps the count. -/
theorem stepRunsOneBeatOfTheBlock : Obligations.StepRunsOneBeatOfTheBlock := by
  intro s driver queue block ready
  exact ⟨beat s.turnTaken, exec_drvBeat ready, beat_blkRem _,
    (step_beat driver queue block).trans (runBeat_ready ready)⟩

/-! ### `DRV.EMIT` (46_driver.md R158) -/

/-- A loop over the channels preserves what its rounds for the channels of the machine preserve. -/
theorem forChannels_preserves_channel {K : State → Prop} {f : Chan → State → State} {s : State}
    (keep : ∀ (c : Chan) t, c.val < s.cfg.nch → K t → K (f c t)) (h : K s) : K (forChannels f s) :=
  List.foldlRecOn (motive := K) _ _ h fun t ht c hc => keep c t (mem_channels.1 hc) ht

theorem emitChannel_olaMark (c c' : Chan) (s : State) (i : Nat) :
    (emitChannel c s).olaMark c' i = (!decide (c' = c ∧ i = s.olaRd) && s.olaMark c' i) :=
  unmarkOla_olaMark c c' s.olaRd i _

theorem emit_olaMark (s : State) (c : Chan) (i : Nat) :
    (emit s).olaMark c i = true ↔ s.olaMark c i = true ∧ ¬ (c.val < s.cfg.nch ∧ i = s.olaRd) := by
  have marks := forChannels_pointwise (K := fun t => t.olaRd = s.olaRd) (π := fun c t => t.olaMark c i)
    (f := emitChannel) (g := fun _ b => !decide (i = s.olaRd) && b)
    (fun c t cursor => by rw [emitChannel_olaRd, cursor])
    (fun c t cursor => by simp [emitChannel_olaMark, cursor])
    (fun c c' t _ other => by simp [emitChannel_olaMark, other]) rfl c
  show (forChannels emitChannel s).olaMark c i = true ↔ _
  rw [marks]
  split
  case isTrue channel => simp [channel, and_comm]
  case isFalse absent => simp [absent]

theorem emit_marks (s : State) : (emit s).marks = { s.marks with ola := (emit s).marks.ola } := by
  have spec := forChannels_keeps (fun t => t.marks.spec) (f := emitChannel) (fun _ _ => rfl) s
  have mix := forChannels_keeps (fun t => t.marks.mix) (f := emitChannel) (fun _ _ => rfl) s
  show _ = Marks.mk s.marks.spec s.marks.mix (emit s).marks.ola
  rw [← spec, ← mix]
  rfl

theorem emit_sameOutside {s : State} (memory : s.mem.wf) :
    sameOutside (fun a => ∃ c : Chan, c.val < s.cfg.nch ∧ a = elementAddr (.ola c) s.olaRd)
      s (emit s) := by
  intro a outside
  obtain ⟨-, -, kept⟩ := forChannels_preserves_channel (f := emitChannel) (s := s)
    (K := fun t => t.mem.wf ∧ t.olaRd = s.olaRd ∧ t.mem.read a = s.mem.read a)
    (fun c t channel ⟨wf, cursor, same⟩ => by
      refine ⟨emitChannel_wf wf c, by simp [cursor], ?_⟩
      show (t.mem.write (elementAddr (.ola c) t.olaRd) Numerics.zero).read a = _
      rw [read_write wf, cursor, if_neg fun address => outside ⟨c, channel, address⟩, same])
    ⟨memory, rfl, rfl⟩
  exact kept

/-- Every other field is kept, each by its own field law. -/
theorem emit_frame (s : State) :
    emit s = { s with
      mem := (emit s).mem, marks := { s.marks with ola := (emit s).marks.ola }
      samplesOut := (emit s).samplesOut, olaRd := (emit s).olaRd } := by
  calc emit s = { emit s with cfg := (emit s).cfg } := rfl
    _ = _ := by rw [← emit_marks]; simp

/-- Settles O40: the output, the cleared element and the marks by their laws, then the frame. -/
theorem emitOutputsAndClears : Obligations.EmitOutputsAndClears := by
  intro s memory
  refine ⟨emit s, rfl, fun c channel => ⟨?out, ?cleared⟩, fun c absent => ?kept, emit_olaRd s,
    emit_sameOutside memory, emit_olaMark s, emit_frame s⟩
  case out => rw [emit_out memory, if_pos channel]
  case cleared =>
    rw [emit_element memory, if_pos ⟨⟨c, channel, rfl⟩, rfl⟩]
    rfl
  case kept => rw [emit_out memory, if_neg (Nat.not_lt.2 absent)]

/-! ### Samples on the ports (20_memory.md R45) -/

theorem hasSample_iff (s : State) (st : Stream) (c : Chan) :
    s.hasSample st c = true ↔ s.waiting st c ≠ [] := by simp [State.hasSample]

theorem mainReady_iff (s : State) :
    s.mainReady = true ↔ ∀ c : Chan, c.val < s.cfg.nch → s.waiting .main c ≠ [] := by
  simp only [State.mainReady, List.all_eq_true, mem_channels, hasSample_iff]

theorem beatReady_iff (s : State) :
    s.beatReady = true ↔ ∀ c : Chan, c.val < s.cfg.nch →
      s.waiting .main c ≠ [] ∧ (s.blkActive = true → s.waiting .side c ≠ []) := by
  simp only [State.beatReady, List.all_eq_true, mem_channels, Bool.and_eq_true, Bool.or_eq_true,
    Bool.not_eq_true', ← Bool.not_eq_true, hasSample_iff, imp_iff_not_or]

/-! ### `DRV.BYPASS` (46_driver.md R159) -/

theorem exec_drvBypass {s : State} (ready : s.mainReady = true) :
    exec .drvBypass s = .next (bypass s) := if_pos ready

/-- Every other field is kept, each by its own field law. -/
theorem bypass_frame (s : State) :
    bypass s = { s with samplesIn := (bypass s).samplesIn, samplesOut := (bypass s).samplesOut } := by
  calc bypass s = { bypass s with cfg := (bypass s).cfg } := rfl
    _ = _ := by simp

/-- Settles O41: the word of `DRV.BYPASS`, and each port by its law. -/
theorem bypassCopiesMainToOutput : Obligations.BypassCopiesMainToOutput := by
  refine ⟨decodeMicro_of_encode rfl rfl, fun s ready => ?_⟩
  refine ⟨bypass s, exec_drvBypass ready, fun c channel => ?copied, fun c absent => ⟨?queue, ?out⟩,
    fun c => ?side, bypass_frame s⟩
  case copied =>
    obtain ⟨v, vs, waiting⟩ := List.exists_cons_of_ne_nil ((mainReady_iff s).1 ready c channel)
    refine ⟨v, vs, waiting, ?_, ?_⟩
    · rw [bypass_waiting, if_pos ⟨rfl, channel⟩, waiting, List.tail_cons]
    · rw [bypass_out, if_pos channel, nextSample_of_waiting waiting]
  case queue => rw [bypass_waiting, if_neg fun h => absurd h.2 (Nat.not_lt.2 absent)]
  case out => rw [bypass_out, if_neg (Nat.not_lt.2 absent)]
  case side => rw [bypass_waiting, if_neg (by simp)]

/-! ### Sequences over the channels -/

theorem execAll_append {is : List Instr} (js : List Instr) {s t : State}
    (h : execAll is s = .next t) : execAll (is ++ js) s = execAll js t := by
  induction is generalizing s with
  | nil =>
    cases h
    rfl
  | cons i is ih =>
    rw [List.cons_append, execAll]
    rw [execAll] at h
    cases first : exec i s with
    | next u =>
      rw [first] at h
      exact ih h
    | fault | refused =>
      rw [first] at h
      cases h

/-- A sequence that runs some steps for each channel in turn is a loop over the channels, where a
condition on the channels still to come lets the steps of each complete as its round. -/
theorem execAll_flatMap {steps : Chan → List Instr} {f : Chan → State → State}
    {K : List Chan → State → Prop}
    (round : ∀ c cs t, K (c :: cs) t → execAll (steps c) t = .next (f c t) ∧ K cs (f c t))
    {cs : List Chan} {s : State} (h : K cs s) :
    execAll (cs.flatMap steps) s = .next (cs.foldl (fun t c => f c t) s) := by
  induction cs generalizing s with
  | nil => rfl
  | cons c cs ih =>
    obtain ⟨run, rest⟩ := round c cs s h
    rw [List.flatMap_cons, execAll_append _ run, ih rest, List.foldl_cons]

/-- `ACC.WRITE` for every channel of a stream, in ascending order, with a sample waiting for each. -/
theorem execAll_accWrite_channels {s : State} {st : Stream}
    (waiting : ∀ c : Chan, c.val < s.cfg.nch → s.waiting st c ≠ []) :
    execAll (s.cfg.channels.map (.accWrite st)) s = .next (forChannels (accWrite st) s) := by
  rw [List.map_eq_flatMap, forChannels]
  refine execAll_flatMap (K := fun cs t => cs.Nodup ∧ ∀ c ∈ cs, c.val < t.cfg.nch ∧ t.waiting st c ≠ [])
    (fun c cs t ⟨distinct, supplied⟩ => ?round)
    ⟨channels_nodup _, fun c hc => ⟨mem_channels.1 hc, waiting c (mem_channels.1 hc)⟩⟩
  obtain ⟨fresh, distinct⟩ := List.nodup_cons.1 distinct
  obtain ⟨⟨channel, sample⟩, supplied⟩ := List.forall_mem_cons.1 supplied
  obtain ⟨v, vs, sample⟩ := List.exists_cons_of_ne_nil sample
  refine ⟨by rw [execAll_singleton, exec_accWrite channel sample], distinct, fun d hd => ?_⟩
  have other : d ≠ c := fun e => fresh (e ▸ hd)
  rw [accWrite_cfg, accWrite_waiting, if_neg fun e => other e.2]
  exact supplied d hd

/-! ### `DRV.BEAT` (46_driver.md R157) -/

/-- The emission and the writes of an active beat. -/
theorem execAll_beatInput {s : State} (ready : s.beatReady = true) (active : s.blkActive = true) :
    execAll ([.drvEmit] ++ s.cfg.channels.map (.accWrite .main)
      ++ s.cfg.channels.map (.accWrite .side)) s = .next (takeBeat (emit s)) := by
  have supplied := (beatReady_iff s).1 ready
  have emitted : execAll [.drvEmit] s = .next (emit s) := rfl
  have main := execAll_accWrite_channels (s := emit s) (st := .main)
    (by simpa using fun c channel => (supplied c channel).1)
  have side := execAll_accWrite_channels (s := forChannels (accWrite .main) (emit s)) (st := .side)
    (by
      intro c channel
      rw [forChannels_keeps State.cfg (accWrite_cfg .main), emit_cfg] at channel
      rw [writeAll_waiting, if_neg (by simp), emit_waiting]
      exact (supplied c channel).2 active)
  rw [emit_cfg] at main
  rw [forChannels_keeps State.cfg (accWrite_cfg .main), emit_cfg] at side
  rw [List.append_assoc, execAll_append _ emitted, execAll_append _ main, side, takeBeat]

/-- Settles O42: a bypassed beat needs the main samples only; an active beat runs its sequence, and
`ACC.READY` tells whether a cycle ends it. -/
theorem beatIsItsSequence : Obligations.BeatIsItsSequence := by
  intro s ready
  refine ⟨fun bypassed => ?bypassed, fun active => ?active⟩
  case bypassed =>
    have main : s.mainReady = true :=
      (mainReady_iff s).2 fun c channel => ((beatReady_iff s).1 ready c channel).1
    refine ⟨bypass s, exec_drvBypass main, ?_⟩
    rw [exec_drvBeat ready, beat, if_neg (by simp [bypassed])]
  case active =>
    refine ⟨takeBeat (emit s), accReady (leaveIdle (takeBeat (emit s))), activeBeat s,
      execAll_beatInput ready active, rfl, ?cycle, ?beat⟩
    case cycle =>
      unfold activeBeat cycleIfReady
      split <;> rfl
    case beat => rw [exec_drvBeat ready, beat, if_pos active]

/-! ### `DRV.CYCLE` (46_driver.md R161) -/

theorem execAll_cycleChannel {s : State} {c : Chan} (channel : c.val < s.cfg.nch) :
    execAll [.analyze .main c, .analyze .side c, .exchange c, .synthesize c] s =
      .next (cycleChannel c s) := by
  rw [execAll_cons (exec_analyze channel .main), execAll_cons (exec_analyze (by simpa) .side),
    execAll_cons (exec_exchange (by simpa)), execAll_singleton, exec_synthesize (by simpa), cycleChannel]

/-- Settles O43: the snapshot, one round of four steps a channel, and the two steps after the loop. -/
theorem cycleIsItsSequence : Obligations.CycleIsItsSequence := by
  intro s
  have snapped : execAll [.snap] { s with drv := .cycle } = .next (snapAll { s with drv := .cycle }) := rfl
  have rounds : execAll (s.cfg.channels.flatMap fun c =>
        [.analyze .main c, .analyze .side c, .exchange c, .synthesize c])
      (snapAll { s with drv := .cycle }) =
        .next (forChannels cycleChannel (snapAll { s with drv := .cycle })) := by
    rw [forChannels, snapAll_cfg]
    refine execAll_flatMap (f := cycleChannel) (K := fun cs t => ∀ c ∈ cs, c.val < t.cfg.nch)
      (fun c cs t channels => ?_) (fun c hc => by simpa using mem_channels.1 hc)
    obtain ⟨channel, channels⟩ := List.forall_mem_cons.1 channels
    exact ⟨execAll_cycleChannel channel, by simpa using channels⟩
  refine ⟨accConsume (syAdv (forChannels cycleChannel (snapAll { s with drv := .cycle }))), ?_, rfl⟩
  rw [List.append_assoc, execAll_append _ snapped, execAll_append _ rounds]
  rfl

/-- What a cycle does not touch: the parameters, the sequencing registers, the read cursor and the
ports. -/
def State.outsideCycle (s : State) : Cfg × Params × Bool × Word × BitVec 16 × Nat × BitVec 16 × Bool ×
    List Word × List Word × PerStream (Vector (List Word) 16) × Vector (List Word) 16 × List Turn ×
    List Word :=
  (s.cfg, s.params, s.prepared, s.sr, s.maxBlk, s.olaRd, s.blkRem, s.blkActive, s.cmdIn, s.issue,
    s.samplesIn, s.samplesOut, s.turns, s.regOut)

theorem frame_of_outsideCycle {s t : State} (h : t.outsideCycle = s.outsideCycle) :
    t = { s with
      drv := t.drv, snap := t.snap, band1 := t.band1, band2 := t.band2, events := t.events
      mem := t.mem, scratch := t.scratch, marks := t.marks, olaWr := t.olaWr, rings := t.rings } := by
  cases s
  cases t
  simp only [State.outsideCycle, Prod.mk.injEq] at h
  obtain ⟨rfl, rfl, rfl, rfl, rfl, rfl, rfl, rfl, rfl, rfl, rfl, rfl, rfl, rfl⟩ := h
  rfl

/-- Each field by its own field law. -/
theorem cycle_outsideCycle (s : State) : (cycle s).outsideCycle = s.outsideCycle := by
  simp [State.outsideCycle]

/-- Settles O44: the rings and the memories by the laws of a cycle, then the frame. -/
theorem cycleFrame : Obligations.CycleFrame := by
  intro s memory legal full
  refine ⟨cycle s, rfl, cycle_drv s, cycle_olaWr s, fun st c channel => ?consumed,
    fun st c i => cycle_element_other memory _ i (.inl ⟨st, c, rfl⟩),
    fun c j apart => cycle_element_other memory _ j (.inr ⟨c, rfl, apart⟩),
    frame_of_outsideCycle (cycle_outsideCycle s)⟩
  have hop : s.cfg.hop ≤ (s.ring st c).cnt := by
    have := hop_cases s.cfg
    have := full st c channel
    omega
  rw [cycle_ring, if_pos channel, afterConsume_of_hop_le hop, full st c channel]

end Sys2Proof.Machine
end

section
/-! Runs of a block (46_driver.md R156 to R165): a block as so many beats in a row, what they put out and
take, the silence before the first cycle, and the cutting of a stream into blocks. -/

-- No thread of its own for each proof, as in the first section of the proofs.
set_option deprecated.oldSectionVars true

namespace Sys2Proof.Machine

open Function (Commute)

/-! ### What a beat does to the ports, in any state -/

/-- On the part of the state that belongs to one channel, a loop over the channels is that channel's
round, run in a state with that part as it was before the loop. -/
theorem forChannels_round {α : Type} (π : State → α) {f : Chan → State → State} {c : Chan}
    (other : ∀ d t, d ≠ c → π (f d t) = π t) {s : State} (channel : c.val < s.cfg.nch) :
    ∃ t, π t = π s ∧ π (forChannels f s) = π (f c t) := by
  have others : ∀ (cs : List Chan) t, c ∉ cs → π (cs.foldl (fun t c => f c t) t) = π t := by
    intro cs
    induction cs with
    | nil => intro t _; rfl
    | cons d ds ih =>
      intro t absent
      obtain ⟨ne, absent⟩ := not_or.1 (mt List.mem_cons.2 absent)
      rw [List.foldl_cons, ih _ absent, other d t (Ne.symm ne)]
  obtain ⟨before, behind, split⟩ := List.append_of_mem (mem_channels.2 channel)
  have distinct := channels_nodup s.cfg
  rw [split, List.nodup_append] at distinct
  obtain ⟨-, later, apart⟩ := distinct
  refine ⟨before.foldl (fun t c => f c t) s, others _ _ fun h => apart c h c (by simp) rfl, ?_⟩
  rw [forChannels, split, List.foldl_append, List.foldl_cons, others _ _ (List.nodup_cons.1 later).1]

theorem emitChannel_out (c c' : Chan) (s : State) :
    (emitChannel c s).samplesOut[c'] =
      if c' = c then s.samplesOut[c] ++ [s.element (.ola c) s.olaRd] else s.samplesOut[c'] :=
  putSample_out c c' _ s

theorem emit_puts_one (s : State) {c : Chan} (channel : c.val < s.cfg.nch) :
    ∃ v, (emit s).samplesOut[c] = s.samplesOut[c] ++ [v] := by
  obtain ⟨t, start, round⟩ := forChannels_round (fun t => t.samplesOut[c]) (f := emitChannel)
    (fun d t ne => by rw [emitChannel_out, if_neg ne.symm]) channel
  refine ⟨t.element (.ola c) t.olaRd, ?_⟩
  show (forChannels emitChannel s).samplesOut[c] = _
  rw [round, ← start, emitChannel_out, if_pos rfl]

theorem beat_of_active {s : State} (active : s.blkActive = true) : beat s = activeBeat s := if_pos active

theorem beat_of_bypassed {s : State} (bypassed : s.blkActive = false) : beat s = bypass s :=
  if_neg (by simp [bypassed])

theorem activeBeat_samplesOut (s : State) : (activeBeat s).samplesOut = (emit s).samplesOut := by
  unfold activeBeat cycleIfReady
  split <;> simp

theorem beat_puts_one (s : State) {c : Chan} (channel : c.val < s.cfg.nch) :
    ∃ v, (beat s).samplesOut[c] = s.samplesOut[c] ++ [v] := by
  cases path : s.blkActive with
  | true =>
    obtain ⟨v, emitted⟩ := emit_puts_one s channel
    exact ⟨v, by simpa only [beat_of_active path, activeBeat_samplesOut] using emitted⟩
  | false =>
    exact ⟨s.nextSample .main c, by rw [beat_of_bypassed path, bypass_out, if_pos channel]⟩

/-- A beat takes a sample of each main port, and of each sidechain port when the block is active. -/
theorem beat_waiting (s : State) {c : Chan} (channel : c.val < s.cfg.nch) (st : Stream) :
    (beat s).waiting st c =
      if st = .main ∨ s.blkActive = true then (s.waiting st c).tail else s.waiting st c := by
  unfold beat
  split
  · next active => rw [activeBeat_waiting, if_pos channel, if_pos (.inr active)]
  · next bypassed =>
    rw [bypass_waiting]
    cases st <;> simp [channel, bypassed]

theorem beatReady_of_supplied {s : State} {k : Nat} (h : s.supplied (k + 1)) : s.beatReady = true := by
  refine (beatReady_iff s).2 fun c channel => ?_
  obtain ⟨main, side⟩ := h c channel
  exact ⟨List.ne_nil_of_length_pos (by omega),
    fun active => List.ne_nil_of_length_pos (by have := side active; omega)⟩

theorem supplied_mono {s : State} {j k : Nat} (h : s.supplied k) (le : j ≤ k) : s.supplied j :=
  fun c channel =>
    have ⟨main, side⟩ := h c channel
    ⟨le.trans main, fun active => le.trans (side active)⟩

theorem supplied_beat {s : State} {k : Nat} (h : s.supplied (k + 1)) : (beat s).supplied k := by
  intro c channel
  rw [beat_cfg] at channel
  obtain ⟨main, side⟩ := h c channel
  rw [beat_waiting s channel, beat_waiting s channel, beat_blkActive]
  refine ⟨by simp; omega, fun active => ?_⟩
  have := side active
  simp [active]
  omega

/-! ### Beats in a row -/

/-- A run of rounds keeps what each round keeps. -/
theorem iterate_keeps {α : Type} {f : State → State} {π : State → α} (h : ∀ s, π (f s) = π s) (k : Nat)
    (s : State) : π (f^[k] s) = π s := by
  induction k generalizing s with
  | zero => rfl
  | succ k ih => rw [Function.iterate_succ_apply, ih, h]

theorem beats_put (k : Nat) (s : State) {c : Chan} (channel : c.val < s.cfg.nch) :
    ∃ out, (beat^[k] s).samplesOut[c] = s.samplesOut[c] ++ out ∧ out.length = k := by
  induction k generalizing s with
  | zero => exact ⟨[], (List.append_nil _).symm, rfl⟩
  | succ k ih =>
    obtain ⟨v, first⟩ := beat_puts_one s channel
    obtain ⟨out, rest, length⟩ := ih (beat s) (by simpa)
    refine ⟨v :: out, ?_, by rw [List.length_cons, length]⟩
    rw [Function.iterate_succ_apply, rest, first, List.append_assoc, List.singleton_append]

theorem beats_waiting (k : Nat) (s : State) {c : Chan} (channel : c.val < s.cfg.nch) (st : Stream) :
    (beat^[k] s).waiting st c =
      if st = .main ∨ s.blkActive = true then (s.waiting st c).drop k else s.waiting st c := by
  induction k generalizing s with
  | zero => simp
  | succ k ih =>
    rw [Function.iterate_succ_apply, ih (beat s) (by simpa), beat_waiting s channel, beat_blkActive]
    split <;> simp

theorem supplied_beats {k j : Nat} {s : State} (h : s.supplied (k + j)) : (beat^[k] s).supplied j := by
  induction k generalizing s with
  | zero => rwa [Nat.zero_add] at h
  | succ k ih =>
    rw [Nat.succ_add] at h
    exact ih (supplied_beat h)

/-! ### A beat reads neither `BLK_REM` nor the command port -/

/-- The state with another number of beats to come and other words at the command port. -/
def State.withFeed (n : BitVec 16) (ws : List Word) (s : State) : State :=
  { s with blkRem := n, cmdIn := ws }

theorem withFeed_self (s : State) : s.withFeed s.blkRem s.cmdIn = s := rfl

theorem withFeed_withFeed (n m : BitVec 16) (ws vs : List Word) (s : State) :
    (s.withFeed n ws).withFeed m vs = s.withFeed m vs := rfl

section

variable (n : BitVec 16) (ws : List Word)

theorem forChannels_withFeed {f : Chan → State → State} (h : ∀ c, Commute (State.withFeed n ws) (f c)) :
    Commute (State.withFeed n ws) (forChannels f) := fun s =>
  (List.foldl_hom (State.withFeed n ws) (g₁ := fun t c => f c t) (g₂ := fun t c => f c t)
    (l := s.cfg.channels) (init := s) fun t c => (h c t).symm).symm

theorem accConsume_withFeed : Commute (State.withFeed n ws) accConsume :=
  (forChannels_withFeed n ws (f := consumeRing .side) fun _ _ => rfl).comp_right
    (forChannels_withFeed n ws (f := consumeRing .main) fun _ _ => rfl)

theorem emit_withFeed : Commute (State.withFeed n ws) emit := fun s => by
  have := forChannels_withFeed n ws (f := emitChannel) (fun _ _ => rfl) s
  unfold emit
  rw [← this]
  rfl

theorem takeBeat_withFeed : Commute (State.withFeed n ws) takeBeat :=
  (forChannels_withFeed n ws (f := accWrite .side) fun _ _ => rfl).comp_right
    (forChannels_withFeed n ws (f := accWrite .main) fun _ _ => rfl)

theorem bypass_withFeed : Commute (State.withFeed n ws) bypass :=
  forChannels_withFeed n ws fun _ _ => rfl

theorem mixSelected_withFeed : Commute (State.withFeed n ws) mixSelected := fun s => by
  unfold mixSelected
  rw [apply_ite (State.withFeed n ws)]
  rfl

theorem exchange_withFeed (c : Chan) : Commute (State.withFeed n ws) (exchange c) := fun s => by
  have mixed := mixSelected_withFeed n ws (loadCopies c (joinMarks c s))
  show storeMix c (State.withFeed n ws (mixSelected (loadCopies c (joinMarks c s)))) = _
  rw [mixed]
  rfl

theorem olaAddAt_withFeed (c : Chan) (k : Nat) :
    Commute (State.withFeed n ws) (fun s => olaAddAt c s k) := fun s => by
  simp only [olaAddAt, State.markOla]
  rw [apply_ite (State.withFeed n ws), apply_ite (State.withFeed n ws)]
  rfl

theorem syOla_withFeed (c : Chan) : Commute (State.withFeed n ws) (syOla c) := fun s =>
  (List.foldl_hom (State.withFeed n ws) (g₁ := olaAddAt c) (g₂ := olaAddAt c)
    (l := List.range s.cfg.n) (init := s) fun t k => (olaAddAt_withFeed n ws c k t).symm).symm

theorem synthesize_withFeed (c : Chan) : Commute (State.withFeed n ws) (synthesize c) := fun s =>
  syOla_withFeed n ws c (syNormwin c (syIrfft (sySymm (syRect c s))))

theorem cycleChannel_withFeed (c : Chan) : Commute (State.withFeed n ws) (cycleChannel c) :=
  (synthesize_withFeed n ws c).comp_right <| (exchange_withFeed n ws c).comp_right <|
    Commute.comp_right (g := analyze .side c) (g' := analyze .main c) (fun _ => rfl) fun _ => rfl

theorem snapAll_withFeed : Commute (State.withFeed n ws) snapAll := by
  have derive (b : Band) : Commute (State.withFeed n ws) (deriveBand b) := fun s => by cases b <;> rfl
  have snapshot : Commute (State.withFeed n ws) takeSnapshot := fun _ => rfl
  exact (derive .two).comp_right <| (derive .one).comp_right snapshot

theorem cycle_withFeed : Commute (State.withFeed n ws) cycle := by
  have enter : Commute (State.withFeed n ws) fun s => { s with drv := .cycle } := fun _ => rfl
  have advance : Commute (State.withFeed n ws) syAdv := fun _ => rfl
  have leave : Commute (State.withFeed n ws) fun s => { s with drv := .accumulating } := fun _ => rfl
  exact leave.comp_right <| (accConsume_withFeed n ws).comp_right <| advance.comp_right <|
    (forChannels_withFeed n ws (cycleChannel_withFeed n ws)).comp_right <|
    (snapAll_withFeed n ws).comp_right enter

theorem cycleIfReady_withFeed : Commute (State.withFeed n ws) cycleIfReady := fun s => by
  unfold cycleIfReady
  rw [apply_ite (State.withFeed n ws), cycle_withFeed]
  rfl

theorem activeBeat_withFeed : Commute (State.withFeed n ws) activeBeat := fun s => by
  have leave : Commute (State.withFeed n ws) leaveIdle := fun _ => rfl
  have test : Commute (State.withFeed n ws) accReady := fun _ => rfl
  unfold activeBeat
  rw [cycleIfReady_withFeed, test, leave, takeBeat_withFeed, emit_withFeed]

/-- A beat does the same whatever is left of the block and whatever waits at the command port. -/
theorem beat_withFeed : Commute (State.withFeed n ws) beat := fun s => by
  unfold beat
  rw [apply_ite (State.withFeed n ws), activeBeat_withFeed, bypass_withFeed]
  rfl

end

/-- Beats in a row do the same whatever is left of the block and waits at the command port. -/
theorem beats_withFeed (k : Nat) (n : BitVec 16) (ws : List Word) (s : State) :
    beat^[k] (s.withFeed n ws) = (beat^[k] s).withFeed n ws :=
  ((beat_withFeed n ws).iterate_right k s).symm

/-! ### The steps of a block (46_driver.md R156, R165) -/

theorem stepMany_succ {s t : State} (h : step s = .next t) (k : Nat) :
    stepMany (k + 1) s = stepMany k t := by rw [stepMany, h]

theorem stepMany_add {j k : Nat} {s t : State} (h : stepMany j s = .next t) :
    stepMany (j + k) s = stepMany k t := by
  induction j generalizing s with
  | zero =>
    cases h
    rw [Nat.zero_add]
  | succ j ih =>
    rw [Nat.succ_add, stepMany]
    rw [stepMany] at h
    cases first : step s with
    | next u =>
      rw [first] at h
      exact ih h
    | fault | refused =>
      rw [first] at h
      cases h

theorem step_of_block {s : State} (undisturbed : s.undisturbed) (queue : s.issue = [])
    (block : s.blkRem ≠ 0) (ready : s.beatReady = true) :
    step s = .next ((beat s).withFeed (s.blkRem - 1) s.cmdIn) := by
  have taken : s.turnTaken = s := turnTaken_of_nil undisturbed
  have port : (beat s).withFeed (s.blkRem - 1) s.cmdIn = { beat s with blkRem := s.blkRem - 1 } := by
    rw [← beat_cmdIn s]
    rfl
  rw [step_beat (.inl undisturbed) queue block, taken, runBeat_ready ready, port]

/-- With samples for them, `k` beats of a block are `k` steps, which take no command. -/
theorem stepMany_beats {k : Nat} {s : State} (undisturbed : s.undisturbed) (queue : s.issue = [])
    (enough : k ≤ s.blkRem.toNat) (supplied : s.supplied k) :
    stepMany k s = .next ((beat^[k] s).withFeed (s.blkRem - BitVec.ofNat 16 k) s.cmdIn) := by
  induction k generalizing s with
  | zero => simp [stepMany, withFeed_self]
  | succ k ih =>
    have block : s.blkRem ≠ 0 := by
      rintro none
      simp [none] at enough
    have rest : s.blkRem - 1 - BitVec.ofNat 16 k = s.blkRem - BitVec.ofNat 16 (k + 1) := by
      rw [sub_sub, BitVec.ofNat_add, add_comm]
      rfl
    have run := ih (s := (beat s).withFeed (s.blkRem - 1) s.cmdIn) ((beat_turns s).trans undisturbed)
      ((beat_issue s).trans queue) ?fewer (supplied_beat supplied)
    · have first := step_of_block undisturbed queue block (beatReady_of_supplied supplied)
      rw [stepMany_succ first, run, beats_withFeed, withFeed_withFeed, Function.iterate_succ_apply]
      exact congrArg (fun n => Host.Outcome.next ((beat^[k] (beat s)).withFeed n s.cmdIn)) rest
    case fewer =>
      show k ≤ (s.blkRem - 1).toNat
      bv_omega

/-- A block whose samples wait runs to its end, and takes no command. -/
theorem stepMany_block {s : State} (undisturbed : s.undisturbed) (queue : s.issue = [])
    (supplied : s.supplied s.blkRem.toNat) :
    stepMany s.blkRem.toNat s = .next ((beat^[s.blkRem.toNat] s).withFeed 0 s.cmdIn) := by
  have counted : s.blkRem - BitVec.ofNat 16 s.blkRem.toNat = 0 := by simp
  rw [stepMany_beats undisturbed queue (Nat.le_refl _) supplied, counted]

/-- Settles O45: the beats of the block, each of which puts out one sample and takes one. -/
theorem blockRunsItsBeats : Obligations.BlockRunsItsBeats := by
  intro s undisturbed queue supplied
  refine ⟨_, stepMany_block undisturbed queue supplied, rfl, iterate_keeps beat_blkActive _ s, rfl,
    iterate_keeps beat_cfg _ s, fun c channel => ⟨beats_put _ s channel, ?main, ?side⟩⟩
  case main => exact (beats_waiting _ s channel .main).trans (if_pos (.inl rfl))
  case side => exact (beats_waiting _ s channel .side).trans (by simp)

/-! ### A bypassed block (46_driver.md R159, R164) -/

theorem beats_of_bypassed {s : State} (bypassed : s.blkActive = false) (k : Nat) :
    beat^[k] s = bypass^[k] s := by
  induction k generalizing s with
  | zero => rfl
  | succ k ih =>
    rw [Function.iterate_succ_apply, Function.iterate_succ_apply, beat_of_bypassed bypassed,
      ih (by simpa)]

theorem bypasses_copy {k : Nat} {s : State} {c : Chan} (channel : c.val < s.cfg.nch)
    (supplied : k ≤ (s.waiting .main c).length) :
    (bypass^[k] s).samplesOut[c] = s.samplesOut[c] ++ (s.waiting .main c).take k ∧
      (bypass^[k] s).waiting .main c = (s.waiting .main c).drop k := by
  induction k generalizing s with
  | zero => simp
  | succ k ih =>
    obtain ⟨v, vs, waiting⟩ := List.exists_cons_of_length_pos (by omega : 0 < (s.waiting .main c).length)
    have taken : (bypass s).waiting .main c = vs := by
      rw [bypass_waiting, if_pos ⟨rfl, channel⟩, waiting, List.tail_cons]
    have put : (bypass s).samplesOut[c] = s.samplesOut[c] ++ [v] := by
      rw [bypass_out, if_pos channel, nextSample_of_waiting waiting]
    rw [waiting, List.length_cons] at supplied
    obtain ⟨out, rest⟩ := ih (s := bypass s) (by simpa) (by rw [taken]; omega)
    rw [Function.iterate_succ_apply, out, rest, put, taken, waiting]
    simp

theorem bypasses_absent {s : State} {c : Chan} (absent : s.cfg.nch ≤ c.val) (k : Nat) :
    (bypass^[k] s).samplesOut[c] = s.samplesOut[c] ∧
      (bypass^[k] s).waiting .main c = s.waiting .main c := by
  induction k generalizing s with
  | zero => exact ⟨rfl, rfl⟩
  | succ k ih =>
    obtain ⟨out, waiting⟩ := ih (s := bypass s) (by simpa)
    rw [Function.iterate_succ_apply, out, waiting, bypass_out, bypass_waiting,
      if_neg (Nat.not_lt.2 absent), if_neg fun h => absurd h.2 (Nat.not_lt.2 absent)]
    exact ⟨rfl, rfl⟩

theorem bypasses_frame (k : Nat) (s : State) :
    ∃ ins outs, bypass^[k] s = { s with samplesIn := ins, samplesOut := outs } := by
  induction k generalizing s with
  | zero => exact ⟨s.samplesIn, s.samplesOut, rfl⟩
  | succ k ih =>
    obtain ⟨ins, outs, rest⟩ := ih (bypass s)
    refine ⟨ins, outs, ?_⟩
    rw [Function.iterate_succ_apply, rest, bypass_frame]

/-- Settles O46: the beats of the block, each of them a `DRV.BYPASS`. -/
theorem bypassedBlockCopiesTheMainStream : Obligations.BypassedBlockCopiesTheMainStream := by
  intro s undisturbed queue bypassed supplied
  have run := stepMany_block undisturbed queue supplied
  rw [beats_of_bypassed bypassed] at run
  refine ⟨_, run, fun c channel => bypasses_copy channel (supplied c channel).1,
    fun c absent => bypasses_absent absent _, fun c => ?side, ?frame⟩
  case side =>
    exact iterate_keeps (π := fun t => t.waiting .side c)
      (fun t => by rw [bypass_waiting, if_neg (by simp)]) s.blkRem.toNat s
  case frame =>
    obtain ⟨ins, outs, frame⟩ := bypasses_frame s.blkRem.toNat s
    rw [frame]
    rfl

/-! ### Silence before the first cycle (46_driver.md R158, 70_reset_and_hazards.md R201) -/

section

variable {s : State} (memory : s.mem.wf) (quiet : s.Quiet)
include memory quiet

theorem activeBeat_puts_zero {c : Chan} (channel : c.val < s.cfg.nch) :
    (activeBeat s).samplesOut[c] = s.samplesOut[c] ++ [0] := by
  rw [activeBeat_out memory, if_pos channel, quiet c channel]

/-- A beat that does not complete the frame adds nothing to the overlap-add memories. -/
theorem activeBeat_quiet (inStep : s.InStep) (nch : 0 < s.cfg.nch)
    (short : (s.ring .main 0).cnt + 1 < s.cfg.n) : (activeBeat s).Quiet := by
  intro c channel i
  rw [activeBeat_cfg] at channel
  refine activeBeat_ola_zero memory channel (fun complete => ?_) fun _ => quiet c channel i
  have := (inStep.completesFrames_iff nch).1 complete
  omega

end

theorem activeBeat_count {s : State} (inStep : s.InStep) (nch : 0 < s.cfg.nch)
    (short : (s.ring .main 0).cnt + 1 < s.cfg.n) :
    ((activeBeat s).ring .main 0).cnt = (s.ring .main 0).cnt + 1 := by
  simp only [inStep.activeBeat_ring nch .main 0 nch, if_neg (Nat.ne_of_lt short)]

/-- Active beats up to the one that completes the frame put out zeros: the cycle comes after the last
emission. -/
theorem beats_put_zeros {k : Nat} {s : State} (memory : s.mem.wf) (legal : s.cfg.legal = true)
    (inStep : s.InStep) (quiet : s.Quiet) (active : s.blkActive = true)
    (few : (s.ring .main 0).cnt + k ≤ s.cfg.n) {c : Chan} (channel : c.val < s.cfg.nch) :
    (beat^[k] s).samplesOut[c] = s.samplesOut[c] ++ List.replicate k 0 := by
  obtain ⟨-, -, nch, -⟩ := legal_bounds legal
  induction k generalizing s with
  | zero => simp
  | succ k ih =>
    have first := activeBeat_puts_zero memory quiet channel
    rw [Function.iterate_succ_apply, beat_of_active active]
    cases k with
    | zero =>
      rw [Function.iterate_zero_apply]
      exact first
    | succ k =>
      have short : (s.ring .main 0).cnt + 1 < s.cfg.n := by omega
      rw [ih (activeBeat_wf memory) (by rw [activeBeat_cfg]; exact legal) (inStep.activeBeat legal)
        (activeBeat_quiet memory quiet inStep nch short) ((activeBeat_blkActive s).trans active)
        (by rw [activeBeat_count inStep nch short, activeBeat_cfg]; omega)
        (by rw [activeBeat_cfg]; exact channel) (by rw [activeBeat_cfg]; exact nch),
        first, List.append_assoc]
      rfl

theorem after_quiet {i : Instr} (clears : clearsBuffers i = true) (s : State) : (after i s).Quiet := by
  cases i with
  | prepare | release => exact fun _ _ _ => zeroed_read _
  | _ => cases clears

theorem State.Fresh.memory {s : State} (h : s.Fresh) : s.mem.wf := by
  obtain ⟨-, memory, -⟩ := h
  exact memory

theorem State.Fresh.ring {s : State} (h : s.Fresh) (st : Stream) (c : Chan) :
    s.ring st c = { wr := 0, cnt := 0 } := by
  obtain ⟨cursors, -⟩ := h
  exact ring_of_cleared (congrArg Prod.fst cursors) st c

/-- Settles O47: `PREPARE` leaves zeros and an empty count, from which the beats of the block start. -/
theorem firstFrameOfBeatsIsSilent : Obligations.FirstFrameOfBeatsIsSilent := by
  intro s₀ s sr mb k prepared legal undisturbed queue few supplied
  obtain ⟨fresh, still⟩ : s.Fresh ∧ s.Quiet := by
    rw [exec_next prepared]
    exact ⟨after_fresh rfl s₀, after_quiet rfl s₀⟩
  have empty : (s.ring .main 0).cnt = 0 := by rw [fresh.ring]
  have inStep : ({ s with blkActive := true, blkRem := k } : State).InStep :=
    (fresh.inStep queue).congr rfl queue
  refine ⟨_, stepMany_block (s := { s with blkActive := true, blkRem := k }) undisturbed queue supplied,
    fun c channel => ?_⟩
  have few' : (s.ring .main 0).cnt + k.toNat ≤ s.cfg.n := by omega
  exact beats_put_zeros (s := { s with blkActive := true, blkRem := k }) fresh.memory legal inStep still
    rfl few' channel

/-! ### Silence over every step -/

theorem quiet_congr {s t : State} (h : s.Quiet) (buffers : t.buffers = s.buffers) : t.Quiet := by
  cases s
  cases t
  simp only [State.buffers, Prod.mk.injEq] at buffers
  obtain ⟨rfl, rfl, rfl, rfl, rfl, rfl⟩ := buffers
  exact h

theorem ring_congr {s t : State} (buffers : t.buffers = s.buffers) (st : Stream) (c : Chan) :
    t.ring st c = s.ring st c := by
  simp only [State.buffers, Prod.mk.injEq] at buffers
  obtain ⟨-, -, rings, -⟩ := buffers
  rw [State.ring, rings, State.ring]

/-- A step that is no active beat and runs nothing queued leaves the buffers, or is a command that
clears them. -/
theorem step_buffers {s t : State} (h : step s = .next t) (queue : s.issue = [])
    (other : ¬ s.activeBeatNext) :
    t.buffers = s.buffers ∨ ∃ i rest, decodeCommand s.cmdIn = .taken i rest ∧ clearsBuffers i = true ∧
      t = after i { s.turnTaken with cmdIn := rest } := by
  apply step_elim h
  case issued =>
    intro w ws i _ issued _
    rw [queue] at issued
    cases issued
  case beaten =>
    intro driver _ block _
    have bypassed : s.turnTaken.blkActive = false :=
      Bool.eq_false_iff.2 fun active => other ⟨driver, queue, block, active⟩
    rw [beat_of_bypassed bypassed]
    exact .inl (bypass_buffers s.turnTaken)
  case commanded =>
    intro i rest _ _ _ decoded
    cases clears : clearsBuffers i with
    | true => exact .inr ⟨i, rest, decoded, clears, rfl⟩
    | false => exact .inl (after_buffers (decodeCommand_isCommand decoded) clears _)
  all_goals intros; exact .inl rfl

/-- Settles O48: an active beat by its laws; every other step leaves the buffers or clears them. -/
theorem silenceUntilTheFirstCycle : Obligations.SilenceUntilTheFirstCycle := by
  intro s t sound inStep prepared quiet h
  obtain ⟨-, -, nch, -⟩ := legal_bounds sound.legal
  refine ⟨fun ⟨driver, queue, block, active⟩ => ?active, fun other => ?other⟩
  case active =>
    have taken : s.turnTaken.InStep := inStep.congr rfl queue
    have memory : s.turnTaken.mem.wf := sound.memory
    have still : s.turnTaken.Quiet := quiet_congr quiet rfl
    have zeros (c : Chan) := activeBeat_puts_zero memory still (c := c)
    have calm := activeBeat_quiet memory still taken nch
    have usable := (activeBeat_prepared s.turnTaken).trans prepared
    have count := activeBeat_count taken nch
    rw [step_beat driver queue block] at h
    obtain ⟨-, rfl⟩ := runBeat_next h
    rw [beat_of_active (s := s.turnTaken) active]
    generalize activeBeat s.turnTaken = u at *
    exact ⟨zeros, fun short => ⟨quiet_congr (calm short) rfl, usable, count short⟩⟩
  case other =>
    obtain kept | ⟨i, rest, decoded, clears, rfl⟩ := step_buffers h inStep.noQueue other
    · exact ⟨quiet_congr quiet kept, fun _ => .inl (by rw [ring_congr kept])⟩
    · refine ⟨after_quiet clears _, fun stays => .inr ?_⟩
      cases i with
      | prepare sr mb => exact ⟨sr, mb, rest, decoded, by rw [ring_of_cleared rfl]⟩
      | release => cases stays
      | _ => cases clears

/-! ### The cutting of a stream into blocks (46_driver.md R156) -/

theorem raiseIf_of_raised {cause : Bool} {e : Event} {s : State}
    (raised : cause = true → s.HasEvents e.mask) : State.raiseIf cause e s = s := by
  cases cause with
  | false => rfl
  | true =>
    have same : s.events ||| e.mask = s.events := raised rfl
    show { s with events := s.events ||| e.mask } = s
    rw [same]

theorem raiseIf_raises {cause : Bool} (h : cause = true) (e : Event) (s : State) :
    (State.raiseIf cause e s).HasEvents e.mask := by
  subst h
  show s.events ||| e.mask ||| e.mask = s.events ||| e.mask
  rw [BitVec.or_assoc, BitVec.or_self]

/-- What `PROCESS` sets beside the number of beats: the path of the block and the events. -/
def State.enter (sc : Bool) (k : BitVec 4) (s : State) : State := after (.process 0 sc k) s

theorem after_process (n : BitVec 16) (sc : Bool) (k : BitVec 4) (s : State) :
    after (.process n sc k) s = (s.enter sc k).withFeed n s.cmdIn := rfl

/-- The block context and the events are as `PROCESS` with these fields leaves them. -/
structure State.Entered (sc : Bool) (k : BitVec 4) (s : State) : Prop where
  path : s.blkActive = s.blockActive sc k
  degen : (!s.usable) = true → s.HasEvents Event.degen.mask
  mismatch : s.blockMismatch sc k = true → s.HasEvents Event.mismatch.mask

section

variable (sc : Bool) (k : BitVec 4) (s : State)

theorem enter_cfg : (s.enter sc k).cfg = s.cfg := after_cfg _ s

theorem enter_usable : (s.enter sc k).usable = s.usable := after_usable (i := .process 0 sc k) rfl s

theorem enter_turns : (s.enter sc k).turns = s.turns := by
  simp [State.enter, after]

theorem enter_issue : (s.enter sc k).issue = s.issue := by
  simp [State.enter, after]

end

section

variable {sc : Bool} {k : BitVec 4} {s : State}

theorem enter_entered : (s.enter sc k).Entered sc k := by
  constructor
  case path =>
    rw [State.blockActive, enter_usable, enter_cfg]
    rfl
  case degen =>
    rw [enter_usable]
    intro unusable
    have first : (State.raiseIf (!s.usable) .degen s).HasEvents Event.degen.mask :=
      raiseIf_raises unusable .degen s
    exact hasEvents_congr (raiseIf_hasEvents (s.blockMismatch sc k) .mismatch first) rfl
  case mismatch =>
    rw [State.blockMismatch, enter_usable, enter_cfg]
    exact fun other =>
      hasEvents_congr (raiseIf_raises other .mismatch (State.raiseIf (!s.usable) .degen s)) rfl

theorem State.Entered.beat (h : s.Entered sc k) : (beat s).Entered sc k := by
  have usable : (Machine.beat s).usable = s.usable := after_usable (i := .drvBeat) rfl s
  constructor
  case path => rw [beat_blkActive, h.path, State.blockActive, State.blockActive, usable, beat_cfg]
  case degen =>
    rw [usable]
    exact fun unusable => beat_hasEvents (h.degen unusable)
  case mismatch =>
    rw [State.blockMismatch, usable, beat_cfg]
    exact fun other => beat_hasEvents (h.mismatch other)

theorem State.Entered.beats (h : s.Entered sc k) (j : Nat) : (Machine.beat^[j] s).Entered sc k := by
  induction j generalizing s with
  | zero => exact h
  | succ j ih => exact ih h.beat

theorem State.Entered.withFeed (h : s.Entered sc k) (n : BitVec 16) (ws : List Word) :
    (s.withFeed n ws).Entered sc k := ⟨h.path, h.degen, h.mismatch⟩

/-- `PROCESS` with the fields of the block before it finds everything set. -/
theorem State.Entered.enter_eq (h : s.Entered sc k) : s.enter sc k = s.withFeed 0 s.cmdIn := by
  show { State.raiseIf (s.blockMismatch sc k) .mismatch (State.raiseIf (!s.usable) .degen s) with
    blkActive := s.blockActive sc k, blkRem := 0 } = _
  rw [raiseIf_of_raised h.degen, raiseIf_of_raised h.mismatch, ← h.path]
  rfl

end

/-- A `PROCESS` command and its block, from a core between two blocks. -/
theorem stepMany_process {s : State} {n : BitVec 16} {sc : Bool} {k : BitVec 4} (rest : List Word)
    (undisturbed : s.undisturbed) (queue : s.issue = []) (block : s.blkRem = 0)
    (supplied : (s.enter sc k).supplied n.toNat) :
    stepMany (n.toNat + 1) { s with cmdIn := encode (.process n sc k) ++ rest } =
      .next ((beat^[n.toNat] (s.enter sc k)).withFeed 0 rest) := by
  have command : step { s with cmdIn := encode (.process n sc k) ++ rest } =
      .next ((s.enter sc k).withFeed n rest) := by
    have port := decodeCommand_encode (.process n sc k) rfl rest
    rw [step_taken (s := { s with cmdIn := encode (.process n sc k) ++ rest }) (.inl undisturbed) queue
      block port, exec_process, turnTaken_of_nil (by exact undisturbed), after_process]
    rfl
  have run := stepMany_block (s := (s.enter sc k).withFeed n rest) ((enter_turns sc k s).trans undisturbed)
    ((enter_issue sc k s).trans queue) supplied
  rw [beats_withFeed, withFeed_withFeed] at run
  exact (stepMany_succ command _).trans run

/-- A `PROCESS` command with the fields of the block before it, and its block. -/
theorem stepMany_process_again {s : State} {n : BitVec 16} {sc : Bool} {k : BitVec 4} (rest : List Word)
    (undisturbed : s.undisturbed) (queue : s.issue = []) (entered : s.Entered sc k)
    (supplied : s.supplied n.toNat) :
    stepMany (n.toNat + 1) (s.withFeed 0 (encode (.process n sc k) ++ rest)) =
      .next ((beat^[n.toNat] s).withFeed 0 rest) := by
  have context : (s.withFeed 0 []).enter sc k = s.withFeed 0 [] := (entered.withFeed 0 []).enter_eq
  have run := stepMany_process (s := s.withFeed 0 []) (n := n) (sc := sc) (k := k) rest undisturbed queue
    rfl (by rw [context]; exact supplied)
  rwa [context, beats_withFeed, withFeed_withFeed] at run

/-- Settles O49: the second `PROCESS` finds the context of the first, so its beats go on where those of
the first block ended, as in one block of all the beats. -/
theorem blockBoundariesDoNotMatter : Obligations.BlockBoundariesDoNotMatter := by
  intro s a b sc k rest undisturbed queue block fits supplied
  have total : (a + b).toNat = b.toNat + a.toNat := by
    rw [BitVec.toNat_add, Nat.mod_eq_of_lt fits, Nat.add_comm]
  have enough : (s.enter sc k).supplied (a.toNat + b.toNat) := fun c channel =>
    have ⟨main, side⟩ := supplied c channel
    ⟨main, fun _ => side rfl⟩
  have first := stepMany_process (encode (.process b sc k) ++ rest) undisturbed queue block
    (supplied_mono enough (Nat.le_add_right ..))
  have second := stepMany_process_again (s := beat^[a.toNat] (s.enter sc k)) rest
    ((iterate_keeps beat_turns _ _).trans undisturbed) ((iterate_keeps beat_issue _ _).trans queue)
    (enter_entered.beats _) (supplied_beats enough)
  have whole := stepMany_process (n := a + b) rest undisturbed queue block
    (by rwa [total, Nat.add_comm])
  have steps : a.toNat + b.toNat + 2 = (a.toNat + 1) + (b.toNat + 1) := by omega
  rw [total, Function.iterate_add_apply, Nat.add_comm b.toNat] at whole
  refine ⟨_, ?_, whole⟩
  rw [steps, List.append_assoc, stepMany_add first, second]

end Sys2Proof.Machine
end

section
/-! What 60_exceptions.md R175 says of every instruction: nothing traps, so an instruction completes or
meets one of the model's two stops (logs 14 and 20), and no step reads `EVENTS` but a read of that
register. -/

-- No thread of its own for each proof, as in the first section of the proofs.
set_option deprecated.oldSectionVars true

namespace Sys2Proof.Machine

/-! ### Completion (60_exceptions.md R175) -/

/-- Whether the samples that an instruction takes wait on the ports (20_memory.md R45). -/
def State.findsSamples (s : State) : Instr → Bool
  | .accWrite st c => s.hasSample st c
  | .drvBypass => s.mainReady
  | .drvBeat => s.beatReady
  | _ => true

theorem onChannel_eq (c : Chan) (s t : State) :
    onChannel c s t = if decide (c.val < s.cfg.nch) then .next t else .fault .noSuchChannel := by
  simp only [onChannel, decide_eq_true_eq]

theorem execAccWrite_eq (st : Stream) (c : Chan) (s : State) :
    execAccWrite st c s =
      if decide (c.val < s.cfg.nch) then
        if s.hasSample st c then .next (accWrite st c s) else .fault .samplePortStuck
      else .fault .noSuchChannel := by
  by_cases channel : c.val < s.cfg.nch
  · rw [execAccWrite, if_neg (Nat.not_le.2 channel), if_pos (decide_eq_true channel)]
  · rw [execAccWrite, if_pos (Nat.not_lt.1 channel), if_neg (by simpa using channel)]

/-- The whole of what an instruction can answer: a channel the machine does not have stops it, then a
missing sample, and nothing else does. -/
theorem exec_eq (i : Instr) (s : State) :
    exec i s =
      if i.wellFormed s.cfg.nch then
        if s.findsSamples i then .next (after i s) else .fault .samplePortStuck
      else .fault .noSuchChannel := by
  cases i with
  | accWrite st c => exact execAccWrite_eq st c s
  | accFrame | anWindow | anRfft | anPolar | analyze | bxMixp | bxMixf | exchange | syRect | sySymm
  | syIrfft | syNormwin | syOla | synthesize => exact onChannel_eq _ s _
  | _ => rfl

/-- Settles O60: each clause is one branch of what an instruction can answer. -/
theorem onlyMissingSamplesAndChannelsStop : Obligations.OnlyMissingSamplesAndChannelsStop := by
  intro i s
  refine ⟨?absent, ?completes, ?write, ?bypass, ?beat⟩
  case absent =>
    intro absent
    rw [exec_eq, absent]
    rfl
  case completes =>
    intro wellFormed write bypass beat
    have found : s.findsSamples i = true := by
      cases i with
      | accWrite st c => exact write st c rfl
      | drvBypass => exact bypass rfl
      | drvBeat => exact beat rfl
      | _ => rfl
    exact ⟨after i s, by rw [exec_eq, if_pos wellFormed, if_pos found]⟩
  case write =>
    rintro st c rfl channel missing
    have wellFormed : (Instr.accWrite st c).wellFormed s.cfg.nch = true := decide_eq_true channel
    rw [exec_eq, if_pos wellFormed]
    exact if_neg (Bool.eq_false_iff.1 missing)
  case bypass =>
    rintro rfl missing
    exact if_neg (Bool.eq_false_iff.1 missing)
  case beat =>
    rintro rfl missing
    exact if_neg (Bool.eq_false_iff.1 missing)

/-! ### Operations that do not read `EVENTS` (60_exceptions.md R175) -/

/-- The state with another value in `EVENTS`. -/
def State.withEvents (e : BitVec 5) (s : State) : State := { s with events := e }

/-- Whatever `EVENTS` held, the operation leaves the same state but for what `EVENTS` holds. -/
def IgnoresEvents (f : State → State) : Prop :=
  ∀ s e, ∃ e', f (s.withEvents e) = (f s).withEvents e'

/-- An operation that commutes with a change of `EVENTS`. -/
theorem IgnoresEvents.of_commute {f : State → State}
    (h : ∀ s e, f (s.withEvents e) = (f s).withEvents e) : IgnoresEvents f := fun s e => ⟨e, h s e⟩

theorem IgnoresEvents.comp {f g : State → State} (hg : IgnoresEvents g) (hf : IgnoresEvents f) :
    IgnoresEvents (g ∘ f) := by
  intro s e
  obtain ⟨e', first⟩ := hf s e
  obtain ⟨e'', second⟩ := hg (f s) e'
  exact ⟨e'', by rw [Function.comp_apply, first, second, Function.comp_apply]⟩

theorem IgnoresEvents.foldl {α : Type} {f : State → α → State} (h : ∀ a, IgnoresEvents (f · a))
    (xs : List α) : IgnoresEvents (xs.foldl f) := by
  induction xs with
  | nil => exact fun s e => ⟨e, rfl⟩
  | cons x xs ih => exact ih.comp (h x)

theorem IgnoresEvents.forChannels {f : Chan → State → State} (h : ∀ c, IgnoresEvents (f c)) :
    IgnoresEvents (forChannels f) := fun s => IgnoresEvents.foldl h s.cfg.channels s

theorem IgnoresEvents.ite {p : State → Prop} [DecidablePred p] {f g : State → State}
    (same : ∀ s e, p (s.withEvents e) ↔ p s) (hf : IgnoresEvents f) (hg : IgnoresEvents g) :
    IgnoresEvents fun s => if p s then f s else g s := by
  intro s e
  by_cases holds : p s
  · simpa only [if_pos holds, if_pos ((same s e).2 holds)] using hf s e
  · simpa only [if_neg holds, if_neg (mt (same s e).1 holds)] using hg s e

theorem bxBin_ignoresEvents (b : Band) : IgnoresEvents (bxBin b) := by
  cases b <;> exact .of_commute fun _ _ => rfl

theorem bxHalfw_ignoresEvents (b : Band) : IgnoresEvents (bxHalfw b) := by
  cases b <;> exact fun _ _ => ⟨_, rfl⟩

theorem bxInterval_ignoresEvents (b : Band) : IgnoresEvents (bxInterval b) := by
  cases b <;> exact fun _ _ => ⟨_, rfl⟩

theorem takeSnapshot_ignoresEvents : IgnoresEvents takeSnapshot := fun _ _ => ⟨_, rfl⟩

theorem snapAll_ignoresEvents : IgnoresEvents snapAll := by
  have derive (b : Band) : IgnoresEvents (deriveBand b) :=
    (bxInterval_ignoresEvents b).comp ((bxHalfw_ignoresEvents b).comp (bxBin_ignoresEvents b))
  exact (derive .two).comp ((derive .one).comp takeSnapshot_ignoresEvents)

theorem bxMixp_ignoresEvents (b : Band) : IgnoresEvents (bxMixp b) := by
  cases b <;> exact .of_commute fun _ _ => rfl

theorem mixSelected_ignoresEvents : IgnoresEvents mixSelected :=
  .ite (p := fun s => s.snap.xmode = 0) (fun _ _ => Iff.rfl)
    ((bxMixp_ignoresEvents .two).comp (bxMixp_ignoresEvents .one))
    (.of_commute fun _ _ => rfl)

theorem exchange_ignoresEvents (c : Chan) : IgnoresEvents (exchange c) := by
  have load : IgnoresEvents fun s => loadCopies c (joinMarks c s) := .of_commute fun _ _ => rfl
  have store : IgnoresEvents (storeMix c) := .of_commute fun _ _ => rfl
  exact store.comp (mixSelected_ignoresEvents.comp load)

theorem accConsume_ignoresEvents : IgnoresEvents accConsume :=
  have consume (st : Stream) : IgnoresEvents (forChannels (consumeRing st)) :=
    .forChannels fun _ => .of_commute fun _ _ => rfl
  (consume .side).comp (consume .main)

theorem olaAddAt_ignoresEvents (c : Chan) (k : Nat) : IgnoresEvents (olaAddAt c · k) :=
  .of_commute fun s e => by
    simp only [olaAddAt, State.markOla]
    rw [apply_ite (State.withEvents e), apply_ite (State.withEvents e)]
    rfl

theorem syOla_ignoresEvents (c : Chan) : IgnoresEvents (syOla c) := fun s =>
  IgnoresEvents.foldl (olaAddAt_ignoresEvents c) (List.range s.cfg.n) s

theorem synthesize_ignoresEvents (c : Chan) : IgnoresEvents (synthesize c) := by
  have frame : IgnoresEvents fun s => syNormwin c (syIrfft (sySymm (syRect c s))) :=
    .of_commute fun _ _ => rfl
  exact (syOla_ignoresEvents c).comp frame

theorem cycleChannel_ignoresEvents (c : Chan) : IgnoresEvents (cycleChannel c) := by
  have spectra : IgnoresEvents fun s => analyze .side c (analyze .main c s) :=
    .of_commute fun _ _ => rfl
  exact (synthesize_ignoresEvents c).comp ((exchange_ignoresEvents c).comp spectra)

theorem cycle_ignoresEvents : IgnoresEvents cycle := by
  have enter : IgnoresEvents fun s => { s with drv := .cycle } := .of_commute fun _ _ => rfl
  have advance : IgnoresEvents syAdv := .of_commute fun _ _ => rfl
  have leave : IgnoresEvents fun s => { s with drv := .accumulating } := .of_commute fun _ _ => rfl
  exact leave.comp <| accConsume_ignoresEvents.comp <| advance.comp <|
    (IgnoresEvents.forChannels cycleChannel_ignoresEvents).comp <| snapAll_ignoresEvents.comp enter

theorem emit_ignoresEvents : IgnoresEvents emit := by
  have channels : IgnoresEvents (forChannels emitChannel) :=
    .forChannels fun _ => .of_commute fun _ _ => rfl
  have advance : IgnoresEvents fun t => { t with olaRd := (t.olaRd + 1) % t.cfg.len } :=
    .of_commute fun _ _ => rfl
  exact advance.comp channels

theorem bypass_ignoresEvents : IgnoresEvents bypass :=
  .forChannels fun _ => .of_commute fun _ _ => rfl

theorem activeBeat_ignoresEvents : IgnoresEvents activeBeat := by
  have take (st : Stream) : IgnoresEvents (forChannels (accWrite st)) :=
    .forChannels fun _ => .of_commute fun _ _ => rfl
  have test : IgnoresEvents fun s => accReady (leaveIdle s) := .of_commute fun _ _ => rfl
  have cycleIfReady : IgnoresEvents cycleIfReady :=
    .ite (p := fun s => s.scratch.ready = true) (fun _ _ => Iff.rfl) cycle_ignoresEvents
      (.of_commute fun _ _ => rfl)
  exact cycleIfReady.comp <| test.comp <| (take .side).comp <| (take .main).comp emit_ignoresEvents

theorem beat_ignoresEvents : IgnoresEvents beat :=
  .ite (p := fun s => s.blkActive = true) (fun _ _ => Iff.rfl) activeBeat_ignoresEvents
    bypass_ignoresEvents

/-- No instruction reads `EVENTS`. -/
theorem after_ignoresEvents (i : Instr) : IgnoresEvents (after i) := by
  cases i with
  | process => exact fun _ _ => ⟨_, rfl⟩
  | accConsume => exact accConsume_ignoresEvents
  | snap => exact snapAll_ignoresEvents
  | bxBin b => exact bxBin_ignoresEvents b
  | bxHalfw b => exact bxHalfw_ignoresEvents b
  | bxInterval b => exact bxInterval_ignoresEvents b
  | bxMixp b c => exact bxMixp_ignoresEvents b
  | exchange c => exact exchange_ignoresEvents c
  | syOla c => exact syOla_ignoresEvents c
  | synthesize c => exact synthesize_ignoresEvents c
  | drvEmit => exact emit_ignoresEvents
  | drvBypass => exact bypass_ignoresEvents
  | drvCycle => exact cycle_ignoresEvents
  | drvBeat => exact beat_ignoresEvents
  | _ => exact .of_commute fun _ _ => rfl

/-! ### Steps of machines that differ in `EVENTS` only -/

/-- The second outcome is the first but for what `EVENTS` holds. -/
def AgreeButEvents (o o' : Host.Outcome State Fault Refusal) : Prop :=
  match o with
  | .next t => ∃ e, o' = .next (t.withEvents e)
  | .fault r => o' = .fault r
  | .refused r => o' = .refused r

theorem findsSamples_withEvents (e : BitVec 5) (i : Instr) (s : State) :
    (s.withEvents e).findsSamples i = s.findsSamples i := by
  cases i <;> rfl

section

variable (e : BitVec 5) (s : State)

theorem exec_agree (i : Instr) : AgreeButEvents (exec i s) (exec i (s.withEvents e)) := by
  have cfg : (s.withEvents e).cfg = s.cfg := rfl
  rw [exec_eq, exec_eq, cfg, findsSamples_withEvents]
  split_ifs
  · obtain ⟨e', left⟩ := after_ignoresEvents i s e
    exact ⟨e', congrArg _ left⟩
  all_goals rfl

theorem runMicro_agree (w : Word) : AgreeButEvents (runMicro w s) (runMicro w (s.withEvents e)) := by
  unfold runMicro
  split
  · exact exec_agree e s _
  · rfl

theorem countBeat_agree {o o' : Host.Outcome State Fault Refusal} (h : AgreeButEvents o o') :
    AgreeButEvents (countBeat o) (countBeat o') := by
  cases o with
  | next t =>
    obtain ⟨e', rfl⟩ := h
    exact ⟨e', rfl⟩
  | fault r | refused r =>
    cases h
    rfl

theorem runCommand_agree : AgreeButEvents (runCommand s) (runCommand (s.withEvents e)) := by
  have port : (s.withEvents e).cmdIn = s.cmdIn := rfl
  rw [runCommand, runCommand, port]
  cases decodeCommand s.cmdIn with
  | awaiting => exact ⟨e, rfl⟩
  | illegal why rest => exact ⟨_, rfl⟩
  | taken i rest => exact exec_agree e { s with cmdIn := rest } i

theorem driverTurn_agree : AgreeButEvents (driverTurn s) (driverTurn (s.withEvents e)) := by
  have queue : (s.withEvents e).issue = s.issue := rfl
  have block : (s.withEvents e).blkRem = s.blkRem := rfl
  rw [driverTurn, driverTurn, queue, block]
  cases s.issue with
  | cons w ws => exact runMicro_agree e { s with issue := ws } w
  | nil =>
    dsimp only
    split
    · exact runCommand_agree e s
    · exact countBeat_agree (exec_agree e s .drvBeat)

theorem regRead_withEvents {addr : BitVec 32} (other : addr ≠ 0x02) :
    regRead (s.withEvents e) addr = regRead s addr := by
  simp only [regRead, if_neg other]
  rfl

theorem answerRead_withEvents {addr : BitVec 32} (other : addr ≠ 0x02) :
    answerRead addr (s.withEvents e) = (answerRead addr s).withEvents e := by
  rw [answerRead, regRead_withEvents e s other]
  rfl

end

/-- Settles O55: whoever moves next, no part of the step but a read of `EVENTS` looks at it. -/
theorem eventsInfluenceNothing : Obligations.EventsInfluenceNothing := by
  intro s e noRead
  show AgreeButEvents (step s) (step (s.withEvents e))
  have turns : (s.withEvents e).turns = s.turns := rfl
  rw [step, step, takeTurn, takeTurn, turns]
  match ht : s.turns with
  | [] => exact driverTurn_agree e s
  | .driver :: ts => exact driverTurn_agree e { s with turns := ts }
  | .regRead addr :: ts =>
    have other : addr ≠ 0x02 := by
      rintro rfl
      exact noRead (by rw [ht]; rfl)
    exact ⟨e, congrArg _ (answerRead_withEvents e { s with turns := ts } other)⟩
  | .regWrite addr v :: ts => exact ⟨_, rfl⟩

end Sys2Proof.Machine
end
